-- ==== Sys2Proof/Word.lean ====
section
/-! DEFINITION. The byte, and the plain data that command operands are made of: line levels and what a write left in
the nonvolatile array. -/

namespace Sys2Proof

/-- A byte of a frame or of the nonvolatile array. -/
abbrev Byte := BitVec 8

/-- The level of a line; a line is asserted while held low (R187). The code order is that of R184. -/
inductive Line where
  | deasserted
  | asserted
deriving DecidableEq, Repr

/-- What an ending store operation left in its target: the array's own doing, so an operand of the event (log 9).
* `whole`: the write reached every byte it was asked for.
* `left cells`: at each listed (offset in the target, value) the byte reads that value. An offset not listed is, for a
  program, not reached (as before), and, for an erase, erased.
What a byte can become is narrowed by R117 (`landByte`, `eraseByte`). -/
inductive ArrayEnd where
  | whole
  | left (cells : List (Nat × Byte))
deriving DecidableEq, Repr

end Sys2Proof
end

