-- ==== Sys2Proof/Machine/Limits.lean ====
section
/-! DEFINITION. The capacities and ranges the manual states, each with its rule. -/

namespace Sys2Proof.Machine.Limits

/-- 00 section 5.2: the largest base, tip, due, prior paid or floor limit. -/
def amountMax : Nat := 9999999
/-- 00 section 5.2: the largest cumulative cap. -/
def capMax : Nat := 99999999
/-- 00 section 5.5: the largest issuer prefix. -/
def prefixMax : Nat := 99999999
/-- 00 section 5.3: the largest seconds of day. -/
def secondsMax : Nat := 86399
/-- 00 section 5.3: seconds in a day. -/
def daySeconds : Nat := 86400
/-- R147: ticks in a day. -/
def dayTicks : Nat := 8640000
/-- 00 section 5.7: the largest place. -/
def placeMax : Nat := 999
/-- 00 section 5.8: counters saturate here; also the largest sequence and epoch (00 section 5.4). -/
def word16Max : Nat := 65535
/-- R15: bill entries. -/
def bills : Nat := 32
/-- R17: tenders of a bill. -/
def tenders : Nat := 12
/-- R18: shares of a plan. -/
def shares : Nat := 12
/-- R24: known-list entries of a BILL PUSH. -/
def known : Nat := 12
/-- R53: late-list entries. -/
def late : Nat := 8
/-- R47 step 4: tally entries that admit a new one below this number. -/
def tallyRoom : Nat := 96
/-- R47 step 5: repeat entries that admit a new one below this number. -/
def repeatRoom : Nat := 64
/-- R73: journal blocks. -/
def journalBlocks : Nat := 4
/-- R73: record slots of a block. -/
def blockSlots : Nat := 128
/-- R73: bytes of a record slot. -/
def recordBytes : Nat := 32
/-- R121: words of the epoch block. -/
def epochWords : Nat := 64
/-- R1: rows of a VALID IRT. -/
def irtRows : Nat := 192
/-- R115: row places of the IRT block (20 pages of 10). -/
def irtRowPlaces : Nat := 200
/-- R115: rows of an IRT page. -/
def pageRows : Nat := 10
/-- R186: bytes of an IRT row. -/
def rowBytes : Nat := 24
/-- R186: bytes of the Profile record. -/
def profileBytes : Nat := 21
/-- R157: places of the MGMT_REPLY queue. -/
def mgmtReplies : Nat := 4
/-- R157: places of the DATA queue. -/
def dataFrames : Nat := 8
/-- R166: waiting verify replies. -/
def waitingVerify : Nat := 4
/-- R163: frames of the delivery queue. -/
def delivery : Nat := 8
/-- R164: pending replies. -/
def pendingReplies : Nat := 16
/-- R174: numbers of a LATE_DECLINE detail. -/
def lateDeclines : Nat := 8
/-- R174: bills of a BILL_CHANGE detail. -/
def billChanges : Nat := 32
/-- R172: faults since latched saturate here. -/
def faultsSince : Nat := 255
/-- R31, R71: entries a reply carries at most. -/
def replyEntries : Nat := 8

end Sys2Proof.Machine.Limits
end

