-- ==== Sys2Proof/Syntax.lean ====
section
/-! DEFINITION. The commands: one constructor per row of spec/opcode_table.json. A frame's operands are its fields at
the widths of R184 to R186 (log 19). `addr` is the address field of a radio frame (R182), `tag` the tag that a reply
echoes. -/

namespace Sys2Proof

/-- A command, that is one whole step or event of the part. -/
inductive Instr where
  /-- AUTHORIZE (R43) -/
  | authorize (tag : BitVec 16) (bill : BitVec 16) (share : BitVec 8) (pfx token base tip : BitVec 32)
  /-- READ RESULT (R56) -/
  | readResult (tag : BitVec 16) (slot : BitVec 8)
  /-- SPLIT (R29) -/
  | split (tag : BitVec 16) (bill : BitVec 16) (n : BitVec 8)
  /-- QUERY BILL (R31); `first` is read for TENDERS only -/
  | queryBill (tag : BitVec 16) (bill : BitVec 16) (sel : BitVec 8) (first : BitVec 16)
  /-- LIST BILLS (R32) -/
  | listBills (tag : BitVec 16)
  /-- VOID (R33) -/
  | void (tag : BitVec 16) (bill : BitVec 16) (txn : BitVec 32)
  /-- READ RANGE (R11) -/
  | readRange (tag : BitVec 16) (sel : BitVec 8) (value : BitVec 32)
  /-- READ EXPOSURE (R71) -/
  | readExposure (tag : BitVec 16) (sel : BitVec 8) (first : BitVec 16)
  /-- NEXT EVENT (R176) -/
  | nextEvent (tag : BitVec 16)
  /-- SET MASKS (R175) -/
  | setMasks (tag : BitVec 16) (run wake : BitVec 16)
  /-- SLEEP (R170) -/
  | sleep (tag : BitVec 16)
  /-- PORT RESET (R178) -/
  | portReset (tag : BitVec 16)
  /-- STATUS (R179); `loadlock` is the level it finds on the LOADLOCK line (log 10) -/
  | status (tag : BitVec 16) (loadlock : Line)
  /-- A good REQUEST frame in raw form: an unknown request code, or a payload of the wrong length (R169) -/
  | unknownRequest (tag : BitVec 16) (payload : List Byte)
  /-- A DATA frame from the host (R162) -/
  | hostData (tag : BitVec 16) (payload : List Byte)
  /-- Bytes on the host port that end a bad frame (R169, R181) -/
  | hostFrameBad (wire : List Byte)
  /-- The closing flag of the frame being sent leaves the host port (R168) -/
  | hostFrameSent
  /-- The free host transmitter begins a frame (R164) -/
  | hostTransmitBegin
  /-- ASSIGN (R150) -/
  | assign (addr : BitVec 8) (tag : BitVec 16) (identity : BitVec 48) (newAddr replySlot : BitVec 8)
  /-- RELEASE (R151) -/
  | release (addr : BitVec 8) (tag : BitVec 16)
  /-- LINK RESET (R152) -/
  | linkReset (addr : BitVec 8) (tag : BitVec 16)
  /-- QUERY STATUS (R153) -/
  | queryStatus (addr : BitVec 8) (tag : BitVec 16)
  /-- BILL PUSH (R25) -/
  | billPush (addr : BitVec 8) (tag : BitVec 16) (bill place : BitVec 16) (due prior : BitVec 32)
      (opened : BitVec 24) (known : List (BitVec 32))
  /-- BILL AMEND (R27) -/
  | billAmend (addr : BitVec 8) (tag : BitVec 16) (bill : BitVec 16) (due : BitVec 32)
  /-- BILL DROP (R28) -/
  | billDrop (addr : BitVec 8) (tag : BitVec 16) (bill : BitVec 16)
  /-- LOAD OPEN (R130); `loadlock` is the level it finds on the LOADLOCK line (log 10) -/
  | loadOpen (addr : BitVec 8) (tag : BitVec 16) (table : BitVec 8) (generation rows : BitVec 16) (loadlock : Line)
  /-- LOAD ROW (R132) -/
  | loadRow (addr : BitVec 8) (tag : BitVec 16) (table : BitVec 8) (index : BitVec 16) (row : List Byte)
  /-- LOAD CLOSE (R134) -/
  | loadClose (addr : BitVec 8) (tag : BitVec 16) (table : BitVec 8) (rows check : BitVec 16) (readable : BitVec 8)
  /-- LOAD VERIFY (R138) -/
  | loadVerify (addr : BitVec 8) (tag : BitVec 16) (table : BitVec 8)
  /-- DUMP ROW (R140) -/
  | dumpRow (addr : BitVec 8) (tag : BitVec 16) (table : BitVec 8) (index : BitVec 16)
  /-- A MGMT frame in raw form: an unrecognized command code (R184), or a payload of the wrong length (R183) -/
  | unknownCommand (addr : BitVec 8) (tag : BitVec 16) (payload : List Byte)
  /-- The command held in the gate is taken (R166); `loadlock` as for LOAD OPEN -/
  | heldCommandTaken (loadlock : Line)
  /-- A waiting LOAD VERIFY reply takes a freed place (R166) -/
  | verifyReplyPlaced
  /-- BEACON (R145) -/
  | beacon (addr : BitVec 8) (cell : BitVec 16) (seconds : BitVec 24)
  /-- AUTH REPLY (R51) -/
  | authReply (addr : BitVec 8) (txn : BitVec 32) (disposition reason : BitVec 8)
  /-- UPLOAD CONFIRM (R105) -/
  | uploadConfirm (addr : BitVec 8) (txn : BitVec 32) (disposition : BitVec 8)
  /-- A DATA frame from the gateway (R163) -/
  | gatewayData (addr : BitVec 8) (tag : BitVec 16) (payload : List Byte)
  /-- Bytes on the radio port that end a bad frame (R183, R181) -/
  | radioFrameBad (wire : List Byte)
  /-- The free radio transmitter is granted (R158) -/
  | grant
  /-- The closing flag of the granted frame leaves the radio port (R158) -/
  | transmissionComplete
  /-- Expiry of REPLY 0 to REPLY 3 (R52) -/
  | replyTimerExpiry (slot : Fin 4)
  /-- Expiry of BEACON WATCH (R146) -/
  | beaconWatchExpiry
  /-- Expiry of UPLOAD (R102 to R104) -/
  | uploadTimerExpiry
  /-- Expiry of SLOT (R139) -/
  | slotTimerExpiry
  /-- Expiry of PRESENCE (R149) -/
  | presenceTimerExpiry
  /-- A 10 ms tick boundary (R154) -/
  | tick
  /-- The idle Store Engine starts an operation (R119) -/
  | storeOperationStart
  /-- End of a RECORD PROGRAM (R81, R82) -/
  | recordProgramComplete (result : ArrayEnd)
  /-- End of a MARK (R88) -/
  | markComplete (result : ArrayEnd)
  /-- End of an EPOCH PROGRAM (R122) -/
  | epochProgramComplete (result : ArrayEnd)
  /-- End of a PAGE PROGRAM (R133) -/
  | pageProgramComplete (result : ArrayEnd)
  /-- End of a BLOCK ERASE (R91, R122, R131) -/
  | blockEraseComplete (result : ArrayEnd)
  /-- The running operation is stopped at its time limit (R118) -/
  | operationTimeLimit (result : ArrayEnd)
  /-- PWRWARN takes a level (R120) -/
  | pwrwarnChange (level : Line)
  /-- Supply is applied (R96); `result` is what an operation it cut short left (R124) -/
  | powerOn (result : ArrayEnd)
  /-- RESETN is asserted (R124) -/
  | resetnAssert (result : ArrayEnd)
  /-- RESETN is released (R96) -/
  | resetnRelease
  /-- Supply is lost (R124) -/
  | lossOfPower (result : ArrayEnd)
deriving DecidableEq, Repr

end Sys2Proof
end

