-- ==== Sys2Proof/Machine/Types.lean ====
section
/-! DEFINITION. The data the blocks hold. Enumerations list their values in the code order of R184. Numbers that the
manual counts, adds or compares are Nat; opaque bit patterns (tags, card tokens, identities, check values, masks) are
bit vectors. -/

namespace Sys2Proof.Machine

/-! ### Enumerations -/

/-- R3, R137. -/
inductive TableState where | empty | loading | valid | invalid
deriving DecidableEq, Repr

/-- The two loaded tables (R128). -/
inductive TableName where | irt | profile
deriving DecidableEq, Repr

/-- The verification conditions of R6, R135 and R137 with NONE. -/
inductive Condition where
  | none | count | check | field | interval | floorOverCap | order | overlap | duplicateId | readback | sequence
  | storeFault
deriving DecidableEq, Repr

/-- R128: whether and why a load session is broken. -/
inductive Broken where | no | sequence | storeFault
deriving DecidableEq, Repr

/-- R143. -/
inductive LinkState where | search | up | down
deriving DecidableEq, Repr

/-- R1: how a range's cards are authorized. -/
inductive Mode where | onlineOnly | onlinePreferred | offlineFirst
deriving DecidableEq, Repr

/-- R40: the states of a slot that is not FREE. -/
inductive SlotState where | awaitingReply | storing | done
deriving DecidableEq, Repr

/-- R40: the result, NONE before DONE. -/
inductive Result where | none | approvedOffline | approvedOnline | declinedIssuer | declined
deriving DecidableEq, Repr

/-- R40: why a DECLINED result was given. -/
inductive DeclineReason where
  | none | tipOverCap | unlisted | onlineOnly | noStandIn | floorLimit | cumulativeCap | cardRepeat | tallyFull
  | repeatFull | journalFull | noReply | storeFault | linkReset
deriving DecidableEq, Repr

/-- R17, R39. -/
inductive Path where | online | offline
deriving DecidableEq, Repr

/-- R20. -/
inductive BillState where | opened | settled
deriving DecidableEq, Repr

/-- R18. -/
inductive ShareState where | opened | reserved | paid
deriving DecidableEq, Repr

/-- R17. -/
inductive TenderState where | approved | voided
deriving DecidableEq, Repr

/-- R53. -/
inductive LateOutcome where | stoodIn | declined
deriving DecidableEq, Repr

/-- R74. -/
inductive RecordKind where | approval | reversal
deriving DecidableEq, Repr

/-- R76. -/
inductive RecordState where
  | free | programming | live | outstanding | done | voided | bad | torn | unused
deriving DecidableEq, Repr

/-- R77. -/
inductive BlockState where | erased | filling | full | erasing | retired
deriving DecidableEq, Repr

/-- R88. -/
inductive MarkKind where | uploaded | voided
deriving DecidableEq, Repr

/-- R116: how an operation ended. -/
inductive OpResult where | success | fail | timeLimit
deriving DecidableEq, Repr

/-- R116: the operation kinds. -/
inductive OpKind where | recordProgram | mark | epochProgram | pageProgram | blockErase
deriving DecidableEq, Repr

/-- R172: the STORE_FAULT kinds. -/
inductive FaultKind where
  | recordProgram | noRoom | mark | blockErase | torn | epoch | tableErase | pageProgram
deriving DecidableEq, Repr

/-- R98: the upload state as reported (R113). -/
inductive UploadPhase where | off | idle | awaitingConfirm | holdoff
deriving DecidableEq, Repr

/-- R170. -/
inductive HostPower where | awake | asleep
deriving DecidableEq, Repr

/-- Whether the part has supply, is held in reset (R187), scans (R96) or runs. -/
inductive Phase where | off | held | scan | run
deriving DecidableEq, Repr

/-- R171: the event sources in priority order. -/
inductive Event where
  | powerWarn | storeFault | lateDecline | authDone | linkChange | billChange | journalLow | tableChange | dataWaiting
  | ready
deriving DecidableEq, Repr

/-- R157: the classes in the fixed order of R158. -/
inductive TxClass where | mgmtReply | auth | upload | data | presence
deriving DecidableEq, Repr

/-- R184: the outcome byte's codes, in order from 0. -/
inductive Answer where
  | ok | accepted | pending | none | busy | starting | unknownRequest | badLength | badField | badSelector
  | badCount | badSlot | full | powerLow | zeroAmount | amountRange | slotsFull | noBill | settled | tendersFull
  | shareRequired | noShare | shareTaken | shareMismatch | overTender | numbersExhausted | noResult | rowProtected | noRow
  | billExists
  | overpaid | inUse | belowTendered | sharesFull | tooSmall | noTender | journalFull | storeFault | locked | noSession
  | sequence | valid | invalid
deriving DecidableEq, Repr

/-! ### Tables -/

/-- R1, R186: an IRT row at the widths it is stored with; a VALID table's rows lie in the ranges of R1. -/
structure IrtRow where
  rangeId : Nat
  prefixLow : Nat
  prefixHigh : Nat
  mode : Nat
  floorLimit : Nat
  cap : Nat
  perCard : Nat
  route : Nat
deriving DecidableEq, Repr

/-- R2: the stored IRT header, without its own check value. -/
structure IrtHeader where
  generation : Nat
  rows : Nat
  readable : Bool
  check : BitVec 16
deriving DecidableEq, Repr

/-- R137: the stored Profile header, without its own check value. -/
structure ProfileHeader where
  generation : Nat
  records : Nat
  check : BitVec 16
deriving DecidableEq, Repr

/-- R136: the Profile's fields. -/
structure ProfileRecord where
  replyTimeout : Nat
  beaconLoss : Nat
  uploadRetry : Nat
  uploadAttempts : Nat
  uploadHoldoff : Nat
  slotSpacing : Nat
  presenceInterval : Nat
  tipCapPercent : Nat
  journalLow : Nat
  standIn : Nat
  levelMgmtReply : Nat
  levelAuth : Nat
  levelUpload : Nat
  levelData : Nat
  levelPresence : Nat
deriving DecidableEq, Repr

/-- The IRT block (R2, R3). The reported row count is computed (`State.irtRowCount`). -/
structure Irt where
  state : TableState
  generation : Nat
  readable : Bool
  mirror : List IrtRow
deriving DecidableEq, Repr

/-- The Profile block (R137); `values` are in force only in VALID (R136). -/
structure Profile where
  state : TableState
  generation : Nat
  values : ProfileRecord
deriving DecidableEq, Repr

/-! ### Bills -/

/-- R18. -/
structure Share where
  amount : Nat
  state : ShareState
  txn : Nat
deriving DecidableEq, Repr

/-- R17. -/
structure Tender where
  txn : Nat
  base : Nat
  tip : Nat
  token : BitVec 32
  path : Path
  state : TenderState
  share : Nat
  rangeId : Nat
  route : Nat
deriving DecidableEq, Repr

/-- R15. -/
structure Bill where
  number : Nat
  place : Nat
  due : Nat
  priorPaid : Nat
  paid : Nat
  reserved : Nat
  state : BillState
  opened : Nat
  tenders : List Tender
  plan : Option (List Share)
  voidPending : Nat
deriving DecidableEq, Repr

/-- The Bill Table (R15, R16). -/
structure BillTable where
  entries : List Bill
  settled : List Nat
deriving DecidableEq, Repr

/-! ### Decision Unit and Tally Unit -/

/-- R39: what a slot that is not FREE holds. -/
structure Auth where
  state : SlotState
  txn : Nat
  bill : Nat
  share : Nat
  pfx : Nat
  token : BitVec 32
  base : Nat
  tip : Nat
  rangeId : Nat
  route : Nat
  path : Path
  standIn : Bool
  result : Result
  reason : DeclineReason
  issuer : Nat
deriving DecidableEq, Repr

/-- R53. -/
structure LateEntry where
  txn : Nat
  outcome : LateOutcome
deriving DecidableEq, Repr

/-- The Decision Unit (R39, R41, R42, R53). A FREE slot is `none`. -/
structure Decision where
  slots : List (Option Auth)
  late : List LateEntry
  epoch : Nat
  seq : Nat
  exhausted : Bool
  lateDiscarded : Nat
deriving DecidableEq, Repr

/-- R58. -/
structure TallyEntry where
  rangeId : Nat
  count : Nat
  sum : Nat
deriving DecidableEq, Repr

/-- R59. -/
structure RepeatEntry where
  token : BitVec 32
  count : Nat
deriving DecidableEq, Repr

/-- The Tally Unit (R58, R59). -/
structure Tally where
  table : List TallyEntry
  repeats : List RepeatEntry
deriving DecidableEq, Repr

/-! ### Journal -/

/-- R74: a record without its check value and marks. -/
structure JRecord where
  txn : Nat
  kind : RecordKind
  rangeId : Nat
  route : Nat
  token : BitVec 32
  base : Nat
  tip : Nat
  bill : Nat
  place : Nat
  time : Nat
  standIn : Bool
  timeUnknown : Bool
  original : Nat
deriving DecidableEq, Repr

/-- R73: a record slot by block and number. -/
structure Loc where
  block : Nat
  slot : Nat
deriving DecidableEq, Repr

/-- R76, R88: a record slot's state and its mark pending flag. -/
structure RecordSlot where
  state : RecordState
  markPending : Bool
deriving DecidableEq, Repr

/-- R77: a journal block. -/
structure JBlock where
  state : BlockState
  slots : List RecordSlot
deriving DecidableEq, Repr

/-- R79: whom a record's outcome is reported to. -/
inductive Requester where
  | slot (i : Nat)
  | void
deriving DecidableEq, Repr

/-- R79: an entry of the append queue. -/
structure QueuedRecord where
  record : JRecord
  requester : Requester
deriving DecidableEq, Repr

/-- R80, R82: the record in program, its slot, and whether this is its retry. -/
structure InProgram where
  loc : Loc
  entry : QueuedRecord
  retry : Bool
deriving DecidableEq, Repr

/-- The Deferred Journal (R77 to R80, R86). -/
structure Journal where
  blocks : List JBlock
  order : List Nat
  writeAt : Option Loc
  queue : List QueuedRecord
  inProgram : Option InProgram
  lowFlag : Bool
deriving DecidableEq, Repr

/-- R98: the Uploader; the outstanding record and attempts exist in AWAITING_CONFIRM only. -/
inductive UploadState where
  | off
  | idle
  | awaitingConfirm (loc : Loc) (txn attempts : Nat)
  | holdoff
deriving DecidableEq, Repr

/-! ### Store Engine -/

/-- R115: a block that can be erased. -/
inductive EraseTarget where
  | journal (block : Nat)
  | epoch
  | table (t : TableName)
deriving DecidableEq, Repr

/-- R88: a MARK; `second` when it follows a first failure. -/
structure MarkRequest where
  loc : Loc
  kind : MarkKind
  second : Bool
deriving DecidableEq, Repr

/-- R91: a BLOCK ERASE; `second` when it follows a first failure of the same journal block. -/
structure EraseRequest where
  target : EraseTarget
  second : Bool
deriving DecidableEq, Repr

/-- R133, R135: a PAGE PROGRAM of the leading bytes of a page. -/
structure PageRequest where
  table : TableName
  page : Nat
  bytes : List Byte
deriving DecidableEq, Repr

/-- R116: an operation with its target and what it writes. -/
inductive StoreOp where
  | recordProgram (loc : Loc) (bytes : List Byte)
  | mark (request : MarkRequest)
  | epochProgram (word epoch : Nat)
  | pageProgram (request : PageRequest)
  | blockErase (request : EraseRequest)
deriving DecidableEq, Repr

/-- R122: the epoch update in progress. -/
structure EpochUpdate where
  epoch : Nat
  retry : Bool
  startUp : Bool
deriving DecidableEq, Repr

/-- The Store Engine (R119, R121, R122, R125). -/
structure Store where
  running : Option StoreOp
  recordPlace : Option (Loc × List Byte)
  marks : List MarkRequest
  epochPlace : Option (Nat × Nat)
  pagePlace : Option PageRequest
  erases : List EraseRequest
  lastRecord : Option OpResult
  prevRecord : Option OpResult
  programFailures : Nat
  eraseFailures : Nat
  timeLimitFailures : Nat
  storeFaults : Nat
  epochAt : Nat
  update : Option EpochUpdate
deriving DecidableEq, Repr

/-! ### Table Loader -/

/-- R128. DRAINING knows the block its write goes to (R140). -/
inductive LoaderPhase where
  | idle
  | opening
  | rows
  | closing
  | draining (t : TableName)
deriving DecidableEq, Repr

/-- R128: the load session. A buffered row is its bytes as they will be programmed. -/
structure Session where
  table : TableName
  generation : Nat
  expected : Nat
  received : Nat
  broken : Broken
  breakIndex : Nat
  buffer : List (List Byte)
  bufferBusy : Bool
  check : BitVec 16
deriving DecidableEq, Repr

/-- R134, R135: where a close in progress stands. -/
inductive CloseStep where | awaitingBuffer | lastPage | header
deriving DecidableEq, Repr

/-- R134: the LOAD CLOSE in progress. -/
structure CloseJob where
  rows : Nat
  check : BitVec 16
  readable : Bool
  step : CloseStep
deriving DecidableEq, Repr

/-- The Table Loader (R128, R139). -/
structure Loader where
  phase : LoaderPhase
  session : Option Session
  close : Option CloseJob
  pendingVerify : Option (TableName × BitVec 16)
deriving DecidableEq, Repr

/-! ### Link and timers -/

/-- R147: seconds of day of the last beacon, and ticks since. -/
structure TimeBase where
  s : Nat
  t : Nat
deriving DecidableEq, Repr

/-- The Link Supervisor (R143). -/
structure Link where
  state : LinkState
  addr : Nat
  replySlot : Nat
  cell : Option Nat
  base : Option TimeBase
  identity : BitVec 48
deriving DecidableEq, Repr

/-- R154: stopped (`none`), or running with the tick boundaries still to pass. 0: the last boundary has passed and the
expiry has not been taken (log 3). -/
abbrev Timer := Option Nat

/-- The Timer Unit (R155). -/
structure Timers where
  reply : List Timer
  beaconWatch : Timer
  upload : Timer
  slot : Timer
  presence : Timer
deriving DecidableEq, Repr

/-! ### Event Unit -/

/-- R172. -/
structure StoreFaultDetail where
  kind : FaultKind
  torn : Nat
  since : Nat
deriving DecidableEq, Repr

/-- R172. -/
structure LinkChangeDetail where
  state : LinkState
  oldCell : Nat
  newCell : Nat
deriving DecidableEq, Repr

/-- R174: a bounded list with its overflow flag. -/
structure ListDetail where
  items : List Nat
  overflow : Bool
deriving DecidableEq, Repr

/-- R172: the generation of each table's entry, when present. -/
structure TableChangeDetail where
  irt : Option Nat
  profile : Option Nat
deriving DecidableEq, Repr

/-- R171: the ten latches; `none` is clear. -/
structure Latches where
  powerWarn : Option Line
  storeFault : Option StoreFaultDetail
  lateDecline : Option ListDetail
  authDone : Option (List Nat)
  linkChange : Option LinkChangeDetail
  billChange : Option ListDetail
  journalLow : Option Nat
  tableChange : Option TableChangeDetail
  dataWaiting : Option Nat
  ready : Option Nat
deriving DecidableEq, Repr

/-- The Event Unit (R171, R175); bit n of a mask is the source of priority n. -/
structure Events where
  latches : Latches
  run : BitVec 10
  wake : BitVec 10
deriving DecidableEq, Repr

/-- R176: what NEXT EVENT returns. -/
inductive EventDetail where
  | powerWarn (line : Line)
  | storeFault (d : StoreFaultDetail)
  | lateDecline (d : ListDetail)
  | authDone (slots : List Nat)
  | linkChange (d : LinkChangeDetail)
  | billChange (d : ListDetail)
  | journalLow (free : Nat)
  | tableChange (d : TableChangeDetail)
  | dataWaiting (frames : Nat)
  | ready (epoch : Nat)
deriving DecidableEq, Repr

/-! ### Replies and frames -/

/-- R153, link group. -/
structure LinkReport where
  state : LinkState
  addr : Nat
  replySlot : Nat
  cell : Nat
  baseHeld : Bool
  identity : BitVec 48
deriving DecidableEq, Repr

/-- R153, tables group. -/
structure TableReport where
  irtState : TableState
  irtGeneration : Nat
  irtRows : Nat
  profileState : TableState
  profileGeneration : Nat
deriving DecidableEq, Repr

/-- R153, journal and upload groups. -/
structure JournalReport where
  free : Nat
  live : Nat
  low : Bool
  upload : UploadPhase
  txn : Nat
  attempts : Nat
deriving DecidableEq, Repr

/-- R153, store engine group. -/
structure StoreReport where
  busy : Bool
  op : Option OpKind
  last : Option OpResult
  prev : Option OpResult
deriving DecidableEq, Repr

/-- R153, counters group. -/
structure CounterReport where
  radioBad : Nat
  hostBad : Nat
  lateDiscarded : Nat
  heldOverflow : Nat
  storeFaults : Nat
  programFailures : Nat
  eraseFailures : Nat
  timeLimitFailures : Nat
deriving DecidableEq, Repr

/-- R153: the content of QUERY STATUS. -/
structure StatusReport where
  link : LinkReport
  tables : TableReport
  journal : JournalReport
  store : StoreReport
  counters : CounterReport
  epoch : Nat
  exhausted : Bool
deriving DecidableEq, Repr

/-- R179: what STATUS adds. -/
structure HostReport where
  power : HostPower
  sleepPending : Bool
  delivery : Nat
  slots : List (Option (SlotState × Nat))
  pending : BitVec 10
  run : BitVec 10
  wake : BitVec 10
  attn : Bool
  pwrwarn : Line
  loadlock : Line
deriving DecidableEq, Repr

/-- R138: the content of a LOAD VERIFY reply. -/
structure VerifyReport where
  table : TableName
  state : TableState
  generation : Nat
  rows : Nat
  received : Nat
  broken : Broken
deriving DecidableEq, Repr

/-- What a reply says, on either port (R184). Its outcome byte is `Reply.answer`, its bytes are `Reply.payload`. -/
inductive Reply where
  /-- a refusal, or an OK that carries nothing more -/
  | plain (answer : Answer)
  /-- R44 -/
  | accepted (slot txn : Nat)
  /-- R56 -/
  | resultPending (slot txn : Nat)
  /-- R56 -/
  | result (slot : Nat) (auth : Auth)
  /-- R30 -/
  | plan (shares : List Share)
  /-- R31 SUMMARY -/
  | summary (bill : Bill)
  /-- R31 TENDERS -/
  | tenders (tenders : List Tender)
  /-- R32: bill number, place and state of each entry -/
  | bills (entries : List (Nat × Nat × BillState))
  /-- R34, R35: the reversal transaction number, 0 for a void by mark -/
  | voided (reversal : Nat)
  /-- R11: generation, row count, index and row -/
  | range (generation rows index : Nat) (row : IrtRow)
  /-- R71 TALLY: how many entries the table holds, and the entries carried with their indexes -/
  | tallies (held : Nat) (entries : List (Nat × TallyEntry))
  /-- R71 REPEAT -/
  | repeats (held : Nat) (entries : List (Nat × RepeatEntry))
  /-- R176: the event returned and the set still pending -/
  | event (detail : EventDetail) (pending : BitVec 10)
  /-- R176: NONE and the pending set -/
  | noEvent (pending : BitVec 10)
  /-- R175 -/
  | masks (run wake : BitVec 10)
  /-- R153 -/
  | status (r : StatusReport)
  /-- R179 -/
  | hostStatus (r : StatusReport) (h : HostReport)
  /-- R150 -/
  | assigned (addr replySlot : Nat) (state : LinkState)
  /-- R151: the address being withdrawn -/
  | released (addr : Nat)
  /-- R26: number of derived tenders, paid and state -/
  | pushed (derived paid : Nat) (state : BillState)
  /-- R27 -/
  | amended (due paid : Nat) (state : BillState)
  /-- R131 -/
  | loadOpened (table : TableName) (generation : Nat)
  /-- R132 -/
  | rowTaken (index : Nat)
  /-- R134, R135: VALID or INVALID, condition, row index, generation -/
  | closed (valid : Bool) (condition : Condition) (index generation : Nat)
  /-- R138 -/
  | verify (r : VerifyReport)
  /-- R140: index, table state, generation and the stored bytes -/
  | dumped (index : Nat) (state : TableState) (generation : Nat) (bytes : List Byte)
deriving DecidableEq, Repr

/-- R164: a reply on the host port. `ofRequest`: its sending ends the turn (R168). -/
structure HostReply where
  code : BitVec 8
  tag : BitVec 16
  body : Reply
  ofRequest : Bool
deriving DecidableEq, Repr

/-- R163: a DATA frame on its way to the host. -/
structure DataFrame where
  tag : BitVec 16
  payload : List Byte
deriving DecidableEq, Repr

/-- R50, R185: the content of an AUTH REQUEST. -/
structure AuthRequest where
  txn : Nat
  rangeId : Nat
  route : Nat
  pfx : Nat
  token : BitVec 32
  base : Nat
  tip : Nat
  bill : Nat
  place : Nat
deriving DecidableEq, Repr

/-- R157, R184: what an uplink frame carries. -/
inductive Uplink where
  | mgmtReply (code : BitVec 8) (body : Reply)
  | authRequest (r : AuthRequest)
  /-- R101: transaction number, the record's bytes 0 to 29, attempt number -/
  | upload (txn : Nat) (record : List Byte) (attempt : Nat)
  | data (payload : List Byte)
  | presence (identity : BitVec 48)
deriving DecidableEq, Repr

/-- R157: an uplink frame. -/
structure Frame where
  tag : BitVec 16
  addr : Nat
  payload : Uplink
deriving DecidableEq, Repr

/-- R165: the management gate. -/
inductive Gate where
  | empty
  | held (command : Instr)
  | inProgress (command : Instr)
deriving DecidableEq, Repr

/-- The Transmit Arbiter (R157, R158, R165, R166). -/
structure Arbiter where
  mgmt : List Frame
  auth : List Frame
  upload : List Frame
  data : List Frame
  presence : List Frame
  sending : Option Frame
  gate : Gate
  waitingVerify : List (BitVec 16 × VerifyReport)
deriving DecidableEq, Repr

/-- R181: the receive assembler. `escape`: the last byte was 0x7D. -/
inductive Assembler where
  | hunting
  | collecting (bytes : List Byte) (escape : Bool)
deriving DecidableEq, Repr

/-- The Radio Port Interface's own state (R144, R181). -/
structure RadioPort where
  asm : Assembler
  framesBad : Nat
deriving DecidableEq, Repr

/-- R33 to R35: how the VOID in progress is done. -/
inductive VoidPath where
  | mark (loc : Loc)
  | reversal (txn : Nat)
deriving DecidableEq, Repr

/-- R33: the VOID in progress: its tag, bill and tender. -/
structure VoidJob where
  tag : BitVec 16
  bill : Nat
  tender : Nat
  path : VoidPath
deriving DecidableEq, Repr

/-- R164: the host transmitter. -/
inductive HostTx where
  | free
  /-- the oldest pending reply is being sent -/
  | reply
  | delivery (frame : DataFrame)
deriving DecidableEq, Repr

/-- The Host Port Interface (R163, R164, R168 to R170). -/
structure HostPort where
  asm : Assembler
  inProgress : Bool
  voidJob : Option VoidJob
  replies : List HostReply
  tx : HostTx
  delivery : List DataFrame
  heldOverflow : Nat
  power : HostPower
  sleepPending : Bool
  framesBad : Nat
deriving DecidableEq, Repr

/-- The discrete input lines (R187) and the phase the supply and RESETN put the part in. -/
structure Pins where
  pwrwarn : Line
  loadlock : Line
  resetn : Line
  phase : Phase
deriving DecidableEq, Repr

end Sys2Proof.Machine
end

