-- ==== Sys2Proof/Machine/Bytes.lean ====
section
/-! DEFINITION. Byte order, the check value, byte stuffing and the receive assembler (R181, R182, R184). -/

namespace Sys2Proof.Machine

/-- R184: the low `n` bytes of a value, most significant first. -/
def be : Nat → Nat → List Byte
  | 0, _ => []
  | n + 1, v => BitVec.ofNat 8 (v / 256 ^ n) :: be n v

/-- The value of bytes sent most significant first. -/
def unbe (bs : List Byte) : Nat := bs.foldl (fun a b => a * 256 + b.toNat) 0

/-- The value of the `n`-byte field at an offset. -/
def field (bs : List Byte) (offset n : Nat) : Nat := unbe ((bs.drop offset).take n)

/-- R184: a flag byte. -/
def flagByte (b : Bool) : List Byte := [if b then 1 else 0]

/-! ### Check value (00 section 5.6, R182) -/

/-- One bit of the division by x^16 + x^12 + x^5 + 1. -/
def crcBit (c : BitVec 16) : BitVec 16 := if c.msb then (c <<< 1) ^^^ 0x1021 else c <<< 1

/-- One byte, most significant bit first. -/
def crcByte (c : BitVec 16) (b : Byte) : BitVec 16 :=
  crcBit (crcBit (crcBit (crcBit (crcBit (crcBit (crcBit (crcBit (c ^^^ (b.setWidth 16 <<< 8)))))))))

/-- The check value of bytes: initial value 0xFFFF, no final inversion. -/
def checkValue (bs : List Byte) : BitVec 16 := bs.foldl crcByte 0xFFFF

/-- A check value as two bytes, high byte first. -/
def checkBytes (c : BitVec 16) : List Byte := be 2 c.toNat

/-! ### Stuffing (R181) -/

/-- The flag byte. -/
def flag : Byte := 0x7E
/-- The escape byte. -/
def escapeMark : Byte := 0x7D

/-- R181: the stuffed form. -/
def stuff : List Byte → List Byte
  | [] => []
  | b :: rest => if b = flag ∨ b = escapeMark then escapeMark :: (b ^^^ 0x20) :: stuff rest else b :: stuff rest

/-- R181: a frame's unstuffed bytes: kind, address, tag, length, payload, check value. -/
def frameBytes (kind addr : Nat) (tag : BitVec 16) (payload : List Byte) : List Byte :=
  let head := be 1 kind ++ be 1 addr ++ be 2 tag.toNat ++ be 1 payload.length ++ payload
  head ++ checkBytes (checkValue head)

/-- R181: a frame on the wire. -/
def wire (kind addr : Nat) (tag : BitVec 16) (payload : List Byte) : List Byte :=
  flag :: (stuff (frameBytes kind addr tag payload) ++ [flag])

/-! ### The receive assembler (R181) -/

/-- What a received byte brings about. -/
inductive AsmEvent where
  | nothing
  | bad
  /-- a frame of 7 or more bytes ends; R183 judges it -/
  | ended (bytes : List Byte)
deriving DecidableEq, Repr

/-- R181: the most unstuffed bytes of a frame (5 + 200 + 2). -/
def frameMax : Nat := 207

/-- R181: an unstuffed byte is collected; the 208th makes the frame bad and the assembler hunts. -/
def collect (bytes : List Byte) (b : Byte) : Assembler × AsmEvent :=
  if bytes.length < frameMax then (.collecting (bytes ++ [b]) false, .nothing) else (.hunting, .bad)

/-- R181: one received byte. After a broken escape that is no flag the assembler hunts (log 25). -/
def asmByte (a : Assembler) (b : Byte) : Assembler × AsmEvent :=
  match a with
  | .hunting => if b = flag then (.collecting [] false, .nothing) else (.hunting, .nothing)
  | .collecting bytes true =>
    if b = flag then (.collecting [] false, .bad)
    else if b ^^^ 0x20 = flag ∨ b ^^^ 0x20 = escapeMark then collect bytes (b ^^^ 0x20)
    else (.hunting, .bad)
  | .collecting bytes false =>
    if b = flag then
      (.collecting [] false,
        if bytes.length = 0 then .nothing else if bytes.length < 7 then .bad else .ended bytes)
    else if b = escapeMark then (.collecting bytes true, .nothing)
    else collect bytes b

/-- R183 tests 1 and 2: the check value matches, and the length field is at most 200 and is the number of bytes less
7. -/
def frameSound (bytes : List Byte) : Bool :=
  let n := bytes.length - 2
  checkBytes (checkValue (bytes.take n)) == bytes.drop n
    && field bytes 4 1 ≤ 200 && field bytes 4 1 + 7 == bytes.length

/-- R181: an ended frame's kind, address, tag and payload. -/
def frameParts (bytes : List Byte) : Nat × BitVec 8 × BitVec 16 × List Byte :=
  (field bytes 0 1, BitVec.ofNat 8 (field bytes 1 1), BitVec.ofNat 16 (field bytes 2 2),
    (bytes.drop 5).take (bytes.length - 7))

end Sys2Proof.Machine
end

