-- ==== Sys2Proof/Decode.lean ====
section
/-! DEFINITION. From payload bytes to commands (R184 to R186), and `decodeTableWord`. spec/opcode_table.json gives no
row any bits, so no word spells a command (log 4). -/

namespace Sys2Proof

open Machine (field)

/-- The command that a word spells by the table's bits: the table gives none. -/
def decodeTableWord (_nbits _w : Nat) : Option Instr := none

/-- A field of a payload as a bit vector of its width. -/
def bitField (p : List Byte) (offset bytes : Nat) (w : Nat) : BitVec w := BitVec.ofNat w (field p offset bytes)

/-- R184: the REQUEST that a payload spells. A payload with an unknown request code or of a length that does not fit
(R183) is kept raw. DEDUCED (log 19): SPLIT's count n is one byte. -/
def requestOf (tag : BitVec 16) (loadlock : Line) (p : List Byte) : Instr :=
  let raw := Instr.unknownRequest tag p
  let whenLength (n : Nat) (i : Instr) : Instr := if p.length = n then i else raw
  match field p 0 1 with
  | 0x01 => whenLength 20 (.authorize tag (bitField p 1 2 16) (bitField p 3 1 8) (bitField p 4 4 32)
      (bitField p 8 4 32) (bitField p 12 4 32) (bitField p 16 4 32))
  | 0x02 => whenLength 2 (.readResult tag (bitField p 1 1 8))
  | 0x03 => whenLength 4 (.split tag (bitField p 1 2 16) (bitField p 3 1 8))
  | 0x04 =>
    let i := Instr.queryBill tag (bitField p 1 2 16) (bitField p 3 1 8) (bitField p 4 2 16)
    if field p 3 1 = 1 then whenLength 4 i
    else if field p 3 1 = 2 then whenLength 6 i
    else if p.length = 4 ∨ p.length = 6 then i else raw
  | 0x05 => whenLength 1 (.listBills tag)
  | 0x06 => whenLength 7 (.void tag (bitField p 1 2 16) (bitField p 3 4 32))
  | 0x07 =>
    let byIndex := Instr.readRange tag (bitField p 1 1 8) (bitField p 2 2 32)
    let byPrefix := Instr.readRange tag (bitField p 1 1 8) (bitField p 2 4 32)
    if field p 1 1 = 1 then whenLength 4 byIndex
    else if field p 1 1 = 2 then whenLength 6 byPrefix
    else if p.length = 4 ∨ p.length = 6 then byPrefix else raw
  | 0x08 => whenLength 4 (.readExposure tag (bitField p 1 1 8) (bitField p 2 2 16))
  | 0x09 => whenLength 1 (.nextEvent tag)
  | 0x0A => whenLength 5 (.setMasks tag (bitField p 1 2 16) (bitField p 3 2 16))
  | 0x0B => whenLength 1 (.sleep tag)
  | 0x0C => whenLength 1 (.portReset tag)
  | 0x0D => whenLength 1 (.status tag loadlock)
  | _ => raw

/-- R184: whether a request code names a request. -/
def requestCodeKnown (code : BitVec 8) : Bool := 1 ≤ code.toNat && code.toNat ≤ 0x0D

/-- The transaction numbers of a known list. -/
def knownNumbers (p : List Byte) (n : Nat) : List (BitVec 32) :=
  (List.range n).map (fun k => bitField p (17 + 4 * k) 4 32)

/-- R184, R185: the management command that a payload spells; kept raw as in `requestOf`. A LOAD ROW's row may have any
length here (R186 judges an IRT row's). -/
def commandOf (addr : BitVec 8) (tag : BitVec 16) (loadlock : Line) (p : List Byte) : Instr :=
  let raw := Instr.unknownCommand addr tag p
  let whenLength (n : Nat) (i : Instr) : Instr := if p.length = n then i else raw
  match field p 0 1 with
  | 0x01 => whenLength 9 (.assign addr tag (bitField p 1 6 48) (bitField p 7 1 8) (bitField p 8 1 8))
  | 0x02 => whenLength 1 (.release addr tag)
  | 0x03 => whenLength 1 (.linkReset addr tag)
  | 0x04 => whenLength 1 (.queryStatus addr tag)
  | 0x10 =>
    if 17 ≤ p.length ∧ p.length = 17 + 4 * field p 16 1 then
      .billPush addr tag (bitField p 1 2 16) (bitField p 3 2 16) (bitField p 5 4 32) (bitField p 9 4 32)
        (bitField p 13 3 24) (knownNumbers p (field p 16 1))
    else raw
  | 0x11 => whenLength 7 (.billAmend addr tag (bitField p 1 2 16) (bitField p 3 4 32))
  | 0x12 => whenLength 3 (.billDrop addr tag (bitField p 1 2 16))
  | 0x20 => whenLength 6 (.loadOpen addr tag (bitField p 1 1 8) (bitField p 2 2 16) (bitField p 4 2 16) loadlock)
  | 0x21 => if 4 ≤ p.length then .loadRow addr tag (bitField p 1 1 8) (bitField p 2 2 16) (p.drop 4) else raw
  | 0x22 => whenLength 7 (.loadClose addr tag (bitField p 1 1 8) (bitField p 2 2 16) (bitField p 4 2 16)
      (bitField p 6 1 8))
  | 0x23 => whenLength 2 (.loadVerify addr tag (bitField p 1 1 8))
  | 0x24 => whenLength 4 (.dumpRow addr tag (bitField p 1 1 8) (bitField p 2 2 16))
  | _ => raw

/-- R184: whether a command code names a management command. -/
def commandCodeKnown (code : BitVec 8) : Bool :=
  [0x01, 0x02, 0x03, 0x04, 0x10, 0x11, 0x12, 0x20, 0x21, 0x22, 0x23, 0x24].contains code.toNat

/-- R184: the kinds the host port carries to the part; `none` makes the frame bad (R183 test 3). -/
def hostFrameOf (kind : Nat) (tag : BitVec 16) (loadlock : Line) (p : List Byte) : Option Instr :=
  match kind with
  | 0x21 => some (requestOf tag loadlock p)
  | 0x05 => some (.hostData tag p)
  | _ => none

/-- R184, R185: the downstream kinds of the radio port; `none` makes the frame bad (R183 test 5). -/
def radioFrameOf (kind : Nat) (addr : BitVec 8) (tag : BitVec 16) (loadlock : Line) (p : List Byte) : Option Instr :=
  match kind with
  | 0x01 => if p.length = 5 then some (.beacon addr (bitField p 0 2 16) (bitField p 2 3 24)) else none
  | 0x02 => if p.length = 6 then some (.authReply addr (bitField p 0 4 32) (bitField p 4 1 8) (bitField p 5 1 8))
      else none
  | 0x03 => if p.length = 5 then some (.uploadConfirm addr (bitField p 0 4 32) (bitField p 4 1 8)) else none
  | 0x04 => some (commandOf addr tag loadlock p)
  | 0x05 => some (.gatewayData addr tag p)
  | _ => none

end Sys2Proof
end

