-- ==== Sys2Proof/Config.lean ====
section
/-! DEFINITION. What one part fixes and the manual does not give, and the values the manual leaves unstated, which are
free: constants without a body, of which nothing can be proved. What a store operation leaves in the array is an operand
of the event that ends it (log 9). -/

namespace Sys2Proof

/-- R143: the unit identity is fixed in manufacture. DESIGN CHOICE (log 6): the value of the example in section 9.8;
unsafe, so every statement ranges over all values of the State field. -/
def Config.unitIdentity : BitVec 48 := 0x00A43C719E05

/-- DESIGN CHOICE (log 17): the current epoch between reset and the end of the epoch recovery of R95, when nothing can
read it. -/
def Config.epochBeforeRecovery : Nat := 0

/-- DESIGN CHOICE (log 35), a free value: whether the path field of a slot reads OFFLINE after its payment, here by its
transaction number, was declined at once. R39 and R45 state no path then. -/
opaque Config.declinedPathOffline : Nat → Bool

/-- DESIGN CHOICE (log 36), a free value: whether a flag byte that is neither 0 nor 1 is taken as set. R184 states none
for it. -/
opaque Config.otherFlag : BitVec 8 → Bool

end Sys2Proof
end

