-- ==== Sys2Proof/Machine/Memory.lean ====
section
/-! DEFINITION. The nonvolatile array (R115, R186): a list of (address, byte) in one canonical form, addresses strictly
rising and no entry equal to 0xFF, which is what an unlisted (erased) byte reads as. The linear addresses are the
model's (log 7): the seven blocks one after another in the order of R115's table. -/

namespace Sys2Proof.Machine

/-- The array's contents. -/
abbrev Mem := List Host.Cell

/-- R186: an erased byte reads 0xFF. -/
def erasedByte : Byte := 0xFF

/-- What the byte at an address reads. -/
def Mem.read : Mem → Nat → Byte
  | [], _ => erasedByte
  | (k, v) :: rest, a => if k = a then v else Mem.read rest a

/-- The array with one byte changed; the canonical form is kept. -/
def Mem.write : Mem → Nat → Byte → Mem
  | [], a, v => if v = erasedByte then [] else [(a, v)]
  | (k, w) :: rest, a, v =>
    if a < k then (if v = erasedByte then (k, w) :: rest else (a, v) :: (k, w) :: rest)
    else if a = k then (if v = erasedByte then rest else (a, v) :: rest)
    else (k, w) :: Mem.write rest a v

/-- The `n` bytes from an address. -/
def Mem.readBytes (m : Mem) (a n : Nat) : List Byte := (List.range n).map (fun i => m.read (a + i))

/-- The array with consecutive bytes changed. -/
def Mem.writeBytes (m : Mem) (a : Nat) : List Byte → Mem
  | [] => m
  | v :: vs => Mem.writeBytes (m.write a v) (a + 1) vs

/-- Whether every byte of a range reads erased. In canonical form: no entry lies in it. -/
def Mem.erasedRange (m : Mem) (a n : Nat) : Bool := m.all (fun c => c.1 < a || a + n ≤ c.1 || c.2 == erasedByte)

/-- The array with a range erased (R115). -/
def Mem.eraseRange (m : Mem) (a n : Nat) : Mem := m.filter (fun c => c.1 < a || a + n ≤ c.1)

/-- Addresses strictly rise. -/
def Mem.sorted : Mem → Bool
  | [] => true
  | [_] => true
  | (a, _) :: (b, w) :: rest => a < b && Mem.sorted ((b, w) :: rest)

/-- The canonical form. -/
def Mem.wf (m : Mem) : Bool := m.sorted && m.all (fun c => c.2 != erasedByte)

/-! ### The map (R115, log 7) -/

/-- R115: bytes of a page. -/
def pageBytes : Nat := 256
/-- R73: bytes of a journal block. -/
def journalBlockBytes : Nat := 16 * pageBytes
/-- The IRT table block follows the four journal blocks. -/
def irtBase : Nat := Limits.journalBlocks * journalBlockBytes
/-- R115: bytes of the IRT table block. -/
def irtBytes : Nat := 21 * pageBytes
/-- The Profile table block follows it. -/
def profileBase : Nat := irtBase + irtBytes
/-- R115: bytes of the Profile table block. -/
def profileBlockBytes : Nat := 2 * pageBytes
/-- The epoch block comes last. -/
def epochBase : Nat := profileBase + profileBlockBytes
/-- R115: bytes of the epoch block. -/
def epochBytes : Nat := pageBytes
/-- R115: bytes of the whole array. -/
def arrayBytes : Nat := epochBase + epochBytes

/-- R73: where a record slot begins. -/
def Loc.addr (l : Loc) : Nat := l.block * journalBlockBytes + l.slot * Limits.recordBytes

/-- Where a table's block begins. -/
def TableName.base : TableName → Nat
  | .irt => irtBase
  | .profile => profileBase

/-- How many bytes a table's block has. -/
def TableName.bytes : TableName → Nat
  | .irt => irtBytes
  | .profile => profileBlockBytes

/-- Where an erase target begins. -/
def EraseTarget.base : EraseTarget → Nat
  | .journal b => b * journalBlockBytes
  | .epoch => epochBase
  | .table t => t.base

/-- How many bytes an erase target has. -/
def EraseTarget.bytes : EraseTarget → Nat
  | .journal _ => journalBlockBytes
  | .epoch => epochBytes
  | .table t => t.bytes

/-- R115: where row i of the IRT lies: page 1 + floor(i / 10), 24 bytes each. -/
def irtRowAddr (i : Nat) : Nat :=
  irtBase + (1 + i / Limits.pageRows) * pageBytes + (i % Limits.pageRows) * Limits.rowBytes

/-- R115: where the Profile record lies. -/
def profileRecordAddr : Nat := profileBase + pageBytes

/-- R121: where an epoch word lies. -/
def epochWordAddr (w : Nat) : Nat := epochBase + 4 * w

/-! ### What an ending operation leaves (R117) -/

/-- R117: a byte moved toward the value asked for: each bit in which the two differ may take the bit asked for, as `env`
has it, and no other bit changes (log 9). -/
def moveToward (old req env : Byte) : Byte := old ^^^ ((old ^^^ req) &&& (old ^^^ env))

/-- R117: one byte of a program. `old` is what it read before, `req` what is asked, `env` what the array made of it. A
byte that already held exactly the value keeps it; an erased byte can become anything; any other byte can only move
toward the value asked for, and becomes neither that value nor erased. -/
def landByte (old req env : Byte) : Byte :=
  if old = req then req
  else if old = erasedByte then env
  else if moveToward old req env = req ∨ moveToward old req env = erasedByte then old
  else moveToward old req env

/-- What the array made of the byte at one offset of a program, before R117 narrows it. -/
def programmedByte (e : ArrayEnd) (offset : Nat) (old req : Byte) : Byte :=
  match e with
  | .whole => req
  | .left cells => ((cells.find? (fun c => c.1 = offset)).map Prod.snd).getD old

/-- The bytes a program leaves, offset by offset. -/
def landed (m : Mem) (a : Nat) (e : ArrayEnd) : Nat → List Byte → List Byte
  | _, [] => []
  | i, req :: rest =>
    landByte (m.read (a + i)) req (programmedByte e i (m.read (a + i)) req) :: landed m a e (i + 1) rest

/-- A program of `bytes` at `a`: the array after it, and whether its read-back matches (R117). -/
def Mem.program (m : Mem) (a : Nat) (bytes : List Byte) (e : ArrayEnd) : Mem × Bool :=
  let l := landed m a e 0 bytes
  (m.writeBytes a l, l == bytes)

/-- What a byte reads after an erase: erased, or a survivor that was not erased before it (R118: a stopped erase can
leave some bytes not erased; an erase programs nothing). -/
def eraseByte (old env : Byte) : Byte := if old = erasedByte then erasedByte else env

/-- The survivors of an erase put back into the erased range. -/
def putSurvivors (before : Mem) (a n : Nat) : List (Nat × Byte) → Mem → Mem
  | [], m => m
  | (o, v) :: rest, m =>
    putSurvivors before a n rest (if o < n then m.write (a + o) (eraseByte (before.read (a + o)) v) else m)

/-- An erase of a range: the array after it, and whether every byte of the range reads erased (R117). -/
def Mem.erase (m : Mem) (a n : Nat) (e : ArrayEnd) : Mem × Bool :=
  let after := match e with
    | .whole => m.eraseRange a n
    | .left cells => putSurvivors m a n cells (m.eraseRange a n)
  (after, after.erasedRange a n)

end Sys2Proof.Machine
end

