-- ==== Sys2Proof/Machine/State.lean ====
section
/-! DEFINITION. The state of the part: every block of section 3 of 00_scope.md, its pins, its nonvolatile array and the
queue of commands not yet taken. Plain data. -/

namespace Sys2Proof.Machine

/-- What the part holds. `pending` is the model's own: the commands waiting, first in first out (log 1). -/
structure State where
  pins : Pins
  array : Mem
  irt : Irt
  profile : Profile
  bills : BillTable
  decision : Decision
  tally : Tally
  journal : Journal
  uploader : UploadState
  store : Store
  loader : Loader
  link : Link
  timers : Timers
  arbiter : Arbiter
  radio : RadioPort
  host : HostPort
  events : Events
  pending : List Instr
deriving DecidableEq, Repr

/-- Why the machine stops. -/
inductive Fault where
  /-- Raised at the end of a store operation whose target lies outside the array of R115, an address the spec says does
  not exist (log 29). Safe: the blocks make no such request. -/
  | outsideArray
deriving DecidableEq, Repr

/-- Why a command has no meaning here. -/
inductive Refusal where
  /-- Raised by an arm of `exec` that has no meaning yet; none is left. Safe. -/
  | notModelled (mnemonic : String)
deriving DecidableEq, Repr

/-! ### Updates -/

def State.setPins (s : State) (x : Pins) : State := { s with pins := x }
def State.setArray (s : State) (x : Mem) : State := { s with array := x }
def State.setIrt (s : State) (x : Irt) : State := { s with irt := x }
def State.setProfile (s : State) (x : Profile) : State := { s with profile := x }
def State.setBills (s : State) (x : BillTable) : State := { s with bills := x }
def State.setDecision (s : State) (x : Decision) : State := { s with decision := x }
def State.setTally (s : State) (x : Tally) : State := { s with tally := x }
def State.setJournal (s : State) (x : Journal) : State := { s with journal := x }
def State.setUploader (s : State) (x : UploadState) : State := { s with uploader := x }
def State.setStore (s : State) (x : Store) : State := { s with store := x }
def State.setLoader (s : State) (x : Loader) : State := { s with loader := x }
def State.setLink (s : State) (x : Link) : State := { s with link := x }
def State.setTimers (s : State) (x : Timers) : State := { s with timers := x }
def State.setArbiter (s : State) (x : Arbiter) : State := { s with arbiter := x }
def State.setRadio (s : State) (x : RadioPort) : State := { s with radio := x }
def State.setHost (s : State) (x : HostPort) : State := { s with host := x }
def State.setEvents (s : State) (x : Events) : State := { s with events := x }
def State.setPending (s : State) (x : List Instr) : State := { s with pending := x }

/-! ### Reset values, block by block -/

/-- R136: the defaults. -/
def ProfileRecord.defaults : ProfileRecord where
  replyTimeout := 600
  beaconLoss := 350
  uploadRetry := 300
  uploadAttempts := 3
  uploadHoldoff := 3000
  slotSpacing := 4
  presenceInterval := 500
  tipCapPercent := 30
  journalLow := 64
  standIn := 1
  levelMgmtReply := 3
  levelAuth := 3
  levelUpload := 2
  levelData := 1
  levelPresence := 1

/-- R12 step 1: the IRT of an erased block. -/
def Irt.reset : Irt := { state := .empty, generation := 0, readable := false, mirror := [] }
/-- R137: the Profile of an erased block. -/
def Profile.reset : Profile := { state := .empty, generation := 0, values := .defaults }
/-- R38. -/
def BillTable.reset : BillTable := { entries := [], settled := [] }
/-- R57; the epoch before its recovery is the model's (log 17). -/
def Decision.reset : Decision :=
  { slots := [none, none, none, none], late := [], epoch := Config.epochBeforeRecovery, seq := 0, exhausted := true,
    lateDiscarded := 0 }
/-- R68, R72. -/
def Tally.reset : Tally := { table := [], repeats := [] }
/-- R76: a slot of an erased block. -/
def RecordSlot.fresh : RecordSlot := { state := .free, markPending := false }
/-- R77: an erased block. -/
def JBlock.erased : JBlock := { state := .erased, slots := List.replicate Limits.blockSlots .fresh }
/-- R93 of an erased journal: the lowest-numbered ERASED block becomes FILLING. -/
def Journal.reset : Journal :=
  { blocks := [{ JBlock.erased with state := .filling }, .erased, .erased, .erased], order := [0],
    writeAt := some { block := 0, slot := 0 }, queue := [], inProgram := none, lowFlag := false }
/-- R127; the scan of an erased array asks for epoch 1 in word 0 (R95, R122). -/
def Store.reset : Store :=
  { running := none, recordPlace := none, marks := [], epochPlace := some (0, 1), pagePlace := none, erases := [],
    lastRecord := none, prevRecord := none, programFailures := 0, eraseFailures := 0, timeLimitFailures := 0,
    storeFaults := 0, epochAt := 1, update := some { epoch := 1, retry := false, startUp := true } }
/-- R142. -/
def Loader.reset : Loader := { phase := .idle, session := none, close := none, pendingVerify := none }
/-- R156. -/
def Link.reset (identity : BitVec 48) : Link :=
  { state := .search, addr := 0, replySlot := 0, cell := none, base := none, identity := identity }
/-- R156: all stopped. -/
def Timers.reset : Timers :=
  { reply := [none, none, none, none], beaconWatch := none, upload := none, slot := none, presence := none }
/-- R167. -/
def Arbiter.reset : Arbiter :=
  { mgmt := [], auth := [], upload := [], data := [], presence := [], sending := none, gate := .empty,
    waitingVerify := [] }
/-- R156, R181. -/
def RadioPort.reset : RadioPort := { asm := .hunting, framesBad := 0 }
/-- R167, R180, R181. -/
def HostPort.reset : HostPort :=
  { asm := .hunting, inProgress := false, voidJob := none, replies := [], tx := .free, delivery := [],
    heldOverflow := 0, power := .awake, sleepPending := false, framesBad := 0 }
/-- R180: every latch clear. -/
def Latches.clear : Latches :=
  { powerWarn := none, storeFault := none, lateDecline := none, authDone := none, linkChange := none,
    billChange := none, journalLow := none, tableChange := none, dataWaiting := none, ready := none }
/-- R175: all ten sources. -/
def runMaskReset : BitVec 10 := 0b1111111111
/-- R175: POWER_WARN 0, STORE_FAULT 1, LATE_DECLINE 2, AUTH_DONE 3, BILL_CHANGE 5, DATA_WAITING 8. -/
def wakeMaskReset : BitVec 10 := 0b0100101111
/-- R180. -/
def Events.reset : Events := { latches := .clear, run := runMaskReset, wake := wakeMaskReset }

/-- The part right after reset: factory-new (its whole array erased, R95), supply just applied with no line asserted,
in its start-up scan with the EPOCH PROGRAM of epoch 1 waiting (log 5). -/
def State.reset : State :=
  { pins := { pwrwarn := .deasserted, loadlock := .deasserted, resetn := .deasserted, phase := .scan },
    array := [], irt := .reset, profile := .reset, bills := .reset, decision := .reset, tally := .reset,
    journal := .reset, uploader := .off, store := .reset, loader := .reset, link := .reset Config.unitIdentity,
    timers := .reset, arbiter := .reset, radio := .reset, host := .reset, events := .reset, pending := [] }

end Sys2Proof.Machine
end

