-- ==== Sys2Proof/Machine/Operands.lean ====
section
/-! DEFINITION. Every stored and sent layout: journal records, IRT rows, the Profile record, headers, epoch words (R121,
R186, log 8), the codes of R184 and the payloads of replies and uplink frames (R184, R185, log 19). -/

namespace Sys2Proof.Machine

/-! ### Journal record (R186) -/

/-- R186 byte 4: route code, kind, stand-in flag and time-unknown flag. -/
def recordFlags (r : JRecord) : Nat :=
  r.route % 16 + (match r.kind with | .approval => 0 | .reversal => 16)
    + (if r.standIn then 32 else 0) + (if r.timeUnknown then 64 else 0)

/-- R186: bytes 0 to 27, which the check value covers. -/
def recordBody (r : JRecord) : List Byte :=
  be 4 r.txn ++ be 1 (recordFlags r) ++ be 2 r.rangeId ++ be 4 r.token.toNat ++ be 3 r.base ++ be 3 r.tip
    ++ be 2 r.bill ++ be 2 r.place ++ be 3 r.time ++ be 4 r.original

/-- R186: bytes 0 to 29, which a RECORD PROGRAM writes; the mark bytes stay erased. -/
def encodeRecord (r : JRecord) : List Byte := recordBody r ++ checkBytes (checkValue (recordBody r))

/-- R186: the fields of the bytes of a record slot. -/
def decodeRecord (bs : List Byte) : JRecord :=
  let f := field bs 4 1
  { txn := field bs 0 4, kind := if f / 16 % 2 = 1 then .reversal else .approval, rangeId := field bs 5 2,
    route := f % 16, token := BitVec.ofNat 32 (field bs 7 4), base := field bs 11 3, tip := field bs 14 3,
    bill := field bs 17 2, place := field bs 19 2, time := field bs 21 3, standIn := f / 32 % 2 == 1,
    timeUnknown := f / 64 % 2 == 1, original := field bs 24 4 }

/-- R92: whether the check value over bytes 0 to 27 matches. -/
def recordValid (bs : List Byte) : Bool := checkBytes (checkValue (bs.take 28)) == (bs.drop 28).take 2

/-- R75, R186: a mark byte reads programmed when any of its bits does. -/
def markProgrammed (b : Byte) : Bool := b != erasedByte

/-- R75: the state that a valid record's marks give. -/
def markedState (bs : List Byte) : RecordState :=
  if markProgrammed (bs.getD 31 erasedByte) then .voided
  else if markProgrammed (bs.getD 30 erasedByte) then .done
  else .live

/-- R186: what a MARK programs. -/
def markValue : Byte := 0x00

/-- R186: where a mark's byte lies. -/
def markAddr (loc : Loc) : MarkKind → Nat
  | .uploaded => loc.addr + 30
  | .voided => loc.addr + 31

/-! ### Tables (R186) -/

/-- R186: the 24 bytes of an IRT row. -/
def encodeRow (r : IrtRow) : List Byte :=
  be 2 r.rangeId ++ be 4 r.prefixLow ++ be 4 r.prefixHigh ++ be 2 r.mode ++ be 4 r.floorLimit ++ be 4 r.cap
    ++ be 2 r.perCard ++ be 2 r.route

/-- R186: the fields of a row's bytes. -/
def decodeRow (bs : List Byte) : IrtRow :=
  { rangeId := field bs 0 2, prefixLow := field bs 2 4, prefixHigh := field bs 6 4, mode := field bs 10 2,
    floorLimit := field bs 12 4, cap := field bs 16 4, perCard := field bs 20 2, route := field bs 22 2 }

/-- R186: the mode codes. -/
def modeOf : Nat → Option Mode
  | 1 => some .onlineOnly
  | 2 => some .onlinePreferred
  | 3 => some .offlineFirst
  | _ => none

/-- R186: the 21 bytes of the Profile record. -/
def encodeProfile (p : ProfileRecord) : List Byte :=
  be 2 p.replyTimeout ++ be 2 p.beaconLoss ++ be 2 p.uploadRetry ++ be 1 p.uploadAttempts ++ be 2 p.uploadHoldoff
    ++ be 1 p.slotSpacing ++ be 2 p.presenceInterval ++ be 1 p.tipCapPercent ++ be 2 p.journalLow ++ be 1 p.standIn
    ++ be 1 p.levelMgmtReply ++ be 1 p.levelAuth ++ be 1 p.levelUpload ++ be 1 p.levelData ++ be 1 p.levelPresence

/-- R186: the fields of the Profile record's bytes. -/
def decodeProfile (bs : List Byte) : ProfileRecord :=
  { replyTimeout := field bs 0 2, beaconLoss := field bs 2 2, uploadRetry := field bs 4 2,
    uploadAttempts := field bs 6 1, uploadHoldoff := field bs 7 2, slotSpacing := field bs 9 1,
    presenceInterval := field bs 10 2, tipCapPercent := field bs 12 1, journalLow := field bs 13 2,
    standIn := field bs 15 1, levelMgmtReply := field bs 16 1, levelAuth := field bs 17 1,
    levelUpload := field bs 18 1, levelData := field bs 19 1, levelPresence := field bs 20 1 }

/-- R136: a value brought to the nearer bound of its range. -/
def clamp (lo hi v : Nat) : Nat := if v < lo then lo else if hi < v then hi else v

/-- R136: the record as taken. -/
def clampProfile (p : ProfileRecord) : ProfileRecord :=
  { replyTimeout := clamp 100 3000 p.replyTimeout, beaconLoss := clamp 50 6000 p.beaconLoss,
    uploadRetry := clamp 50 6000 p.uploadRetry, uploadAttempts := clamp 1 8 p.uploadAttempts,
    uploadHoldoff := clamp 500 60000 p.uploadHoldoff, slotSpacing := clamp 1 50 p.slotSpacing,
    presenceInterval := clamp 100 6000 p.presenceInterval, tipCapPercent := clamp 0 100 p.tipCapPercent,
    journalLow := clamp 8 256 p.journalLow, standIn := clamp 0 1 p.standIn,
    levelMgmtReply := clamp 1 3 p.levelMgmtReply, levelAuth := clamp 0 3 p.levelAuth,
    levelUpload := clamp 0 3 p.levelUpload, levelData := clamp 0 3 p.levelData,
    levelPresence := clamp 0 3 p.levelPresence }

/-- R184: a flag byte as read: 0 is clear, 1 is set; another byte is not stated (log 36). -/
def flagRead (b : Byte) : Bool := if b = 0 then false else if b = 1 then true else Config.otherFlag b

/-- R2, log 8: the stored IRT header: generation, row count, host-readable flag, row check value, own check value. -/
def encodeIrtHeader (h : IrtHeader) : List Byte :=
  let body := be 2 h.generation ++ be 2 h.rows ++ flagByte h.readable ++ checkBytes h.check
  body ++ checkBytes (checkValue body)

/-- R2: the stored IRT header, when intact. -/
def decodeIrtHeader (bs : List Byte) : Option IrtHeader :=
  if checkBytes (checkValue (bs.take 7)) == (bs.drop 7).take 2 then
    some { generation := field bs 0 2, rows := field bs 2 2, readable := flagRead (BitVec.ofNat 8 (field bs 4 1)),
           check := BitVec.ofNat 16 (field bs 5 2) }
  else none

/-- R137, log 8: the stored Profile header: generation, record count, check value, own check value. -/
def encodeProfileHeader (h : ProfileHeader) : List Byte :=
  let body := be 2 h.generation ++ be 2 h.records ++ checkBytes h.check
  body ++ checkBytes (checkValue body)

/-- R137: the stored Profile header, when intact. -/
def decodeProfileHeader (bs : List Byte) : Option ProfileHeader :=
  if checkBytes (checkValue (bs.take 6)) == (bs.drop 6).take 2 then
    some { generation := field bs 0 2, records := field bs 2 2, check := BitVec.ofNat 16 (field bs 4 2) }
  else none

/-- R121: an epoch word. -/
def encodeEpochWord (epoch : Nat) : List Byte := be 2 epoch ++ checkBytes (checkValue (be 2 epoch))

/-- R121: whether a word reads erased. -/
def wordErased (bs : List Byte) : Bool := bs.all (· == erasedByte)

/-- R121: the epoch of a valid word. -/
def decodeEpochWord (bs : List Byte) : Option Nat :=
  if !wordErased bs && checkBytes (checkValue (bs.take 2)) == bs.drop 2 then some (field bs 0 2) else none

/-! ### Codes (R184, R185) -/

/-- R184: table codes. -/
def tableOf (code : BitVec 8) : Option TableName :=
  match code.toNat with
  | 1 => some .irt
  | 2 => some .profile
  | _ => none

def TableName.code : TableName → Nat
  | .irt => 1
  | .profile => 2

/-- R184: a request's code. -/
def requestCode : Instr → BitVec 8
  | .authorize .. => 0x01
  | .readResult .. => 0x02
  | .split .. => 0x03
  | .queryBill .. => 0x04
  | .listBills .. => 0x05
  | .void .. => 0x06
  | .readRange .. => 0x07
  | .readExposure .. => 0x08
  | .nextEvent .. => 0x09
  | .setMasks .. => 0x0A
  | .sleep .. => 0x0B
  | .portReset .. => 0x0C
  | .status .. => 0x0D
  | .unknownRequest _ p => p.headD 0
  | _ => 0x00

/-- R184: a management command's code. -/
def commandCode : Instr → BitVec 8
  | .assign .. => 0x01
  | .release .. => 0x02
  | .linkReset .. => 0x03
  | .queryStatus .. => 0x04
  | .billPush .. => 0x10
  | .billAmend .. => 0x11
  | .billDrop .. => 0x12
  | .loadOpen .. => 0x20
  | .loadRow .. => 0x21
  | .loadClose .. => 0x22
  | .loadVerify .. => 0x23
  | .dumpRow .. => 0x24
  | .unknownCommand _ _ p => p.headD 0
  | _ => 0x00

/-- The tag of a host frame. -/
def hostTag : Instr → BitVec 16
  | .authorize t .. => t
  | .readResult t .. => t
  | .split t .. => t
  | .queryBill t .. => t
  | .listBills t => t
  | .void t .. => t
  | .readRange t .. => t
  | .readExposure t .. => t
  | .nextEvent t => t
  | .setMasks t .. => t
  | .sleep t => t
  | .portReset t => t
  | .status t _ => t
  | .unknownRequest t _ => t
  | .hostData t _ => t
  | _ => 0

/-- The tag of a management frame. -/
def mgmtTag : Instr → BitVec 16
  | .assign _ t .. => t
  | .release _ t => t
  | .linkReset _ t => t
  | .queryStatus _ t => t
  | .billPush _ t .. => t
  | .billAmend _ t .. => t
  | .billDrop _ t .. => t
  | .loadOpen _ t .. => t
  | .loadRow _ t .. => t
  | .loadClose _ t .. => t
  | .loadVerify _ t .. => t
  | .dumpRow _ t .. => t
  | .unknownCommand _ t _ => t
  | _ => 0

/-- The address of a radio frame. -/
def radioAddr : Instr → BitVec 8
  | .assign a .. => a
  | .release a _ => a
  | .linkReset a _ => a
  | .queryStatus a _ => a
  | .billPush a .. => a
  | .billAmend a .. => a
  | .billDrop a .. => a
  | .loadOpen a .. => a
  | .loadRow a .. => a
  | .loadClose a .. => a
  | .loadVerify a .. => a
  | .dumpRow a .. => a
  | .unknownCommand a .. => a
  | .beacon a .. => a
  | .authReply a .. => a
  | .uploadConfirm a .. => a
  | .gatewayData a .. => a
  | _ => 0

/-- R182: the broadcast address. -/
def broadcastAddr : BitVec 8 := 255

/-- R184: the outcome byte. -/
def Answer.code : Answer → Nat
  | .ok => 0 | .accepted => 1 | .pending => 2 | .none => 3 | .busy => 4 | .starting => 5 | .unknownRequest => 6
  | .badLength => 7 | .badField => 8 | .badSelector => 9
  | .badCount => 10 | .badSlot => 11 | .full => 12 | .powerLow => 13 | .zeroAmount => 14 | .amountRange => 15
  | .slotsFull => 16 | .noBill => 17 | .settled => 18 | .tendersFull => 19
  | .shareRequired => 20 | .noShare => 21 | .shareTaken => 22 | .shareMismatch => 23 | .overTender => 24
  | .numbersExhausted => 25 | .noResult => 26 | .rowProtected => 27 | .noRow => 28 | .billExists => 29
  | .overpaid => 30 | .inUse => 31 | .belowTendered => 32 | .sharesFull => 33 | .tooSmall => 34 | .noTender => 35
  | .journalFull => 36 | .storeFault => 37 | .locked => 38 | .noSession => 39
  | .sequence => 40 | .valid => 41 | .invalid => 42

def TableState.code : TableState → Nat
  | .empty => 0 | .loading => 1 | .valid => 2 | .invalid => 3

def Condition.code : Condition → Nat
  | .none => 0 | .count => 1 | .check => 2 | .field => 3 | .interval => 4 | .floorOverCap => 5 | .order => 6
  | .overlap => 7 | .duplicateId => 8 | .readback => 9 | .sequence => 10 | .storeFault => 11

def Broken.code : Broken → Nat
  | .no => 0 | .sequence => 1 | .storeFault => 2

def LinkState.code : LinkState → Nat
  | .search => 0 | .up => 1 | .down => 2

def UploadPhase.code : UploadPhase → Nat
  | .off => 0 | .idle => 1 | .awaitingConfirm => 2 | .holdoff => 3

/-- R184: FREE is 0. -/
def slotStateCode : Option SlotState → Nat
  | .none => 0 | some .awaitingReply => 1 | some .storing => 2 | some .done => 3

def Result.code : Result → Nat
  | .none => 0 | .approvedOffline => 1 | .approvedOnline => 2 | .declinedIssuer => 3 | .declined => 4

def DeclineReason.code : DeclineReason → Nat
  | .none => 0 | .tipOverCap => 1 | .unlisted => 2 | .onlineOnly => 3 | .noStandIn => 4 | .floorLimit => 5
  | .cumulativeCap => 6 | .cardRepeat => 7 | .tallyFull => 8 | .repeatFull => 9 | .journalFull => 10 | .noReply => 11
  | .storeFault => 12 | .linkReset => 13

def Path.code : Path → Nat
  | .online => 0 | .offline => 1

def BillState.code : BillState → Nat
  | .opened => 0 | .settled => 1

def ShareState.code : ShareState → Nat
  | .opened => 0 | .reserved => 1 | .paid => 2

def TenderState.code : TenderState → Nat
  | .approved => 0 | .voided => 1

/-- R184: NONE is 0. -/
def opKindCode : Option OpKind → Nat
  | .none => 0 | some .recordProgram => 1 | some .mark => 2 | some .epochProgram => 3 | some .pageProgram => 4
  | some .blockErase => 5

/-- R184: NONE is 0. -/
def opResultCode : Option OpResult → Nat
  | .none => 0 | some .success => 1 | some .fail => 2 | some .timeLimit => 3

def FaultKind.code : FaultKind → Nat
  | .recordProgram => 0 | .noRoom => 1 | .mark => 2 | .blockErase => 3 | .torn => 4 | .epoch => 5 | .tableErase => 6
  | .pageProgram => 7

def lineCode : Line → Nat
  | .deasserted => 0 | .asserted => 1

def HostPower.code : HostPower → Nat
  | .awake => 0 | .asleep => 1

/-- R171: an event's priority number, its code. -/
def Event.priority : Event → Nat
  | .powerWarn => 0 | .storeFault => 1 | .lateDecline => 2 | .authDone => 3 | .linkChange => 4 | .billChange => 5
  | .journalLow => 6 | .tableChange => 7 | .dataWaiting => 8 | .ready => 9

/-! ### Reply payloads (R184, log 19) -/

/-- R184: a list is a count byte followed by its entries. -/
def listBytes {α : Type} (entries : List α) (enc : α → List Byte) : List Byte :=
  be 1 entries.length ++ entries.flatMap enc

/-- R184: an entry is coded 0 when absent and 1 when present. -/
def optionBytes (x : Option Nat) (n : Nat) : List Byte :=
  match x with
  | none => [0]
  | some v => 1 :: be n v

/-- R184: a set of authorization slots, bit n for slot n. -/
def slotSetByte (slots : List Nat) : Nat :=
  (if slots.contains 0 then 1 else 0) + (if slots.contains 1 then 2 else 0) + (if slots.contains 2 then 4 else 0)
    + (if slots.contains 3 then 8 else 0)

/-- Shares with their share indexes, from 1 (R18). -/
def indexedShares (shares : List Share) : List (Nat × Share) :=
  (List.range shares.length).zip shares |>.map (fun p => (p.1 + 1, p.2))

def EventDetail.bytes : EventDetail → List Byte
  | .powerWarn l => be 1 0 ++ be 1 (lineCode l)
  | .storeFault d => be 1 1 ++ be 1 d.kind.code ++ be 2 d.torn ++ be 1 d.since
  | .lateDecline d => be 1 2 ++ listBytes d.items (be 4) ++ flagByte d.overflow
  | .authDone slots => be 1 3 ++ be 1 (slotSetByte slots)
  | .linkChange d => be 1 4 ++ be 1 d.state.code ++ be 2 d.oldCell ++ be 2 d.newCell
  | .billChange d => be 1 5 ++ listBytes d.items (be 2) ++ flagByte d.overflow
  | .journalLow n => be 1 6 ++ be 2 n
  | .tableChange d => be 1 7 ++ optionBytes d.irt 2 ++ optionBytes d.profile 2
  | .dataWaiting n => be 1 8 ++ be 1 n
  | .ready e => be 1 9 ++ be 2 e

/-- R153: the groups in the table's order. -/
def StatusReport.bytes (r : StatusReport) : List Byte :=
  be 1 r.link.state.code ++ be 1 r.link.addr ++ be 1 r.link.replySlot ++ be 2 r.link.cell ++ flagByte r.link.baseHeld
    ++ be 6 r.link.identity.toNat
    ++ be 1 r.tables.irtState.code ++ be 2 r.tables.irtGeneration ++ be 2 r.tables.irtRows
    ++ be 1 r.tables.profileState.code ++ be 2 r.tables.profileGeneration
    ++ be 2 r.journal.free ++ be 2 r.journal.live ++ flagByte r.journal.low
    ++ be 1 r.journal.upload.code ++ be 4 r.journal.txn ++ be 1 r.journal.attempts
    ++ flagByte r.store.busy ++ be 1 (opKindCode r.store.op) ++ be 1 (opResultCode r.store.last)
    ++ be 1 (opResultCode r.store.prev)
    ++ be 2 r.counters.radioBad ++ be 2 r.counters.hostBad ++ be 2 r.counters.lateDiscarded
    ++ be 2 r.counters.heldOverflow ++ be 2 r.counters.storeFaults ++ be 2 r.counters.programFailures
    ++ be 2 r.counters.eraseFailures ++ be 2 r.counters.timeLimitFailures
    ++ be 2 r.epoch ++ flagByte r.exhausted

/-- R179: a slot's state and, when not FREE, its transaction number. -/
def slotReportBytes : Option (SlotState × Nat) → List Byte
  | none => be 1 (slotStateCode none)
  | some (st, txn) => be 1 (slotStateCode (some st)) ++ be 4 txn

def HostReport.bytes (h : HostReport) : List Byte :=
  be 1 h.power.code ++ flagByte h.sleepPending ++ be 1 h.delivery ++ h.slots.flatMap slotReportBytes
    ++ be 2 h.pending.toNat ++ be 2 h.run.toNat ++ be 2 h.wake.toNat ++ flagByte h.attn
    ++ be 1 (lineCode h.pwrwarn) ++ be 1 (lineCode h.loadlock)

/-- R17, R31: a tender's fields in R17's order. -/
def Tender.bytes (t : Tender) : List Byte :=
  be 4 t.txn ++ be 4 t.base ++ be 4 t.tip ++ be 4 t.token.toNat ++ be 1 t.path.code ++ be 1 t.state.code
    ++ be 1 t.share ++ be 2 t.rangeId ++ be 1 t.route

/-- R31: the summary, then the plan or its absence. -/
def Bill.summaryBytes (b : Bill) : List Byte :=
  be 2 b.number ++ be 2 b.place ++ be 4 b.due ++ be 4 b.priorPaid ++ be 4 b.paid ++ be 4 b.reserved
    ++ be 4 (b.due - b.paid - b.reserved) ++ be 1 b.state.code ++ be 3 b.opened ++ be 4 b.voidPending
    ++ be 1 b.tenders.length
    ++ (match b.plan with
      | none => [0]
      | some plan => 1 :: listBytes (indexedShares plan)
          (fun p => be 1 p.1 ++ be 4 p.2.amount ++ be 1 p.2.state.code ++ be 4 p.2.txn))

/-- R184: the outcome byte of a reply. -/
def Reply.answer : Reply → Answer
  | .plain a => a
  | .accepted .. => .accepted
  | .resultPending .. => .pending
  | .noEvent _ => .none
  | .closed true _ _ _ => .valid
  | .closed false _ _ _ => .invalid
  | .result .. => .ok
  | .plan _ => .ok
  | .summary _ => .ok
  | .tenders _ => .ok
  | .bills _ => .ok
  | .voided _ => .ok
  | .range .. => .ok
  | .tallies .. => .ok
  | .repeats .. => .ok
  | .event .. => .ok
  | .masks .. => .ok
  | .status _ => .ok
  | .hostStatus .. => .ok
  | .assigned .. => .ok
  | .released _ => .ok
  | .pushed .. => .ok
  | .amended .. => .ok
  | .loadOpened .. => .ok
  | .rowTaken _ => .ok
  | .verify _ => .ok
  | .dumped .. => .ok

/-- What follows the outcome byte. DEDUCED (log 38): SPLIT's reply (R30) carries its plan as the count and the shares,
without the byte by which R184 codes a plan absent or present. -/
def Reply.content : Reply → List Byte
  | .plain _ => []
  | .accepted slot txn => be 1 slot ++ be 4 txn
  | .resultPending slot txn => be 1 slot ++ be 4 txn
  | .result slot a =>
    be 1 slot ++ be 4 a.txn ++ be 2 a.bill ++ be 1 a.share ++ be 4 a.token.toNat ++ be 4 a.base ++ be 4 a.tip
      ++ be 1 a.result.code ++ be 1 a.reason.code ++ be 1 a.issuer ++ be 1 a.path.code ++ flagByte a.standIn
      ++ be 2 a.rangeId ++ be 1 a.route
  | .plan shares => listBytes (indexedShares shares) (fun p => be 1 p.1 ++ be 4 p.2.amount ++ be 1 p.2.state.code)
  | .summary b => b.summaryBytes
  | .tenders ts => listBytes ts Tender.bytes
  | .bills es => listBytes es (fun e => be 2 e.1 ++ be 2 e.2.1 ++ be 1 e.2.2.code)
  | .voided n => be 4 n
  | .range generation rows index row => be 2 generation ++ be 2 rows ++ be 2 index ++ encodeRow row
  | .tallies held es => be 2 held ++ listBytes es
      (fun e => be 2 e.1 ++ be 2 e.2.rangeId ++ be 2 e.2.count ++ be 5 e.2.sum)
  | .repeats held es => be 2 held ++ listBytes es (fun e => be 2 e.1 ++ be 4 e.2.token.toNat ++ be 2 e.2.count)
  | .event d pending => d.bytes ++ be 2 pending.toNat
  | .noEvent pending => be 2 pending.toNat
  | .masks run wake => be 2 run.toNat ++ be 2 wake.toNat
  | .status r => r.bytes
  | .hostStatus r h => r.bytes ++ h.bytes
  | .assigned addr slot state => be 1 addr ++ be 1 slot ++ be 1 state.code
  | .released addr => be 1 addr
  | .pushed derived paid state => be 1 derived ++ be 4 paid ++ be 1 state.code
  | .amended due paid state => be 4 due ++ be 4 paid ++ be 1 state.code
  | .loadOpened t generation => be 1 t.code ++ be 2 generation
  | .rowTaken index => be 2 index
  | .closed _ c index generation => be 1 c.code ++ be 2 index ++ be 2 generation
  | .verify r => be 1 r.table.code ++ be 1 r.state.code ++ be 2 r.generation ++ be 2 r.rows ++ be 2 r.received
      ++ be 1 r.broken.code
  | .dumped index state generation bytes => be 2 index ++ be 1 state.code ++ be 2 generation ++ bytes

/-- R184: a reply's payload: the code of what it answers, the outcome byte, the content. -/
def replyPayload (code : BitVec 8) (r : Reply) : List Byte := code :: (be 1 r.answer.code ++ r.content)

/-! ### Frames on the wire (R181, R184, R185) -/

/-- R184: an uplink frame's kind. -/
def Uplink.kind : Uplink → Nat
  | .mgmtReply .. => 0x13
  | .authRequest _ => 0x11
  | .upload .. => 0x12
  | .data _ => 0x05
  | .presence _ => 0x14

/-- R185: an uplink frame's payload. -/
def Uplink.payload : Uplink → List Byte
  | .mgmtReply code r => replyPayload code r
  | .authRequest r =>
    be 4 r.txn ++ be 2 r.rangeId ++ be 1 r.route ++ be 4 r.pfx ++ be 4 r.token.toNat ++ be 4 r.base ++ be 4 r.tip
      ++ be 2 r.bill ++ be 2 r.place
  | .upload _ record attempt => record ++ be 1 attempt
  | .data p => p
  | .presence i => be 6 i.toNat

/-- R181: the bytes the radio port sends for a frame. -/
def Frame.wire (f : Frame) : List Byte := Machine.wire f.payload.kind f.addr f.tag f.payload.payload

/-- R181, R182: the bytes the host port sends for a reply; every host frame carries address 0. -/
def HostReply.wire (r : HostReply) : List Byte := Machine.wire 0x22 0 r.tag (replyPayload r.code r.body)

/-- The bytes the host port sends for a delivery frame. -/
def DataFrame.wire (f : DataFrame) : List Byte := Machine.wire 0x05 0 f.tag f.payload

end Sys2Proof.Machine
end

