-- ==== Sys2Proof/Machine/Flags.lean ====
section
/-! DEFINITION. The Event Unit: raising and clearing the ten latches, the masks, ATTN (R171 to R177), and the
saturating counters (00 section 5.8). -/

namespace Sys2Proof.Machine

/-- 00 section 5.8: a counter grows by one and saturates at 65,535. -/
def bump (n : Nat) : Nat := min (n + 1) Limits.word16Max

/-- The latches changed. -/
def State.setLatches (s : State) (l : Latches) : State := s.setEvents { s.events with latches := l }

/-! ### Raising -/

/-- R172: POWER_WARN takes the new line state. -/
def raisePowerWarn (l : Line) (s : State) : State := s.setLatches { s.events.latches with powerWarn := some l }

/-- R172: the detail after a STORE_FAULT raise; `torn` is the count a TORN raise carries. -/
def storeFaultDetail (kind : FaultKind) (torn : Option Nat) : Option StoreFaultDetail → StoreFaultDetail
  | none => { kind := kind, torn := torn.getD 0, since := 1 }
  | some d => { kind := kind, torn := torn.getD d.torn, since := min (d.since + 1) Limits.faultsSince }

/-- R126, R172: STORE_FAULT is raised and the store faults counter grows. -/
def raiseStoreFault (kind : FaultKind) (torn : Option Nat) (s : State) : State :=
  (s.setLatches { s.events.latches with
      storeFault := some (storeFaultDetail kind torn s.events.latches.storeFault) }).setStore
    { s.store with storeFaults := bump s.store.storeFaults }

/-- R174: a bounded list takes a number. -/
def listDetail (capacity n : Nat) : Option ListDetail → ListDetail
  | none => { items := [n], overflow := false }
  | some d =>
    if d.items.contains n then d
    else if d.items.length < capacity then { d with items := d.items ++ [n] }
    else { d with overflow := true }

/-- R174: LATE_DECLINE names a transaction number. -/
def raiseLateDecline (txn : Nat) (s : State) : State :=
  s.setLatches { s.events.latches with
    lateDecline := some (listDetail Limits.lateDeclines txn s.events.latches.lateDecline) }

/-- R174: BILL_CHANGE names a bill. -/
def raiseBillChange (bill : Nat) (s : State) : State :=
  s.setLatches { s.events.latches with
    billChange := some (listDetail Limits.billChanges bill s.events.latches.billChange) }

/-- Whether a slot is in DONE. -/
def slotDone : Option Auth → Bool
  | some a => a.state == .done
  | none => false

/-- R173: the numbers of the slots in DONE. -/
def doneSlots (s : State) : List Nat :=
  (List.range s.decision.slots.length).filter (fun i => slotDone (s.decision.slots.getD i none))

/-- R173: AUTH_DONE after slot `i` has reached DONE. -/
def raiseAuthDone (i : Nat) (s : State) : State :=
  s.setLatches { s.events.latches with
    authDone := some (match s.events.latches.authDone with
      | none => doneSlots s
      | some set => if set.contains i then set else set ++ [i]) }

/-- R173: a slot freed by READ RESULT leaves the set; an empty set clears the latch. -/
def dropAuthDone (i : Nat) (s : State) : State :=
  s.setLatches { s.events.latches with
    authDone := match s.events.latches.authDone with
      | none => none
      | some set => if (set.filter (· ≠ i)).isEmpty then none else some (set.filter (· ≠ i)) }

/-- R148, R172: LINK_CHANGE; a pending latch keeps its old cell. -/
def raiseLinkChange (state : LinkState) (oldCell newCell : Nat) (s : State) : State :=
  s.setLatches { s.events.latches with
    linkChange := some (match s.events.latches.linkChange with
      | none => { state := state, oldCell := oldCell, newCell := newCell }
      | some d => { state := state, oldCell := d.oldCell, newCell := newCell }) }

/-- R172: JOURNAL_LOW takes the free space. -/
def raiseJournalLow (free : Nat) (s : State) : State :=
  s.setLatches { s.events.latches with journalLow := some free }

/-- R172: TABLE_CHANGE; the raise's table takes its generation, the other entry is kept. -/
def raiseTableChange (t : TableName) (generation : Nat) (s : State) : State :=
  let d := s.events.latches.tableChange.getD { irt := none, profile := none }
  s.setLatches { s.events.latches with
    tableChange := some (match t with
      | .irt => { d with irt := some generation }
      | .profile => { d with profile := some generation }) }

/-- R172: DATA_WAITING takes the number of frames the delivery queue holds. -/
def raiseDataWaiting (frames : Nat) (s : State) : State :=
  s.setLatches { s.events.latches with dataWaiting := some frames }

/-- R172: the epoch READY reports, 65,535 when the Decision Unit is exhausted. -/
def readyEpoch (d : Decision) : Nat := if d.exhausted then Limits.word16Max else d.epoch

/-- R171: READY. -/
def raiseReady (s : State) : State :=
  s.setLatches { s.events.latches with ready := some (readyEpoch s.decision) }

/-! ### Reading and clearing -/

/-- R176: the event of a pending latch. -/
def Latches.detail (l : Latches) : Event → Option EventDetail
  | .powerWarn => l.powerWarn.map .powerWarn
  | .storeFault => l.storeFault.map .storeFault
  | .lateDecline => l.lateDecline.map .lateDecline
  | .authDone => l.authDone.map .authDone
  | .linkChange => l.linkChange.map .linkChange
  | .billChange => l.billChange.map .billChange
  | .journalLow => l.journalLow.map .journalLow
  | .tableChange => l.tableChange.map .tableChange
  | .dataWaiting => l.dataWaiting.map .dataWaiting
  | .ready => l.ready.map .ready

/-- A latch cleared. -/
def Latches.drop (l : Latches) : Event → Latches
  | .powerWarn => { l with powerWarn := none }
  | .storeFault => { l with storeFault := none }
  | .lateDecline => { l with lateDecline := none }
  | .authDone => { l with authDone := none }
  | .linkChange => { l with linkChange := none }
  | .billChange => { l with billChange := none }
  | .journalLow => { l with journalLow := none }
  | .tableChange => { l with tableChange := none }
  | .dataWaiting => { l with dataWaiting := none }
  | .ready => { l with ready := none }

/-- R171: whether a source's latch is pending. -/
def Latches.pending (l : Latches) (e : Event) : Bool := (l.detail e).isSome

/-- R171: the sources, highest priority first. -/
def eventOrder : List Event :=
  [.powerWarn, .storeFault, .lateDecline, .authDone, .linkChange, .billChange, .journalLow, .tableChange, .dataWaiting,
   .ready]

/-- R184: the set of pending latches, bit n for priority n. -/
def Latches.pendingSet (l : Latches) : BitVec 10 :=
  eventOrder.foldl (fun m e => if l.pending e then m ||| (1 <<< e.priority) else m) 0

/-- R175: whether a mask enables a source. -/
def maskEnables (m : BitVec 10) (e : Event) : Bool := m.getLsbD e.priority

/-- R176: the pending latch of highest priority that a mask enables. -/
def Latches.first (l : Latches) (m : BitVec 10) : Option Event :=
  eventOrder.find? (fun e => l.pending e && maskEnables m e)

/-- R177: whether ATTN is asserted: a pending latch is enabled in the mask of the host power state. -/
def attn (s : State) : Bool :=
  (s.events.latches.first (match s.host.power with | .awake => s.events.run | .asleep => s.events.wake)).isSome

end Sys2Proof.Machine
end

