-- ==== Sys2Proof/Machine/Ops.lean ====
section
/-! DEFINITION. The named operations that several blocks share: the Profile values in force, the lookup, reading and
setting record slots, free space and the low flag, record time, timers, and the queueing of replies. -/

namespace Sys2Proof.Machine

/-! ### Tables -/

/-- R136: the Profile values in force. -/
def params (s : State) : ProfileRecord :=
  match s.profile.state with
  | .valid => s.profile.values
  | .empty => .defaults
  | .loading => .defaults
  | .invalid => .defaults

/-- R1: whether a prefix lies within a row. -/
def IrtRow.contains (r : IrtRow) (p : Nat) : Bool := r.prefixLow ≤ p && p ≤ r.prefixHigh

/-- R8: the lookup of a prefix; `none` is a miss. -/
def lookup (s : State) (p : Nat) : Option IrtRow :=
  match s.irt.state with
  | .valid => s.irt.mirror.find? (fun r => r.contains p)
  | .empty => none
  | .loading => none
  | .invalid => none

/-- Rows the open session has taken, 0 without one. -/
def sessionReceived (s : State) : Nat := (s.loader.session.map Session.received).getD 0

/-- R3: the reported row count of a table: the rows taken in LOADING, the stored count in VALID. -/
def reportedRows (s : State) : TableName → Nat
  | .irt =>
    match s.irt.state with
    | .valid => s.irt.mirror.length
    | .loading => sessionReceived s
    | .empty => 0
    | .invalid => 0
  | .profile =>
    match s.profile.state with
    | .valid => 1
    | .loading => sessionReceived s
    | .empty => 0
    | .invalid => 0

/-- R3, R137: a table's state. -/
def tableState (s : State) : TableName → TableState
  | .irt => s.irt.state
  | .profile => s.profile.state

/-- R3, R137: a table's reported generation. -/
def tableGeneration (s : State) : TableName → Nat
  | .irt => s.irt.generation
  | .profile => s.profile.generation

/-! ### Journal -/

/-- A journal block. -/
def blockAt (s : State) (b : Nat) : JBlock := s.journal.blocks.getD b .erased

/-- A record slot. -/
def recordSlotAt (s : State) (loc : Loc) : RecordSlot := (blockAt s loc.block).slots.getD loc.slot .fresh

/-- A journal with one block changed. -/
def Journal.onBlock (j : Journal) (b : Nat) (f : JBlock → JBlock) : Journal := { j with blocks := j.blocks.modify b f }

/-- A journal with one record slot changed. -/
def Journal.onSlot (j : Journal) (loc : Loc) (f : RecordSlot → RecordSlot) : Journal :=
  j.onBlock loc.block (fun blk => { blk with slots := blk.slots.modify loc.slot f })

/-- A record slot takes a state. -/
def setRecordState (loc : Loc) (st : RecordState) (s : State) : State :=
  s.setJournal (s.journal.onSlot loc (fun r => { r with state := st }))

/-- A block's record slots with their locations. -/
def blockSlots (s : State) (b : Nat) : List (Loc × RecordSlot) :=
  ((List.range (blockAt s b).slots.length).zip (blockAt s b).slots).map (fun p => ({ block := b, slot := p.1 }, p.2))

/-- R78: the record slots in journal order. -/
def orderedSlots (s : State) : List (Loc × RecordSlot) := s.journal.order.flatMap (blockSlots s)

/-- Every record slot, block by block. -/
def everySlot (s : State) : List (Loc × RecordSlot) := (List.range Limits.journalBlocks).flatMap (blockSlots s)

/-- R78: LIVE or OUTSTANDING. -/
def RecordState.unfinishedRecord : RecordState → Bool
  | .live => true
  | .outstanding => true
  | _ => false

/-- R76: the states that hold a journal record. -/
def RecordState.holdsRecord : RecordState → Bool
  | .live => true
  | .outstanding => true
  | .done => true
  | .voided => true
  | _ => false

/-- R76: finished. -/
def RecordState.finished : RecordState → Bool
  | .done => true
  | .voided => true
  | .bad => true
  | .torn => true
  | .unused => true
  | _ => false

/-- The record a slot of the array holds, when its check value is valid (R92, R186). -/
def recordAt (s : State) (loc : Loc) : Option JRecord :=
  if recordValid (s.array.readBytes loc.addr Limits.recordBytes) then
    some (decodeRecord (s.array.readBytes loc.addr Limits.recordBytes))
  else none

/-- R100: the first LIVE record in journal order. -/
def firstLive (s : State) : Option Loc := ((orderedSlots s).find? (fun p => p.2.state == .live)).map Prod.fst

/-- R78: the upload position. -/
def uploadPosition (s : State) : Option Loc :=
  ((orderedSlots s).find? (fun p => p.2.state.unfinishedRecord)).map Prod.fst

/-- R78: the live count. -/
def liveCount (s : State) : Nat := ((everySlot s).filter (fun p => p.2.state.unfinishedRecord)).length

/-- R85: the free space. -/
def Journal.freeSpace (j : Journal) : Nat :=
  (match j.writeAt with | some loc => Limits.blockSlots - loc.slot | none => 0)
    + Limits.blockSlots * (j.blocks.filter (fun b => b.state == .erased)).length

/-- R79: the pending count, staged record included. -/
def Journal.pendingCount (j : Journal) : Nat := j.queue.length

/-- R80: the staged record: the head of the queue while a record is in program. -/
def Journal.staged (j : Journal) : Option QueuedRecord :=
  match j.inProgram with
  | some _ => j.queue.head?
  | none => none

/-- R86: the low flag is evaluated. -/
def evaluateLow (s : State) : State :=
  if s.journal.freeSpace < (params s).journalLow then
    if s.journal.lowFlag then s
    else raiseJournalLow s.journal.freeSpace (s.setJournal { s.journal with lowFlag := true })
  else s.setJournal { s.journal with lowFlag := false }

/-- R84: the record time and the time-unknown flag. -/
def recordTime (l : Link) : Nat × Bool :=
  match l.base with
  | some b => ((b.s + b.t / 100) % Limits.daySeconds, false)
  | none => (0, true)

/-! ### Timers -/

/-- R154: one tick boundary passes for a timer. -/
def tickTimer : Timer → Timer
  | some n => some (n - 1)
  | none => none

/-- R155: a slot's reply timer changed. -/
def setReplyTimer (i : Nat) (t : Timer) (s : State) : State :=
  s.setTimers { s.timers with reply := s.timers.reply.set i t }

/-- R155: the UPLOAD timer changed. -/
def setUploadTimer (t : Timer) (s : State) : State := s.setTimers { s.timers with upload := t }

/-! ### Replies -/

/-- R164: a reply joins the pending replies. -/
def queueReply (r : HostReply) (s : State) : State := s.setHost { s.host with replies := s.host.replies ++ [r] }

/-- R168: the reply of the request in progress is made ready. -/
def answerRequest (code : BitVec 8) (tag : BitVec 16) (body : Reply) (s : State) : State :=
  queueReply { code := code, tag := tag, body := body, ofRequest := true } s

/-- R157: a management reply joins the MGMT_REPLY queue, stamped with the link address held. -/
def queueMgmtReply (code : BitVec 8) (tag : BitVec 16) (body : Reply) (s : State) : State :=
  s.setArbiter { s.arbiter with
    mgmt := s.arbiter.mgmt ++ [{ tag := tag, addr := s.link.addr, payload := .mgmtReply code body }] }

end Sys2Proof.Machine
end

