-- ==== Sys2Proof/Machine/BillOps.lean ====
section
/-! DEFINITION. The Bill Table (R15 to R38): what reservation, commit, release, void, split, amend, push and drop do to
a bill. -/

namespace Sys2Proof.Machine

/-- The entry of a bill number. -/
def findBill (s : State) (n : Nat) : Option Bill := s.bills.entries.find? (fun b => b.number == n)

/-- R19: due less paid less reserved. -/
def Bill.available (b : Bill) : Nat := b.due - b.paid - b.reserved

/-- R20: the state that paid, due and reserved give. -/
def Bill.stateNow (b : Bill) : BillState := if b.paid = b.due ∧ b.reserved = 0 then .settled else .opened

/-- An entry changed in place. -/
def updateBill (n : Nat) (f : Bill → Bill) (s : State) : State :=
  s.setBills { s.bills with entries := s.bills.entries.map (fun b => if b.number = n then f b else b) }

/-- R16, R20: the settled list when a bill passes from one state to another. -/
def settledAfter (n : Nat) (before after : BillState) (settled : List Nat) : List Nat :=
  match before, after with
  | .opened, .settled => settled ++ [n]
  | .settled, .opened => settled.filter (· ≠ n)
  | .opened, .opened => settled
  | .settled, .settled => settled

/-- R20: a bill's state is computed again. -/
def restate (n : Nat) (s : State) : State :=
  match findBill s n with
  | none => s
  | some b =>
    (updateBill n (fun b => { b with state := b.stateNow }) s).setBills
      { (updateBill n (fun b => { b with state := b.stateNow }) s).bills with
        settled := settledAfter n b.state b.stateNow s.bills.settled }

/-- A change of a bill that changes paid, reserved or due: the state again, and BILL_CHANGE (R20, R174). -/
def changeBill (n : Nat) (f : Bill → Bill) (s : State) : State := raiseBillChange n (restate n (updateBill n f s))

/-- R18: a share of a plan changed, by share index from 1. -/
def setShare (k : Nat) (st : ShareState) (txn : Nat) (plan : List Share) : List Share :=
  if k = 0 then plan else plan.modify (k - 1) (fun sh => { sh with state := st, txn := txn })

/-- R18: whether a share is PAID. -/
def Share.isPaid (sh : Share) : Bool := sh.state == .paid

/-- R18: whether a plan is open: it holds an OPEN or RESERVED share. -/
def Bill.planOpen (b : Bill) : Bool :=
  match b.plan with
  | some plan => plan.any (fun sh => !sh.isPaid)
  | none => false

/-- R18: the share of an index, if the plan holds it. -/
def Bill.shareAt (b : Bill) (k : Nat) : Option Share :=
  match b.plan with
  | some plan => if k = 0 then none else plan[k - 1]?
  | none => none

/-- Whether a slot names a bill and is in AWAITING_REPLY or STORING. -/
def unresolvedOn (n : Nat) : Option Auth → Bool
  | some a => a.bill == n && a.state != .done
  | none => false

/-- R17: slots naming the bill that are in AWAITING_REPLY or STORING. -/
def unresolvedSlots (s : State) (n : Nat) : Nat := (s.decision.slots.filter (unresolvedOn n)).length

/-- R17: claimed tender places. -/
def claimedPlaces (s : State) (b : Bill) : Nat := b.tenders.length + unresolvedSlots s b.number

/-! ### Reserve, commit, release, void -/

/-- R21: a base, and a share if one is named, is reserved. -/
def Bill.reserve (b : Bill) (base share txn : Nat) : Bill :=
  { b with reserved := b.reserved + base, plan := b.plan.map (setShare share .reserved txn) }

/-- R22: the tender a slot commits. -/
def Auth.tender (a : Auth) (path : Path) : Tender :=
  { txn := a.txn, base := a.base, tip := a.tip, token := a.token, path := path, state := .approved, share := a.share,
    rangeId := a.rangeId, route := a.route }

/-- R22: a reservation becomes a tender. -/
def Bill.commit (b : Bill) (a : Auth) (path : Path) : Bill :=
  { b with tenders := b.tenders ++ [a.tender path], reserved := b.reserved - a.base, paid := b.paid + a.base,
           plan := b.plan.map (setShare a.share .paid a.txn) }

/-- R23: a reservation is given back. -/
def Bill.release (b : Bill) (a : Auth) : Bill :=
  { b with reserved := b.reserved - a.base, plan := b.plan.map (setShare a.share .opened 0) }

/-- R17: the tender of a transaction number. -/
def Bill.tenderOf (b : Bill) (txn : Nat) : Option Tender := b.tenders.find? (fun t => t.txn == txn)

/-- R36: a tender becomes VOIDED. -/
def Bill.applyVoid (b : Bill) (txn : Nat) : Bill :=
  match b.tenderOf txn with
  | none => b
  | some t =>
    { b with
      tenders := b.tenders.map (fun u => if u.txn = txn then { u with state := .voided, share := 0 } else u)
      paid := b.paid - t.base
      plan := b.plan.map (setShare t.share .opened 0) }

/-- R22: the commit of a slot on its bill. -/
def commitBill (a : Auth) (path : Path) (s : State) : State := changeBill a.bill (fun b => b.commit a path) s

/-- R23: the release of a slot on its bill. -/
def releaseBill (a : Auth) (s : State) : State := changeBill a.bill (fun b => b.release a) s

/-! ### Plans -/

/-- R27, R30: the new index of a PAID share when the OPEN shares are discarded. -/
def renumber (plan : List Share) (k : Nat) : Nat := ((plan.take k).filter Share.isPaid).length

/-- R27, R30: the share indexes of the APPROVED tenders follow their shares. -/
def followShares (plan : List Share) (ts : List Tender) : List Tender :=
  ts.map (fun t => if t.state = .approved ∧ t.share ≠ 0 then { t with share := renumber plan t.share } else t)

/-- R30: the n new shares of a remainder r. -/
def newShares (r n : Nat) : List Share :=
  (List.range n).map (fun k =>
    { amount := r / n + (if k + 1 ≤ r % n then 1 else 0), state := .opened, txn := 0 })

/-- R30: the split of a bill. -/
def Bill.split (b : Bill) (n : Nat) : Bill :=
  { b with plan := some ((b.plan.getD []).filter Share.isPaid ++ newShares (b.due - b.paid) n),
           tenders := followShares (b.plan.getD []) b.tenders }

/-- R27: a plan left with no shares becomes absent. -/
def planOf : List Share → Option (List Share)
  | [] => none
  | sh :: rest => some (sh :: rest)

/-- R27: the amend of a bill. -/
def Bill.amend (b : Bill) (due : Nat) : Bill :=
  { b with due := due, plan := planOf ((b.plan.getD []).filter Share.isPaid),
           tenders := followShares (b.plan.getD []) b.tenders }

/-- R28, R26: an entry leaves the Bill Table, table order and the settled list; BILL_CHANGE names it. -/
def removeBill (n : Nat) (s : State) : State :=
  raiseBillChange n (s.setBills
    { entries := s.bills.entries.filter (fun b => b.number ≠ n), settled := s.bills.settled.filter (· ≠ n) })

/-- R26, R37: the entry that can be evicted: the first of the settled list whose void pending is 0. -/
def evictable (s : State) : Option Nat :=
  s.bills.settled.find? (fun n =>
    match findBill s n with
    | some b => b.voidPending == 0
    | none => false)

/-! ### Host requests on bills -/

/-- R29: the checks of SPLIT, in order. -/
def splitRefusal (b : Bill) (n : Nat) : Option Answer :=
  if n < 2 ∨ 12 < n then some .badCount
  else if 0 < b.reserved ∨ b.voidPending ≠ 0 then some .inUse
  else if b.state = .settled then some .settled
  else if Limits.shares < ((b.plan.getD []).filter Share.isPaid).length + n then some .sharesFull
  else if (b.due - b.paid) / n = 0 then some .tooSmall
  else none

/-- R29, R30: SPLIT. -/
def serveSplit (tag : BitVec 16) (bill n : Nat) (s : State) : State :=
  match findBill s bill with
  | none => answerRequest 0x03 tag (.plain .noBill) s
  | some b =>
    match splitRefusal b n with
    | some r => answerRequest 0x03 tag (.plain r) s
    | none =>
      answerRequest 0x03 tag (.plan ((b.split n).plan.getD []))
        (raiseBillChange bill (updateBill bill (fun b => b.split n) s))

/-- R31: QUERY BILL. -/
def serveQueryBill (tag : BitVec 16) (bill sel first : Nat) (s : State) : State :=
  match findBill s bill with
  | none => answerRequest 0x04 tag (.plain .noBill) s
  | some b =>
    if sel = 1 then answerRequest 0x04 tag (.summary b) s
    else if sel = 2 then answerRequest 0x04 tag (.tenders ((b.tenders.drop first).take Limits.replyEntries)) s
    else answerRequest 0x04 tag (.plain .badSelector) s

/-- R32: LIST BILLS. -/
def serveListBills (tag : BitVec 16) (s : State) : State :=
  answerRequest 0x05 tag (.bills (s.bills.entries.map (fun b => (b.number, b.place, b.state)))) s

/-! ### Gateway commands on bills: the reply and the state after -/

/-- R24: a field of a BILL PUSH out of range. -/
def pushBadField (bill place due prior opened : Nat) (known : List Nat) : Bool :=
  bill == 0 || place == 0 || Limits.placeMax < place || Limits.amountMax < due || Limits.amountMax < prior
    || Limits.secondsMax < opened || Limits.known < known.length

/-- R25: the originals that REVERSAL records in LIVE, OUTSTANDING or DONE name. -/
def reversedOriginals (s : State) : List Nat :=
  (everySlot s).filterMap (fun p =>
    match p.2.state with
    | .live | .outstanding | .done =>
      match recordAt s p.1 with
      | some r => if r.kind = .reversal then some r.original else none
      | none => none
    | _ => none)

/-- R25: the tender a journal approval gives. -/
def JRecord.tender (r : JRecord) : Tender :=
  { txn := r.txn, base := r.base, tip := r.tip, token := r.token, path := .offline, state := .approved, share := 0,
    rangeId := r.rangeId, route := r.route }

/-- R25, R89: the derived tenders of a bill, in journal order. -/
def derivedTenders (s : State) (bill : Nat) (known : List Nat) : List Tender :=
  (orderedSlots s).filterMap (fun p =>
    if p.2.state.unfinishedRecord then
      match recordAt s p.1 with
      | some r =>
        if r.kind = .approval ∧ r.bill = bill ∧ r.txn ∉ known ∧ r.txn ∉ reversedOriginals s then some r.tender
        else none
      | none => none
    else none)

/-- The sum of the bases of tenders. -/
def baseSum (ts : List Tender) : Nat := (ts.map Tender.base).sum

/-- R26: the entry a push creates. -/
def pushedBill (bill place due prior opened : Nat) (ts : List Tender) : Bill :=
  let b : Bill :=
    { number := bill, place := place, due := due, priorPaid := prior, paid := prior + baseSum ts, reserved := 0,
      state := .opened, opened := opened, tenders := ts, plan := none, voidPending := 0 }
  { b with state := b.stateNow }

/-- R26: the new entry joins the end of table order, and the settled list when SETTLED. -/
def addBill (b : Bill) (s : State) : State :=
  raiseBillChange b.number (s.setBills
    { entries := s.bills.entries ++ [b], settled := settledAfter b.number .opened b.state s.bills.settled })

/-- R25: the checks of BILL PUSH after BAD_FIELD, in order. -/
def pushRefusal (s : State) (bill due prior : Nat) (ts : List Tender) : Option Answer :=
  if (findBill s bill).isSome then some .billExists
  else if due < prior + baseSum ts then some .overpaid
  else if Limits.tenders < ts.length then some .tendersFull
  else if Limits.bills ≤ s.bills.entries.length ∧ evictable s = none then some .full
  else none

/-- R26: eviction when the table is full. -/
def makeRoom (s : State) : State :=
  if Limits.bills ≤ s.bills.entries.length then
    match evictable s with
    | some n => removeBill n s
    | none => s
  else s

/-- R25, R26: BILL PUSH. -/
def takeBillPush (bill place due prior opened : Nat) (known : List Nat) (s : State) : State × Reply :=
  if pushBadField bill place due prior opened known then (s, .plain .badField)
  else
    let ts := derivedTenders s bill known
    match pushRefusal s bill due prior ts with
    | some r => (s, .plain r)
    | none =>
      let b := pushedBill bill place due prior opened ts
      (addBill b (makeRoom s), .pushed ts.length b.paid b.state)

/-- R27: the checks of BILL AMEND on a bill. -/
def amendRefusal (b : Bill) (due : Nat) : Option Answer :=
  if b.voidPending ≠ 0 ∨ (b.plan.getD []).any (fun sh => sh.state == .reserved) then some .inUse
  else if due < b.paid + b.reserved then some .belowTendered
  else none

/-- R27: BILL AMEND. -/
def takeBillAmend (bill due : Nat) (s : State) : State × Reply :=
  if Limits.amountMax < due ∨ bill = 0 then (s, .plain .badField)
  else
    match findBill s bill with
    | none => (s, .plain .noBill)
    | some b =>
      match amendRefusal b due with
      | some r => (s, .plain r)
      | none => (changeBill bill (fun b => b.amend due) s, .amended due b.paid (b.amend due).stateNow)

/-- R28: BILL DROP. -/
def takeBillDrop (bill : Nat) (s : State) : State × Reply :=
  if bill = 0 then (s, .plain .badField)
  else
    match findBill s bill with
    | none => (s, .plain .noBill)
    | some b =>
      if 0 < b.reserved ∨ b.voidPending ≠ 0 then (s, .plain .inUse)
      else (removeBill bill s, .plain .ok)

end Sys2Proof.Machine
end

