-- ==== Sys2Proof/Machine/StoreOps.lean ====
section
/-! DEFINITION. The Store Engine (R115 to R127): requests, the choice of the next operation, what an operation writes,
and the epoch update. -/

namespace Sys2Proof.Machine

/-! ### Requests (R119) -/

/-- A RECORD PROGRAM joins the record place. -/
def requestRecord (loc : Loc) (bytes : List Byte) (s : State) : State :=
  s.setStore { s.store with recordPlace := some (loc, bytes) }

/-- A MARK joins the end of the mark list. -/
def requestMark (r : MarkRequest) (s : State) : State := s.setStore { s.store with marks := s.store.marks ++ [r] }

/-- A PAGE PROGRAM joins the page place. -/
def requestPage (r : PageRequest) (s : State) : State := s.setStore { s.store with pagePlace := some r }

/-- A BLOCK ERASE joins the end of the erase list. -/
def requestErase (r : EraseRequest) (s : State) : State := s.setStore { s.store with erases := s.store.erases ++ [r] }

/-! ### Epoch update (R122) -/

/-- R122 steps 1 and 2: the next word is programmed, or the epoch block is erased first. -/
def stepUpdate (epoch : Nat) (s : State) : State :=
  if s.store.epochAt < Limits.epochWords then
    s.setStore { s.store with epochPlace := some (s.store.epochAt, epoch), epochAt := s.store.epochAt + 1 }
  else requestErase { target := .epoch, second := false } s

/-- R122: an epoch update of a new epoch begins; `startUp` when the scan makes it (R95), not the wrap (R123). -/
def startUpdate (epoch : Nat) (startUp : Bool) (s : State) : State :=
  stepUpdate epoch
    (s.setStore { s.store with update := some { epoch := epoch, retry := false, startUp := startUp } })

/-! ### Choosing (R119, R120) -/

/-- Whether an erase request is for a journal block. -/
def EraseRequest.isJournal (r : EraseRequest) : Bool :=
  match r.target with
  | .journal _ => true
  | .epoch => false
  | .table _ => false

/-- R119: from the erase list, a journal block in the order requested, then the epoch block, then the table block. -/
def nextErase (es : List EraseRequest) : Option EraseRequest :=
  match es.find? EraseRequest.isJournal with
  | some r => some r
  | none =>
    match es.find? (fun r => r.target == .epoch) with
    | some r => some r
    | none => es.head?

/-- R119, R120: the first request that may start, and the engine without it; `long`: the kinds withheld under PWRWARN
may start. -/
def Store.choose (st : Store) (long : Bool) : Option (StoreOp × Store) :=
  match st.recordPlace with
  | some p => some (.recordProgram p.1 p.2, { st with recordPlace := none })
  | none =>
    match st.marks with
    | r :: rest => some (.mark r, { st with marks := rest })
    | [] =>
      if long then
        match st.epochPlace with
        | some p => some (.epochProgram p.1 p.2, { st with epochPlace := none })
        | none =>
          match st.pagePlace with
          | some r => some (.pageProgram r, { st with pagePlace := none })
          | none =>
            match nextErase st.erases with
            | some r => some (.blockErase r, { st with erases := st.erases.erase r })
            | none => none
      else none

/-- R119: the idle engine starts the request it chooses; a busy engine, or one with nothing that may start, does
nothing. -/
def startOperation (s : State) : State :=
  match s.store.running with
  | some _ => s
  | none =>
    match s.store.choose (s.pins.pwrwarn == .deasserted) with
    | some p => s.setStore { p.2 with running := some p.1 }
    | none => s

/-! ### Operations (R116, R117) -/

/-- R116. -/
def StoreOp.kind : StoreOp → OpKind
  | .recordProgram .. => .recordProgram
  | .mark _ => .mark
  | .epochProgram .. => .epochProgram
  | .pageProgram _ => .pageProgram
  | .blockErase _ => .blockErase

/-- R115: whether a record slot exists. -/
def Loc.inArray (l : Loc) : Bool := l.block < Limits.journalBlocks && l.slot < Limits.blockSlots

/-- R115: whether an operation's target exists in the array. -/
def StoreOp.targetExists : StoreOp → Bool
  | .recordProgram loc bytes => loc.inArray && bytes.length ≤ Limits.recordBytes
  | .mark r => r.loc.inArray
  | .epochProgram w _ => w < Limits.epochWords
  | .pageProgram r => r.bytes.length ≤ pageBytes && (r.page + 1) * pageBytes ≤ r.table.bytes
  | .blockErase r =>
    match r.target with
    | .journal b => b < Limits.journalBlocks
    | .epoch => true
    | .table _ => true

/-- R116, R117: the array after an operation, and whether its read-back matches. -/
def StoreOp.apply (m : Mem) (e : ArrayEnd) : StoreOp → Mem × Bool
  | .recordProgram loc bytes => m.program loc.addr bytes e
  | .mark r => m.program (markAddr r.loc r.kind) [markValue] e
  | .epochProgram w epoch => m.program (epochWordAddr w) (encodeEpochWord epoch) e
  | .pageProgram r => m.program (r.table.base + r.page * pageBytes) r.bytes e
  | .blockErase r => m.erase r.target.base r.target.bytes e

/-- R116, R118: the completion; `limit` when the operation was stopped at its time limit. -/
def completionOf (limit readBack : Bool) : OpResult :=
  if limit then .timeLimit else if readBack then .success else .fail

/-- R126: the failure counters at a completion. -/
def Store.count (st : Store) (k : OpKind) (r : OpResult) : Store :=
  let failed : Store :=
    match k with
    | .blockErase => { st with eraseFailures := bump st.eraseFailures }
    | .recordProgram => { st with programFailures := bump st.programFailures }
    | .mark => { st with programFailures := bump st.programFailures }
    | .epochProgram => { st with programFailures := bump st.programFailures }
    | .pageProgram => { st with programFailures := bump st.programFailures }
  match r with
  | .success => st
  | .fail => failed
  | .timeLimit => { failed with timeLimitFailures := bump st.timeLimitFailures }

/-- R69: a mark's record, left without the mark. -/
def loseMark (r : MarkRequest) (m : Mem) : Mem := m.write (markAddr r.loc r.kind) erasedByte

/-- R117, R118: the array after an operation that ended with a completion: what it wrote, or as far as it came. A MARK
that fails for the second time leaves its record without the mark (R69). DEDUCED (log 40). -/
def StoreOp.leaves (m : Mem) (e : ArrayEnd) (r : OpResult) (op : StoreOp) : Mem :=
  let left := (op.apply m e).1
  match op with
  | .mark q => if q.second ∧ r ≠ .success then loseMark q left else left
  | .recordProgram .. => left
  | .epochProgram .. => left
  | .pageProgram _ => left
  | .blockErase _ => left

/-- R116 to R118: the running operation ends: the array takes what it leaves, the engine becomes idle, the counters
grow. -/
def endOperation (op : StoreOp) (limit : Bool) (e : ArrayEnd) (s : State) : State :=
  let r := completionOf limit (op.apply s.array e).2
  (s.setArray (op.leaves s.array e r)).setStore ({ s.store with running := none }.count op.kind r)

/-! ### Cut short by a reset (R13, R124) -/

/-- R2: where a table's header lies: page 0. -/
def headerBytes (m : Mem) (t : TableName) : List Byte := m.readBytes t.base 9

/-- R2, R137: how many bytes a table's stored header has (log 8). -/
def TableName.headerLength : TableName → Nat
  | .irt => 9
  | .profile => 8

/-- R2, R137: whether a table's stored header is intact. -/
def headerIntact (m : Mem) : TableName → Bool
  | .irt => (decodeIrtHeader (headerBytes m .irt)).isSome
  | .profile => (decodeProfileHeader ((headerBytes m .profile).take 8)).isSome

/-- R13, a table's erase cut short: its header is erased or damaged. -/
def loseHeader (t : TableName) (m : Mem) : Mem :=
  if headerIntact m t then m.eraseRange t.base t.headerLength else m

/-- R13, a header's program cut short: the header is not intact and the block not wholly erased. -/
def tearHeader (t : TableName) (m : Mem) : Mem :=
  if headerIntact m t ∨ m.erasedRange t.base t.bytes then (m.eraseRange t.base t.headerLength).write t.base 0x00 else m

/-- The bytes of a record slot. -/
def slotBytes (m : Mem) (loc : Loc) : List Byte := m.readBytes loc.addr Limits.recordBytes

/-- R91, R93: a record slot in an erase cut short, whose block was finished and stays so: it does not come to read
LIVE. DEDUCED (log 9): one that would is erased. -/
def keepFinished (before : Mem) (loc : Loc) (m : Mem) : Mem :=
  let bs := slotBytes m loc
  if recordValid bs ∧ markedState bs = .live ∧ bs ≠ slotBytes before loc then m.eraseRange loc.addr Limits.recordBytes
  else m

/-- R121: the bytes of an epoch word. -/
def epochWord (m : Mem) (w : Nat) : List Byte := m.readBytes (epochWordAddr w) 4

/-- R124: an epoch word in a write cut short holds no valid epoch. -/
def loseWord (w : Nat) (m : Mem) : Mem :=
  if (decodeEpochWord (epochWord m w)).isSome then m.eraseRange (epochWordAddr w) 4 else m

/-- R13, R91, R124: what a block erase cut short leaves in its block, from the array `before` it. -/
def EraseTarget.cut (before m : Mem) : EraseTarget → Mem
  | .journal b => (List.range Limits.blockSlots).foldl (fun m i => keepFinished before { block := b, slot := i } m) m
  | .epoch => (List.range Limits.epochWords).foldl (fun m w => loseWord w m) m
  | .table t => loseHeader t m

/-- R13, R97, R124: the array after an operation that a reset cut short. A record program and a mark leave what `e`
says: R97 has the record found LIVE, TORN or erased. For the others it is narrowed to what the rules say is left: no
valid epoch word, no intact header, no record newly LIVE (log 9). -/
def StoreOp.cut (m : Mem) (e : ArrayEnd) (op : StoreOp) : Mem :=
  let left := (op.apply m e).1
  match op with
  | .recordProgram .. => left
  | .mark _ => left
  | .epochProgram w _ => loseWord w left
  | .pageProgram r => if r.page = 0 then tearHeader r.table left else left
  | .blockErase r => r.target.cut m left

/-- R124: the running operation is stopped where it stands by a reset; no completion is given. -/
def interruptOperation (e : ArrayEnd) (s : State) : State :=
  match s.store.running with
  | none => s
  | some op => s.setArray (op.cut s.array e)

/-- R125: the record results at a RECORD PROGRAM completion. -/
def handRecordResult (r : OpResult) (s : State) : State :=
  s.setStore { s.store with prevRecord := s.store.lastRecord, lastRecord := some r }

end Sys2Proof.Machine
end

