-- ==== Sys2Proof/Machine/TallyOps.lean ====
section
/-! DEFINITION. The Tally Unit (R58 to R72): reading, adding to and subtracting from the tally table and the repeat
list, both in creation order. -/

namespace Sys2Proof.Machine

/-- The entry of a range id. -/
def Tally.entryOf (t : Tally) (rangeId : Nat) : Option TallyEntry := t.table.find? (fun e => e.rangeId == rangeId)

/-- The entry of a card token. -/
def Tally.repeatOf (t : Tally) (token : BitVec 32) : Option RepeatEntry := t.repeats.find? (fun e => e.token == token)

/-- R62: the tally sum of a range id, 0 without an entry. -/
def Tally.sumOf (t : Tally) (rangeId : Nat) : Nat := ((t.entryOf rangeId).map TallyEntry.sum).getD 0

/-- R62: the repeat count of a token, 0 without an entry. -/
def Tally.countOf (t : Tally) (token : BitVec 32) : Nat := ((t.repeatOf token).map RepeatEntry.count).getD 0

/-- R62: room for a range id. -/
def Tally.roomForRange (t : Tally) (rangeId : Nat) : Bool :=
  (t.entryOf rangeId).isSome || t.table.length < Limits.tallyRoom

/-- R62: room for a token. -/
def Tally.roomForToken (t : Tally) (token : BitVec 32) : Bool :=
  (t.repeatOf token).isSome || t.repeats.length < Limits.repeatRoom

/-- R63: one count and a total are added to a range id's tally. -/
def addTally (rangeId total : Nat) (es : List TallyEntry) : List TallyEntry :=
  if es.any (fun e => e.rangeId == rangeId) then
    es.map (fun e => if e.rangeId = rangeId then { e with count := e.count + 1, sum := e.sum + total } else e)
  else es ++ [{ rangeId := rangeId, count := 1, sum := total }]

/-- R63: one count is added to a token's repeat entry. -/
def addRepeat (token : BitVec 32) (es : List RepeatEntry) : List RepeatEntry :=
  if es.any (fun e => e.token == token) then
    es.map (fun e => if e.token = token then { e with count := e.count + 1 } else e)
  else es ++ [{ token := token, count := 1 }]

/-- R64 to R66: one count and a total are taken from a range id's tally; an entry at count 0 is removed. -/
def subTally (rangeId total : Nat) (es : List TallyEntry) : List TallyEntry :=
  (es.map (fun e =>
    if e.rangeId = rangeId then { e with count := e.count - 1, sum := e.sum - total } else e)).filter
      (fun e => e.count ≠ 0)

/-- R64 to R66: one count is taken from a token's repeat entry; an entry at count 0 is removed. -/
def subRepeat (token : BitVec 32) (es : List RepeatEntry) : List RepeatEntry :=
  (es.map (fun e => if e.token = token then { e with count := e.count - 1 } else e)).filter (fun e => e.count ≠ 0)

/-- R63: an approval is added to both collections. -/
def Tally.add (t : Tally) (rangeId : Nat) (token : BitVec 32) (total : Nat) : Tally :=
  { table := addTally rangeId total t.table, repeats := addRepeat token t.repeats }

/-- R64 to R66: an approval is taken from both collections. -/
def Tally.sub (t : Tally) (rangeId : Nat) (token : BitVec 32) (total : Nat) : Tally :=
  { table := subTally rangeId total t.table, repeats := subRepeat token t.repeats }

/-- R46: base plus tip. -/
def JRecord.total (r : JRecord) : Nat := r.base + r.tip

/-- R61, R68: an APPROVAL record begins to be counted; a REVERSAL record never is. -/
def countRecord (r : JRecord) (t : Tally) : Tally :=
  match r.kind with
  | .approval => t.add r.rangeId r.token r.total
  | .reversal => t

/-- R61, R64 to R66: an APPROVAL record stops being counted. -/
def uncountRecord (r : JRecord) (t : Tally) : Tally :=
  match r.kind with
  | .approval => t.sub r.rangeId r.token r.total
  | .reversal => t

/-- Up to `n` entries of a list from an index on, each with its index. -/
def window {α : Type} (first n : Nat) (es : List α) : List (Nat × α) :=
  ((List.range es.length).zip es |>.drop first).take n

/-- R71: READ EXPOSURE. -/
def serveReadExposure (tag : BitVec 16) (sel first : Nat) (s : State) : State :=
  if sel = 1 then
    answerRequest 0x08 tag (.tallies s.tally.table.length (window first Limits.replyEntries s.tally.table)) s
  else if sel = 2 then
    answerRequest 0x08 tag (.repeats s.tally.repeats.length (window first Limits.replyEntries s.tally.repeats)) s
  else answerRequest 0x08 tag (.plain .badSelector) s

end Sys2Proof.Machine
end

