-- ==== Sys2Proof/Machine/SlotOps.lean ====
section
/-! DEFINITION. Authorization slots, transaction numbers and the late list (R39 to R42, R51 to R53). -/

namespace Sys2Proof.Machine

/-! ### Slots -/

/-- A slot; `none` is FREE. -/
def slotAt (s : State) (i : Nat) : Option Auth := s.decision.slots.getD i none

/-- A slot changed. -/
def setSlot (i : Nat) (x : Option Auth) (s : State) : State :=
  s.setDecision { s.decision with slots := s.decision.slots.set i x }

/-- R44: the lowest-numbered FREE slot. -/
def freeSlot (s : State) : Option Nat := s.decision.slots.findIdx? Option.isNone

/-- Whether a slot is in AWAITING_REPLY. -/
def awaiting : Option Auth → Bool
  | some a => a.state == .awaitingReply
  | none => false

/-- R51: the slot in AWAITING_REPLY with a transaction number. -/
def awaitingSlot (s : State) (txn : Nat) : Option Nat :=
  s.decision.slots.findIdx? (fun x => awaiting x && (x.map Auth.txn == some txn))

/-- R46: base plus tip. -/
def Auth.total (a : Auth) : Nat := a.base + a.tip

/-- R40: whether a result commits, and with which tender path (R22). -/
def Result.commitPath : Result → Option Path
  | .approvedOffline => some .offline
  | .approvedOnline => some .online
  | .none => Option.none
  | .declinedIssuer => Option.none
  | .declined => Option.none

/-- R40: a slot reaches DONE: the bill commits (R22) or releases (R23), and AUTH_DONE is raised (R173). -/
def settleSlot (i : Nat) (a : Auth) (result : Result) (reason : DeclineReason) (issuer : Nat) (s : State) : State :=
  let done : Auth := { a with state := .done, result := result, reason := reason, issuer := issuer }
  let s := setSlot i (some done) s
  raiseAuthDone i (match result.commitPath with
    | some path => commitBill done path s
    | none => releaseBill done s)

/-! ### Transaction numbers (R41, R42) -/

/-- R41: the transaction number of an epoch and a sequence. -/
def numberOf (epoch seq : Nat) : Nat := epoch * 65536 + seq

/-- R41, R42: the number that will be issued next. -/
def nextNumber (s : State) : Nat := numberOf s.decision.epoch (s.decision.seq + 1)

/-- R41, R42: the state after a number is issued, with the wrap step. -/
def issueNumber (s : State) : State :=
  if s.decision.seq + 1 < Limits.word16Max then s.setDecision { s.decision with seq := s.decision.seq + 1 }
  else if s.decision.epoch < Limits.word16Max then
    startUpdate (s.decision.epoch + 1) false
      (s.setDecision { s.decision with epoch := s.decision.epoch + 1, seq := 0, exhausted := true })
  else s.setDecision { s.decision with seq := s.decision.seq + 1, exhausted := true }

/-! ### Late list (R53) -/

/-- R53: a number joins the end of the late list; a full list loses its oldest entry first. -/
def joinLate (txn : Nat) (o : LateOutcome) (s : State) : State :=
  let kept := if s.decision.late.length < Limits.late then s.decision.late else s.decision.late.drop 1
  s.setDecision { s.decision with late := kept ++ [{ txn := txn, outcome := o }] }

/-- R53: the entry of a stand-in approval that failed finally becomes DECLINED. -/
def declineLate (txn : Nat) (s : State) : State :=
  s.setDecision { s.decision with
    late := s.decision.late.map (fun e => if e.txn = txn then { e with outcome := .declined } else e) }

/-- R53, R109: the late-replies-discarded counter grows. -/
def countLate (s : State) : State :=
  s.setDecision { s.decision with lateDiscarded := bump s.decision.lateDiscarded }

/-- R53: an entry leaves the late list. -/
def dropLate (txn : Nat) (s : State) : State :=
  s.setDecision { s.decision with late := s.decision.late.filter (fun e => e.txn ≠ txn) }

/-- R53: a reply that matches no slot in AWAITING_REPLY is judged. -/
def judgeLate (txn : Nat) (decline : Bool) (s : State) : State :=
  match s.decision.late.find? (fun e => e.txn == txn) with
  | none => countLate s
  | some e =>
    match e.outcome, decline with
    | .stoodIn, true => dropLate txn (raiseLateDecline txn s)
    | .stoodIn, false => dropLate txn (countLate s)
    | .declined, true => dropLate txn (countLate s)
    | .declined, false => dropLate txn (countLate s)

/-! ### AUTH REQUEST frames -/

/-- Whether a frame is the AUTH REQUEST of a transaction number. -/
def Frame.isAuthOf (txn : Nat) (f : Frame) : Bool :=
  match f.payload with
  | .authRequest r => r.txn == txn
  | .mgmtReply .. => false
  | .upload .. => false
  | .data _ => false
  | .presence _ => false

/-- R161: a slot's AUTH REQUEST is withdrawn if still queued. -/
def withdrawAuth (txn : Nat) (s : State) : State :=
  s.setArbiter { s.arbiter with auth := s.arbiter.auth.filter (fun f => !f.isAuthOf txn) }

end Sys2Proof.Machine
end

