-- ==== Sys2Proof/Machine/JournalOps.lean ====
section
/-! DEFINITION. The Deferred Journal's writer, marks, reclaim and searches (R73 to R91), and the ends of the payments
and VOIDs whose records it programs (R34, R35, R49). -/

namespace Sys2Proof.Machine

/-! ### Searches (R89) -/

/-- Whether a slot holds the journal record of a transaction number. -/
def holdsNumber (s : State) (txn : Nat) (p : Loc × RecordSlot) : Bool :=
  p.2.state.holdsRecord && ((recordAt s p.1).map JRecord.txn == some txn)

/-- R89: the journal record of a transaction number: its slot and its state. -/
def findRecord (s : State) (txn : Nat) : Option (Loc × RecordState) :=
  ((everySlot s).find? (holdsNumber s txn)).map (fun p => (p.1, p.2.state))

/-! ### The write position (R77, R80, R91) -/

/-- R77, R78: a block becomes FILLING and joins the end of the block order, the write position at its slot 0. -/
def Journal.openBlock (j : Journal) (b : Nat) : Journal :=
  { j.onBlock b (fun blk => { blk with state := .filling }) with
    order := j.order ++ [b], writeAt := some { block := b, slot := 0 } }

/-- R80: the ERASED blocks after a block in cyclic order (J0 after J3), the block itself last. -/
def Journal.erasedAfter (j : Journal) (b : Nat) : Option Nat :=
  [(b + 1) % 4, (b + 2) % 4, (b + 3) % 4, b % 4].find? (fun k => (j.blocks.getD k .erased).state == .erased)

/-- R80: the write position moves past the slot taken. -/
def Journal.advance (j : Journal) (loc : Loc) : Journal :=
  if loc.slot + 1 < Limits.blockSlots then { j with writeAt := some { loc with slot := loc.slot + 1 } }
  else
    let full := { j.onBlock loc.block (fun blk => { blk with state := .full }) with writeAt := none }
    match full.erasedAfter loc.block with
    | some b => full.openBlock b
    | none => full

/-! ### Issue (R80) -/

/-- R80: a record is issued into the slot at the write position. -/
def issueRecord (loc : Loc) (e : QueuedRecord) (retry : Bool) (s : State) : State :=
  evaluateLow (requestRecord loc (encodeRecord e.record)
    (s.setJournal
      { (s.journal.onSlot loc (fun r => { r with state := .programming })).advance loc with
        inProgram := some { loc := loc, entry := e, retry := retry } }))

/-! ### Outcomes told to the requester (R34, R35, R49) -/

/-- R34, R35: the VOID in progress ends with a reply. -/
def endVoid (job : VoidJob) (body : Reply) (s : State) : State :=
  answerRequest 0x06 job.tag body (s.setHost { s.host with voidJob := none })

/-- R35: a bill's void pending returns to 0. -/
def clearVoidPending (bill : Nat) (s : State) : State := updateBill bill (fun b => { b with voidPending := 0 }) s

/-- R36: a void that succeeds changes the bill. -/
def voidTender (bill txn : Nat) (s : State) : State := changeBill bill (fun b => b.applyVoid txn) s

/-- R49, R81: a record's program succeeded. -/
def recordStored (e : QueuedRecord) (s : State) : State :=
  match e.requester with
  | .slot i =>
    match slotAt s i with
    | some a => settleSlot i a .approvedOffline .none a.issuer s
    | none => s
  | .void =>
    match s.host.voidJob with
    | some job =>
      endVoid job (.voided e.record.txn) (voidTender job.bill job.tender (clearVoidPending job.bill s))
    | none => s

/-- R49, R82, R83: a record is given up: its second failure, or it is unplaced. -/
def recordLost (e : QueuedRecord) (s : State) : State :=
  match e.requester with
  | .slot i =>
    match slotAt s i with
    | some a =>
      settleSlot i a .declined .storeFault a.issuer
        (declineLate e.record.txn (s.setTally (uncountRecord e.record s.tally)))
    | none => s
  | .void =>
    match s.host.voidJob with
    | some job => endVoid job (.plain .storeFault) (clearVoidPending job.bill s)
    | none => s

/-- R83: a record that finds no block FILLING is unplaced. -/
def recordUnplaced (e : QueuedRecord) (s : State) : State := recordLost e (raiseStoreFault .noRoom none s)

/-! ### The writer (R79, R80) -/

/-- R80, R83: with nothing in program, the head of the queue is issued; one that finds no room is unplaced and the next
meets the same. -/
def issueQueue : List QueuedRecord → State → State
  | [], s => s.setJournal { s.journal with queue := [] }
  | e :: rest, s =>
    match s.journal.writeAt with
    | some loc => issueRecord loc e false (s.setJournal { s.journal with queue := rest })
    | none => issueQueue rest (recordUnplaced e (s.setJournal { s.journal with queue := rest }))

/-- R80: the writer issues its next record when none is in program. -/
def issueNext (s : State) : State :=
  match s.journal.inProgram with
  | some _ => s
  | none => issueQueue s.journal.queue s

/-- R79: a record joins the end of the append queue. -/
def appendRecord (e : QueuedRecord) (s : State) : State :=
  issueNext (s.setJournal { s.journal with queue := s.journal.queue ++ [e] })

/-- R82, R83: the retry that is due is issued before any queued record. -/
def issueRetry (e : QueuedRecord) (s : State) : State :=
  match s.journal.writeAt with
  | some loc => issueRecord loc e true s
  | none => recordUnplaced e s

/-! ### Reclaim (R90) -/

/-- R90: a block that can be reclaimed, when it is first in the block order. -/
def reclaimable (s : State) (b : Nat) : Bool :=
  (blockAt s b).state == .full && (blockAt s b).slots.all (fun r => r.state.finished && !r.markPending)

/-- R90: from the front of the block order, every block that can be reclaimed becomes ERASING and its erase is
requested. -/
def reclaimFrom : List Nat → State → State
  | [], s => s
  | b :: rest, s =>
    if reclaimable s b then
      reclaimFrom rest (requestErase { target := .journal b, second := false }
        (s.setJournal { s.journal.onBlock b (fun blk => { blk with state := .erasing }) with order := rest }))
    else s

/-- R90: reclaim is tested. -/
def reclaim (s : State) : State := reclaimFrom s.journal.order s

/-! ### Marks (R88) -/

/-- R88: the state a mark gives in the part's view. -/
def MarkKind.recordState : MarkKind → RecordState
  | .uploaded => .done
  | .voided => .voided

/-- R88: a record takes its new state, its mark pending flag is set and a MARK is requested. -/
def markRecord (loc : Loc) (k : MarkKind) (s : State) : State :=
  requestMark { loc := loc, kind := k, second := false }
    (s.setJournal (s.journal.onSlot loc (fun _ => { state := k.recordState, markPending := true })))

/-- R88: a slot's mark pending flag is cleared. -/
def clearMarkPending (loc : Loc) (s : State) : State :=
  s.setJournal (s.journal.onSlot loc (fun r => { r with markPending := false }))

/-- R34: the VOID waiting for a mark ends, OK with a reversal transaction number of 0. -/
def endVoidByMark (r : MarkRequest) (s : State) : State :=
  match s.host.voidJob with
  | none => s
  | some job =>
    match job.path with
    | .reversal _ => s
    | .mark loc => if r.kind = .voided ∧ loc = r.loc then endVoid job (.voided 0) s else s

/-- R88, R90: a MARK's completion. -/
def takeMarkResult (r : MarkRequest) (ok : Bool) (s : State) : State :=
  if ok then reclaim (endVoidByMark r (clearMarkPending r.loc s))
  else if r.second then reclaim (endVoidByMark r (clearMarkPending r.loc (raiseStoreFault .mark none s)))
  else requestMark { r with second := true } s

/-! ### Erases of journal blocks (R91) -/

/-- R91: a journal block's erase succeeded. -/
def blockErased (b : Nat) (s : State) : State :=
  let j := s.journal.onBlock b (fun _ => .erased)
  evaluateLow (s.setJournal (match j.writeAt with
    | some _ => j
    | none => j.openBlock b))

/-- R91: a journal BLOCK ERASE's completion. -/
def takeJournalErase (b : Nat) (second ok : Bool) (s : State) : State :=
  if ok then blockErased b s
  else if second then
    raiseStoreFault .blockErase none
      (s.setJournal (s.journal.onBlock b (fun blk => { blk with state := .retired })))
  else requestErase { target := .journal b, second := true } s

/-! ### VOID (R33 to R35) -/

/-- R33: the checks of VOID, in order. -/
def voidRefusal (s : State) (bill txn : Nat) : Option Answer :=
  match findBill s bill with
  | none => some .noBill
  | some b =>
    match b.tenderOf txn with
    | none => some .noTender
    | some t =>
      if t.state = .voided then some .noTender
      else if s.decision.slots.any (unresolvedOn bill) then some .inUse
      else none

/-- R33, R34: the LIVE record by whose mark a tender is voided. -/
def voidMark (s : State) (t : Tender) : Option Loc :=
  match t.path with
  | .online => none
  | .offline =>
    match findRecord s t.txn with
    | some (loc, .live) => some loc
    | _ => none

/-- R84, R48: the record time of a record queued now. -/
def stampTime (s : State) (r : JRecord) : JRecord :=
  { r with time := (recordTime s.link).1, timeUnknown := (recordTime s.link).2 }

/-- R35: the REVERSAL record of a tender. -/
def reversalRecord (s : State) (b : Bill) (t : Tender) (txn : Nat) : JRecord :=
  stampTime s
    { txn := txn, kind := .reversal, rangeId := t.rangeId, route := t.route, token := t.token, base := t.base,
      tip := t.tip, bill := b.number, place := b.place, time := 0, standIn := false, timeUnknown := false,
      original := t.txn }

/-- R34: a void by mark at its taking; the reply waits for the mark. -/
def voidByMark (tag : BitVec 16) (bill : Nat) (t : Tender) (loc : Loc) (s : State) : State :=
  let counted := match recordAt s loc with
    | some r => uncountRecord r s.tally
    | none => s.tally
  voidTender bill t.txn
    ((markRecord loc .voided (s.setTally counted)).setHost
      { s.host with voidJob := some { tag := tag, bill := bill, tender := t.txn, path := .mark loc } })

/-- R35: the refusals of a void by reversal. -/
def reversalRefusal (s : State) : Option Answer :=
  if s.journal.freeSpace ≤ s.journal.pendingCount then some .journalFull
  else if s.decision.exhausted then some .numbersExhausted
  else none

/-- R35: a void by reversal at its taking; the reply waits for the record. -/
def voidByReversal (tag : BitVec 16) (b : Bill) (t : Tender) (s : State) : State :=
  let n := nextNumber s
  let s' := updateBill b.number (fun x => { x with voidPending := t.txn }) (issueNumber s)
  appendRecord { record := reversalRecord s b t n, requester := .void }
    (s'.setHost { s'.host with
      voidJob := some { tag := tag, bill := b.number, tender := t.txn, path := .reversal n } })

/-- R33: VOID. -/
def serveVoid (tag : BitVec 16) (bill txn : Nat) (s : State) : State :=
  match voidRefusal s bill txn with
  | some r => answerRequest 0x06 tag (.plain r) s
  | none =>
    match findBill s bill with
    | none => s
    | some b =>
      match b.tenderOf txn with
      | none => s
      | some t =>
        match voidMark s t with
        | some loc => voidByMark tag bill t loc s
        | none =>
          match reversalRefusal s with
          | some r => answerRequest 0x06 tag (.plain r) s
          | none => voidByReversal tag b t s

end Sys2Proof.Machine
end

