-- ==== Sys2Proof/Machine/UploadOps.lean ====
section
/-! DEFINITION. The Uploader (R98 to R114), and the RECORD PROGRAM completion that feeds it (R81, R82, R99). -/

namespace Sys2Proof.Machine

/-- R101: the bytes of a record that an UPLOAD frame carries: all but the two mark bytes. -/
def uploadBytes : Nat := 30

/-- R101: an UPLOAD frame joins its queue. -/
def queueUpload (txn attempt : Nat) (record : List Byte) (s : State) : State :=
  s.setArbiter { s.arbiter with
    upload := s.arbiter.upload ++
      [{ tag := BitVec.ofNat 16 txn, addr := s.link.addr, payload := .upload txn record attempt }] }

/-- R101: the attempt number of a queued UPLOAD frame is raised. -/
def raiseAttempt (attempt : Nat) (f : Frame) : Frame :=
  match f.payload with
  | .upload txn record _ => { f with payload := .upload txn record attempt }
  | .mgmtReply .. => f
  | .authRequest _ => f
  | .data _ => f
  | .presence _ => f

/-- R161: the UPLOAD frame is withdrawn if still queued. -/
def withdrawUpload (s : State) : State := s.setArbiter { s.arbiter with upload := [] }

/-- R100: a record is taken for upload. -/
def selectAt (loc : Loc) (s : State) : State :=
  let record := s.array.readBytes loc.addr uploadBytes
  let txn := field record 0 4
  queueUpload txn 1 record
    (setUploadTimer (some (params s).uploadRetry)
      ((setRecordState loc .outstanding s).setUploader (.awaitingConfirm loc txn 1)))

/-- R100: a selection. -/
def selectRecord (s : State) : State :=
  match firstLive s with
  | some loc => selectAt loc s
  | none => s.setUploader .idle

/-- R98, R99: in IDLE a record that is LIVE is selected. -/
def selectIfIdle (s : State) : State :=
  match s.uploader with
  | .idle => selectRecord s
  | .off => s
  | .awaitingConfirm .. => s
  | .holdoff => s

/-- R99: the link becomes UP: the Uploader leaves OFF. -/
def uploaderUp (s : State) : State :=
  match s.uploader with
  | .off => selectRecord (s.setUploader .idle)
  | .idle => s
  | .awaitingConfirm .. => s
  | .holdoff => s

/-- R101, R102: a new attempt for the outstanding record. -/
def newAttempt (loc : Loc) (txn attempts : Nat) (s : State) : State :=
  let s' := setUploadTimer (some (params s).uploadRetry) (s.setUploader (.awaitingConfirm loc txn (attempts + 1)))
  if s.arbiter.upload = [] then
    queueUpload txn (attempts + 1) (s.array.readBytes loc.addr uploadBytes) s'
  else s'.setArbiter { s.arbiter with upload := s.arbiter.upload.map (raiseAttempt (attempts + 1)) }

/-- R103: the Uploader gives up on the record for now. -/
def giveUp (loc : Loc) (s : State) : State :=
  setUploadTimer (some (params s).uploadHoldoff)
    ((setRecordState loc .live (withdrawUpload s)).setUploader .holdoff)

/-- R102 to R104: the UPLOAD timer expires. -/
def uploadExpiry (s : State) : State :=
  match s.uploader with
  | .awaitingConfirm loc txn attempts =>
    if attempts < (params s).uploadAttempts then newAttempt loc txn attempts s else giveUp loc s
  | .holdoff => selectRecord s
  | .off => s
  | .idle => s

/-- R111, R112: an outstanding record returns to LIVE. -/
def returnOutstanding (s : State) : State :=
  match s.uploader with
  | .awaitingConfirm loc _ _ => setRecordState loc .live s
  | .off => s
  | .idle => s
  | .holdoff => s

/-- R111: the link leaves UP. -/
def uploaderOff (s : State) : State :=
  setUploadTimer none ((withdrawUpload (returnOutstanding s)).setUploader .off)

/-- R112: LINK RESET starts the Uploader afresh. -/
def uploaderRestart (s : State) : State :=
  let s' := setUploadTimer none (withdrawUpload (returnOutstanding s))
  if s.link.state = .up then selectRecord (s'.setUploader .idle) else s'.setUploader .off

/-! ### Confirmations (R105 to R109) -/

/-- R108: what a confirm that finishes the record at `loc` does to the Uploader. -/
def confirmUploader (loc : Loc) (s : State) : State :=
  match s.uploader with
  | .awaitingConfirm out _ _ =>
    if out = loc then selectRecord ((setUploadTimer none (withdrawUpload s)).setUploader .idle) else s
  | .off => s
  | .idle => s
  | .holdoff => s

/-- R106, R107: a confirm finishes the record at `loc`. -/
def finishRecord (loc : Loc) (txn : Nat) (refused : Bool) (s : State) : State :=
  match recordAt s loc with
  | none => s
  | some r =>
    let finished := markRecord loc .uploaded (s.setTally (uncountRecord r s.tally))
    let told := match r.kind, refused with
      | .approval, true => raiseLateDecline txn finished
      | .approval, false => finished
      | .reversal, true => finished
      | .reversal, false => finished
    confirmUploader loc told

/-- R105, R109: a confirm finishes the LIVE or OUTSTANDING record of its number, or is stray. -/
def takeConfirm (txn : Nat) (refused : Bool) (s : State) : State :=
  match findRecord s txn with
  | some (loc, st) => if st.unfinishedRecord then finishRecord loc txn refused s else countLate s
  | none => countLate s

/-! ### RECORD PROGRAM completions (R81, R82) -/

/-- R81: the record in program is stored. -/
def recordSucceeded (ip : InProgram) (s : State) : State :=
  selectIfIdle (issueNext (recordStored ip.entry
    ((setRecordState ip.loc .live s).setJournal
      { (setRecordState ip.loc .live s).journal with inProgram := none })))

/-- R82: the record in program failed; a first failure is retried. -/
def recordFailed (ip : InProgram) (s : State) : State :=
  let s' := (setRecordState ip.loc .bad s).setJournal { (setRecordState ip.loc .bad s).journal with inProgram := none }
  let s'' := raiseStoreFault .recordProgram none s'
  reclaim (issueNext (if ip.retry then recordLost ip.entry s'' else issueRetry ip.entry s''))

/-- R81, R82: a RECORD PROGRAM's completion. -/
def takeRecordResult (r : OpResult) (s : State) : State :=
  let s := handRecordResult r s
  match s.journal.inProgram with
  | none => s
  | some ip =>
    match r with
    | .success => recordSucceeded ip s
    | .fail => recordFailed ip s
    | .timeLimit => recordFailed ip s

/-! ### Reports (R113) -/

/-- R113: the upload state reported. -/
def UploadState.phase : UploadState → UploadPhase
  | .off => .off
  | .idle => .idle
  | .awaitingConfirm .. => .awaitingConfirm
  | .holdoff => .holdoff

/-- R113: the outstanding transaction number, 0 when none. -/
def UploadState.txn : UploadState → Nat
  | .awaitingConfirm _ txn _ => txn
  | .off => 0
  | .idle => 0
  | .holdoff => 0

/-- R113: attempts. -/
def UploadState.attempts : UploadState → Nat
  | .awaitingConfirm _ _ n => n
  | .off => 0
  | .idle => 0
  | .holdoff => 0

end Sys2Proof.Machine
end

