-- ==== Sys2Proof/Machine/DecideOps.lean ====
section
/-! DEFINITION. The payment decision (R43 to R56): the checks of AUTHORIZE, the path choice, the offline test, offline
approval, the online request, stand-in and the reading of results. -/

namespace Sys2Proof.Machine

/-! ### Tests (R46, R47) -/

/-- R46: the tip cap of a base under a tip cap percent. -/
def tipCap (base percent : Nat) : Nat := base * percent / 100

/-- R46: tip-over under the tip cap percent in force. -/
def tipOver (s : State) (base tip : Nat) : Bool := tipCap base (params s).tipCapPercent < tip

/-- R47: the first failing step of the offline test, `none` when it passes. -/
def offlineTest (s : State) (row : IrtRow) (total : Nat) (token : BitVec 32) : Option DeclineReason :=
  if row.floorLimit < total then some .floorLimit
  else if row.cap < s.tally.sumOf row.rangeId + total then some .cumulativeCap
  else if row.perCard ≤ s.tally.countOf token then some .cardRepeat
  else if !s.tally.roomForRange row.rangeId then some .tallyFull
  else if !s.tally.roomForToken token then some .repeatFull
  else if s.journal.freeSpace ≤ s.journal.pendingCount then some .journalFull
  else none

/-- R45: a path choice. -/
inductive Choice where
  | online
  | offline (row : IrtRow)
  | declined (reason : DeclineReason)
deriving DecidableEq, Repr

/-- R45: offline if the test passes, else declined with its reason. -/
def offlineOrDecline (row : IrtRow) : Option DeclineReason → Choice
  | none => .offline row
  | some r => .declined r

/-- R45: the path of a payment. A row whose mode names none of the three, which no VALID table holds, is a miss (log
28). -/
def choosePath (s : State) (row : Option IrtRow) (base tip : Nat) (token : BitVec 32) : Choice :=
  let up := s.link.state == .up
  if tipOver s base tip then (if up then .online else .declined .tipOverCap)
  else
    match row with
    | none => if up then .online else .declined .unlisted
    | some row =>
      match modeOf row.mode with
      | none => if up then .online else .declined .unlisted
      | some .onlineOnly => if up then .online else .declined .onlineOnly
      | some .onlinePreferred =>
        if up then .online
        else if (params s).standIn = 0 then .declined .noStandIn
        else offlineOrDecline row (offlineTest s row (base + tip) token)
      | some .offlineFirst =>
        match offlineTest s row (base + tip) token with
        | none => .offline row
        | some r => if up then .online else .declined r

/-! ### The two paths (R48, R50) -/

/-- R48: the place of a bill, as its records and requests carry it. -/
def placeOf (s : State) (bill : Nat) : Nat := ((findBill s bill).map Bill.place).getD 0

/-- R48: the APPROVAL record of a slot. -/
def approvalRecord (s : State) (a : Auth) : JRecord :=
  stampTime s
    { txn := a.txn, kind := .approval, rangeId := a.rangeId, route := a.route, token := a.token, base := a.base,
      tip := a.tip, bill := a.bill, place := placeOf s a.bill, time := 0, standIn := a.standIn, timeUnknown := false,
      original := 0 }

/-- R48: the slot of an offline approval under a row. -/
def Auth.stored (a : Auth) (row : IrtRow) (standIn : Bool) : Auth :=
  { a with state := .storing, path := .offline, standIn := standIn, rangeId := row.rangeId, route := row.route }

/-- R48: an offline approval. -/
def approveOffline (i : Nat) (a : Auth) (row : IrtRow) (standIn : Bool) (s : State) : State :=
  let r := approvalRecord s (a.stored row standIn)
  appendRecord { record := r, requester := .slot i }
    ((setSlot i (some (a.stored row standIn)) s).setTally (countRecord r s.tally))

/-- R50: the AUTH REQUEST of a slot. -/
def authFrame (s : State) (a : Auth) : Frame :=
  { tag := BitVec.ofNat 16 a.txn, addr := s.link.addr,
    payload := .authRequest
      { txn := a.txn, rangeId := a.rangeId, route := a.route, pfx := a.pfx, token := a.token, base := a.base,
        tip := a.tip, bill := a.bill, place := placeOf s a.bill } }

/-- R50: a payment goes online. -/
def goOnline (i : Nat) (a : Auth) (s : State) : State :=
  setReplyTimer i (some (params s).replyTimeout)
    ((setSlot i (some { a with state := .awaitingReply, path := .online }) s).setArbiter
      { s.arbiter with auth := s.arbiter.auth ++ [authFrame s a] })

/-! ### AUTHORIZE (R43, R44) -/

/-- R43 checks 8 to 11: the share a payment names. -/
def shareRefusal (b : Bill) (share base : Nat) : Option Answer :=
  if share = 0 then (if b.planOpen then some .shareRequired else none)
  else if !b.planOpen then some .noShare
  else
    match b.shareAt share with
    | none => some .noShare
    | some sh =>
      if sh.state ≠ .opened then some .shareTaken
      else if base ≠ sh.amount then some .shareMismatch
      else none

/-- R43: the checks of AUTHORIZE, in order. -/
def authorizeRefusal (s : State) (bill share base tip : Nat) : Option Answer :=
  if s.pins.pwrwarn = .asserted then some .powerLow
  else if base = 0 then some .zeroAmount
  else if Limits.amountMax < base ∨ Limits.amountMax < tip then some .amountRange
  else if freeSlot s = none then some .slotsFull
  else
    match findBill s bill with
    | none => some .noBill
    | some b =>
      if b.state = .settled then some .settled
      else if Limits.tenders ≤ claimedPlaces s b then some .tendersFull
      else
        match shareRefusal b share base with
        | some r => some r
        | none =>
          if b.available < base then some .overTender
          else if s.decision.exhausted then some .numbersExhausted
          else none

/-- A payment declined at once has no path stated: a free value of its transaction number (log 35). -/
def declinedPath (txn : Nat) : Path := if Config.declinedPathOffline txn then .offline else .online

/-- R44: the slot of an accepted payment; range id and route code of the lookup, 0 and 0 for a miss (R45). Its state
and path are given by the decision of the same change; only a payment declined at once keeps the path given here. -/
def newAuth (txn bill share pfx : Nat) (token : BitVec 32) (base tip : Nat) (row : Option IrtRow) : Auth :=
  { state := .awaitingReply, txn := txn, bill := bill, share := share, pfx := pfx, token := token, base := base,
    tip := tip, rangeId := (row.map IrtRow.rangeId).getD 0, route := (row.map IrtRow.route).getD 0,
    path := declinedPath txn,
    standIn := false, result := .none, reason := .none, issuer := 0 }

/-- R45: the decision, on the slot taken. -/
def takeDecision (i : Nat) (a : Auth) (row : Option IrtRow) (s : State) : State :=
  match choosePath s row a.base a.tip a.token with
  | .online => goOnline i a s
  | .offline r => approveOffline i a r false s
  | .declined reason => settleSlot i a .declined reason 0 s

/-- R44: an acceptance into slot `i`. -/
def accept (i bill share pfx : Nat) (token : BitVec 32) (base tip : Nat) (s : State) : State :=
  let txn := nextNumber s
  let a := newAuth txn bill share pfx token base tip (lookup s pfx)
  takeDecision i a (lookup s pfx)
    (updateBill bill (fun b => b.reserve base share txn) (setSlot i (some a) (issueNumber s)))

/-- R43, R44: AUTHORIZE. -/
def serveAuthorize (tag : BitVec 16) (bill share pfx : Nat) (token : BitVec 32) (base tip : Nat) (s : State) : State :=
  match authorizeRefusal s bill share base tip with
  | some r => answerRequest 0x01 tag (.plain r) s
  | none =>
    match freeSlot s with
    | none => answerRequest 0x01 tag (.plain .slotsFull) s
    | some i =>
      answerRequest 0x01 tag (.accepted i (nextNumber s)) (accept i bill share pfx token base tip s)

/-! ### Stand-in (R52, R54) -/

/-- R52 step 3: whether a row's mode lets it stand in. -/
def standInMode (row : IrtRow) : Bool :=
  match modeOf row.mode with
  | some .onlinePreferred => true
  | some .offlineFirst => true
  | some .onlineOnly => false
  | none => false

/-- R52 steps 2 and 3: the row copy under which a slot stands in. -/
def standInRow (s : State) (a : Auth) : Option IrtRow :=
  match lookup s a.pfx with
  | none => none
  | some row =>
    if (params s).standIn ≠ 0 ∧ standInMode row ∧ ¬ tipOver s a.base a.tip ∧ offlineTest s row a.total a.token = none
    then some row
    else none

/-- R52: a slot in AWAITING_REPLY is resolved by stand-in. -/
def standIn (i : Nat) (s : State) : State :=
  match slotAt s i with
  | none => s
  | some a =>
    let s := withdrawAuth a.txn (setReplyTimer i none s)
    match standInRow s a with
    | some row => approveOffline i a row true (joinLate a.txn .stoodIn s)
    | none => settleSlot i a .declined .noReply a.issuer (joinLate a.txn .declined s)

/-- The numbers of slots in AWAITING_REPLY. -/
def awaitingSlots (s : State) : List Nat :=
  (List.range s.decision.slots.length).filter (fun i => awaiting (slotAt s i))

/-- A slot's transaction number. -/
def slotTxn (s : State) (i : Nat) : Nat := ((slotAt s i).map Auth.txn).getD 0

/-- A slot number placed in ascending order of transaction number. -/
def insertByTxn (s : State) (i : Nat) : List Nat → List Nat
  | [] => [i]
  | k :: rest => if slotTxn s i ≤ slotTxn s k then i :: k :: rest else k :: insertByTxn s i rest

/-- R54: the slots in AWAITING_REPLY in ascending order of transaction number. -/
def awaitingByTxn (s : State) : List Nat := (awaitingSlots s).foldr (insertByTxn s) []

/-- R54: the link leaves UP: every slot in AWAITING_REPLY is resolved by stand-in. -/
def standInAll (s : State) : State := (awaitingByTxn s).foldl (fun s i => standIn i s) s

/-- R55: a slot in AWAITING_REPLY at LINK RESET. -/
def declineReset (i : Nat) (s : State) : State :=
  match slotAt s i with
  | none => s
  | some a => settleSlot i a .declined .linkReset a.issuer (setReplyTimer i none s)

/-- R55: LINK RESET on the slots. DESIGN CHOICE (log 39): in ascending order of slot number. -/
def declineAll (s : State) : State := (awaitingSlots s).foldl (fun s i => declineReset i s) s

/-! ### AUTH REPLY (R51) -/

/-- R51: an AUTH REPLY that is taken. -/
def takeAuthReply (txn issuer : Nat) (approve : Bool) (s : State) : State :=
  match awaitingSlot s txn with
  | none => judgeLate txn (!approve) s
  | some i =>
    match slotAt s i with
    | none => s
    | some a =>
      settleSlot i a (if approve then .approvedOnline else .declinedIssuer) .none issuer
        (withdrawAuth txn (setReplyTimer i none s))

/-! ### READ RESULT (R56) -/

/-- R56: READ RESULT. -/
def serveReadResult (tag : BitVec 16) (i : Nat) (s : State) : State :=
  if 3 < i then answerRequest 0x02 tag (.plain .badSlot) s
  else
    match slotAt s i with
    | none => answerRequest 0x02 tag (.plain .noResult) s
    | some a =>
      match a.state with
      | .awaitingReply => answerRequest 0x02 tag (.resultPending i a.txn) s
      | .storing => answerRequest 0x02 tag (.resultPending i a.txn) s
      | .done => answerRequest 0x02 tag (.result i a) (dropAuthDone i (setSlot i none s))

end Sys2Proof.Machine
end

