-- ==== Sys2Proof/Machine/GateOps.lean ====
section
/-! DEFINITION. The management gate and the places of the MGMT_REPLY queue (R165, R166, log 15), the address filter
(R144), the grant (R158 to R160) and the reply of a command. -/

namespace Sys2Proof.Machine

/-! ### Address filter (R144) -/

/-- Whether the part holds a link address. -/
def assigned (s : State) : Bool :=
  match s.link.state with
  | .search => false
  | .up => true
  | .down => true

/-- R144: whether the filter passes a frame; `inSearch`: a kind that a part in SEARCH listens for (BEACON, ASSIGN). -/
def filterPasses (s : State) (addr : BitVec 8) (inSearch : Bool) : Bool :=
  if assigned s then addr == broadcastAddr || addr.toNat == s.link.addr
  else addr == broadcastAddr && inSearch

/-! ### Places (R157, R165, R166) -/

/-- R129, R165: whether a command is addressed to the part alone. -/
def unicast (cmd : Instr) : Bool := radioAddr cmd != broadcastAddr

/-- R165: the place reserved for the unicast command in progress. -/
def Gate.reserved : Gate → Nat
  | .inProgress cmd => if unicast cmd then 1 else 0
  | .empty => 0
  | .held _ => 0

/-- R166: the place a held command waits for. -/
def Gate.waiting : Gate → Nat
  | .held _ => 1
  | .empty => 0
  | .inProgress _ => 0

/-- R157, R165: places of the MGMT_REPLY queue neither filled nor reserved. -/
def unreserved (a : Arbiter) : Nat := Limits.mgmtReplies - (a.mgmt.length + a.gate.reserved)

/-- R166: places free for a verify reply: those not owed to the verify replies that wait already. -/
def placesForVerify (a : Arbiter) : Nat := unreserved a - a.waitingVerify.length

/-- R165, R166: places free for a command that arrives: those not owed to a waiter. -/
def openPlaces (a : Arbiter) : Nat := placesForVerify a - a.gate.waiting

/-! ### Replies of commands -/

/-- R150: whether a command is an ASSIGN that names the part. -/
def matchesIdentity (s : State) (cmd : Instr) : Bool :=
  match cmd with
  | .assign _ _ identity _ _ => identity == s.link.identity
  | _ => false

/-- R165: whether a command expects a reply: a unicast one, or an ASSIGN whose unit identity matches. -/
def expectsReply (s : State) (cmd : Instr) : Bool := unicast cmd || matchesIdentity s cmd

/-- R129, R165: a command's reply, if it gets one, joins the MGMT_REPLY queue with the command's tag (R182). -/
def answerCommand (cmd : Instr) (body : Reply) (s : State) : State :=
  if expectsReply s cmd then queueMgmtReply (commandCode cmd) (mgmtTag cmd) body s else s

/-- R165: the gate changes. -/
def setGate (g : Gate) (s : State) : State := s.setArbiter { s.arbiter with gate := g }

/-- R165: the command in progress ends: the gate opens and a unicast command is answered. -/
def openGate (body : Reply) (s : State) : State :=
  match s.arbiter.gate with
  | .inProgress cmd => answerCommand cmd body (setGate .empty s)
  | .empty => s
  | .held _ => s

/-- R139, R166: a verify reply takes a free place, or waits, or is dropped when four wait. -/
def placeVerify (tag : BitVec 16) (r : VerifyReport) (s : State) : State :=
  if 0 < placesForVerify s.arbiter then queueMgmtReply 0x23 tag (.verify r) s
  else if s.arbiter.waitingVerify.length < Limits.waitingVerify then
    s.setArbiter { s.arbiter with waitingVerify := s.arbiter.waitingVerify ++ [(tag, r)] }
  else s

/-- R166: the oldest waiting verify reply takes a freed place. -/
def placeWaitingVerify (s : State) : State :=
  match s.arbiter.waitingVerify with
  | [] => s
  | w :: rest =>
    if 0 < unreserved s.arbiter then
      queueMgmtReply 0x23 w.1 (.verify w.2) (s.setArbiter { s.arbiter with waitingVerify := rest })
    else s

/-! ### The grant (R158 to R160) -/

/-- R157: the frames of a class. -/
def Arbiter.queue (a : Arbiter) : TxClass → List Frame
  | .mgmtReply => a.mgmt
  | .auth => a.auth
  | .upload => a.upload
  | .data => a.data
  | .presence => a.presence

/-- The frames of a class changed. -/
def Arbiter.setQueue (a : Arbiter) (c : TxClass) (q : List Frame) : Arbiter :=
  match c with
  | .mgmtReply => { a with mgmt := q }
  | .auth => { a with auth := q }
  | .upload => { a with upload := q }
  | .data => { a with data := q }
  | .presence => { a with presence := q }

/-- R159: the level of a class. -/
def ProfileRecord.level (p : ProfileRecord) : TxClass → Nat
  | .mgmtReply => p.levelMgmtReply
  | .auth => p.levelAuth
  | .upload => p.levelUpload
  | .data => p.levelData
  | .presence => p.levelPresence

/-- R160: whether the link state lets a class be granted. -/
def linkAllows : LinkState → TxClass → Bool
  | _, .mgmtReply => true
  | .up, .auth => true
  | .up, .upload => true
  | .up, .data => true
  | .up, .presence => false
  | .down, .auth => false
  | .down, .upload => false
  | .down, .data => false
  | .down, .presence => false
  | .search, .auth => false
  | .search, .upload => false
  | .search, .data => false
  | .search, .presence => true

/-- R158: whether a class holds an eligible frame. -/
def eligible (s : State) (c : TxClass) : Bool :=
  !(s.arbiter.queue c).isEmpty && 0 < (params s).level c && linkAllows s.link.state c

/-- R158: the classes in the fixed order. -/
def classOrder : List TxClass := [.mgmtReply, .auth, .upload, .data, .presence]

/-- R158: of two classes, the one at the higher level, the earlier at equal levels. -/
def betterClass (s : State) (c : TxClass) : Option TxClass → TxClass
  | none => c
  | some d => if (params s).level d ≤ (params s).level c then c else d

/-- R158: the class a grant takes from, over a list of classes in the fixed order. -/
def bestClass (s : State) : List TxClass → Option TxClass
  | [] => none
  | c :: rest => if eligible s c then some (betterClass s c (bestClass s rest)) else bestClass s rest

/-- R158: the free transmitter is granted. -/
def grantFrame (s : State) : State :=
  match s.arbiter.sending with
  | some _ => s
  | none =>
    match bestClass s classOrder with
    | none => s
    | some c =>
      match s.arbiter.queue c with
      | [] => s
      | f :: rest => s.setArbiter { s.arbiter.setQueue c rest with sending := some f }

end Sys2Proof.Machine
end

