-- ==== Sys2Proof/Machine/LoaderOps.lean ====
section
/-! DEFINITION. The Table Loader and the two tables (R1 to R14, R128 to R142): verification, the load session, the
close, verify replies and row reading. -/

namespace Sys2Proof.Machine

/-! ### Verification (R6) -/

/-- R6 FIELD: every field of a row lies in its range of R1. -/
def IrtRow.fieldsOk (r : IrtRow) : Bool :=
  r.rangeId != 0 && r.prefixLow ≤ Limits.prefixMax && r.prefixHigh ≤ Limits.prefixMax && (modeOf r.mode).isSome
    && r.floorLimit ≤ Limits.amountMax && r.cap ≤ Limits.capMax && r.perCard ≤ 15 && r.route ≤ 15

/-- R6 ORDER, OVERLAP: the index of the later row of the first adjacent pair that a test refuses; `i` is the index of
the first row given. -/
def firstPair (bad : IrtRow → IrtRow → Bool) : Nat → List IrtRow → Option Nat
  | _, [] => none
  | _, [_] => none
  | i, a :: b :: rest => if bad a b then some (i + 1) else firstPair bad (i + 1) (b :: rest)

/-- R6 DUPLICATE_ID: the index of the first row whose range id was seen before. -/
def firstDuplicate : List Nat → Nat → List IrtRow → Option Nat
  | _, _, [] => none
  | seen, i, r :: rest =>
    if seen.contains r.rangeId then some i else firstDuplicate (r.rangeId :: seen) (i + 1) rest

/-- R6 conditions 3 to 8 over the rows, with the row index each reports. -/
def rowCondition (rows : List IrtRow) : Condition × Nat :=
  match rows.findIdx? (fun r => !r.fieldsOk) with
  | some i => (.field, i)
  | none =>
    match rows.findIdx? (fun r => r.prefixHigh < r.prefixLow) with
    | some i => (.interval, i)
    | none =>
      match rows.findIdx? (fun r => r.cap < r.floorLimit) with
      | some i => (.floorOverCap, i)
      | none =>
        match firstPair (fun a b => b.prefixLow ≤ a.prefixLow) 0 rows with
        | some i => (.order, i)
        | none =>
          match firstPair (fun a b => b.prefixLow ≤ a.prefixHigh) 0 rows with
          | some i => (.overlap, i)
          | none =>
            match firstDuplicate [] 0 rows with
            | some i => (.duplicateId, i)
            | none => (.none, 0)

/-- R115: the bytes of a row place of the IRT image. -/
def irtRowBytes (m : Mem) (i : Nat) : List Byte := m.readBytes (irtRowAddr i) Limits.rowBytes

/-- The rows of the image, as bytes. -/
def irtImage (m : Mem) (n : Nat) : List (List Byte) := (List.range n).map (irtRowBytes m)

/-- R6: the first failing condition of the image with `present` rows under a header, and its row index, 0 where the
condition belongs to no row (log 23). -/
def verifyIrt (m : Mem) (h : IrtHeader) (present : Nat) : Condition × Nat :=
  if h.rows = 0 ∨ Limits.irtRows < h.rows ∨ h.rows ≠ present then (.count, 0)
  else if checkValue (irtImage m h.rows).flatten ≠ h.check then (.check, 0)
  else rowCondition ((irtImage m h.rows).map decodeRow)

/-- R6: the row places of the image written before the first erased one, as counted at start-up. -/
def irtPresent (m : Mem) : Nat :=
  ((List.range Limits.irtRowPlaces).takeWhile (fun i => !m.erasedRange (irtRowAddr i) Limits.rowBytes)).length

/-- R137: the stored Profile record. -/
def profileRecordBytes (m : Mem) : List Byte := m.readBytes profileRecordAddr Limits.profileBytes

/-- R137 READBACK: the check value over the record read back equals the header's. -/
def profileReadsBack (m : Mem) (h : ProfileHeader) : Bool := checkValue (profileRecordBytes m) == h.check

/-! ### Table states -/

/-- R5, R137: a table becomes INVALID, with a generation. -/
def invalidTable (t : TableName) (generation : Nat) (s : State) : State :=
  match t with
  | .irt => s.setIrt { state := .invalid, generation := generation, readable := false, mirror := [] }
  | .profile => s.setProfile { state := .invalid, generation := generation, values := .defaults }

/-- R4, R136, R137: a table goes into LOADING; the threshold in force of the low flag may change (R86). -/
def loadingTable (t : TableName) (generation : Nat) (s : State) : State :=
  match t with
  | .irt => s.setIrt { state := .loading, generation := generation, readable := false, mirror := [] }
  | .profile =>
    evaluateLow (s.setProfile { state := .loading, generation := generation, values := .defaults })

/-- R7: the IRT becomes VALID with the rows read back. -/
def validIrt (h : IrtHeader) (s : State) : State :=
  s.setIrt { state := .valid, generation := h.generation, readable := h.readable,
             mirror := (irtImage s.array h.rows).map decodeRow }

/-- R137: the Profile becomes VALID with the record read back. -/
def validProfile (h : ProfileHeader) (s : State) : State :=
  s.setProfile { state := .valid, generation := h.generation,
                 values := decodeProfile (profileRecordBytes s.array) }

/-! ### Opening (R130, R131) -/

/-- R130: whether an expected row count fits its table. -/
def expectedOk (t : TableName) (rows : Nat) : Bool :=
  match t with
  | .irt => 1 ≤ rows && rows ≤ Limits.irtRows
  | .profile => rows == 1

/-- R130: a new session. -/
def newSession (t : TableName) (generation rows : Nat) : Session :=
  { table := t, generation := generation, expected := rows, received := 0, broken := .no, breakIndex := 0,
    buffer := [], bufferBusy := false, check := checkValue [] }

/-- R130: LOAD OPEN: refused, or accepted and in progress. -/
def takeLoadOpen (cmd : Instr) (table : BitVec 8) (generation rows : Nat) (lock : Line) (s : State) : State :=
  match tableOf table with
  | none => answerCommand cmd (.plain .badField) s
  | some t =>
    if generation = 0 ∨ ¬ expectedOk t rows then answerCommand cmd (.plain .badField) s
    else if lock = .asserted then answerCommand cmd (.plain .locked) s
    else if s.loader.phase ≠ .idle then answerCommand cmd (.plain .busy) s
    else
      setGate (.inProgress cmd)
        (requestErase { target := .table t, second := false }
          (loadingTable t generation
            (s.setLoader { s.loader with phase := .opening, session := some (newSession t generation rows) })))

/-- The session ends and the loader enters IDLE. -/
def endSession (s : State) : State := s.setLoader { s.loader with phase := .idle, session := none, close := none }

/-- R131: the completion of the erase of a table's block. -/
def takeTableErase (ok : Bool) (s : State) : State :=
  match s.loader.session with
  | none => s
  | some se =>
    if s.loader.phase ≠ .opening then s
    else if ok then
      openGate (.loadOpened se.table se.generation) (s.setLoader { s.loader with phase := .rows })
    else
      openGate (.plain .storeFault)
        (raiseStoreFault .tableErase none (invalidTable se.table se.generation (endSession s)))

/-! ### Rows (R132, R133) -/

/-- R133: the page that the buffer goes to: IRT rows 10k to 10k + 9 to page 1 + k, the Profile record to page 1. -/
def Session.page (se : Session) : Nat :=
  match se.table with
  | .irt => 1 + (se.received - se.buffer.length) / Limits.pageRows
  | .profile => 1

/-- R133: the PAGE PROGRAM of the buffer. -/
def Session.pageRequest (se : Session) : PageRequest :=
  { table := se.table, page := se.page, bytes := se.buffer.flatten }

/-- R133: whether the buffer is full. -/
def Session.full (se : Session) : Bool :=
  match se.table with
  | .irt => se.buffer.length == Limits.pageRows
  | .profile => se.buffer.length == 1

/-- R132, R136: the session with a row taken. -/
def Session.take (se : Session) (row : List Byte) : Session :=
  match se.table with
  | .irt => { se with buffer := se.buffer ++ [row], received := se.received + 1 }
  | .profile =>
    { se with buffer := se.buffer ++ [encodeProfile (clampProfile (decodeProfile row))],
              received := se.received + 1, check := checkValue row }

/-- The loader's session changed. -/
def setSession (se : Session) (s : State) : State := s.setLoader { s.loader with session := some se }

/-- R133: the buffer's PAGE PROGRAM is requested. -/
def programBuffer (se : Session) (s : State) : State :=
  requestPage se.pageRequest (setSession { se with bufferBusy := true } s)

/-- R132: a row is taken; R133 when it fills the buffer. -/
def takeRow (se : Session) (row : List Byte) (s : State) : State :=
  if (se.take row).full then programBuffer (se.take row) s else setSession (se.take row) s

/-- R132 check 4: the session becomes broken. -/
def Session.break (se : Session) : Session :=
  match se.broken with
  | .no => { se with broken := .sequence, breakIndex := se.received }
  | .sequence => se
  | .storeFault => se

/-- R132: what a LOAD ROW does to a session in ROWS: the session broken, refused, or the row taken. -/
def rowRefusal (se : Session) (index : Nat) : Option Answer :=
  if se.bufferBusy then some .busy
  else if se.broken = .storeFault then some .storeFault
  else if se.broken = .sequence ∨ index ≠ se.received ∨ se.expected ≤ index then some .sequence
  else none

/-- R128: the session in ROWS of a table. -/
def rowsSession (s : State) (t : TableName) : Option Session :=
  if s.loader.phase = .rows then
    match s.loader.session with
    | some se => if se.table = t then some se else none
    | none => none
  else none

/-- R186: the length of a table's row. -/
def TableName.rowLength : TableName → Nat
  | .irt => Limits.rowBytes
  | .profile => Limits.profileBytes

/-- R132: LOAD ROW. -/
def takeLoadRow (cmd : Instr) (table : BitVec 8) (index : Nat) (row : List Byte) (s : State) : State :=
  match tableOf table with
  | none => answerCommand cmd (.plain .badField) s
  | some t =>
    if row.length ≠ t.rowLength then answerCommand cmd (.plain .badLength) s
    else
      match rowsSession s t with
      | none => answerCommand cmd (.plain .noSession) s
      | some se =>
        match rowRefusal se index with
        | none => answerCommand cmd (.rowTaken index) (takeRow se row s)
        | some .sequence => answerCommand cmd (.plain .sequence) (setSession se.break s)
        | some r => answerCommand cmd (.plain r) s

/-! ### Closing (R134, R135) -/

/-- The close in progress moves to a step. -/
def setClose (c : CloseJob) (s : State) : State := s.setLoader { s.loader with phase := .closing, close := some c }

/-- R134, R135: the close ends with the table INVALID. -/
def closeInvalid (se : Session) (c : Condition) (index : Nat) (s : State) : State :=
  openGate (.closed false c index se.generation) (invalidTable se.table se.generation (endSession s))

/-- R135, R137: a verification passed: TABLE_CHANGE, and the low flag for the Profile. -/
def closeValid (se : Session) (generation : Nat) (s : State) : State :=
  openGate (.closed true .none 0 generation) (raiseTableChange se.table generation (endSession s))

/-- R135 step 2: the conditions of R137 before the header, `none` when the header may be programmed. -/
def preHeader (se : Session) (c : CloseJob) : Condition :=
  match se.table with
  | .irt => .none
  | .profile => if c.rows ≠ 1 ∨ se.received ≠ 1 then .count else if c.check ≠ se.check then .check else .none

/-- R135 step 3: the header's bytes. -/
def headerOf (m : Mem) (se : Session) (c : CloseJob) : List Byte :=
  match se.table with
  | .irt => encodeIrtHeader { generation := se.generation, rows := c.rows, readable := c.readable, check := c.check }
  | .profile =>
    encodeProfileHeader { generation := se.generation, records := 1, check := checkValue (profileRecordBytes m) }

/-- R135 steps 2 and 3. -/
def closeHeader (se : Session) (c : CloseJob) (s : State) : State :=
  match preHeader se c with
  | .none =>
    requestPage { table := se.table, page := 0, bytes := headerOf s.array se c } (setClose { c with step := .header } s)
  | k => closeInvalid se k 0 s

/-- R134: the condition that a broken cause gives. -/
def Broken.condition : Broken → Condition
  | .no => .none
  | .sequence => .sequence
  | .storeFault => .storeFault

/-- R134, R135: a close continues with the buffer not busy. -/
def closeContinue (se : Session) (c : CloseJob) (s : State) : State :=
  if se.broken ≠ .no then closeInvalid se se.broken.condition se.breakIndex s
  else if se.buffer ≠ [] then programBuffer se (setClose { c with step := .lastPage } s)
  else closeHeader se c s

/-- R134: LOAD CLOSE: refused, or taken and in progress. -/
def takeLoadClose (cmd : Instr) (table : BitVec 8) (rows : Nat) (check : BitVec 16) (readable : Bool) (s : State) :
    State :=
  match tableOf table with
  | none => answerCommand cmd (.plain .badField) s
  | some t =>
    match rowsSession s t with
    | none => answerCommand cmd (.plain .noSession) s
    | some se =>
      let c : CloseJob := { rows := rows, check := check, readable := readable, step := .awaitingBuffer }
      let s := setClose c (setGate (.inProgress cmd) s)
      if se.bufferBusy then s else closeContinue se c s

/-- R135 step 4 of the IRT: verification at the close. -/
def closeVerifyIrt (se : Session) (s : State) : State :=
  match decodeIrtHeader (headerBytes s.array .irt) with
  | none => closeInvalid se .storeFault 0 s
  | some h =>
    match verifyIrt s.array h se.received with
    | (.none, _) => closeValid se h.generation (validIrt h s)
    | (k, i) => closeInvalid se k i s

/-- R135 step 4 of the Profile. -/
def closeVerifyProfile (se : Session) (s : State) : State :=
  match decodeProfileHeader ((headerBytes s.array .profile).take 8) with
  | none => closeInvalid se .storeFault 0 s
  | some h =>
    if profileReadsBack s.array h then closeValid se h.generation (evaluateLow (validProfile h s))
    else closeInvalid se .readback 0 s

/-- R135 step 4. -/
def closeVerify (se : Session) (s : State) : State :=
  match se.table with
  | .irt => closeVerifyIrt se s
  | .profile => closeVerifyProfile se s

/-- R133: the session after its buffer's PAGE PROGRAM. -/
def Session.programmed (se : Session) (ok : Bool) : Session :=
  let se := { se with buffer := [], bufferBusy := false }
  if ok then se else { se with broken := .storeFault, breakIndex := se.received }

/-- R133: STORE_FAULT of a failed PAGE PROGRAM. -/
def pageFault (ok : Bool) (s : State) : State := if ok then s else raiseStoreFault .pageProgram none s

/-- R134, R135: a PAGE PROGRAM's completion in CLOSING. -/
def takeClosingPage (se : Session) (c : CloseJob) (ok : Bool) (s : State) : State :=
  match c.step with
  | .awaitingBuffer => closeContinue (se.programmed ok) c (setSession (se.programmed ok) s)
  | .lastPage =>
    if ok then closeHeader (se.programmed true) c (setSession (se.programmed true) s)
    else closeInvalid se .storeFault 0 s
  | .header => if ok then closeVerify se s else closeInvalid se .storeFault 0 s

/-- R133, R135, R141: a PAGE PROGRAM's completion. -/
def takePageResult (ok : Bool) (s : State) : State :=
  let s := pageFault ok s
  match s.loader.phase with
  | .draining _ => s.setLoader { s.loader with phase := .idle }
  | .rows =>
    match s.loader.session with
    | some se => setSession (se.programmed ok) s
    | none => s
  | .closing =>
    match s.loader.session, s.loader.close with
    | some se, some c => takeClosingPage se c ok s
    | _, _ => s
  | .idle => s
  | .opening => s

/-! ### Verify replies and row reading (R138 to R140) -/

/-- R138: the session of a table, if one is open. -/
def sessionOf (s : State) (t : TableName) : Option Session :=
  match s.loader.session with
  | some se => if se.table = t then some se else none
  | none => none

/-- R138: the content of a LOAD VERIFY reply. -/
def verifyReport (s : State) (t : TableName) : VerifyReport :=
  { table := t, state := tableState s t, generation := tableGeneration s t, rows := reportedRows s t,
    received := ((sessionOf s t).map Session.received).getD 0,
    broken := ((sessionOf s t).map Session.broken).getD .no }

/-- R139: a pending verify ends, no reply sent. -/
def endPendingVerify (s : State) : State :=
  (s.setTimers { s.timers with slot := none }).setLoader { s.loader with pendingVerify := none }

/-- R139: a broadcast LOAD VERIFY; it replaces a pending verify, by a reply at once for reply slot 0. -/
def takeBroadcastVerify (tag : BitVec 16) (t : TableName) (s : State) : State :=
  if s.link.replySlot = 0 then placeVerify tag (verifyReport s t) (endPendingVerify s)
  else
    (s.setTimers { s.timers with slot := some (s.link.replySlot * (params s).slotSpacing) }).setLoader
      { s.loader with pendingVerify := some (t, tag) }

/-- R138, R139: LOAD VERIFY. -/
def takeLoadVerify (cmd : Instr) (tag : BitVec 16) (table : BitVec 8) (s : State) : State :=
  match tableOf table with
  | none => answerCommand cmd (.plain .badField) s
  | some t =>
    if unicast cmd then answerCommand cmd (.verify (verifyReport s t)) s else takeBroadcastVerify tag t s

/-- R139: the SLOT timer expires. -/
def slotExpiry (s : State) : State :=
  match s.loader.pendingVerify with
  | none => s
  | some p => placeVerify p.2 (verifyReport s p.1) (s.setLoader { s.loader with pendingVerify := none })

/-- R140: the stored bytes of a row of a table's image. -/
def storedRow (m : Mem) (t : TableName) (index : Nat) : Option (List Byte) :=
  match t with
  | .irt => if index < irtPresent m then some (irtRowBytes m index) else none
  | .profile =>
    if index = 0 ∧ ¬ m.erasedRange profileRecordAddr Limits.profileBytes then some (profileRecordBytes m) else none

/-- R140: DUMP ROW, unicast; a broadcast one is discarded (R129). -/
def takeDumpRow (cmd : Instr) (table : BitVec 8) (index : Nat) (s : State) : State :=
  if !unicast cmd then s
  else
    match tableOf table with
    | none => answerCommand cmd (.plain .badField) s
    | some t =>
      if (sessionOf s t).isSome ∨ s.loader.phase = .draining t then answerCommand cmd (.plain .busy) s
      else
        match storedRow s.array t index with
        | some bytes => answerCommand cmd (.dumped index (tableState s t) (tableGeneration s t) bytes) s
        | none => answerCommand cmd (.plain .noRow) s

/-! ### Aborts (R141) -/

/-- R141: LINK RESET and RELEASE abort a session in ROWS. -/
def abortSession (s : State) : State :=
  match s.loader.phase, s.loader.session with
  | .rows, some se =>
    invalidTable se.table se.generation
      (s.setLoader { s.loader with
        phase := if se.bufferBusy then .draining se.table else .idle, session := none, close := none })
  | _, _ => s

/-! ### READ RANGE (R11) -/

/-- R11: READ RANGE of a row and its index. -/
def rangeRow (s : State) (sel : Nat) (value : Nat) : Option (Nat × IrtRow) :=
  if sel = 1 then (s.irt.mirror[value]?).map (fun r => (value, r))
  else
    match s.irt.mirror.findIdx? (fun r => r.contains value) with
    | some i => (s.irt.mirror[i]?).map (fun r => (i, r))
    | none => none

/-- R11: READ RANGE. -/
def serveReadRange (tag : BitVec 16) (sel value : Nat) (s : State) : State :=
  if s.irt.state ≠ .valid ∨ ¬ s.irt.readable then answerRequest 0x07 tag (.plain .rowProtected) s
  else if sel ≠ 1 ∧ sel ≠ 2 then answerRequest 0x07 tag (.plain .badSelector) s
  else
    match rangeRow s sel value with
    | none => answerRequest 0x07 tag (.plain .noRow) s
    | some p => answerRequest 0x07 tag (.range s.irt.generation s.irt.mirror.length p.1 p.2) s

end Sys2Proof.Machine
end

