-- ==== Sys2Proof/Machine/LinkOps.lean ====
section
/-! DEFINITION. The Link Supervisor (R143 to R153), every management command's effect, and the management gate's taking
of one (R165). -/

namespace Sys2Proof.Machine

/-! ### Presence (R149) -/

/-- R149: a PRESENCE frame takes the place of an unsent one. -/
def queuePresence (s : State) : State :=
  s.setArbiter { s.arbiter with presence := [{ tag := 0, addr := 0, payload := .presence s.link.identity }] }

/-- R149, R155: the PRESENCE timer starts with the presence interval. -/
def startPresence (s : State) : State :=
  s.setTimers { s.timers with presence := some (params s).presenceInterval }

/-- R149: the PRESENCE timer expires in SEARCH. -/
def presenceExpiry (s : State) : State :=
  if s.link.state = .search ∧ s.timers.beaconWatch.isSome then startPresence (queuePresence s) else s

/-! ### Beacons (R145, R146) -/

/-- R143: the cell id as reported: 0 for none. -/
def cellCode (c : Option Nat) : Nat := c.getD 0

/-- R148: whether a beacon of a cell changes the cell id held. -/
def cellChanges (held : Option Nat) (cell : Nat) : Bool :=
  match held with
  | some c => c != cell
  | none => false

/-- R145: what a beacon does in every link state. -/
def beaconTaken (cell seconds : Nat) (s : State) : State :=
  (s.setTimers { s.timers with beaconWatch := some (params s).beaconLoss }).setLink
    { s.link with cell := some cell, base := some { s := seconds, t := 0 } }

/-- R145, R149: what a beacon does further by link state. -/
def beaconByState (old : LinkState) (s : State) : State :=
  match old with
  | .search => if s.timers.presence = none then startPresence (queuePresence s) else s
  | .down => uploaderUp (s.setLink { s.link with state := .up })
  | .up => s

/-- R145, R148: a BEACON that is taken. -/
def takeBeacon (cell seconds : Nat) (s : State) : State :=
  let s' := beaconByState s.link.state (beaconTaken cell seconds s)
  if s.link.state = .down ∨ cellChanges s.link.cell cell then
    raiseLinkChange s'.link.state (cellCode s.link.cell) cell s'
  else s'

/-- R161: every AUTH REQUEST is withdrawn. -/
def withdrawAllAuth (s : State) : State := s.setArbiter { s.arbiter with auth := [] }

/-- R54, R111, R161: the link leaves UP: stand-ins, withdrawals, the Uploader off. -/
def linkLeavesUp (s : State) : State := uploaderOff (withdrawAllAuth (standInAll s))

/-- R146: BEACON WATCH expires. -/
def beaconExpiry (s : State) : State :=
  match s.link.state with
  | .up =>
    raiseLinkChange .down (cellCode s.link.cell) (cellCode s.link.cell)
      (linkLeavesUp (s.setLink { s.link with state := .down }))
  | .search => s
  | .down => s

/-! ### ASSIGN (R150) -/

/-- R150: the link state that an ASSIGN gives. -/
def assignedState (s : State) : LinkState := if s.timers.beaconWatch.isSome then .up else .down

/-- R157: a DATA frame stamped 0 takes the new address. -/
def restamp (addr : Nat) (f : Frame) : Frame := if f.addr = 0 then { f with addr := addr } else f

/-- R149, R157, R161: what leaving SEARCH does to the PRESENCE timer and frame and to the DATA frames. -/
def leaveSearch (addr : Nat) (s : State) : State :=
  (s.setTimers { s.timers with presence := none }).setArbiter
    { s.arbiter with presence := [], data := s.arbiter.data.map (restamp addr) }

/-- R150: the reply to an ASSIGN that is taken. -/
def assignReply (s : State) : Reply := .assigned s.link.addr s.link.replySlot s.link.state

/-- R150: an ASSIGN of a part in SEARCH. -/
def assignFromSearch (addr slot : Nat) (s : State) : State :=
  let s' := (leaveSearch addr s).setLink
    { s.link with state := assignedState s, addr := addr, replySlot := slot }
  let s' := if s'.link.state = .up then uploaderUp s' else s'
  raiseLinkChange s'.link.state (cellCode s.link.cell) (cellCode s.link.cell) s'

/-- R150: an ASSIGN that is taken. -/
def assignTaken (addr slot : Nat) (s : State) : State :=
  if assigned s then s.setLink { s.link with addr := addr, replySlot := slot } else assignFromSearch addr slot s

/-- R150: ASSIGN. -/
def takeAssign (cmd : Instr) (identity : BitVec 48) (addr slot : Nat) (s : State) : State :=
  if unicast cmd then answerCommand cmd (.plain .badField) s
  else if identity ≠ s.link.identity then s
  else if addr = 0 ∨ addr = 255 ∨ 63 < slot then answerCommand cmd (.plain .badField) s
  else
    let s' := assignTaken addr slot s
    answerCommand cmd (assignReply s') s'

/-! ### RELEASE and LINK RESET (R151, R152) -/

/-- R151 steps 1 to 3. -/
def releaseTraffic (s : State) : State := endPendingVerify (abortSession (linkLeavesUp s))

/-- R151 steps 5 and 6. -/
def releaseLink (s : State) : State :=
  raiseLinkChange .search (cellCode s.link.cell) 0
    ((s.setTimers { s.timers with beaconWatch := none, presence := none }).setLink
      { s.link with state := .search, addr := 0, replySlot := 0, cell := none, base := none })

/-- R151: RELEASE; a broadcast one is discarded. -/
def takeRelease (cmd : Instr) (s : State) : State :=
  if !unicast cmd then s
  else releaseLink (answerCommand cmd (.released s.link.addr) (releaseTraffic s))

/-- R152 step 3, R166: every uplink queue is emptied and the waiting verify replies are discarded. -/
def emptyQueues (s : State) : State :=
  s.setArbiter { s.arbiter with mgmt := [], auth := [], upload := [], data := [], presence := [], waitingVerify := [] }

/-- R152: LINK RESET; a broadcast one is discarded. -/
def takeLinkReset (cmd : Instr) (s : State) : State :=
  if !unicast cmd then s
  else
    uploaderRestart (answerCommand cmd (.plain .ok)
      (emptyQueues (endPendingVerify (abortSession (declineAll s)))))

/-! ### QUERY STATUS (R153) -/

/-- R153: the status. -/
def statusReport (s : State) : StatusReport :=
  { link :=
      { state := s.link.state, addr := s.link.addr, replySlot := s.link.replySlot, cell := cellCode s.link.cell,
        baseHeld := s.link.base.isSome, identity := s.link.identity }
    tables :=
      { irtState := s.irt.state, irtGeneration := s.irt.generation, irtRows := reportedRows s .irt,
        profileState := s.profile.state, profileGeneration := s.profile.generation }
    journal :=
      { free := s.journal.freeSpace, live := liveCount s, low := s.journal.lowFlag, upload := s.uploader.phase,
        txn := s.uploader.txn, attempts := s.uploader.attempts }
    store :=
      { busy := s.store.running.isSome, op := s.store.running.map StoreOp.kind, last := s.store.lastRecord,
        prev := s.store.prevRecord }
    counters :=
      { radioBad := s.radio.framesBad, hostBad := s.host.framesBad, lateDiscarded := s.decision.lateDiscarded,
        heldOverflow := s.host.heldOverflow, storeFaults := s.store.storeFaults,
        programFailures := s.store.programFailures, eraseFailures := s.store.eraseFailures,
        timeLimitFailures := s.store.timeLimitFailures }
    epoch := s.decision.epoch
    exhausted := s.decision.exhausted }

/-- R153: QUERY STATUS; a broadcast one is discarded. -/
def takeQueryStatus (cmd : Instr) (s : State) : State :=
  if !unicast cmd then s else answerCommand cmd (.status (statusReport s)) s

/-! ### Bill commands (R24) -/

/-- R24: a bill command taken and answered; a broadcast one is discarded. -/
def takeBillCommand (cmd : Instr) (act : State → State × Reply) (s : State) : State :=
  if !unicast cmd then s else answerCommand cmd (act s).2 (act s).1

/-! ### Every management command -/

/-- R183, R184: a raw MGMT frame that spells no command: BAD_LENGTH for a known code, else BAD_FIELD; a broadcast one is
discarded (log 22). -/
def takeUnknownCommand (cmd : Instr) (s : State) : State :=
  if !unicast cmd then s
  else if commandCodeKnown (commandCode cmd) then answerCommand cmd (.plain .badLength) s
  else answerCommand cmd (.plain .badField) s

/-- R165: a command is acted on by its owning block. -/
def performCommand (cmd : Instr) (s : State) : State :=
  match cmd with
  | .assign _ _ identity addr slot => takeAssign cmd identity addr.toNat slot.toNat s
  | .release .. => takeRelease cmd s
  | .linkReset .. => takeLinkReset cmd s
  | .queryStatus .. => takeQueryStatus cmd s
  | .billPush _ _ bill place due prior opened known =>
    takeBillCommand cmd (takeBillPush bill.toNat place.toNat due.toNat prior.toNat opened.toNat
      (known.map BitVec.toNat)) s
  | .billAmend _ _ bill due => takeBillCommand cmd (takeBillAmend bill.toNat due.toNat) s
  | .billDrop _ _ bill => takeBillCommand cmd (takeBillDrop bill.toNat) s
  | .loadOpen _ _ table generation rows lock => takeLoadOpen cmd table generation.toNat rows.toNat lock s
  | .loadRow _ _ table index row => takeLoadRow cmd table index.toNat row s
  | .loadClose _ _ table rows check readable => takeLoadClose cmd table rows.toNat check (flagRead readable) s
  | .loadVerify _ tag table => takeLoadVerify cmd tag table s
  | .dumpRow _ _ table index => takeDumpRow cmd table index.toNat s
  | .unknownCommand .. => takeUnknownCommand cmd s
  | _ => s

/-- R165: a command that passes the filter arrives at the gate. -/
def commandAtGate (cmd : Instr) (s : State) : State :=
  match s.arbiter.gate with
  | .empty =>
    if expectsReply s cmd ∧ openPlaces s.arbiter = 0 then setGate (.held cmd) s else performCommand cmd s
  | .held _ =>
    if unicast cmd ∧ 0 < openPlaces s.arbiter then queueMgmtReply (commandCode cmd) (mgmtTag cmd) (.plain .busy) s
    else s
  | .inProgress _ =>
    if unicast cmd ∧ 0 < openPlaces s.arbiter then queueMgmtReply (commandCode cmd) (mgmtTag cmd) (.plain .busy) s
    else s

/-- R144: whether a management command is one that a part in SEARCH listens for. -/
def isAssign : Instr → Bool
  | .assign .. => true
  | _ => false

/-- The level that the LOADLOCK line has when a command is taken (log 10): a command's own operand. -/
def lockOf (cmd : Instr) (s : State) : State :=
  match cmd with
  | .loadOpen _ _ _ _ _ lock => s.setPins { s.pins with loadlock := lock }
  | _ => s

/-- R181: a radio frame has ended: its closing flag opens the next frame. -/
def radioFrameEnded (s : State) : State := s.setRadio { s.radio with asm := .collecting [] false }

/-- R183, R144, R96: a good MGMT frame arrives. -/
def commandArrives (cmd : Instr) (s : State) : State :=
  match s.pins.phase with
  | .run =>
    if filterPasses s (radioAddr cmd) (isAssign cmd) then commandAtGate cmd (lockOf cmd (radioFrameEnded s))
    else radioFrameEnded s
  | .scan => radioFrameEnded s
  | .off => s
  | .held => s

/-- R166: the held command is taken when a place is free and no verify reply waits. -/
def takeHeld (lock : Line) (s : State) : State :=
  match s.arbiter.gate with
  | .held cmd =>
    if 0 < placesForVerify s.arbiter ∧ s.arbiter.waitingVerify = [] then
      match cmd with
      | .loadOpen a t table generation rows _ =>
        performCommand (.loadOpen a t table generation rows lock)
          (setGate .empty (s.setPins { s.pins with loadlock := lock }))
      | _ => performCommand cmd (setGate .empty (s.setPins { s.pins with loadlock := lock }))
    else s
  | .empty => s
  | .inProgress _ => s

end Sys2Proof.Machine
end

