-- ==== Sys2Proof/Machine/HostOps.lean ====
section
/-! DEFINITION. The Host Port Interface (R162 to R164, R168 to R170, R178, R179), the Event Unit's requests (R175, R176)
and the serving of every host request. -/

namespace Sys2Proof.Machine

/-! ### Event requests (R175, R176) -/

/-- R184: a mask field: bit n is the source of priority n; the six upper bits name no source (log 24). -/
def maskOf (m : BitVec 16) : BitVec 10 := m.setWidth 10

/-- R175: SET MASKS. -/
def serveSetMasks (tag : BitVec 16) (run wake : BitVec 16) (s : State) : State :=
  answerRequest 0x0A tag (.masks (maskOf run) (maskOf wake))
    (s.setEvents { s.events with run := maskOf run, wake := maskOf wake })

/-- R176: NEXT EVENT. -/
def serveNextEvent (tag : BitVec 16) (s : State) : State :=
  match s.events.latches.first s.events.run with
  | none => answerRequest 0x09 tag (.noEvent s.events.latches.pendingSet) s
  | some e =>
    match s.events.latches.detail e with
    | none => answerRequest 0x09 tag (.noEvent s.events.latches.pendingSet) s
    | some d =>
      answerRequest 0x09 tag (.event d (s.events.latches.drop e).pendingSet)
        (s.setLatches (s.events.latches.drop e))

/-! ### Port requests (R170, R178, R179) -/

/-- R170: SLEEP. -/
def serveSleep (tag : BitVec 16) (s : State) : State :=
  answerRequest 0x0B tag (.plain .ok) (s.setHost { s.host with sleepPending := true })

/-- R178: the latches after PORT RESET: READY, and AUTH_DONE when any slot is in DONE. -/
def portResetLatches (s : State) : Latches :=
  { Latches.clear with
    ready := some (readyEpoch s.decision)
    authDone := if doneSlots s = [] then none else some (doneSlots s) }

/-- R178: PORT RESET. -/
def servePortReset (tag : BitVec 16) (s : State) : State :=
  answerRequest 0x0C tag (.plain .ok)
    ((s.setEvents { latches := portResetLatches s, run := runMaskReset, wake := wakeMaskReset }).setHost
      { s.host with asm := .collecting [] false })

/-- R179: a slot as STATUS reports it. -/
def slotReport : Option Auth → Option (SlotState × Nat)
  | some a => some (a.state, a.txn)
  | none => none

/-- R179: what STATUS adds. -/
def hostReport (s : State) : HostReport :=
  { power := s.host.power, sleepPending := s.host.sleepPending, delivery := s.host.delivery.length,
    slots := s.decision.slots.map slotReport, pending := s.events.latches.pendingSet, run := s.events.run,
    wake := s.events.wake, attn := attn s, pwrwarn := s.pins.pwrwarn, loadlock := s.pins.loadlock }

/-- R179: STATUS. -/
def serveStatus (tag : BitVec 16) (s : State) : State :=
  answerRequest 0x0D tag (.hostStatus (statusReport s) (hostReport s)) s

/-- R169: a raw request that spells none: BAD_LENGTH for a known code, else UNKNOWN_REQUEST. -/
def serveUnknown (cmd : Instr) (tag : BitVec 16) (s : State) : State :=
  if requestCodeKnown (requestCode cmd) then answerRequest (requestCode cmd) tag (.plain .badLength) s
  else answerRequest (requestCode cmd) tag (.plain .unknownRequest) s

/-! ### Turns (R168, R169) -/

/-- R168: a request is handed to its owner. -/
def serveRequest (cmd : Instr) (s : State) : State :=
  match cmd with
  | .authorize tag bill share pfx token base tip =>
    serveAuthorize tag bill.toNat share.toNat pfx.toNat token base.toNat tip.toNat s
  | .readResult tag slot => serveReadResult tag slot.toNat s
  | .split tag bill n => serveSplit tag bill.toNat n.toNat s
  | .queryBill tag bill sel first => serveQueryBill tag bill.toNat sel.toNat first.toNat s
  | .listBills tag => serveListBills tag s
  | .void tag bill txn => serveVoid tag bill.toNat txn.toNat s
  | .readRange tag sel value => serveReadRange tag sel.toNat value.toNat s
  | .readExposure tag sel first => serveReadExposure tag sel.toNat first.toNat s
  | .nextEvent tag => serveNextEvent tag s
  | .setMasks tag run wake => serveSetMasks tag run wake s
  | .sleep tag => serveSleep tag s
  | .portReset tag => servePortReset tag s
  | .status tag _ => serveStatus tag s
  | .unknownRequest tag _ => serveUnknown cmd tag s
  | _ => s

/-- R164: places of the pending replies held or kept. -/
def replyPlaces (h : HostPort) : Nat := h.replies.length + (if h.voidJob.isSome then 1 else 0)

/-- R169: the host-frames-bad counter grows. -/
def countHostBad (s : State) : State := s.setHost { s.host with framesBad := bump s.host.framesBad }

/-- R170, R181: any good host frame: the closing flag opens the next frame and the port wakes. -/
def wakePort (s : State) : State :=
  s.setHost { s.host with asm := .collecting [] false, power := .awake, sleepPending := false }

/-- R164: a reply that does not end the turn: BUSY, STARTING, or a DATA frame's. -/
def answerFrame (code : BitVec 8) (tag : BitVec 16) (a : Answer) (s : State) : State :=
  queueReply { code := code, tag := tag, body := .plain a, ofRequest := false } s

/-- R168: a good request past the scan: taken, or BUSY. -/
def requestArrives (cmd : Instr) (s : State) : State :=
  if s.host.inProgress then answerFrame (requestCode cmd) (hostTag cmd) .busy s
  else serveRequest cmd (s.setHost { s.host with inProgress := true })

/-- R157, R162: a DATA frame from the host joins its queue, stamped with the address held, or is refused FULL. -/
def hostDataArrives (tag : BitVec 16) (payload : List Byte) (s : State) : State :=
  if s.arbiter.data.length < Limits.dataFrames then
    answerFrame 0x00 tag .ok (s.setArbiter { s.arbiter with
      data := s.arbiter.data ++ [{ tag := tag, addr := s.link.addr, payload := .data payload }] })
  else answerFrame 0x00 tag .full s

/-- A good host frame past the scan is handled by its kind. -/
def hostFrameTaken (cmd : Instr) (s : State) : State :=
  match cmd with
  | .hostData tag payload => hostDataArrives tag payload s
  | _ => requestArrives cmd s

/-- The level of the LOADLOCK line that STATUS finds (log 10). -/
def statusLock (cmd : Instr) (s : State) : State :=
  match cmd with
  | .status _ lock => s.setPins { s.pins with loadlock := lock }
  | _ => s

/-- R164, R169, R170: a good host frame arrives. -/
def hostArrives (cmd : Instr) (s : State) : State :=
  match s.pins.phase with
  | .off => s
  | .held => s
  | .scan =>
    let s' := wakePort s
    if Limits.pendingReplies ≤ replyPlaces s'.host then countHostBad s'
    else answerFrame (requestCode cmd) (hostTag cmd) .starting s'
  | .run =>
    let s' := statusLock cmd (wakePort s)
    if Limits.pendingReplies ≤ replyPlaces s'.host then countHostBad s' else hostFrameTaken cmd s'

/-! ### Bytes (R169, R181, R183) -/

/-- R183: a frame that ended on the host port is judged. -/
def judgeHostFrame (bytes : List Byte) (s : State) : State :=
  let p := frameParts bytes
  if frameSound bytes ∧ p.2.1 = 0 then
    match hostFrameOf p.1 p.2.2.1 s.pins.loadlock p.2.2.2 with
    | some cmd => hostArrives cmd s
    | none => countHostBad s
  else countHostBad s

/-- R181: a byte on the host port. -/
def hostByte (b : Byte) (s : State) : State :=
  let r := asmByte s.host.asm b
  let s' := s.setHost { s.host with asm := r.1 }
  match r.2 with
  | .nothing => s'
  | .bad => countHostBad s'
  | .ended bytes => judgeHostFrame bytes s'

/-- R181: bytes on the host port, in order. -/
def hostBytes (bytes : List Byte) (s : State) : State :=
  match s.pins.phase with
  | .off => s
  | .held => s
  | .scan => bytes.foldl (fun s b => hostByte b s) s
  | .run => bytes.foldl (fun s b => hostByte b s) s

/-- R181: the opening flag of a frame ends what the host assembler has collected. -/
def openHostFrame (s : State) : State := hostBytes [flag] s

/-- A good host frame arrives whole: its opening flag, and then the frame (log 11). -/
def hostFrameArrives (cmd : Instr) (s : State) : State := hostArrives cmd (openHostFrame s)

/-! ### The host transmitter (R164, R168, R170) -/

/-- R164: the free host transmitter begins a frame. -/
def beginHostFrame (s : State) : State :=
  match s.host.tx with
  | .reply => s
  | .delivery _ => s
  | .free =>
    if s.host.replies ≠ [] then s.setHost { s.host with tx := .reply }
    else
      match s.host.power, s.host.delivery with
      | .awake, f :: rest => s.setHost { s.host with tx := .delivery f, delivery := rest }
      | .awake, [] => s
      | .asleep, _ => s

/-- R168, R170: the oldest pending reply has been sent: the turn of a request ends, and a pending sleep completes. -/
def replySent (r : HostReply) (rest : List HostReply) (h : HostPort) : HostPort :=
  if r.ofRequest then
    { h with tx := .free, replies := rest, inProgress := false,
             power := if h.sleepPending then .asleep else h.power, sleepPending := false }
  else { h with tx := .free, replies := rest }

/-- R168: the closing flag of the frame being sent leaves the host port. -/
def endHostFrame (s : State) : State :=
  match s.host.tx, s.host.replies with
  | .reply, r :: rest => s.setHost (replySent r rest s.host)
  | .reply, [] => s.setHost { s.host with tx := .free }
  | .delivery _, _ => s.setHost { s.host with tx := .free }
  | .free, _ => s

/-- R163, R164: a DATA frame from the gateway joins the delivery queue, or is dropped and counted. -/
def deliver (f : DataFrame) (s : State) : State :=
  if s.host.delivery.length < Limits.delivery then
    let s' := s.setHost { s.host with delivery := s.host.delivery ++ [f] }
    match s.host.power with
    | .asleep => raiseDataWaiting (s.host.delivery.length + 1) s'
    | .awake => s'
  else s.setHost { s.host with heldOverflow := bump s.host.heldOverflow }

end Sys2Proof.Machine
end

