-- ==== Sys2Proof/Machine/HostRequests.lean ====
section
/-! DEFINITION. The meanings of the commands on the host port: thirteen requests, raw and bad frames, DATA frames and
the host transmitter's two steps. -/

namespace Sys2Proof.Machine

/-- AUTHORIZE (R43 to R50): a request whose owner is the Decision Unit. -/
def execAuthorize (tag bill : BitVec 16) (share : BitVec 8) (pfx token base tip : BitVec 32) (s : State) :
    Host.Outcome State Fault Refusal :=
  .next (hostFrameArrives (.authorize tag bill share pfx token base tip) s)

/-- READ RESULT (R56). -/
def execReadResult (tag : BitVec 16) (slot : BitVec 8) (s : State) : Host.Outcome State Fault Refusal :=
  .next (hostFrameArrives (.readResult tag slot) s)

/-- SPLIT (R29, R30). -/
def execSplit (tag bill : BitVec 16) (n : BitVec 8) (s : State) : Host.Outcome State Fault Refusal :=
  .next (hostFrameArrives (.split tag bill n) s)

/-- QUERY BILL (R31). -/
def execQueryBill (tag bill : BitVec 16) (sel : BitVec 8) (first : BitVec 16) (s : State) :
    Host.Outcome State Fault Refusal :=
  .next (hostFrameArrives (.queryBill tag bill sel first) s)

/-- LIST BILLS (R32). -/
def execListBills (tag : BitVec 16) (s : State) : Host.Outcome State Fault Refusal :=
  .next (hostFrameArrives (.listBills tag) s)

/-- VOID (R33 to R36). -/
def execVoid (tag bill : BitVec 16) (txn : BitVec 32) (s : State) : Host.Outcome State Fault Refusal :=
  .next (hostFrameArrives (.void tag bill txn) s)

/-- READ RANGE (R11). -/
def execReadRange (tag : BitVec 16) (sel : BitVec 8) (value : BitVec 32) (s : State) :
    Host.Outcome State Fault Refusal :=
  .next (hostFrameArrives (.readRange tag sel value) s)

/-- READ EXPOSURE (R71). -/
def execReadExposure (tag : BitVec 16) (sel : BitVec 8) (first : BitVec 16) (s : State) :
    Host.Outcome State Fault Refusal :=
  .next (hostFrameArrives (.readExposure tag sel first) s)

/-- NEXT EVENT (R176). -/
def execNextEvent (tag : BitVec 16) (s : State) : Host.Outcome State Fault Refusal :=
  .next (hostFrameArrives (.nextEvent tag) s)

/-- SET MASKS (R175). -/
def execSetMasks (tag run wake : BitVec 16) (s : State) : Host.Outcome State Fault Refusal :=
  .next (hostFrameArrives (.setMasks tag run wake) s)

/-- SLEEP (R170). -/
def execSleep (tag : BitVec 16) (s : State) : Host.Outcome State Fault Refusal :=
  .next (hostFrameArrives (.sleep tag) s)

/-- PORT RESET (R178). -/
def execPortReset (tag : BitVec 16) (s : State) : Host.Outcome State Fault Refusal :=
  .next (hostFrameArrives (.portReset tag) s)

/-- STATUS (R179). -/
def execStatus (tag : BitVec 16) (loadlock : Line) (s : State) : Host.Outcome State Fault Refusal :=
  .next (hostFrameArrives (.status tag loadlock) s)

/-- UNKNOWN_REQUEST (R169): the raw payload; one that spells a request after all is that request (log 12). -/
def execUnknownRequest (tag : BitVec 16) (payload : List Byte) (s : State) : Host.Outcome State Fault Refusal :=
  .next (hostFrameArrives (requestOf tag s.pins.loadlock payload) s)

/-- HOST_DATA (R162). -/
def execHostData (tag : BitVec 16) (payload : List Byte) (s : State) : Host.Outcome State Fault Refusal :=
  .next (hostFrameArrives (.hostData tag payload) s)

/-- HOST_FRAME_BAD (R169, R181): the bytes run through the receive assembler. -/
def execHostFrameBad (wire : List Byte) (s : State) : Host.Outcome State Fault Refusal := .next (hostBytes wire s)

/-- HOST_FRAME_SENT (R168). -/
def execHostFrameSent (s : State) : Host.Outcome State Fault Refusal := .next (endHostFrame s)

/-- HOST_TRANSMIT_BEGIN (R164). -/
def execHostTransmitBegin (s : State) : Host.Outcome State Fault Refusal := .next (beginHostFrame s)

end Sys2Proof.Machine
end

