-- ==== Sys2Proof/Machine/RadioOps.lean ====
section
/-! DEFINITION. The Radio Port Interface (R51, R105, R144, R145, R163, R181, R183): every good downstream frame, and the
bytes of a bad one. -/

namespace Sys2Proof.Machine

/-- R144: the radio-frames-bad counter grows. -/
def countRadioBad (s : State) : State := s.setRadio { s.radio with framesBad := bump s.radio.framesBad }

/-- R144, R145: a BEACON that the filter passes. -/
def beaconPassed (cell seconds : Nat) (s : State) : State :=
  if cell = 0 ∨ Limits.secondsMax < seconds then countRadioBad s else takeBeacon cell seconds s

/-- R51, R185: an AUTH REPLY that the filter passes; a broadcast one is discarded uncounted (log 33). -/
def authReplyPassed (addr : BitVec 8) (txn : Nat) (disposition issuer : Nat) (s : State) : State :=
  if addr = broadcastAddr then s
  else if disposition = 1 then takeAuthReply txn issuer true s
  else if disposition = 2 then takeAuthReply txn issuer false s
  else countRadioBad s

/-- R105, R185: an UPLOAD CONFIRM that the filter passes; a broadcast one is discarded uncounted (log 33). -/
def uploadConfirmPassed (addr : BitVec 8) (txn : Nat) (disposition : Nat) (s : State) : State :=
  if addr = broadcastAddr then s
  else if disposition = 1 then takeConfirm txn false s
  else if disposition = 2 then takeConfirm txn true s
  else countRadioBad s

/-- R144, R96: a good downstream frame other than MGMT arrives; `act` is its owner's. -/
def radioArrives (addr : BitVec 8) (inSearch : Bool) (act : State → State) (s : State) : State :=
  match s.pins.phase with
  | .run => if filterPasses s addr inSearch then act (radioFrameEnded s) else radioFrameEnded s
  | .scan => radioFrameEnded s
  | .off => s
  | .held => s

/-- R145: a BEACON arrives; only one addressed to 255 is taken, and one addressed otherwise is discarded uncounted,
whatever its fields (log 33). -/
def beaconArrives (addr : BitVec 8) (cell seconds : Nat) (s : State) : State :=
  radioArrives addr true (fun s => if addr = broadcastAddr then beaconPassed cell seconds s else s) s

/-- R51: an AUTH REPLY arrives. -/
def authReplyArrives (addr : BitVec 8) (txn disposition issuer : Nat) (s : State) : State :=
  radioArrives addr false (authReplyPassed addr txn disposition issuer) s

/-- R105: an UPLOAD CONFIRM arrives. -/
def uploadConfirmArrives (addr : BitVec 8) (txn disposition : Nat) (s : State) : State :=
  radioArrives addr false (uploadConfirmPassed addr txn disposition) s

/-- R163: a DATA frame from the gateway arrives. -/
def gatewayDataArrives (addr : BitVec 8) (tag : BitVec 16) (payload : List Byte) (s : State) : State :=
  radioArrives addr false (deliver { tag := tag, payload := payload }) s

/-- A good downstream frame goes to its owner. -/
def downstreamArrives (cmd : Instr) (s : State) : State :=
  match cmd with
  | .beacon addr cell seconds => beaconArrives addr cell.toNat seconds.toNat s
  | .authReply addr txn disposition reason => authReplyArrives addr txn.toNat disposition.toNat reason.toNat s
  | .uploadConfirm addr txn disposition => uploadConfirmArrives addr txn.toNat disposition.toNat s
  | .gatewayData addr tag payload => gatewayDataArrives addr tag payload s
  | _ => commandArrives cmd s

/-- R144: whether the bytes of a frame are of a kind that a part in SEARCH listens for. -/
def heardInSearch (kind : Nat) (payload : List Byte) : Bool :=
  kind == 0x01 || (kind == 0x04 && field payload 0 1 == 0x01)

/-- R183: a frame that ended on the radio port is judged. -/
def judgeRadioFrame (bytes : List Byte) (s : State) : State :=
  let p := frameParts bytes
  if ¬ frameSound bytes then countRadioBad s
  else if ¬ filterPasses s p.2.1 (heardInSearch p.1 p.2.2.2) then s
  else
    match radioFrameOf p.1 p.2.1 p.2.2.1 s.pins.loadlock p.2.2.2 with
    | some cmd => downstreamArrives cmd s
    | none => countRadioBad s

/-- R181: a byte on the radio port. -/
def radioByte (b : Byte) (s : State) : State :=
  let r := asmByte s.radio.asm b
  let s' := s.setRadio { s.radio with asm := r.1 }
  match r.2 with
  | .nothing => s'
  | .bad => countRadioBad s'
  | .ended bytes => judgeRadioFrame bytes s'

/-- R96, R181: a byte on the radio port during the scan: frames are assembled, discarded and not counted. -/
def radioByteInScan (b : Byte) (s : State) : State := s.setRadio { s.radio with asm := (asmByte s.radio.asm b).1 }

/-- R181: bytes on the radio port, in order. -/
def radioBytes (bytes : List Byte) (s : State) : State :=
  match s.pins.phase with
  | .off => s
  | .held => s
  | .scan => bytes.foldl (fun s b => radioByteInScan b s) s
  | .run => bytes.foldl (fun s b => radioByte b s) s

/-- R181: the opening flag of a frame ends what the radio assembler has collected. -/
def openRadioFrame (s : State) : State := radioBytes [flag] s

/-- A good radio frame arrives whole: its opening flag, and then the frame (log 11). -/
def radioFrameArrives (cmd : Instr) (s : State) : State := downstreamArrives cmd (openRadioFrame s)

end Sys2Proof.Machine
end

