-- ==== Sys2Proof/Machine/Management.lean ====
section
/-! DEFINITION. The meanings of the management commands, and of the two steps by which the gate's waiters take a freed
place. -/

namespace Sys2Proof.Machine

/-- ASSIGN (R150). -/
def execAssign (addr : BitVec 8) (tag : BitVec 16) (identity : BitVec 48) (newAddr replySlot : BitVec 8) (s : State) :
    Host.Outcome State Fault Refusal :=
  .next (radioFrameArrives (.assign addr tag identity newAddr replySlot) s)

/-- RELEASE (R151). -/
def execRelease (addr : BitVec 8) (tag : BitVec 16) (s : State) : Host.Outcome State Fault Refusal :=
  .next (radioFrameArrives (.release addr tag) s)

/-- LINK RESET (R152). -/
def execLinkReset (addr : BitVec 8) (tag : BitVec 16) (s : State) : Host.Outcome State Fault Refusal :=
  .next (radioFrameArrives (.linkReset addr tag) s)

/-- QUERY STATUS (R153). -/
def execQueryStatus (addr : BitVec 8) (tag : BitVec 16) (s : State) : Host.Outcome State Fault Refusal :=
  .next (radioFrameArrives (.queryStatus addr tag) s)

/-- BILL PUSH (R25, R26). -/
def execBillPush (addr : BitVec 8) (tag bill place : BitVec 16) (due prior : BitVec 32) (opened : BitVec 24)
    (known : List (BitVec 32)) (s : State) : Host.Outcome State Fault Refusal :=
  .next (radioFrameArrives (.billPush addr tag bill place due prior opened known) s)

/-- BILL AMEND (R27). -/
def execBillAmend (addr : BitVec 8) (tag bill : BitVec 16) (due : BitVec 32) (s : State) :
    Host.Outcome State Fault Refusal :=
  .next (radioFrameArrives (.billAmend addr tag bill due) s)

/-- BILL DROP (R28). -/
def execBillDrop (addr : BitVec 8) (tag bill : BitVec 16) (s : State) : Host.Outcome State Fault Refusal :=
  .next (radioFrameArrives (.billDrop addr tag bill) s)

/-- LOAD OPEN (R130). -/
def execLoadOpen (addr : BitVec 8) (tag : BitVec 16) (table : BitVec 8) (generation rows : BitVec 16)
    (loadlock : Line) (s : State) : Host.Outcome State Fault Refusal :=
  .next (radioFrameArrives (.loadOpen addr tag table generation rows loadlock) s)

/-- LOAD ROW (R132). -/
def execLoadRow (addr : BitVec 8) (tag : BitVec 16) (table : BitVec 8) (index : BitVec 16) (row : List Byte)
    (s : State) : Host.Outcome State Fault Refusal :=
  .next (radioFrameArrives (.loadRow addr tag table index row) s)

/-- LOAD CLOSE (R134, R135). -/
def execLoadClose (addr : BitVec 8) (tag : BitVec 16) (table : BitVec 8) (rows check : BitVec 16)
    (readable : BitVec 8) (s : State) : Host.Outcome State Fault Refusal :=
  .next (radioFrameArrives (.loadClose addr tag table rows check readable) s)

/-- LOAD VERIFY (R138, R139). -/
def execLoadVerify (addr : BitVec 8) (tag : BitVec 16) (table : BitVec 8) (s : State) :
    Host.Outcome State Fault Refusal :=
  .next (radioFrameArrives (.loadVerify addr tag table) s)

/-- DUMP ROW (R140). -/
def execDumpRow (addr : BitVec 8) (tag : BitVec 16) (table : BitVec 8) (index : BitVec 16) (s : State) :
    Host.Outcome State Fault Refusal :=
  .next (radioFrameArrives (.dumpRow addr tag table index) s)

/-- UNKNOWN_COMMAND (R184): the raw payload; one that spells a command after all is that command (log 12). -/
def execUnknownCommand (addr : BitVec 8) (tag : BitVec 16) (payload : List Byte) (s : State) :
    Host.Outcome State Fault Refusal :=
  .next (radioFrameArrives (commandOf addr tag s.pins.loadlock payload) s)

/-- HELD_COMMAND_TAKEN (R166). -/
def execHeldCommandTaken (loadlock : Line) (s : State) : Host.Outcome State Fault Refusal := .next (takeHeld loadlock s)

/-- VERIFY_REPLY_PLACED (R166). -/
def execVerifyReplyPlaced (s : State) : Host.Outcome State Fault Refusal := .next (placeWaitingVerify s)

end Sys2Proof.Machine
end

