-- ==== Sys2Proof/Machine/RadioFrames.lean ====
section
/-! DEFINITION. The meanings of the gateway's other frames, of bad radio frames, and of the radio transmitter's two
steps. -/

namespace Sys2Proof.Machine

/-- BEACON (R145). -/
def execBeacon (addr : BitVec 8) (cell : BitVec 16) (seconds : BitVec 24) (s : State) :
    Host.Outcome State Fault Refusal :=
  .next (radioFrameArrives (.beacon addr cell seconds) s)

/-- AUTH REPLY (R51, R53). -/
def execAuthReply (addr : BitVec 8) (txn : BitVec 32) (disposition reason : BitVec 8) (s : State) :
    Host.Outcome State Fault Refusal :=
  .next (radioFrameArrives (.authReply addr txn disposition reason) s)

/-- UPLOAD CONFIRM (R105 to R109). -/
def execUploadConfirm (addr : BitVec 8) (txn : BitVec 32) (disposition : BitVec 8) (s : State) :
    Host.Outcome State Fault Refusal :=
  .next (radioFrameArrives (.uploadConfirm addr txn disposition) s)

/-- GATEWAY_DATA (R163). -/
def execGatewayData (addr : BitVec 8) (tag : BitVec 16) (payload : List Byte) (s : State) :
    Host.Outcome State Fault Refusal :=
  .next (radioFrameArrives (.gatewayData addr tag payload) s)

/-- RADIO_FRAME_BAD (R181, R183): the bytes run through the receive assembler. -/
def execRadioFrameBad (wire : List Byte) (s : State) : Host.Outcome State Fault Refusal := .next (radioBytes wire s)

/-- GRANT (R158). -/
def execGrant (s : State) : Host.Outcome State Fault Refusal := .next (grantFrame s)

/-- TRANSMISSION_COMPLETE (R158). -/
def execTransmissionComplete (s : State) : Host.Outcome State Fault Refusal :=
  .next (s.setArbiter { s.arbiter with sending := none })

end Sys2Proof.Machine
end

