-- ==== Sys2Proof/Machine/StartUp.lean ====
section
/-! DEFINITION. Supply, RESETN and the start-up scan (R12, R68, R92 to R96, R121, R124, R137, R187), the outcome of an
epoch update (R42, R95, R122), and the handing of every store completion to its requester (R116). -/

namespace Sys2Proof.Machine

/-! ### Volatile state (R38, R57, R72, R97, R114, R127, R142, R156, R167, R180) -/

/-- Everything volatile at its reset value; the lines, the array, the unit identity and the commands not yet taken are
kept. -/
def clearVolatile (s : State) : State :=
  { State.reset with
    pins := s.pins, array := s.array, link := .reset s.link.identity, uploader := .off,
    journal := { Journal.reset with blocks := [.erased, .erased, .erased, .erased], order := [], writeAt := none },
    store := { Store.reset with epochPlace := none, epochAt := 0, update := none }, pending := s.pending }

/-! ### Deriving the tables (R12, R137) -/

/-- R12: the IRT's state from its image alone. DESIGN CHOICE (log 37): where R5 has INVALID persist across a reset and
the image verifies all the same, the image decides. -/
def deriveIrt (s : State) : State :=
  if s.array.erasedRange irtBase irtBytes then
    s.setIrt { state := .empty, generation := 0, readable := false, mirror := [] }
  else
    match decodeIrtHeader (headerBytes s.array .irt) with
    | none => invalidTable .irt 0 s
    | some h =>
      match verifyIrt s.array h (irtPresent s.array) with
      | (.none, _) => validIrt h s
      | _ => invalidTable .irt h.generation s

/-- R137: the Profile's state from its block, in the manner of R12. -/
def deriveProfile (s : State) : State :=
  if s.array.erasedRange profileBase profileBlockBytes then
    s.setProfile { state := .empty, generation := 0, values := .defaults }
  else
    match decodeProfileHeader ((headerBytes s.array .profile).take 8) with
    | none => invalidTable .profile 0 s
    | some h => if profileReadsBack s.array h then validProfile h s else invalidTable .profile h.generation s

/-! ### Reading the journal (R92) -/

/-- R92: what a record slot reads: its state, and the transaction number of a valid record. -/
structure ScannedSlot where
  state : RecordState
  txn : Option Nat
deriving DecidableEq, Repr

/-- R92: whether a record slot reads erased. -/
def slotErased (m : Mem) (loc : Loc) : Bool := m.erasedRange loc.addr Limits.recordBytes

/-- R92: a slot of the written part. -/
def scanSlot (m : Mem) (loc : Loc) : ScannedSlot :=
  if slotErased m loc then { state := .unused, txn := none }
  else
    let bs := slotBytes m loc
    if recordValid bs then { state := markedState bs, txn := some (decodeRecord bs).txn }
    else { state := .torn, txn := none }

/-- R92: how many slots the written part of a block has: to the last slot that does not read erased. -/
def writtenPart (m : Mem) (b : Nat) : Nat → Nat
  | 0 => 0
  | n + 1 => if slotErased m { block := b, slot := n } then writtenPart m b n else n + 1

/-- R92: a block as read: the slots of its written part. -/
def scanBlock (m : Mem) (b : Nat) : List ScannedSlot :=
  (List.range (writtenPart m b Limits.blockSlots)).map (fun i => scanSlot m { block := b, slot := i })

/-- R92: the four blocks as read. -/
def scanBlocks (m : Mem) : List (List ScannedSlot) := (List.range Limits.journalBlocks).map (scanBlock m)

/-! ### Arranging the blocks (R93) -/

/-- The highest transaction number of a block's valid records, with its slot. -/
def highest (slots : List ScannedSlot) : Option (Nat × Nat) :=
  ((List.range slots.length).zip slots).foldl
    (fun best p =>
      match p.2.txn, best with
      | none, b => b
      | some t, none => some (t, p.1)
      | some t, some b => if b.1 < t then some (t, p.1) else some b)
    none

/-- Whether a block with a highest number is newer than the best so far; a number in two blocks makes the one that
holds it at the lower slot newer, as a retry in the next block does (log 18). -/
def newerThan (x : Nat × Nat) : Option (Nat × Nat × Nat) → Bool
  | none => true
  | some (_, t, i) => t < x.1 || (t == x.1 && x.2 < i)

/-- R93 step 1: the newest block. -/
def newestBlock (blocks : List (List ScannedSlot)) : Option Nat :=
  (((List.range blocks.length).zip blocks).foldl
    (fun best p =>
      match highest p.2 with
      | none => best
      | some x => if newerThan x best then some (p.1, x.1, x.2) else best)
    none).map Prod.fst

/-- Whether a block is written. -/
def isWritten (blocks : List (List ScannedSlot)) (b : Nat) : Bool := !(blocks.getD b []).isEmpty

/-- A record slot found by the scan. -/
def foundSlot (x : ScannedSlot) : RecordSlot := { state := x.state, markPending := false }

/-- R93 step 2: a block as arranged: ERASED, FULL, FILLING when it is the newest, or closed with its remainder
UNUSED. -/
def arrangeBlock (newest : Option Nat) (b : Nat) (slots : List ScannedSlot) : JBlock :=
  if slots = [] then .erased
  else if Limits.blockSlots ≤ slots.length then { state := .full, slots := slots.map foundSlot }
  else if newest = some b then
    { state := .filling,
      slots := slots.map foundSlot ++ List.replicate (Limits.blockSlots - slots.length) .fresh }
  else
    { state := .full,
      slots := slots.map foundSlot
        ++ List.replicate (Limits.blockSlots - slots.length) { state := .unused, markPending := false } }

/-- R93 step 3: the blocks from the one after the newest to the newest, or by number without one. -/
def cyclicFrom : Option Nat → List Nat
  | some n => [(n + 1) % 4, (n + 2) % 4, (n + 3) % 4, n % 4]
  | none => [0, 1, 2, 3]

/-- R93 step 2: the write position in the newest block. -/
def newestWrite (blocks : List (List ScannedSlot)) : Option Nat → Option Loc
  | none => none
  | some n =>
    if (blocks.getD n []).length < Limits.blockSlots then some { block := n, slot := (blocks.getD n []).length }
    else none

/-- R93 steps 2 and 3: the journal before step 4. -/
def arranged (blocks : List (List ScannedSlot)) : Journal :=
  let newest := newestBlock blocks
  { blocks := ((List.range blocks.length).zip blocks).map (fun p => arrangeBlock newest p.1 p.2)
    order := (cyclicFrom newest).filter (isWritten blocks)
    writeAt := newestWrite blocks newest
    queue := [], inProgram := none, lowFlag := false }

/-- R93 step 4: when no block is FILLING, the first ERASED block becomes FILLING. -/
def fillFirst (newest : Option Nat) (j : Journal) : Journal :=
  match j.writeAt with
  | some _ => j
  | none =>
    match (cyclicFrom newest).find? (fun k => (j.blocks.getD k .erased).state == .erased) with
    | some b => j.openBlock b
    | none => j

/-- R92: of slots with the same number in journal order, the earlier ones. -/
def earlierTwins : List (Loc × Nat) → List Loc
  | [] => []
  | p :: rest => if rest.any (fun q => q.2 == p.2) then p.1 :: earlierTwins rest else earlierTwins rest

/-- The valid records in journal order, with their numbers. -/
def numberedSlots (j : Journal) (blocks : List (List ScannedSlot)) : List (Loc × Nat) :=
  j.order.flatMap (fun b =>
    ((List.range (blocks.getD b []).length).zip (blocks.getD b [])).filterMap (fun p =>
      p.2.txn.map (fun t => ({ block := b, slot := p.1 }, t))))

/-- R92, R93: the journal as the scan leaves it. -/
def scannedJournal (m : Mem) : Journal :=
  let blocks := scanBlocks m
  let j := fillFirst (newestBlock blocks) (arranged blocks)
  (earlierTwins (numberedSlots j blocks)).foldl
    (fun j loc => j.onSlot loc (fun r => { r with state := .torn })) j

/-! ### Tallies (R68) -/

/-- R68: the rebuild from the LIVE records in journal order. -/
def rebuildTally (s : State) : Tally :=
  (orderedSlots s).foldl
    (fun t p =>
      if p.2.state = .live then
        match recordAt s p.1 with
        | some r => countRecord r t
        | none => t
      else t)
    { table := [], repeats := [] }

/-! ### Epoch (R95, R121) -/

/-- R121: the epochs of the valid words. -/
def wordEpochs (m : Mem) : List Nat :=
  (List.range Limits.epochWords).filterMap (fun w => decodeEpochWord (epochWord m w))

/-- R121: the epoch write position: after the last of the first `n` words that does not read erased. -/
def epochPosition (m : Mem) : Nat → Nat
  | 0 => 0
  | n + 1 => if m.erasedRange (epochWordAddr n) 4 then epochPosition m n else n + 1

/-- R95: the epochs of the valid journal records. -/
def recordEpochs (m : Mem) : List Nat :=
  (scanBlocks m).flatMap (fun b => b.filterMap (fun x => x.txn.map (· / 65536)))

/-- R95: the largest epoch found, 0 when there is none. -/
def largestEpoch (m : Mem) : Nat := (wordEpochs m ++ recordEpochs m).foldl max 0

/-- R95: the history of epochs is damaged. -/
def epochLost (m : Mem) : Bool :=
  if m.erasedRange epochBase epochBytes then !m.erasedRange 0 epochBase else (wordEpochs m).isEmpty

/-- R42, R95, R96: the part starts exhausted; its current epoch is 65,535. -/
def startExhausted (s : State) : State :=
  s.setDecision { s.decision with epoch := Limits.word16Max, seq := 0, exhausted := true }

/-! ### The end of the scan (R94, R96) -/

/-- R94: how many slots are TORN. -/
def tornCount (s : State) : Nat := ((everySlot s).filter (fun p => p.2.state == .torn)).length

/-- R94 step 4. -/
def raiseTorn (s : State) : State :=
  if tornCount s = 0 then s else raiseStoreFault .torn (some (tornCount s)) s

/-- R94 steps 4 to 6, R96: the scan ends, READY is latched and both ports open. -/
def endScan (s : State) : State :=
  let s := reclaim (evaluateLow (raiseTorn s))
  raiseReady (s.setPins { s.pins with phase := .run })

/-- R94 step 3, R95: the epoch is recovered. -/
def recoverEpoch (s : State) : State :=
  if epochLost s.array then endScan (raiseStoreFault .epoch none (startExhausted s))
  else if Limits.word16Max ≤ largestEpoch s.array then endScan (startExhausted s)
  else startUpdate (largestEpoch s.array + 1) true s

/-- R171: POWER_WARN at the beginning of the scan when the line is asserted then. -/
def warnAtScan (s : State) : State :=
  match s.pins.pwrwarn with
  | .asserted => raisePowerWarn .asserted s
  | .deasserted => s

/-- R12, R92 to R96: the start-up scan, up to its epoch program. -/
def beginScan (s : State) : State :=
  let s := warnAtScan ((clearVolatile s).setPins { s.pins with phase := .scan })
  let s := deriveProfile (deriveIrt s)
  let s := s.setJournal (scannedJournal s.array)
  let s := s.setTally (rebuildTally s)
  recoverEpoch (s.setStore { s.store with epochAt := epochPosition s.array Limits.epochWords })

/-! ### Outcome of an epoch update (R42, R95, R122) -/

/-- R122: the update ends: the engine forgets it. -/
def forgetUpdate (s : State) : State := s.setStore { s.store with update := none }

/-- R42, R95: the update succeeded. -/
def updateSucceeded (u : EpochUpdate) (s : State) : State :=
  if u.startUp then
    endScan ((forgetUpdate s).setDecision { s.decision with epoch := u.epoch, seq := 0, exhausted := false })
  else (forgetUpdate s).setDecision { s.decision with exhausted := false }

/-- R42, R95, R122: the update failed. -/
def updateFailed (u : EpochUpdate) (s : State) : State :=
  let s := raiseStoreFault .epoch none (forgetUpdate s)
  if u.startUp then endScan (startExhausted s) else s

/-- R122 steps 3 to 5: an EPOCH PROGRAM's completion. -/
def takeEpochResult (ok : Bool) (s : State) : State :=
  match s.store.update with
  | none => s
  | some u =>
    if ok then updateSucceeded u s
    else if u.retry then updateFailed u s
    else stepUpdate u.epoch (s.setStore { s.store with update := some { u with retry := true } })

/-- R122 step 2: the completion of the epoch block's erase. -/
def takeEpochErase (ok : Bool) (s : State) : State :=
  match s.store.update with
  | none => s
  | some u => if ok then stepUpdate u.epoch (s.setStore { s.store with epochAt := 0 }) else updateFailed u s

/-! ### Completions (R116) -/

/-- R116: whether a completion is a success; FAIL and TIME_LIMIT are failures alike. -/
def OpResult.ok : OpResult → Bool
  | .success => true
  | .fail => false
  | .timeLimit => false

/-- R116: the completion of an operation is handed to the block that requested it. -/
def handCompletion (op : StoreOp) (r : OpResult) (s : State) : State :=
  match op with
  | .recordProgram _ _ => takeRecordResult r s
  | .mark q => takeMarkResult q r.ok s
  | .epochProgram _ _ => takeEpochResult r.ok s
  | .pageProgram _ => takePageResult r.ok s
  | .blockErase q =>
    match q.target with
    | .journal b => takeJournalErase b q.second r.ok s
    | .epoch => takeEpochErase r.ok s
    | .table _ => takeTableErase r.ok s

/-- R116 to R118: the running operation ends with what it left in the array, and its completion is handed on. -/
def completeOperation (op : StoreOp) (limit : Bool) (e : ArrayEnd) (s : State) : State :=
  handCompletion op (completionOf limit (op.apply s.array e).2) (endOperation op limit e s)

/-- The running operation of a kind ends; an end of a kind that is not running is no event (log 2). A target outside the
array is a fault (log 29). -/
def endRunning (kind : Option OpKind) (limit : Bool) (e : ArrayEnd) (s : State) :
    Host.Outcome State Fault Refusal :=
  match s.store.running with
  | none => .next s
  | some op =>
    if kind = none ∨ kind = some op.kind then
      if op.targetExists then .next (completeOperation op limit e s) else .fault .outsideArray
    else .next s

/-! ### Supply and RESETN (R96, R124, R187) -/

/-- Whether the running operation, if any, has a target in the array. -/
def runningInArray (s : State) : Bool :=
  match s.store.running with
  | none => true
  | some op => op.targetExists

/-- R124: the running operation is cut short and the volatile state is lost; the part comes to a phase. -/
def stopPart (phase : Phase) (e : ArrayEnd) (s : State) : State :=
  (clearVolatile (interruptOperation e s)).setPins { s.pins with phase := phase }

/-- R96, R187: the part leaves reset: the scan begins unless RESETN holds it. -/
def startPart (s : State) : State :=
  match s.pins.resetn with
  | .asserted => s.setPins { s.pins with phase := .held }
  | .deasserted => beginScan s

end Sys2Proof.Machine
end

