-- ==== Sys2Proof/Machine/StoreEvents.lean ====
section
/-! DEFINITION. The meanings of the Store Engine's steps: a start, five completions and the time limit (R116 to
R120). -/

namespace Sys2Proof.Machine

/-- STORE_OPERATION_START (R119, R120). -/
def execStoreOperationStart (s : State) : Host.Outcome State Fault Refusal := .next (startOperation s)

/-- RECORD_PROGRAM_COMPLETE (R81, R82). -/
def execRecordProgramComplete (e : ArrayEnd) (s : State) : Host.Outcome State Fault Refusal :=
  endRunning (some .recordProgram) false e s

/-- MARK_COMPLETE (R88). -/
def execMarkComplete (e : ArrayEnd) (s : State) : Host.Outcome State Fault Refusal :=
  endRunning (some .mark) false e s

/-- EPOCH_PROGRAM_COMPLETE (R122). -/
def execEpochProgramComplete (e : ArrayEnd) (s : State) : Host.Outcome State Fault Refusal :=
  endRunning (some .epochProgram) false e s

/-- PAGE_PROGRAM_COMPLETE (R133, R135, R141). -/
def execPageProgramComplete (e : ArrayEnd) (s : State) : Host.Outcome State Fault Refusal :=
  endRunning (some .pageProgram) false e s

/-- BLOCK_ERASE_COMPLETE (R91, R122, R131). -/
def execBlockEraseComplete (e : ArrayEnd) (s : State) : Host.Outcome State Fault Refusal :=
  endRunning (some .blockErase) false e s

/-- OPERATION_TIME_LIMIT (R118). -/
def execOperationTimeLimit (e : ArrayEnd) (s : State) : Host.Outcome State Fault Refusal := endRunning none true e s

end Sys2Proof.Machine
end

