-- ==== Sys2Proof/Machine/Supply.lean ====
section
/-! DEFINITION. The meanings of the supply, RESETN and PWRWARN (R96, R120, R124, R171, R187). -/

namespace Sys2Proof.Machine

/-- R171: a change of PWRWARN raises POWER_WARN once the part has left reset. -/
def warnChange (level : Line) (s : State) : State :=
  match s.pins.phase with
  | .off => s
  | .held => s
  | .scan => raisePowerWarn level s
  | .run => raisePowerWarn level s

/-- PWRWARN_CHANGE (R120, R171): the line takes a level; a level it already has is no change. -/
def execPwrwarnChange (level : Line) (s : State) : Host.Outcome State Fault Refusal :=
  .next (if level = s.pins.pwrwarn then s else warnChange level (s.setPins { s.pins with pwrwarn := level }))

/-- POWER_ON (R96, R124): supply is applied; on a part that has it, the running operation is cut short first (log
26). -/
def execPowerOn (e : ArrayEnd) (s : State) : Host.Outcome State Fault Refusal :=
  if runningInArray s then .next (startPart (stopPart .off e s)) else .fault .outsideArray

/-- R124: RESETN asserted while the part has supply. -/
def holdPart (e : ArrayEnd) (s : State) : State :=
  match s.pins.phase with
  | .off => s
  | .held => s
  | .scan => stopPart .held e s
  | .run => stopPart .held e s

/-- RESETN_ASSERT (R124, R187). -/
def execResetnAssert (e : ArrayEnd) (s : State) : Host.Outcome State Fault Refusal :=
  if runningInArray s then
    .next ((holdPart e s).setPins { (holdPart e s).pins with resetn := .asserted })
  else .fault .outsideArray

/-- R96: the held part leaves reset. -/
def releasePart (s : State) : State :=
  match s.pins.phase with
  | .held => beginScan s
  | .off => s
  | .scan => s
  | .run => s

/-- RESETN_RELEASE (R96, R187). -/
def execResetnRelease (s : State) : Host.Outcome State Fault Refusal :=
  .next (releasePart (s.setPins { s.pins with resetn := .deasserted }))

/-- LOSS_OF_POWER (R124). -/
def execLossOfPower (e : ArrayEnd) (s : State) : Host.Outcome State Fault Refusal :=
  if runningInArray s then .next (stopPart .off e s) else .fault .outsideArray

end Sys2Proof.Machine
end

