-- ==== Sys2Proof/Machine/TimerEvents.lean ====
section
/-! DEFINITION. The meanings of the tick and of the five expiries (R154, R155). An expiry is taken when its timer's last
tick boundary has passed; another is no event (log 2, log 3). -/

namespace Sys2Proof.Machine

/-- R52, R154: REPLY `i` becomes stopped, and a slot in AWAITING_REPLY stands in. -/
def replyExpiry (i : Nat) (s : State) : State :=
  let s := setReplyTimer i none s
  if awaiting (slotAt s i) then standIn i s else s

/-- REPLY_TIMER_EXPIRY (R52). -/
def execReplyTimerExpiry (slot : Fin 4) (s : State) : Host.Outcome State Fault Refusal :=
  .next (if s.timers.reply.getD slot.val none = some 0 then replyExpiry slot.val s else s)

/-- BEACON_WATCH_EXPIRY (R146). -/
def execBeaconWatchExpiry (s : State) : Host.Outcome State Fault Refusal :=
  .next (if s.timers.beaconWatch = some 0 then beaconExpiry (s.setTimers { s.timers with beaconWatch := none }) else s)

/-- UPLOAD_TIMER_EXPIRY (R102 to R104). -/
def execUploadTimerExpiry (s : State) : Host.Outcome State Fault Refusal :=
  .next (if s.timers.upload = some 0 then uploadExpiry (setUploadTimer none s) else s)

/-- SLOT_TIMER_EXPIRY (R139). -/
def execSlotTimerExpiry (s : State) : Host.Outcome State Fault Refusal :=
  .next (if s.timers.slot = some 0 then slotExpiry (s.setTimers { s.timers with slot := none }) else s)

/-- PRESENCE_TIMER_EXPIRY (R149). -/
def execPresenceTimerExpiry (s : State) : Host.Outcome State Fault Refusal :=
  .next (if s.timers.presence = some 0 then presenceExpiry (s.setTimers { s.timers with presence := none }) else s)

/-- R154: one tick boundary passes for every timer. -/
def Timers.tick (t : Timers) : Timers :=
  { reply := t.reply.map tickTimer, beaconWatch := tickTimer t.beaconWatch, upload := tickTimer t.upload,
    slot := tickTimer t.slot, presence := tickTimer t.presence }

/-- R147: one tick boundary passes for the time base. -/
def TimeBase.tick (b : TimeBase) : TimeBase := { b with t := (b.t + 1) % Limits.dayTicks }

/-- TICK (R147, R154); boundaries follow from the end of the start-up scan. -/
def execTick (s : State) : Host.Outcome State Fault Refusal :=
  .next (match s.pins.phase with
    | .run => (s.setTimers s.timers.tick).setLink { s.link with base := s.link.base.map TimeBase.tick }
    | .scan => s
    | .off => s
    | .held => s)

end Sys2Proof.Machine
end

