-- ==== Sys2Proof/Machine/Dispatch.lean ====
section
/-! DEFINITION. The meaning of every command: one arm a constructor, one direct call an arm. -/

namespace Sys2Proof.Machine

def exec (i : Instr) (s : State) : Host.Outcome State Fault Refusal :=
  match i with
  | .authorize tag bill share pfx token base tip => Sys2Proof.Machine.execAuthorize tag bill share pfx token base tip s
  | .readResult tag slot => Sys2Proof.Machine.execReadResult tag slot s
  | .split tag bill n => Sys2Proof.Machine.execSplit tag bill n s
  | .queryBill tag bill sel first => Sys2Proof.Machine.execQueryBill tag bill sel first s
  | .listBills tag => Sys2Proof.Machine.execListBills tag s
  | .void tag bill txn => Sys2Proof.Machine.execVoid tag bill txn s
  | .readRange tag sel value => Sys2Proof.Machine.execReadRange tag sel value s
  | .readExposure tag sel first => Sys2Proof.Machine.execReadExposure tag sel first s
  | .nextEvent tag => Sys2Proof.Machine.execNextEvent tag s
  | .setMasks tag run wake => Sys2Proof.Machine.execSetMasks tag run wake s
  | .sleep tag => Sys2Proof.Machine.execSleep tag s
  | .portReset tag => Sys2Proof.Machine.execPortReset tag s
  | .status tag loadlock => Sys2Proof.Machine.execStatus tag loadlock s
  | .unknownRequest tag payload => Sys2Proof.Machine.execUnknownRequest tag payload s
  | .hostData tag payload => Sys2Proof.Machine.execHostData tag payload s
  | .hostFrameBad wire => Sys2Proof.Machine.execHostFrameBad wire s
  | .hostFrameSent => Sys2Proof.Machine.execHostFrameSent s
  | .hostTransmitBegin => Sys2Proof.Machine.execHostTransmitBegin s
  | .assign addr tag identity newAddr replySlot => Sys2Proof.Machine.execAssign addr tag identity newAddr replySlot s
  | .release addr tag => Sys2Proof.Machine.execRelease addr tag s
  | .linkReset addr tag => Sys2Proof.Machine.execLinkReset addr tag s
  | .queryStatus addr tag => Sys2Proof.Machine.execQueryStatus addr tag s
  | .billPush addr tag bill place due prior opened known => Sys2Proof.Machine.execBillPush addr tag bill place due prior opened known s
  | .billAmend addr tag bill due => Sys2Proof.Machine.execBillAmend addr tag bill due s
  | .billDrop addr tag bill => Sys2Proof.Machine.execBillDrop addr tag bill s
  | .loadOpen addr tag table generation rows loadlock => Sys2Proof.Machine.execLoadOpen addr tag table generation rows loadlock s
  | .loadRow addr tag table index row => Sys2Proof.Machine.execLoadRow addr tag table index row s
  | .loadClose addr tag table rows check readable => Sys2Proof.Machine.execLoadClose addr tag table rows check readable s
  | .loadVerify addr tag table => Sys2Proof.Machine.execLoadVerify addr tag table s
  | .dumpRow addr tag table index => Sys2Proof.Machine.execDumpRow addr tag table index s
  | .unknownCommand addr tag payload => Sys2Proof.Machine.execUnknownCommand addr tag payload s
  | .heldCommandTaken loadlock => Sys2Proof.Machine.execHeldCommandTaken loadlock s
  | .verifyReplyPlaced => Sys2Proof.Machine.execVerifyReplyPlaced s
  | .beacon addr cell seconds => Sys2Proof.Machine.execBeacon addr cell seconds s
  | .authReply addr txn disposition reason => Sys2Proof.Machine.execAuthReply addr txn disposition reason s
  | .uploadConfirm addr txn disposition => Sys2Proof.Machine.execUploadConfirm addr txn disposition s
  | .gatewayData addr tag payload => Sys2Proof.Machine.execGatewayData addr tag payload s
  | .radioFrameBad wire => Sys2Proof.Machine.execRadioFrameBad wire s
  | .grant => Sys2Proof.Machine.execGrant s
  | .transmissionComplete => Sys2Proof.Machine.execTransmissionComplete s
  | .replyTimerExpiry slot => Sys2Proof.Machine.execReplyTimerExpiry slot s
  | .beaconWatchExpiry => Sys2Proof.Machine.execBeaconWatchExpiry s
  | .uploadTimerExpiry => Sys2Proof.Machine.execUploadTimerExpiry s
  | .slotTimerExpiry => Sys2Proof.Machine.execSlotTimerExpiry s
  | .presenceTimerExpiry => Sys2Proof.Machine.execPresenceTimerExpiry s
  | .tick => Sys2Proof.Machine.execTick s
  | .storeOperationStart => Sys2Proof.Machine.execStoreOperationStart s
  | .recordProgramComplete result => Sys2Proof.Machine.execRecordProgramComplete result s
  | .markComplete result => Sys2Proof.Machine.execMarkComplete result s
  | .epochProgramComplete result => Sys2Proof.Machine.execEpochProgramComplete result s
  | .pageProgramComplete result => Sys2Proof.Machine.execPageProgramComplete result s
  | .blockEraseComplete result => Sys2Proof.Machine.execBlockEraseComplete result s
  | .operationTimeLimit result => Sys2Proof.Machine.execOperationTimeLimit result s
  | .pwrwarnChange level => Sys2Proof.Machine.execPwrwarnChange level s
  | .powerOn result => Sys2Proof.Machine.execPowerOn result s
  | .resetnAssert result => Sys2Proof.Machine.execResetnAssert result s
  | .resetnRelease => Sys2Proof.Machine.execResetnRelease s
  | .lossOfPower result => Sys2Proof.Machine.execLossOfPower result s

end Sys2Proof.Machine
end

