-- ==== Sys2Proof/Safety.lean ====
section
/-! DEFINITION. What a run keeps: the parts of the state that a change leaves alone, and the invariants that claims are
stated with. -/

namespace Sys2Proof.Safety

open Sys2Proof.Machine

/-! ### Frames -/

/-- The parts of the state that a frame names, each timer a part of its own. -/
inductive Part where
  | pins | array | irt | profile | bills | decision | tally | journal | uploader | store | loader | link
  | replyTimers | beaconWatch | uploadTimer | slotTimer | presenceTimer | arbiter | radio | host | events | pending
deriving DecidableEq, Repr

/-- A part is the same in two states. -/
def Part.same (p : Part) (s t : State) : Prop :=
  match p with
  | .pins => t.pins = s.pins
  | .array => t.array = s.array
  | .irt => t.irt = s.irt
  | .profile => t.profile = s.profile
  | .bills => t.bills = s.bills
  | .decision => t.decision = s.decision
  | .tally => t.tally = s.tally
  | .journal => t.journal = s.journal
  | .uploader => t.uploader = s.uploader
  | .store => t.store = s.store
  | .loader => t.loader = s.loader
  | .link => t.link = s.link
  | .replyTimers => t.timers.reply = s.timers.reply
  | .beaconWatch => t.timers.beaconWatch = s.timers.beaconWatch
  | .uploadTimer => t.timers.upload = s.timers.upload
  | .slotTimer => t.timers.slot = s.timers.slot
  | .presenceTimer => t.timers.presence = s.timers.presence
  | .arbiter => t.arbiter = s.arbiter
  | .radio => t.radio = s.radio
  | .host => t.host = s.host
  | .events => t.events = s.events
  | .pending => t.pending = s.pending

/-- Every part but those listed is the same. -/
def ChangedOnly (parts : List Part) (s t : State) : Prop := ∀ p, p ∉ parts → p.same s t

/-- A command runs and leads to a state. -/
def Runs (c : Instr) (s t : State) : Prop := exec c s = .next t

/-! ### Where commands can be taken -/

/-- R181: a receive assembler that has collected nothing of a frame, so that the opening flag of the next one ends
none. -/
abbrev Unbroken (a : Assembler) : Prop := a = .hunting ∨ a = .collecting [] false

/-- R164, R168, R181: the scan is over, no request is in progress, a place of the pending replies is open and nothing of
a frame is collected. -/
abbrev HostReady (s : State) : Prop :=
  s.pins.phase = .run ∧ s.host.inProgress = false ∧ s.host.voidJob = none
    ∧ s.host.replies.length < Limits.pendingReplies ∧ Unbroken s.host.asm

/-- R168, R170: the host port once a request has been taken and has made a reply ready. -/
def hostAnswered (h : HostPort) (code : BitVec 8) (tag : BitVec 16) (body : Reply) : HostPort :=
  { h with asm := .collecting [] false, power := .awake, sleepPending := false, inProgress := true,
           replies := h.replies ++ [{ code := code, tag := tag, body := body, ofRequest := true }] }

/-- R168: the host port once a request has been taken whose reply waits. -/
def hostTaken (h : HostPort) : HostPort :=
  { h with asm := .collecting [] false, power := .awake, sleepPending := false, inProgress := true }

/-- R144, R165, R181: the scan is over, the part holds a link address, the frame is addressed to it alone, the gate is
empty, a place of the MGMT_REPLY queue is free and nothing of a frame is collected. -/
abbrev GateReady (addr : BitVec 8) (s : State) : Prop :=
  s.pins.phase = .run ∧ s.link.state ≠ .search ∧ addr.toNat = s.link.addr ∧ addr ≠ broadcastAddr
    ∧ s.arbiter.gate = .empty ∧ s.arbiter.mgmt.length + s.arbiter.waitingVerify.length < Limits.mgmtReplies
    ∧ Unbroken s.radio.asm

/-- R144, R181: the scan is over, the part holds a link address, the frame is addressed to it alone and nothing of a
frame is collected. -/
abbrev Addressed (addr : BitVec 8) (s : State) : Prop :=
  s.pins.phase = .run ∧ s.link.state ≠ .search ∧ addr.toNat = s.link.addr ∧ addr ≠ broadcastAddr
    ∧ Unbroken s.radio.asm

/-- R157: the MGMT_REPLY queue with one reply more, stamped with an address. -/
def mgmtAnswered (a : Arbiter) (addr : Nat) (code : BitVec 8) (tag : BitVec 16) (body : Reply) : Arbiter :=
  { a with mgmt := a.mgmt ++ [{ tag := tag, addr := addr, payload := .mgmtReply code body }] }

/-- R181: the radio port after a frame's closing flag. -/
def radioHeard (r : RadioPort) : RadioPort := { r with asm := .collecting [] false }

/-! ### Invariants -/

/-- The array is in canonical form. -/
abbrev ArrayCanonical (s : State) : Prop := s.array.wf = true

/-- R143: the link is UP exactly while the part holds a link address and BEACON WATCH runs, and in SEARCH exactly while
it holds no address. -/
abbrev LinkConsistent (s : State) : Prop :=
  (s.link.state = .up ↔ s.link.addr ≠ 0 ∧ s.timers.beaconWatch.isSome = true)
    ∧ (s.link.state = .search ↔ s.link.addr = 0)

/-! ### Kinds of commands -/

/-- The thirteen requests of section 11.1. -/
def isRequest : Instr → Bool
  | .authorize .. => true
  | .readResult .. => true
  | .split .. => true
  | .queryBill .. => true
  | .listBills _ => true
  | .void .. => true
  | .readRange .. => true
  | .readExposure .. => true
  | .nextEvent _ => true
  | .setMasks .. => true
  | .sleep _ => true
  | .portReset _ => true
  | .status .. => true
  | _ => false

/-- The twelve management commands of R184. -/
def isCommand : Instr → Bool
  | .assign .. => true
  | .release .. => true
  | .linkReset .. => true
  | .queryStatus .. => true
  | .billPush .. => true
  | .billAmend .. => true
  | .billDrop .. => true
  | .loadOpen .. => true
  | .loadRow .. => true
  | .loadClose .. => true
  | .loadVerify .. => true
  | .dumpRow .. => true
  | _ => false

/-- R184: the good frames that the radio port carries to the part. -/
def isDownstream : Instr → Bool
  | .beacon .. => true
  | .authReply .. => true
  | .uploadConfirm .. => true
  | .gatewayData .. => true
  | c => isCommand c

/-- The commands that stand for a whole good frame on the host port. -/
def isHostFrame : Instr → Bool
  | .hostData .. => true
  | .unknownRequest .. => true
  | c => isRequest c

/-- The commands that stand for a whole good frame on the radio port. -/
def isRadioFrame : Instr → Bool
  | .unknownCommand .. => true
  | c => isDownstream c

/-- R144: the frames that a part in SEARCH listens for; a raw command whose bytes spell an ASSIGN is one (log 12). -/
def heardUnassigned : Instr → Bool
  | .beacon .. => true
  | .assign .. => true
  | .unknownCommand _ _ payload => payload.length == 9 && payload.headD 0 == 1
  | _ => false

/-- The events at which a store operation ends or is cut short (R116, R118, R124). -/
def endsStoreOperation : Instr → Bool
  | .recordProgramComplete _ => true
  | .markComplete _ => true
  | .epochProgramComplete _ => true
  | .pageProgramComplete _ => true
  | .blockEraseComplete _ => true
  | .operationTimeLimit _ => true
  | .powerOn _ => true
  | .resetnAssert _ => true
  | .lossOfPower _ => true
  | _ => false

/-! ### Tables of the manual, as data -/

/-- R43: the checks of AUTHORIZE in order, each with its refusal. -/
def authorizeChecks (s : State) (bill share base tip : Nat) : List (Bool × Answer) :=
  let b := findBill s bill
  let sharesOf := fun (x : Bill) => x.plan.getD []
  [ (s.pins.pwrwarn == .asserted, .powerLow),
    (base == 0, .zeroAmount),
    (9999999 < base || 9999999 < tip, .amountRange),
    (s.decision.slots.all Option.isSome, .slotsFull),
    (b.isNone, .noBill),
    (b.any (fun x => x.state == .settled), .settled),
    (b.any (fun x => 12 ≤ x.tenders.length + unresolvedSlots s x.number), .tendersFull),
    (b.any (fun x => x.planOpen && share == 0), .shareRequired),
    (b.any (fun x => share != 0 && (!x.planOpen || (sharesOf x).length < share)), .noShare),
    (b.any (fun x => share != 0 && (sharesOf x)[share - 1]?.any (fun sh => sh.state != .opened)), .shareTaken),
    (b.any (fun x => share != 0 && (sharesOf x)[share - 1]?.any (fun sh => base != sh.amount)), .shareMismatch),
    (b.any (fun x => x.due - x.paid - x.reserved < base), .overTender),
    (s.decision.exhausted, .numbersExhausted) ]

/-- R29: the checks of SPLIT in order, each with its refusal. -/
def splitChecks (s : State) (bill n : Nat) : List (Bool × Answer) :=
  let b := findBill s bill
  [ (b.isNone, .noBill),
    (n < 2 || 12 < n, .badCount),
    (b.any (fun x => 0 < x.reserved || x.voidPending != 0), .inUse),
    (b.any (fun x => x.state == .settled), .settled),
    (b.any (fun x => 12 < ((x.plan.getD []).filter (fun sh => sh.state == .paid)).length + n), .sharesFull),
    (b.any (fun x => (x.due - x.paid) / n == 0), .tooSmall) ]

/-- R33: the checks of VOID in order, each with its refusal. -/
def voidChecks (s : State) (bill txn : Nat) : List (Bool × Answer) :=
  let b := findBill s bill
  [ (b.isNone, .noBill),
    (b.any (fun x => x.tenders.all (fun t => t.txn != txn)), .noTender),
    (b.any (fun x => (x.tenders.find? (fun t => t.txn == txn)).any (fun t => t.state == .voided)), .noTender),
    (s.decision.slots.any (fun a => a.any (fun a => a.bill == bill && a.state != .done)), .inUse) ]

/-- R24, R25: the checks of BILL PUSH in order, each with its refusal. -/
def pushChecks (s : State) (bill place due prior opened : Nat) (known : List Nat) : List (Bool × Answer) :=
  let ts := derivedTenders s bill known
  [ (bill == 0 || place == 0 || 999 < place || 9999999 < due || 9999999 < prior || 86399 < opened
      || 12 < known.length, .badField),
    ((findBill s bill).isSome, .billExists),
    (due < prior + (ts.map Tender.base).sum, .overpaid),
    (12 < ts.length, .tendersFull),
    (32 ≤ s.bills.entries.length
      && s.bills.settled.all (fun k => (findBill s k).all (fun b => b.voidPending != 0)), .full) ]

/-- R27: the checks of BILL AMEND in order, each with its refusal. -/
def amendChecks (s : State) (bill due : Nat) : List (Bool × Answer) :=
  let b := findBill s bill
  [ (9999999 < due || bill == 0, .badField),
    (b.isNone, .noBill),
    (b.any (fun x => x.voidPending != 0 || (x.plan.getD []).any (fun sh => sh.state == .reserved)), .inUse),
    (b.any (fun x => due < x.paid + x.reserved), .belowTendered) ]

/-- R28: the checks of BILL DROP in order, each with its refusal. -/
def dropChecks (s : State) (bill : Nat) : List (Bool × Answer) :=
  let b := findBill s bill
  [ (bill == 0, .badField),
    (b.isNone, .noBill),
    (b.any (fun x => 0 < x.reserved || x.voidPending != 0), .inUse) ]

/-- R130: the checks of LOAD OPEN in order, each with its refusal. -/
def openChecks (s : State) (table generation rows : Nat) (loadlock : Line) : List (Bool × Answer) :=
  [ ((table != 1 && table != 2) || generation == 0
      || (if table == 1 then rows == 0 || 192 < rows else rows != 1), .badField),
    (loadlock == .asserted, .locked),
    (s.loader.phase != .idle, .busy) ]

/-- R85: the slots that a record could still be issued into. -/
def freeSlots (s : State) : Nat :=
  (match s.journal.writeAt with
    | some loc => 128 - loc.slot
    | none => 0)
    + 128 * (s.journal.blocks.filter (fun b => b.state == .erased)).length

/-- R47: the steps of the offline test in order, each with whether it fails and its reason. -/
def offlineChecks (s : State) (row : IrtRow) (total : Nat) (token : BitVec 32) : List (Bool × DeclineReason) :=
  let entry := s.tally.table.find? (fun e => e.rangeId == row.rangeId)
  let repeated := s.tally.repeats.find? (fun e => e.token == token)
  [ (row.floorLimit < total, .floorLimit),
    (row.cap < (entry.map TallyEntry.sum).getD 0 + total, .cumulativeCap),
    (row.perCard ≤ (repeated.map RepeatEntry.count).getD 0, .cardRepeat),
    (entry.isNone && 96 ≤ s.tally.table.length, .tallyFull),
    (repeated.isNone && 64 ≤ s.tally.repeats.length, .repeatFull),
    (freeSlots s ≤ s.journal.queue.length, .journalFull) ]

/-- What the first check that fails names. -/
def firstRefusal {α : Type} (checks : List (Bool × α)) : Option α :=
  (checks.find? (fun c => c.1)).map (fun c => c.2)

/-- R6: a condition of the verification fails, at the row index that it reports: the first is judged of the header and
the rows present, the others of the rows stored. Index 0 for COUNT and CHECK is the model's (log 23). -/
def irtFails (m : Mem) (h : IrtHeader) (present : Nat) (k : Condition) (i : Nat) : Prop :=
  let bytes (i : Nat) : List Byte := m.readBytes (irtRowAddr i) 24
  let row (i : Nat) : IrtRow := decodeRow (bytes i)
  match k with
  | .count => i = 0 ∧ ¬ (1 ≤ h.rows ∧ h.rows ≤ 192 ∧ h.rows = present)
  | .check => i = 0 ∧ checkValue ((List.range h.rows).map bytes).flatten ≠ h.check
  | .field => i < h.rows ∧
      ¬ ((row i).rangeId ≠ 0 ∧ (row i).prefixLow ≤ 99999999 ∧ (row i).prefixHigh ≤ 99999999
        ∧ 1 ≤ (row i).mode ∧ (row i).mode ≤ 3 ∧ (row i).floorLimit ≤ 9999999 ∧ (row i).cap ≤ 99999999
        ∧ (row i).perCard ≤ 15 ∧ (row i).route ≤ 15)
  | .interval => i < h.rows ∧ (row i).prefixHigh < (row i).prefixLow
  | .floorOverCap => i < h.rows ∧ (row i).cap < (row i).floorLimit
  | .order => 1 ≤ i ∧ i < h.rows ∧ (row i).prefixLow ≤ (row (i - 1)).prefixLow
  | .overlap => 1 ≤ i ∧ i < h.rows ∧ (row i).prefixLow ≤ (row (i - 1)).prefixHigh
  | .duplicateId => i < h.rows ∧ ∃ j < i, (row j).rangeId = (row i).rangeId
  | .none => False
  | .readback => False
  | .sequence => False
  | .storeFault => False

/-- R153: what QUERY STATUS and STATUS report. -/
def reportOf (s : State) : StatusReport :=
  { link :=
      { state := s.link.state, addr := s.link.addr, replySlot := s.link.replySlot, cell := s.link.cell.getD 0,
        baseHeld := s.link.base ≠ none, identity := s.link.identity }
    tables :=
      { irtState := s.irt.state
        irtGeneration := s.irt.generation
        irtRows := match s.irt.state with
          | .valid => s.irt.mirror.length
          | .loading => (s.loader.session.map Session.received).getD 0
          | .empty => 0
          | .invalid => 0
        profileState := s.profile.state
        profileGeneration := s.profile.generation }
    journal :=
      { free := freeSlots s
        live := ((List.range 4).map (fun b =>
          ((blockAt s b).slots.filter (fun r => r.state == .live || r.state == .outstanding)).length)).sum
        low := s.journal.lowFlag
        upload := match s.uploader with
          | .off => .off
          | .idle => .idle
          | .awaitingConfirm .. => .awaitingConfirm
          | .holdoff => .holdoff
        txn := match s.uploader with
          | .awaitingConfirm _ txn _ => txn
          | _ => 0
        attempts := match s.uploader with
          | .awaitingConfirm _ _ attempts => attempts
          | _ => 0 }
    store :=
      { busy := s.store.running ≠ none
        op := match s.store.running with
          | none => none
          | some (.recordProgram ..) => some .recordProgram
          | some (.mark _) => some .mark
          | some (.epochProgram ..) => some .epochProgram
          | some (.pageProgram _) => some .pageProgram
          | some (.blockErase _) => some .blockErase
        last := s.store.lastRecord
        prev := s.store.prevRecord }
    counters :=
      { radioBad := s.radio.framesBad, hostBad := s.host.framesBad, lateDiscarded := s.decision.lateDiscarded,
        heldOverflow := s.host.heldOverflow, storeFaults := s.store.storeFaults,
        programFailures := s.store.programFailures, eraseFailures := s.store.eraseFailures,
        timeLimitFailures := s.store.timeLimitFailures }
    epoch := s.decision.epoch
    exhausted := s.decision.exhausted }

/-- R184: the request codes whose payload has one length, with it. -/
def requestLengths : List (Nat × Nat) :=
  [(0x01, 20), (0x02, 2), (0x03, 4), (0x05, 1), (0x06, 7), (0x08, 4), (0x09, 1), (0x0A, 5), (0x0B, 1), (0x0C, 1),
   (0x0D, 1)]

/-- R184: the command codes whose payload has one length, with it. -/
def commandLengths : List (Nat × Nat) :=
  [(0x01, 9), (0x02, 1), (0x03, 1), (0x04, 1), (0x11, 7), (0x12, 3), (0x20, 6), (0x22, 7), (0x23, 2), (0x24, 4)]

/-- R116: where an operation's target begins and how many bytes it has. -/
def extent : StoreOp → Nat × Nat
  | .recordProgram loc bytes => (loc.addr, bytes.length)
  | .mark r => (markAddr r.loc r.kind, 1)
  | .epochProgram w _ => (epochWordAddr w, 4)
  | .pageProgram r => (r.table.base + r.page * pageBytes, r.bytes.length)
  | .blockErase r => (r.target.base, r.target.bytes)

/-- R116: the record slot, mark byte, epoch word, page or block that an operation is aimed at: where it begins and how
many bytes it has. -/
def target : StoreOp → Nat × Nat
  | .recordProgram loc _ => (loc.addr, Limits.recordBytes)
  | .mark r => (markAddr r.loc r.kind, 1)
  | .epochProgram w _ => (epochWordAddr w, 4)
  | .pageProgram r => (r.table.base + r.page * pageBytes, pageBytes)
  | .blockErase r => (r.target.base, r.target.bytes)

/-- R181: bytes through a receive assembler: where it stands after them, and what they brought about, in order. -/
def asmRun (a : Assembler) : List Byte → Assembler × List AsmEvent
  | [] => (a, [])
  | b :: rest =>
    let r := asmByte a b
    let q := asmRun r.1 rest
    (q.1, if r.2 = .nothing then q.2 else r.2 :: q.2)

/-! ### Reset -/

/-- R38, R57, R72, R97, R114, R127, R142, R156, R167, R180: nothing volatile is left but the lines, the unit identity
and the commands not yet taken. -/
def VolatileCleared (s t : State) : Prop :=
  t.irt = .reset ∧ t.profile = .reset ∧ t.bills = .reset ∧ t.decision = .reset ∧ t.tally = .reset
    ∧ t.uploader = .off ∧ t.loader = .reset ∧ t.link = .reset s.link.identity ∧ t.timers = .reset
    ∧ t.arbiter = .reset ∧ t.radio = .reset ∧ t.host = .reset ∧ t.events = .reset
    ∧ t.journal.queue = [] ∧ t.journal.inProgram = none ∧ t.journal.lowFlag = false
    ∧ t.store = { Store.reset with epochPlace := none, epochAt := 0, update := none } ∧ t.pending = s.pending

/-- R95, R96: a part whose whole array is erased, at the beginning of its scan: nothing held, epoch 1 asked for, and
POWER_WARN raised when the line is asserted. -/
def erasedPartScan (s : State) (pins : Pins) : State :=
  { State.reset with
    pins := { pins with phase := .scan }, link := .reset s.link.identity,
    events := { Events.reset with latches := { Latches.clear with
      powerWarn := if pins.pwrwarn = .asserted then some .asserted else none } },
    pending := s.pending }

end Sys2Proof.Safety
end

