-- ==== Sys2Proof/Certificates/Slice0/Obligations.lean ====
section
/-! DEFINITION. What is claimed of the model, for the provers: one proposition per statement of OBLIGATIONS.json. -/

open Sys2Proof Sys2Proof.Machine Sys2Proof.Safety

/-! ### The queue of commands -/

/-- The model's own (log 1): a step takes the command at the front of the queue and runs it with the queue's rest; with
an empty queue the block idles. -/
def Obligations.StepTakesTheFrontCommand : Prop :=
  (∀ (c : Instr) (rest : List Instr) (s : State), s.pending = c :: rest → step s = exec c (s.setPending rest))
  ∧ (∀ s : State, s.pending = [] → step s = .next s)

/-! ### The host port -/

/-- R168: a request that arrives while another is in progress is answered BUSY, which joins the pending replies; its
owner does nothing. STATUS also reads the LOADLOCK line (log 10). R164: a good host frame that finds all sixteen
places held or kept is discarded without reply, is not acted on and counts once in the host-frames-bad counter. The
model's own: a reply being sent, and the one kept for a VOID in progress, hold their places (log 13), and the
discarded frame still wakes the port (log 14). -/
def Obligations.TurnsAndPlacesAreKept : Prop :=
  (∀ (c : Instr) (s : State), isHostFrame c = true → (∀ tag payload, c ≠ .hostData tag payload) →
    s.pins.phase = .run → Unbroken s.host.asm → s.host.inProgress = true →
    s.host.replies.length + (if s.host.voidJob = none then 0 else 1) < 16 →
    exec c s = .next
      { s with
        pins := match c with
          | .status _ lock => { s.pins with loadlock := lock }
          | _ => s.pins
        host := { s.host with
          asm := .collecting [] false, power := .awake, sleepPending := false,
          replies := s.host.replies ++
            [{ code := requestCode c, tag := hostTag c, body := .plain .busy, ofRequest := false }] } })
  ∧ (∀ (c : Instr) (s : State), isHostFrame c = true → s.pins.phase = .run → Unbroken s.host.asm →
    16 ≤ s.host.replies.length + (if s.host.voidJob = none then 0 else 1) →
    exec c s = .next
      { s with
        pins := match c with
          | .status _ lock => { s.pins with loadlock := lock }
          | _ => s.pins
        host := { s.host with
          asm := .collecting [] false, power := .awake, sleepPending := false,
          framesBad := min (s.host.framesBad + 1) 65535 } })

/-- R169: during the start-up scan every good request and every good DATA frame is answered STARTING and does nothing
else; the flag stays clear. R96, R144: during the start-up scan the radio port discards every good frame and counts
nothing. -/
def Obligations.ScanAnswersStartingAndDiscardsTheRadio : Prop :=
  (∀ (c : Instr) (s : State), isHostFrame c = true → s.pins.phase = .scan → Unbroken s.host.asm →
    s.host.replies.length + (if s.host.voidJob = none then 0 else 1) < 16 →
    exec c s = .next
      { s with
        host := { s.host with
          asm := .collecting [] false, power := .awake, sleepPending := false,
          replies := s.host.replies ++
            [{ code := requestCode c, tag := hostTag c, body := .plain .starting, ofRequest := false }] } })
  ∧ (∀ (c : Instr) (s : State), isRadioFrame c = true → s.pins.phase = .scan →
    exec c s = .next { s with radio := { s.radio with asm := .collecting [] false } })

/-- R169, R184: a raw request is taken and answered UNKNOWN_REQUEST when its code names none, and BAD_LENGTH when its
payload has a length that its code does not allow. R183, R184: a raw management frame is answered BAD_FIELD when its
code names none, and BAD_LENGTH when its payload has a length that its code does not allow. The model's own: a payload
of no bytes, which no frame of R184 has, is taken as one of code 0 and answered as its echo (log 12); SPLIT has length
4, its count one byte (log 19); QUERY BILL and READ RANGE have length 4 or 6 (log 20). -/
def Obligations.RawFramesAreAnswered : Prop :=
  (∀ (tag : BitVec 16) (payload : List Byte) (s : State), HostReady s →
    ((payload.headD 0 = 0 ∨ 13 < (payload.headD 0).toNat) →
      exec (.unknownRequest tag payload) s = .next
        { s with host := hostAnswered s.host (payload.headD 0) tag (.plain .unknownRequest) })
    ∧ ((∃ n, ((payload.headD 0).toNat, n) ∈ requestLengths ∧ payload.length ≠ n) ∨
        ((payload.headD 0).toNat = 4 ∨ (payload.headD 0).toNat = 7) ∧ payload.length ≠ 4 ∧ payload.length ≠ 6 →
      exec (.unknownRequest tag payload) s = .next
        { s with host := hostAnswered s.host (payload.headD 0) tag (.plain .badLength) }))
  ∧ (∀ (addr : BitVec 8) (tag : BitVec 16) (payload : List Byte) (s : State), GateReady addr s →
    let answered (a : Answer) : State :=
      { s with
        radio := radioHeard s.radio
        arbiter := mgmtAnswered s.arbiter s.link.addr (payload.headD 0) tag (.plain a) }
    ((payload.headD 0).toNat ∉ [1, 2, 3, 4, 16, 17, 18, 32, 33, 34, 35, 36] →
      exec (.unknownCommand addr tag payload) s = .next (answered .badField))
    ∧ ((∃ n, ((payload.headD 0).toNat, n) ∈ commandLengths ∧ payload.length ≠ n) →
      exec (.unknownCommand addr tag payload) s = .next (answered .badLength)))

/-- R157, R162: a DATA frame from the host joins the DATA queue, stamped with the address held, and is answered OK; with
eight queued it is refused FULL. It takes no turn. R163, R164: a DATA frame from the gateway joins the delivery
queue; joining while the host is ASLEEP raises DATA_WAITING with the number of frames then held; with eight held it
is dropped and counted. -/
def Obligations.DataFramesAreQueuedBothWays : Prop :=
  (∀ (tag : BitVec 16) (payload : List Byte) (s : State), s.pins.phase = .run → Unbroken s.host.asm →
    s.host.replies.length + (if s.host.voidJob = none then 0 else 1) < 16 →
    let answered (a : Answer) : HostPort :=
      { s.host with
        asm := .collecting [] false, power := .awake, sleepPending := false,
        replies := s.host.replies ++ [{ code := 0, tag := tag, body := .plain a, ofRequest := false }] }
    (s.arbiter.data.length < 8 →
      exec (.hostData tag payload) s = .next
        { s with
          host := answered .ok
          arbiter := { s.arbiter with
            data := s.arbiter.data ++ [{ tag := tag, addr := s.link.addr, payload := .data payload }] } })
    ∧ (8 ≤ s.arbiter.data.length → exec (.hostData tag payload) s = .next { s with host := answered .full }))
  ∧ (∀ (addr : BitVec 8) (tag : BitVec 16) (payload : List Byte) (s : State), s.pins.phase = .run →
    Unbroken s.radio.asm → s.link.state ≠ .search → (addr.toNat = s.link.addr ∨ addr = 255) →
    (s.host.delivery.length < 8 → s.host.power = .awake →
      exec (.gatewayData addr tag payload) s = .next
        { s with
          radio := radioHeard s.radio
          host := { s.host with delivery := s.host.delivery ++ [{ tag := tag, payload := payload }] } })
    ∧ (s.host.delivery.length < 8 → s.host.power = .asleep →
      exec (.gatewayData addr tag payload) s = .next
        { s with
          radio := radioHeard s.radio
          host := { s.host with delivery := s.host.delivery ++ [{ tag := tag, payload := payload }] }
          events := { s.events with
            latches := { s.events.latches with dataWaiting := some (s.host.delivery.length + 1) } } })
    ∧ (8 ≤ s.host.delivery.length →
      exec (.gatewayData addr tag payload) s = .next
        { s with
          radio := radioHeard s.radio
          host := { s.host with heldOverflow := min (s.host.heldOverflow + 1) 65535 } }))

/-- R169, R181, R183: bytes that end in a frame whose check value, length field or (on the host port) address is wrong
leave one count in the port's frames-bad counter and nothing else; the closing flag opens the next frame. R181: so does
a flag that ends one to six bytes, or an escape left pending. During the scan the radio port counts nothing (R144). A
command that stands for a whole frame begins with its opening flag (log 11): it does what it does once that flag has
ended what was collected. -/
def Obligations.BadFramesAreCountedOnly : Prop :=
  (∀ (bytes : List Byte) (s : State), 1 ≤ bytes.length → bytes.length ≤ 207 →
    (s.host.asm = .collecting [] false → s.pins.phase = .run ∨ s.pins.phase = .scan →
      bytes.length < 7 ∨ frameSound bytes = false ∨ (frameParts bytes).2.1 ≠ 0 →
      exec (.hostFrameBad (stuff bytes ++ [flag])) s = .next
        { s with
          host := { s.host with asm := .collecting [] false, framesBad := min (s.host.framesBad + 1) 65535 } })
    ∧ (s.radio.asm = .collecting [] false → s.pins.phase = .run → bytes.length < 7 ∨ frameSound bytes = false →
      exec (.radioFrameBad (stuff bytes ++ [flag])) s = .next
        { s with radio := { asm := .collecting [] false, framesBad := min (s.radio.framesBad + 1) 65535 } })
    ∧ (s.radio.asm = .collecting [] false → s.pins.phase = .scan →
      exec (.radioFrameBad (stuff bytes ++ [flag])) s = .next
        { s with radio := { s.radio with asm := .collecting [] false } }))
  ∧ (∀ (bytes : List Byte) (escape : Bool) (s : State), 1 ≤ bytes.length ∧ bytes.length < 7 ∨ escape = true →
    (s.host.asm = .collecting bytes escape → s.pins.phase = .run ∨ s.pins.phase = .scan →
      exec (.hostFrameBad [flag]) s = .next
        { s with
          host := { s.host with asm := .collecting [] false, framesBad := min (s.host.framesBad + 1) 65535 } })
    ∧ (s.radio.asm = .collecting bytes escape → s.pins.phase = .run →
      exec (.radioFrameBad [flag]) s = .next
        { s with radio := { asm := .collecting [] false, framesBad := min (s.radio.framesBad + 1) 65535 } })
    ∧ (s.radio.asm = .collecting bytes escape → s.pins.phase = .scan →
      exec (.radioFrameBad [flag]) s = .next { s with radio := { s.radio with asm := .collecting [] false } }))
  ∧ (∀ (c : Instr) (s : State), isHostFrame c = true →
    ∃ u, exec (.hostFrameBad [flag]) s = .next u ∧ exec c s = exec c u
      ∧ (s.pins.phase = .run ∨ s.pins.phase = .scan → u.host.asm = .collecting [] false))
  ∧ (∀ (c : Instr) (s : State), isRadioFrame c = true →
    ∃ u, exec (.radioFrameBad [flag]) s = .next u ∧ exec c s = exec c u
      ∧ (s.pins.phase = .run ∨ s.pins.phase = .scan → u.radio.asm = .collecting [] false))

/-- R164, R168, R170: the free host transmitter begins the oldest pending reply, else, while the host is AWAKE, the head
of the delivery queue. The end of a request's reply ends its turn, and completes a pending sleep. The model's own (log
13): a reply keeps its place among the pending replies while it is sent, and leaves it at its end. -/
def Obligations.HostTransmitterServesRepliesFirst : Prop :=
  ∀ (s : State) (r : HostReply) (replies : List HostReply) (f : DataFrame) (frames : List DataFrame),
    (s.host.tx = .free → s.host.replies = r :: replies →
      exec .hostTransmitBegin s = .next { s with host := { s.host with tx := .reply } })
    ∧ (s.host.tx = .free → s.host.replies = [] → s.host.power = .awake → s.host.delivery = f :: frames →
      exec .hostTransmitBegin s = .next { s with host := { s.host with tx := .delivery f, delivery := frames } })
    ∧ (s.host.tx = .free → s.host.replies = [] → s.host.power = .asleep →
      exec .hostTransmitBegin s = .next s)
    ∧ (s.host.tx = .reply → s.host.replies = r :: replies → r.ofRequest = true →
      exec .hostFrameSent s = .next
        { s with
          host := { s.host with
            tx := .free, replies := replies, inProgress := false, sleepPending := false,
            power := if s.host.sleepPending then .asleep else s.host.power } })
    ∧ (s.host.tx = .reply → s.host.replies = r :: replies → r.ofRequest = false →
      exec .hostFrameSent s = .next { s with host := { s.host with tx := .free, replies := replies } })
    ∧ (s.host.tx = .delivery f → exec .hostFrameSent s = .next { s with host := { s.host with tx := .free } })

/-- R170, R175: SET MASKS gives both masks new values and answers with the two held; SLEEP sets the sleep pending mark
and answers OK. No latch changes. The upper six bits of a mask field name no source (log 24). R178: PORT RESET
clears the receive assembler and every latch, raises READY, and AUTH_DONE when a slot is in DONE, gives the masks
their reset values and answers OK; replies, deliveries and counters are kept. The model's own (log 25): the cleared
assembler collects with no bytes, the request's closing flag having just opened the next frame. -/
def Obligations.MasksSleepAndPortResetAreTaken : Prop :=
  (∀ (tag run wake : BitVec 16) (s : State), HostReady s →
    exec (.setMasks tag run wake) s = .next
      { s with
        host := hostAnswered s.host 0x0A tag (.masks (run.setWidth 10) (wake.setWidth 10))
        events := { s.events with run := run.setWidth 10, wake := wake.setWidth 10 } }
    ∧ exec (.sleep tag) s = .next
      { s with host := { hostAnswered s.host 0x0B tag (.plain .ok) with sleepPending := true } })
  ∧ (∀ (tag : BitVec 16) (s : State), HostReady s →
    ∃ done : List Nat,
      (∀ i, i ∈ done ↔ i < s.decision.slots.length ∧ ∃ a, slotAt s i = some a ∧ a.state = .done)
      ∧ exec (.portReset tag) s = .next
        { s with
          host := hostAnswered s.host 0x0C tag (.plain .ok)
          events :=
            { latches := { Latches.clear with
                ready := some (if s.decision.exhausted then 65535 else s.decision.epoch)
                authDone := if done = [] then none else some done }
              run := 0b1111111111
              wake := 0b0100101111 } })

/-- R176: NEXT EVENT returns the pending latch of highest priority that the run mask enables, clears it, and tells which
latches are still pending; with none it answers NONE and clears nothing. R177: ATTN is asserted exactly when a
pending latch is enabled in the mask of the host power state; while the host is AWAKE that is exactly when NEXT
EVENT would return an event. -/
def Obligations.NextEventAndAttnAgree : Prop :=
  (∀ (tag : BitVec 16) (s : State), HostReady s →
    (∀ e, s.events.latches.pending e = true → s.events.run.getLsbD e.priority = true →
      (∀ e', e'.priority < e.priority →
        s.events.latches.pending e' = false ∨ s.events.run.getLsbD e'.priority = false) →
      ∃ d, s.events.latches.detail e = some d ∧
        exec (.nextEvent tag) s = .next
          { s with
            host := hostAnswered s.host 0x09 tag (.event d (s.events.latches.drop e).pendingSet)
            events := { s.events with latches := s.events.latches.drop e } })
    ∧ ((∀ e, s.events.latches.pending e = false ∨ s.events.run.getLsbD e.priority = false) →
      exec (.nextEvent tag) s = .next
        { s with host := hostAnswered s.host 0x09 tag (.noEvent s.events.latches.pendingSet) }))
  ∧ (∀ s : State,
    (attn s = true ↔
      ∃ e, s.events.latches.pending e = true ∧
        (match s.host.power with | .awake => s.events.run | .asleep => s.events.wake).getLsbD e.priority = true)
    ∧ (∀ tag t, s.host.power = .awake → HostReady s → exec (.nextEvent tag) s = .next t →
      (attn s = true ↔ ∃ d pending, (t.host.replies.getLast?.map HostReply.body) = some (.event d pending))))

/-- R179, R153: STATUS is answered with everything QUERY STATUS reports, group by group from the state, and the host
port, slots, events and lines; it changes nothing but its turn, the wake and the LOADLOCK level it finds (log 10).
R31: QUERY BILL is refused NO_BILL, then BAD_SELECTOR; SUMMARY is answered with the entry, TENDERS with up to eight
tenders from the first index given. R11, R71: READ RANGE answers PROTECTED, BAD_SELECTOR, NO_ROW or the row with its
index; READ EXPOSURE answers up to eight entries of a collection from an index on, or BAD_SELECTOR. -/
def Obligations.HostReadsAreAnsweredAtOnce : Prop :=
  (∀ (tag : BitVec 16) (lock : Line) (s : State), HostReady s →
    exec (.status tag lock) s = .next
      { s with
        pins := { s.pins with loadlock := lock }
        host := hostAnswered s.host 0x0D tag
          (.hostStatus (reportOf s)
            { power := .awake, sleepPending := false, delivery := s.host.delivery.length,
              slots := s.decision.slots.map (fun a => a.map (fun a => (a.state, a.txn))),
              pending := s.events.latches.pendingSet, run := s.events.run, wake := s.events.wake,
              attn := (s.events.latches.first s.events.run).isSome, pwrwarn := s.pins.pwrwarn, loadlock := lock }) })
  ∧ (∀ (tag bill : BitVec 16) (sel : BitVec 8) (first : BitVec 16) (s : State), HostReady s →
    let answered (body : Reply) : State := { s with host := hostAnswered s.host 0x04 tag body }
    (findBill s bill.toNat = none → exec (.queryBill tag bill sel first) s = .next (answered (.plain .noBill)))
    ∧ ∀ b, findBill s bill.toNat = some b →
      (sel = 1 → exec (.queryBill tag bill sel first) s = .next (answered (.summary b)))
      ∧ (sel = 2 →
        exec (.queryBill tag bill sel first) s = .next (answered (.tenders ((b.tenders.drop first.toNat).take 8))))
      ∧ (sel ≠ 1 → sel ≠ 2 → exec (.queryBill tag bill sel first) s = .next (answered (.plain .badSelector))))
  ∧ (∀ (tag : BitVec 16) (sel : BitVec 8) (value : BitVec 32) (first : BitVec 16) (s : State), HostReady s →
    let ranged (body : Reply) : State := { s with host := hostAnswered s.host 0x07 tag body }
    let exposed (body : Reply) : State := { s with host := hostAnswered s.host 0x08 tag body }
    (s.irt.state ≠ .valid ∨ s.irt.readable = false →
      exec (.readRange tag sel value) s = .next (ranged (.plain .rowProtected)))
    ∧ (s.irt.state = .valid → s.irt.readable = true → sel ≠ 1 → sel ≠ 2 →
      exec (.readRange tag sel value) s = .next (ranged (.plain .badSelector)))
    ∧ (s.irt.state = .valid → s.irt.readable = true → sel = 1 → s.irt.mirror.length ≤ value.toNat →
      exec (.readRange tag sel value) s = .next (ranged (.plain .noRow)))
    ∧ (s.irt.state = .valid → s.irt.readable = true → sel = 2 → lookup s value.toNat = none →
      exec (.readRange tag sel value) s = .next (ranged (.plain .noRow)))
    ∧ (∀ row, s.irt.state = .valid → s.irt.readable = true → sel = 1 → s.irt.mirror[value.toNat]? = some row →
      exec (.readRange tag sel value) s = .next
        (ranged (.range s.irt.generation s.irt.mirror.length value.toNat row)))
    ∧ (∀ row, s.irt.state = .valid → s.irt.readable = true → sel = 2 → lookup s value.toNat = some row →
      ∃ i, s.irt.mirror[i]? = some row ∧
        exec (.readRange tag sel value) s = .next (ranged (.range s.irt.generation s.irt.mirror.length i row)))
    ∧ (sel = 1 → exec (.readExposure tag sel first) s = .next
        (exposed (.tallies s.tally.table.length
          ((((List.range s.tally.table.length).zip s.tally.table).drop first.toNat).take 8))))
    ∧ (sel = 2 → exec (.readExposure tag sel first) s = .next
        (exposed (.repeats s.tally.repeats.length
          ((((List.range s.tally.repeats.length).zip s.tally.repeats).drop first.toNat).take 8))))
    ∧ (sel ≠ 1 → sel ≠ 2 →
      exec (.readExposure tag sel first) s = .next (exposed (.plain .badSelector))))

/-! ### Bills -/

/-- R32. -/
def Obligations.ListBillsNamesEveryEntry : Prop :=
  ∀ (tag : BitVec 16) (s : State), HostReady s →
    let body := Reply.bills (s.bills.entries.map (fun b => (b.number, b.place, b.state)))
    exec (.listBills tag) s = .next { s with host := hostAnswered s.host 0x05 tag body }
    ∧ body.answer = .ok
    ∧ body.content = BitVec.ofNat 8 s.bills.entries.length ::
        s.bills.entries.flatMap (fun b => be 2 b.number ++ be 2 b.place ++ be 1 b.state.code)

/-- R29. -/
def Obligations.SplitIsRefusedInOrder : Prop :=
  ∀ (tag bill : BitVec 16) (n : BitVec 8) (s : State), HostReady s →
    (∀ a, firstRefusal (splitChecks s bill.toNat n.toNat) = some a →
      exec (.split tag bill n) s = .next { s with host := hostAnswered s.host 0x03 tag (.plain a) })
    ∧ (∀ b, firstRefusal (splitChecks s bill.toNat n.toNat) = none → findBill s bill.toNat = some b →
      1 ≤ b.due - b.paid
      ∧ ∃ t, exec (.split tag bill n) s = .next t ∧ ChangedOnly [.host, .bills, .events] s t)

/-- R30: a split keeps the PAID shares in their order and adds n new shares whose amounts differ by at most one unit and
sum to the remainder; an APPROVED tender that paid a kept share follows it to its new index; BILL_CHANGE names the
bill and the reply carries the new plan. -/
def Obligations.SplitBuildsNearEqualShares : Prop :=
  ∀ (tag bill : BitVec 16) (n : BitVec 8) (s : State) (b : Bill), HostReady s →
    firstRefusal (splitChecks s bill.toNat n.toNat) = none → findBill s bill.toNat = some b →
    let r := b.due - b.paid
    let paid := (b.plan.getD []).filter (fun sh => sh.state == .paid)
    let fresh : List Share := (List.range n.toNat).map (fun k =>
      { amount := r / n.toNat + (if k + 1 ≤ r % n.toNat then 1 else 0), state := .opened, txn := 0 })
    let follow : Tender → Tender := fun u =>
      if u.state = .approved ∧ u.share ≠ 0 then { u with share := renumber (b.plan.getD []) u.share } else u
    (fresh.map Share.amount).sum = r
    ∧ (∀ (k : Nat) (sh : Share), (b.plan.getD [])[k]? = some sh → sh.state = .paid →
        1 ≤ renumber (b.plan.getD []) (k + 1) ∧ (paid ++ fresh)[renumber (b.plan.getD []) (k + 1) - 1]? = some sh)
    ∧ exec (.split tag bill n) s = .next
      { s with
        host := hostAnswered s.host 0x03 tag (.plan (paid ++ fresh))
        bills := { s.bills with
          entries := s.bills.entries.map (fun x =>
            if x.number = bill.toNat then x.split n.toNat else x) }
        events := { s.events with latches := { s.events.latches with
          billChange := some (listDetail 32 bill.toNat s.events.latches.billChange) } } }
    ∧ b.split n.toNat = { b with plan := some (paid ++ fresh), tenders := b.tenders.map follow }

/-- R19, R21 to R23, R36: each change of a bill keeps paid equal to prior paid plus the bases of its APPROVED
tenders. -/
def Obligations.BillChangesKeepPaidBalanced : Prop :=
  ∀ (b : Bill) (a : Auth) (p : Path) (base share txn n due : Nat),
    let balanced (x : Bill) : Prop :=
      x.paid = x.priorPaid + ((x.tenders.filter (fun u => u.state == .approved)).map Tender.base).sum
    balanced b →
    balanced (b.reserve base share txn) ∧ balanced (b.commit a p) ∧ balanced (b.release a) ∧ balanced (b.split n)
    ∧ balanced (b.amend due)
    ∧ ((b.tenders.map Tender.txn).Nodup → (∃ u ∈ b.tenders, u.txn = txn ∧ u.state = .approved) →
      balanced (b.applyVoid txn) ∧ (b.applyVoid txn).tenders.length = b.tenders.length)

/-! ### Payments -/

/-- R43. R33, R35: VOID is refused in the order of R33; one that needs a reversal is refused JOURNAL_FULL, then
NUMBERS_EXHAUSTED. A refused VOID changes nothing. -/
def Obligations.AuthorizeAndVoidAreRefusedInOrder : Prop :=
  (∀ (tag bill : BitVec 16) (share : BitVec 8) (pfx token base tip : BitVec 32) (s : State) (a : Answer), HostReady s →
    firstRefusal (authorizeChecks s bill.toNat share.toNat base.toNat tip.toNat) = some a →
    exec (.authorize tag bill share pfx token base tip) s = .next
      { s with host := hostAnswered s.host 0x01 tag (.plain a) })
  ∧ (∀ (tag bill : BitVec 16) (txn : BitVec 32) (s : State), HostReady s →
    (∀ a, firstRefusal (voidChecks s bill.toNat txn.toNat) = some a →
      exec (.void tag bill txn) s = .next { s with host := hostAnswered s.host 0x06 tag (.plain a) })
    ∧ ∀ b u, firstRefusal (voidChecks s bill.toNat txn.toNat) = none → findBill s bill.toNat = some b →
      b.tenderOf txn.toNat = some u → (u.path = .online ∨ ∀ loc, findRecord s txn.toNat ≠ some (loc, .live)) →
      (s.journal.freeSpace - s.journal.queue.length = 0 →
        exec (.void tag bill txn) s = .next { s with host := hostAnswered s.host 0x06 tag (.plain .journalFull) })
      ∧ (s.journal.freeSpace - s.journal.queue.length ≠ 0 → s.decision.exhausted = true →
        exec (.void tag bill txn) s = .next
          { s with host := hostAnswered s.host 0x06 tag (.plain .numbersExhausted) }))

/-- R33, R34, R36, R66: the VOID of an OFFLINE tender whose record is LIVE marks the record: its slot becomes VOIDED
with its mark pending, a MARK is asked for, its exposure is taken back, the tender becomes VOIDED, and the reply
waits. -/
def Obligations.VoidOfALiveRecordMarksIt : Prop :=
  ∀ (tag bill : BitVec 16) (txn : BitVec 32) (s : State) (b : Bill) (u : Tender) (loc : Loc), HostReady s →
    firstRefusal (voidChecks s bill.toNat txn.toNat) = none → findBill s bill.toNat = some b →
    b.tenderOf txn.toNat = some u → u.path = .offline → findRecord s txn.toNat = some (loc, .live) →
    ∃ t r b', exec (.void tag bill txn) s = .next t
      ∧ ChangedOnly [.host, .journal, .store, .tally, .bills, .events] s t
      ∧ t.host = { hostTaken s.host with
          voidJob := some { tag := tag, bill := bill.toNat, tender := txn.toNat, path := .mark loc } }
      ∧ t.journal = s.journal.onSlot loc (fun _ => { state := .voided, markPending := true })
      ∧ t.store = { s.store with marks := s.store.marks ++ [{ loc := loc, kind := .voided, second := false }] }
      ∧ recordAt s loc = some r ∧ r.txn = txn.toNat
      ∧ (r.kind = .approval → t.tally = s.tally.sub r.rangeId r.token (r.base + r.tip))
      ∧ findBill t bill.toNat = some b'
      ∧ b'.paid = b.paid - u.base ∧ b'.due = b.due ∧ b'.reserved = b.reserved ∧ b'.voidPending = b.voidPending
      ∧ b'.tenders = b.tenders.map (fun x => if x.txn = txn.toNat then { x with state := .voided, share := 0 } else x)
      ∧ b'.plan = b.plan.map (setShare u.share .opened 0)
      ∧ b'.state = (if b'.paid = b'.due ∧ b'.reserved = 0 then .settled else .opened)
      ∧ t.events = { s.events with latches := { s.events.latches with
          billChange := some (listDetail 32 bill.toNat s.events.latches.billChange) } }

/-- R33, R35, R84: every other VOID takes a new transaction number and queues a REVERSAL record; the bill's void pending
names the tender, which stays APPROVED, and the reply waits. The record waits behind one in program, or, with
nothing in program or queued and a block FILLING, is issued at once (R80). -/
def Obligations.OtherVoidsQueueAReversal : Prop :=
  ∀ (tag bill : BitVec 16) (txn : BitVec 32) (s : State) (b : Bill) (u : Tender), HostReady s →
    firstRefusal (voidChecks s bill.toNat txn.toNat) = none → findBill s bill.toNat = some b →
    b.tenderOf txn.toNat = some u → (u.path = .online ∨ ∀ loc, findRecord s txn.toNat ≠ some (loc, .live)) →
    s.journal.queue.length < s.journal.freeSpace → s.decision.exhausted = false → s.decision.seq + 1 < 65535 →
    let n := s.decision.epoch * 65536 + (s.decision.seq + 1)
    let r : JRecord :=
      { txn := n, kind := .reversal, rangeId := u.rangeId, route := u.route, token := u.token, base := u.base,
        tip := u.tip, bill := b.number, place := b.place, time := (recordTime s.link).1, standIn := false,
        timeUnknown := (recordTime s.link).2, original := u.txn }
    let taken : State :=
      { s with
        host := { hostTaken s.host with
          voidJob := some { tag := tag, bill := bill.toNat, tender := txn.toNat, path := .reversal n } }
        decision := { s.decision with seq := s.decision.seq + 1 }
        bills := { s.bills with entries := s.bills.entries.map (fun x =>
          if x.number = bill.toNat then { x with voidPending := txn.toNat } else x) } }
    (∀ ip, s.journal.inProgram = some ip →
      exec (.void tag bill txn) s = .next
        { taken with journal := { s.journal with queue := s.journal.queue ++ [{ record := r, requester := .void }] } })
    ∧ (∀ loc, s.journal.inProgram = none → s.journal.queue = [] → s.journal.writeAt = some loc →
      ∃ t, exec (.void tag bill txn) s = .next t ∧ ChangedOnly [.journal, .store, .events] taken t
        ∧ t.store = { s.store with recordPlace := some (loc, encodeRecord r) }
        ∧ t.journal.inProgram = some { loc := loc, entry := { record := r, requester := .void }, retry := false })

/-- R21, R41, R44, R45, R50: an accepted payment that goes online takes the next number and the lowest-numbered FREE
slot, reserves its base, queues its AUTH REQUEST and starts the slot's reply timer. -/
def Obligations.AuthorizeGoesOnline : Prop :=
  ∀ (tag bill : BitVec 16) (share : BitVec 8) (pfx token base tip : BitVec 32) (s : State) (i : Nat) (b : Bill),
    HostReady s → firstRefusal (authorizeChecks s bill.toNat share.toNat base.toNat tip.toNat) = none →
    (s.decision.slots[i]? = some none ∧ ∀ j < i, slotAt s j ≠ none) → findBill s bill.toNat = some b →
    s.link.state = .up → s.decision.seq + 1 < 65535 →
    (base.toNat * (params s).tipCapPercent / 100 < tip.toNat ∨
      ∀ row, lookup s pfx.toNat = some row →
        row.mode = 1 ∨ row.mode = 2 ∨
          row.mode = 3 ∧ offlineTest s row (base.toNat + tip.toNat) token ≠ none) →
    let n := s.decision.epoch * 65536 + (s.decision.seq + 1)
    let range := ((lookup s pfx.toNat).map IrtRow.rangeId).getD 0
    let route := ((lookup s pfx.toNat).map IrtRow.route).getD 0
    exec (.authorize tag bill share pfx token base tip) s = .next
      { s with
        host := hostAnswered s.host 0x01 tag (.accepted i n)
        decision := { s.decision with
          seq := s.decision.seq + 1
          slots := s.decision.slots.set i (some
            { state := .awaitingReply, txn := n, bill := bill.toNat, share := share.toNat, pfx := pfx.toNat,
              token := token, base := base.toNat, tip := tip.toNat, rangeId := range, route := route, path := .online,
              standIn := false, result := .none, reason := .none, issuer := 0 }) }
        bills := { s.bills with entries := s.bills.entries.map (fun x =>
          if x.number = bill.toNat then
            { x with reserved := x.reserved + base.toNat, plan := x.plan.map (setShare share.toNat .reserved n) }
          else x) }
        timers := { s.timers with reply := s.timers.reply.set i (some (params s).replyTimeout) }
        arbiter := { s.arbiter with
          auth := s.arbiter.auth ++ [
            { tag := BitVec.ofNat 16 n, addr := s.link.addr,
              payload := .authRequest
                { txn := n, rangeId := range, route := route, pfx := pfx.toNat, token := token, base := base.toNat,
                  tip := tip.toNat, bill := bill.toNat, place := b.place } }] } }

/-- R45, R47, R48, R63, R80: an accepted payment approved offline goes to STORING under a row that its exposure stays
within, its exposure is added, and its APPROVAL record waits behind the one in program, or, with nothing in program
or queued and a block FILLING, is issued at once. -/
def Obligations.AuthorizeApprovesOffline : Prop :=
  ∀ (tag bill : BitVec 16) (share : BitVec 8) (pfx token base tip : BitVec 32) (s : State) (i : Nat) (b : Bill)
    (row : IrtRow),
    HostReady s → firstRefusal (authorizeChecks s bill.toNat share.toNat base.toNat tip.toNat) = none →
    (s.decision.slots[i]? = some none ∧ ∀ j < i, slotAt s j ≠ none) → findBill s bill.toNat = some b →
    s.decision.seq + 1 < 65535 → tip.toNat ≤ base.toNat * (params s).tipCapPercent / 100 →
    lookup s pfx.toNat = some row →
    (row.mode = 3 ∨ row.mode = 2 ∧ s.link.state ≠ .up ∧ (params s).standIn ≠ 0) →
    offlineTest s row (base.toNat + tip.toNat) token = none →
    (s.journal.inProgram ≠ none ∨ s.journal.queue = [] ∧ s.journal.writeAt ≠ none) →
    let n := s.decision.epoch * 65536 + (s.decision.seq + 1)
    let r : JRecord :=
      { txn := n, kind := .approval, rangeId := row.rangeId, route := row.route, token := token, base := base.toNat,
        tip := tip.toNat, bill := bill.toNat, place := b.place, time := (recordTime s.link).1, standIn := false,
        timeUnknown := (recordTime s.link).2, original := 0 }
    ∃ t, exec (.authorize tag bill share pfx token base tip) s = .next t
      ∧ ChangedOnly [.host, .decision, .bills, .tally, .journal, .store, .events] s t
      ∧ t.host = hostAnswered s.host 0x01 tag (.accepted i n)
      ∧ t.decision = { s.decision with
          seq := s.decision.seq + 1
          slots := s.decision.slots.set i (some
            { state := .storing, txn := n, bill := bill.toNat, share := share.toNat, pfx := pfx.toNat, token := token,
              base := base.toNat, tip := tip.toNat, rangeId := row.rangeId, route := row.route, path := .offline,
              standIn := false, result := .none, reason := .none, issuer := 0 }) }
      ∧ t.bills = { s.bills with entries := s.bills.entries.map (fun x =>
          if x.number = bill.toNat then
            { x with reserved := x.reserved + base.toNat, plan := x.plan.map (setShare share.toNat .reserved n) }
          else x) }
      ∧ t.tally.sumOf row.rangeId = s.tally.sumOf row.rangeId + (base.toNat + tip.toNat)
      ∧ t.tally.sumOf row.rangeId ≤ row.cap
      ∧ t.tally.countOf token = s.tally.countOf token + 1 ∧ t.tally.countOf token ≤ row.perCard
      ∧ (∀ k, k ≠ row.rangeId → t.tally.entryOf k = s.tally.entryOf k)
      ∧ (∀ k, k ≠ token → t.tally.repeatOf k = s.tally.repeatOf k)
      ∧ (∀ ip, s.journal.inProgram = some ip →
          t.journal = { s.journal with queue := s.journal.queue ++ [{ record := r, requester := .slot i }] }
          ∧ t.store = s.store ∧ t.events = s.events)
      ∧ (∀ loc, s.journal.inProgram = none → s.journal.writeAt = some loc →
          t.store = { s.store with recordPlace := some (loc, encodeRecord r) }
          ∧ t.journal.inProgram = some { loc := loc, entry := { record := r, requester := .slot i }, retry := false })

/-- R45: what decides a payment at once with the link not UP: the row of the table that holds, and its reason. R47, R62,
R85: the offline test passes, or names the first of its six steps that fails. -/
def Obligations.AuthorizeDeclinesAtOnce : Prop :=
  (∀ (s : State) (row : IrtRow) (total : Nat) (token : BitVec 32),
    offlineTest s row total token = firstRefusal (offlineChecks s row total token))
  ∧ ∀ (tag bill : BitVec 16) (share : BitVec 8) (pfx token base tip : BitVec 32) (s : State) (i : Nat) (b : Bill)
    (reason : DeclineReason),
    HostReady s → firstRefusal (authorizeChecks s bill.toNat share.toNat base.toNat tip.toNat) = none →
    (s.decision.slots[i]? = some none ∧ ∀ j < i, slotAt s j ≠ none) → findBill s bill.toNat = some b →
    s.decision.seq + 1 < 65535 → s.link.state ≠ .up →
    (let tipped := base.toNat * (params s).tipCapPercent / 100 < tip.toNat
     let row := lookup s pfx.toNat
     let test := row.bind (fun x => offlineTest s x (base.toNat + tip.toNat) token)
     tipped ∧ reason = .tipOverCap
      ∨ ¬ tipped ∧ row = none ∧ reason = .unlisted
      ∨ ¬ tipped ∧ row.map IrtRow.mode = some 1 ∧ reason = .onlineOnly
      ∨ ¬ tipped ∧ row.map IrtRow.mode = some 2 ∧ (params s).standIn = 0 ∧ reason = .noStandIn
      ∨ ¬ tipped ∧ row.map IrtRow.mode = some 2 ∧ (params s).standIn ≠ 0 ∧ test = some reason
      ∨ ¬ tipped ∧ row.map IrtRow.mode = some 3 ∧ test = some reason) →
    let n := s.decision.epoch * 65536 + (s.decision.seq + 1)
    ∃ t a b' set, exec (.authorize tag bill share pfx token base tip) s = .next t
      ∧ ChangedOnly [.host, .decision, .bills, .events] s t
      ∧ t.host = hostAnswered s.host 0x01 tag (.accepted i n)
      ∧ t.decision = { s.decision with seq := s.decision.seq + 1, slots := s.decision.slots.set i (some a) }
      ∧ a.state = .done ∧ a.result = .declined ∧ a.reason = reason ∧ a.txn = n ∧ a.bill = bill.toNat
      ∧ a.base = base.toNat ∧ a.tip = tip.toNat ∧ a.token = token ∧ a.share = share.toNat
      ∧ findBill t bill.toNat = some b'
      ∧ b'.reserved = b.reserved ∧ b'.paid = b.paid ∧ b'.due = b.due ∧ b'.tenders = b.tenders
      ∧ t.events = { s.events with latches := { s.events.latches with
          billChange := some (listDetail 32 bill.toNat s.events.latches.billChange), authDone := some set } }
      ∧ i ∈ set

/-- R41, R42: a number once issued is below every later one of its epoch: each issue adds one, and the wrap at sequence
65,535 moves to the next epoch, exhausted until its update ends, or, at epoch 65,535, ends the numbers. -/
def Obligations.TransactionNumbersRise : Prop :=
  ∀ s : State, s.decision.seq < 65535 →
    let n := nextNumber s
    let t := issueNumber s
    n = s.decision.epoch * 65536 + (s.decision.seq + 1) ∧ n < nextNumber t
    ∧ (s.decision.seq + 1 < 65535 → t = { s with decision := { s.decision with seq := s.decision.seq + 1 } })
    ∧ (s.decision.seq + 1 = 65535 → s.decision.epoch < 65535 →
      t.decision = { s.decision with epoch := s.decision.epoch + 1, seq := 0, exhausted := true }
      ∧ t.store.update = some { epoch := s.decision.epoch + 1, retry := false, startUp := false }
      ∧ (s.store.epochAt < 64 →
        t.store.epochPlace = some (s.store.epochAt, s.decision.epoch + 1) ∧ t.store.epochAt = s.store.epochAt + 1)
      ∧ (64 ≤ s.store.epochAt → t.store.erases = s.store.erases ++ [{ target := .epoch, second := false }]))
    ∧ (s.decision.seq + 1 = 65535 → 65535 ≤ s.decision.epoch →
      t.decision = { s.decision with seq := 65535, exhausted := true } ∧ t.store = s.store)
    ∧ ChangedOnly [.decision, .store] s t

/-- R56: READ RESULT is answered by the slot's state; a DONE slot becomes FREE and leaves the set of AUTH_DONE
(R173). -/
def Obligations.ReadResultAnswersBySlotState : Prop :=
  ∀ (tag : BitVec 16) (slot : BitVec 8) (s : State), HostReady s →
    let i := slot.toNat
    let answered (body : Reply) : HostPort := hostAnswered s.host 0x02 tag body
    (3 < i → exec (.readResult tag slot) s = .next { s with host := answered (.plain .badSlot) })
    ∧ (i ≤ 3 → slotAt s i = none → exec (.readResult tag slot) s = .next { s with host := answered (.plain .noResult) })
    ∧ (∀ a, i ≤ 3 → slotAt s i = some a → a.state ≠ .done →
      exec (.readResult tag slot) s = .next { s with host := answered (.resultPending i a.txn) })
    ∧ (∀ a, i ≤ 3 → slotAt s i = some a → a.state = .done →
      exec (.readResult tag slot) s = .next
        { s with
          host := answered (.result i a)
          decision := { s.decision with slots := s.decision.slots.set i none }
          events := { s.events with latches := { s.events.latches with
            authDone := s.events.latches.authDone.bind (fun set =>
              if set.filter (fun k => k ≠ i) = [] then none else some (set.filter (fun k => k ≠ i))) } } })

/-- R49, R81: a slot reaches DONE with APPROVED_OFFLINE only at the completion, with success, of the program of its own
record, and is otherwise as it was in STORING. -/
def Obligations.OfflineApprovalNeedsAStoredRecord : Prop :=
  ∀ (c : Instr) (s t : State) (i : Nat) (a : Auth), exec c s = .next t →
    slotAt t i = some a → a.state = .done → a.result = .approvedOffline →
    slotAt s i = some a
      ∨ ∃ e loc bytes ip before, c = .recordProgramComplete e ∧ s.store.running = some (.recordProgram loc bytes)
        ∧ (s.array.program loc.addr bytes e).2 = true
        ∧ s.journal.inProgram = some ip ∧ ip.entry.requester = .slot i ∧ slotAt s i = some before
        ∧ a = { before with state := .done, result := .approvedOffline, reason := .none }

/-! ### Management commands -/

/-- R144: a good frame that the filter does not pass has no effect but its closing flag: in SEARCH everything but a
broadcast BEACON or ASSIGN, otherwise everything addressed neither to the part nor to 255. It is not counted. A raw
command whose bytes spell an ASSIGN is that ASSIGN (log 12). -/
def Obligations.FilteredFramesAreDiscarded : Prop :=
  ∀ (c : Instr) (s : State), isRadioFrame c = true → s.pins.phase = .run → Unbroken s.radio.asm →
    (s.link.state = .search ∧ (radioAddr c ≠ 255 ∨ heardUnassigned c = false)
      ∨ s.link.state ≠ .search ∧ radioAddr c ≠ 255 ∧ (radioAddr c).toNat ≠ s.link.addr) →
    exec c s = .next { s with radio := { s.radio with asm := .collecting [] false } }

/-- R165: a command that arrives while the gate holds one is answered BUSY when it is unicast and a place is free, and
is discarded otherwise; the command in the gate is untouched. LOAD OPEN also reads the LOADLOCK line (log 10). R165:
a unicast command that finds the gate empty and no place free is held in the gate, not acted on. The model's own (log
15): a place owed to a waiting verify reply or to the held command is not free. A raw command whose bytes spell a
command is held as that command (log 12). -/
def Obligations.GateHoldsOneCommand : Prop :=
  let managing (c : Instr) : Prop := isCommand c = true ∨ ∃ addr tag payload, c = .unknownCommand addr tag payload
  (∀ (c : Instr) (s : State), managing c → s.pins.phase = .run → Unbroken s.radio.asm →
    s.link.state ≠ .search → s.arbiter.gate ≠ .empty →
    let heard : State :=
      { s with
        radio := radioHeard s.radio
        pins := match c with
          | .loadOpen _ _ _ _ _ lock => { s.pins with loadlock := lock }
          | _ => s.pins }
    ((radioAddr c).toNat = s.link.addr → radioAddr c ≠ 255 → 0 < openPlaces s.arbiter →
      exec c s = .next
        { heard with arbiter := mgmtAnswered s.arbiter s.link.addr (commandCode c) (mgmtTag c) (.plain .busy) })
    ∧ ((radioAddr c).toNat = s.link.addr → radioAddr c ≠ 255 → openPlaces s.arbiter = 0 → exec c s = .next heard)
    ∧ (radioAddr c = 255 → exec c s = .next heard))
  ∧ (∀ (c : Instr) (s : State), managing c → s.pins.phase = .run → Unbroken s.radio.asm →
    s.link.state ≠ .search → (radioAddr c).toNat = s.link.addr → radioAddr c ≠ 255 → s.arbiter.gate = .empty →
    4 ≤ s.arbiter.mgmt.length →
    exec c s = .next
      { s with
        radio := radioHeard s.radio
        pins := match c with
          | .loadOpen _ _ _ _ _ lock => { s.pins with loadlock := lock }
          | _ => s.pins
        arbiter := { s.arbiter with
          gate := .held (match c with
            | .unknownCommand addr tag payload => commandOf addr tag s.pins.loadlock payload
            | _ => c) } })

/-- R166: a freed place goes to the oldest waiting verify reply; the held command is taken when a place is free and no
verify reply waits. R130: a LOAD OPEN held is judged on the LOADLOCK level at its taking, the command's operand (log
10): refused by the first check that fails, or in progress. -/
def Obligations.FreedPlacesServeTheWaiters : Prop :=
  ∀ (s : State) (lock : Line),
    (∀ tag r rest, s.arbiter.waitingVerify = (tag, r) :: rest → s.arbiter.gate = .empty →
      s.arbiter.mgmt.length < 4 →
      exec .verifyReplyPlaced s = .next
        { s with
          arbiter := { s.arbiter with
            waitingVerify := rest
            mgmt := s.arbiter.mgmt ++
              [{ tag := tag, addr := s.link.addr, payload := .mgmtReply 0x23 (.verify r) }] } })
    ∧ (∀ addr tag, s.arbiter.gate = .held (.queryStatus addr tag) → addr ≠ 255 → s.arbiter.waitingVerify = [] →
      s.arbiter.mgmt.length < 4 →
      exec (.heldCommandTaken lock) s = .next
        { s with
          pins := { s.pins with loadlock := lock }
          arbiter := { mgmtAnswered s.arbiter s.link.addr 0x04 tag (.status (reportOf s)) with gate := .empty } })
    ∧ (∀ c, s.arbiter.gate = .held c → s.arbiter.waitingVerify = [] → s.arbiter.mgmt.length < 4 →
      (∀ a g t n k l, c ≠ .loadOpen a g t n k l) →
      exec (.heldCommandTaken lock) s = .next
        (performCommand c
          { s with pins := { s.pins with loadlock := lock }, arbiter := { s.arbiter with gate := .empty } }))
    ∧ (∀ addr tag table generation rows old, s.arbiter.gate = .held (.loadOpen addr tag table generation rows old) →
      s.arbiter.waitingVerify = [] → s.arbiter.mgmt.length < 4 → addr ≠ 255 →
      let c : Instr := .loadOpen addr tag table generation rows lock
      let found : State :=
        { s with pins := { s.pins with loadlock := lock }, arbiter := { s.arbiter with gate := .empty } }
      let checks := openChecks s table.toNat generation.toNat rows.toNat lock
      exec (.heldCommandTaken lock) s = .next (performCommand c found)
      ∧ (∀ a, firstRefusal checks = some a →
        exec (.heldCommandTaken lock) s = .next
          { found with arbiter := mgmtAnswered found.arbiter s.link.addr 0x20 tag (.plain a) })
      ∧ (firstRefusal checks = none →
        ∃ t, exec (.heldCommandTaken lock) s = .next t ∧ t.pins = found.pins ∧ t.loader.phase = .opening
          ∧ t.arbiter = { s.arbiter with gate := .inProgress c }))
    ∧ (∀ c, s.arbiter.gate = .held c → (s.arbiter.waitingVerify ≠ [] ∨ 4 ≤ s.arbiter.mgmt.length) →
      exec (.heldCommandTaken lock) s = .next s)

/-- R150, R148, R149, R157: an ASSIGN that names the part gives it an address and a reply slot: UP when BEACON WATCH
runs, else DOWN. One from SEARCH stops and withdraws PRESENCE, restamps DATA frames stamped 0, raises LINK_CHANGE and,
when UP, has the Uploader leave OFF: a LIVE record is taken and its UPLOAD frame queued. Its reply carries what is
then held, stamped with the new address (log 16). R150: an ASSIGN that is not taken: for another part it is discarded;
unicast, or with a bad address or slot, it is refused BAD_FIELD. It changes nothing. -/
def Obligations.AssignGivesAnAddress : Prop :=
  (∀ (tag : BitVec 16) (newAddr slot : BitVec 8) (s : State), s.pins.phase = .run → Unbroken s.radio.asm →
    s.arbiter.gate = .empty →
    s.arbiter.mgmt.length + s.arbiter.waitingVerify.length < 4 → newAddr ≠ 0 → newAddr ≠ 255 → slot.toNat ≤ 63 →
    let reply (st : LinkState) : Frame :=
      { tag := tag, addr := newAddr.toNat, payload := .mgmtReply 0x01 (.assigned newAddr.toNat slot.toNat st) }
    let cell := s.link.cell.getD 0
    let raised (st : LinkState) : Events :=
      { s.events with latches := { s.events.latches with
        linkChange := some (match s.events.latches.linkChange with
          | none => { state := st, oldCell := cell, newCell := cell }
          | some d => { state := st, oldCell := d.oldCell, newCell := cell }) } }
    let moved (st : LinkState) (upload : List Frame) : Arbiter :=
      { s.arbiter with
        presence := []
        data := s.arbiter.data.map (fun f => if f.addr = 0 then { f with addr := newAddr.toNat } else f)
        upload := upload
        mgmt := s.arbiter.mgmt ++ [reply st] }
    (s.link.state ≠ .search →
      exec (.assign 255 tag s.link.identity newAddr slot) s = .next
        { s with
          radio := radioHeard s.radio
          link := { s.link with addr := newAddr.toNat, replySlot := slot.toNat }
          arbiter := { s.arbiter with mgmt := s.arbiter.mgmt ++ [reply s.link.state] } })
    ∧ (s.link.state = .search → s.timers.beaconWatch = none →
      exec (.assign 255 tag s.link.identity newAddr slot) s = .next
        { s with
          radio := radioHeard s.radio
          link := { s.link with state := .down, addr := newAddr.toNat, replySlot := slot.toNat }
          timers := { s.timers with presence := none }
          arbiter := moved .down s.arbiter.upload
          events := raised .down })
    ∧ (s.link.state = .search → s.timers.beaconWatch ≠ none →
      ∃ t, exec (.assign 255 tag s.link.identity newAddr slot) s = .next t
        ∧ ChangedOnly [.radio, .link, .presenceTimer, .uploadTimer, .arbiter, .events, .uploader, .journal] s t
        ∧ t.link = { s.link with state := .up, addr := newAddr.toNat, replySlot := slot.toNat }
        ∧ t.timers.presence = none ∧ t.events = raised .up
        ∧ (s.uploader ≠ .off → ChangedOnly [.radio, .link, .presenceTimer, .arbiter, .events] s t)
        ∧ (s.uploader = .off → firstLive s = none → t.uploader = .idle)
        ∧ (s.uploader ≠ .off ∨ firstLive s = none →
          t.arbiter = moved .up s.arbiter.upload ∧ t.journal = s.journal ∧ t.timers.upload = s.timers.upload)
        ∧ (∀ loc, s.uploader = .off → firstLive s = some loc →
          let record := s.array.readBytes loc.addr 30
          let number := field record 0 4
          t.uploader = .awaitingConfirm loc number 1
          ∧ t.journal = s.journal.onSlot loc (fun x => { x with state := .outstanding })
          ∧ t.timers.upload = some (params s).uploadRetry
          ∧ t.arbiter = moved .up (s.arbiter.upload ++
              [{ tag := BitVec.ofNat 16 number, addr := newAddr.toNat, payload := .upload number record 1 }]))))
  ∧ (∀ (addr : BitVec 8) (tag : BitVec 16) (identity : BitVec 48) (newAddr slot : BitVec 8) (s : State),
    s.pins.phase = .run → Unbroken s.radio.asm → s.arbiter.gate = .empty →
    s.arbiter.mgmt.length + s.arbiter.waitingVerify.length < 4 →
    let refused : State :=
      { s with
        radio := radioHeard s.radio
        arbiter := mgmtAnswered s.arbiter s.link.addr 0x01 tag (.plain .badField) }
    (addr = 255 → identity ≠ s.link.identity →
      exec (.assign addr tag identity newAddr slot) s = .next { s with radio := radioHeard s.radio })
    ∧ (addr = 255 → identity = s.link.identity → newAddr = 0 ∨ newAddr = 255 ∨ 63 < slot.toNat →
      exec (.assign addr tag identity newAddr slot) s = .next refused)
    ∧ (GateReady addr s → exec (.assign addr tag identity newAddr slot) s = .next refused))

/-- R54, R111, R141, R148, R151, R161: RELEASE returns the part to SEARCH without address, cell or time base; no slot is
left awaiting a reply, AUTH and UPLOAD frames are withdrawn, the Uploader is OFF, a session in ROWS is aborted, a
pending verify ends, and the reply carries the address withdrawn, stamped with it. -/
def Obligations.ReleaseReturnsToSearch : Prop :=
  ∀ (addr : BitVec 8) (tag : BitVec 16) (s : State), GateReady addr s →
    ∃ t, exec (.release addr tag) s = .next t
      ∧ ChangedOnly [.radio, .link, .replyTimers, .beaconWatch, .uploadTimer, .slotTimer, .presenceTimer, .arbiter,
          .decision, .bills, .tally, .journal, .store, .host, .uploader, .loader, .irt, .profile, .events] s t
      ∧ t.link = { s.link with state := .search, addr := 0, replySlot := 0, cell := none, base := none }
      ∧ t.timers.beaconWatch = none ∧ t.timers.presence = none ∧ t.timers.slot = none ∧ t.timers.upload = none
      ∧ t.uploader = .off ∧ t.arbiter.auth = [] ∧ t.arbiter.upload = [] ∧ t.arbiter.data = s.arbiter.data
      ∧ t.arbiter.mgmt = s.arbiter.mgmt ++
          [{ tag := tag, addr := s.link.addr, payload := .mgmtReply 0x02 (.released s.link.addr) }]
      ∧ (∀ i, awaiting (slotAt t i) = false)
      ∧ t.loader.pendingVerify = none
      ∧ (∀ se, s.loader.phase = .rows → s.loader.session = some se →
          t.loader.session = none ∧ tableState t se.table = .invalid ∧ tableGeneration t se.table = se.generation
          ∧ t.loader.phase = if se.bufferBusy then .draining se.table else .idle)
      ∧ (s.loader.phase ≠ .rows →
          t.loader = { s.loader with pendingVerify := none } ∧ t.irt = s.irt ∧ t.profile = s.profile)
      ∧ t.events.latches.linkChange = some
          { state := .search
            oldCell := (s.events.latches.linkChange.map LinkChangeDetail.oldCell).getD (s.link.cell.getD 0)
            newCell := 0 }

/-- R55, R112, R141, R152, R166: LINK RESET declines every slot awaiting a reply, keeps the others, empties the uplink
queues and queues its reply, aborts a session in ROWS, ends a pending verify and starts the Uploader afresh: the
outstanding record is LIVE again, and with the link UP the first LIVE record is selected, from whatever state the
Uploader was in; with none it is IDLE. The link is kept. -/
def Obligations.LinkResetClearsTheTraffic : Prop :=
  ∀ (addr : BitVec 8) (tag : BitVec 16) (s : State), GateReady addr s →
    ∃ t, exec (.linkReset addr tag) s = .next t
      ∧ ChangedOnly [.radio, .replyTimers, .uploadTimer, .slotTimer, .arbiter, .decision, .bills, .journal, .uploader,
          .loader, .irt, .profile, .events] s t
      ∧ (∀ i a, slotAt s i = some a → a.state = .awaitingReply →
          slotAt t i = some { a with state := .done, result := .declined, reason := .linkReset })
      ∧ (∀ i, awaiting (slotAt s i) = false → slotAt t i = slotAt s i)
      ∧ t.decision.late = s.decision.late ∧ t.decision.seq = s.decision.seq ∧ t.decision.epoch = s.decision.epoch
      ∧ t.arbiter.mgmt = [{ tag := tag, addr := s.link.addr, payload := .mgmtReply 0x03 (.plain .ok) }]
      ∧ t.arbiter.auth = [] ∧ t.arbiter.data = [] ∧ t.arbiter.presence = [] ∧ t.arbiter.waitingVerify = []
      ∧ t.arbiter.sending = s.arbiter.sending
      ∧ t.timers.slot = none ∧ t.loader.pendingVerify = none
      ∧ t.events.latches.linkChange = s.events.latches.linkChange
      ∧ (∀ se, s.loader.phase = .rows → s.loader.session = some se →
          t.loader.session = none ∧ tableState t se.table = .invalid ∧ tableGeneration t se.table = se.generation
          ∧ t.loader.phase = if se.bufferBusy then .draining se.table else .idle)
      ∧ (s.loader.phase ≠ .rows →
          t.loader = { s.loader with pendingVerify := none } ∧ t.irt = s.irt ∧ t.profile = s.profile)
      ∧ (let back : State := match s.uploader with
           | .awaitingConfirm loc _ _ => setRecordState loc .live s
           | _ => s
         (s.link.state ≠ .up →
            t.uploader = .off ∧ t.journal = back.journal ∧ t.arbiter.upload = [] ∧ t.timers.upload = none)
         ∧ (s.link.state = .up → firstLive back = none →
            t.uploader = .idle ∧ t.journal = back.journal ∧ t.arbiter.upload = [] ∧ t.timers.upload = none)
         ∧ (∀ loc, s.link.state = .up → firstLive back = some loc →
            let record := s.array.readBytes loc.addr 30
            t.uploader = .awaitingConfirm loc (field record 0 4) 1
            ∧ t.journal = back.journal.onSlot loc (fun x => { x with state := .outstanding })
            ∧ t.timers.upload = some (params t).uploadRetry
            ∧ t.arbiter.upload =
                [{ tag := BitVec.ofNat 16 (field record 0 4), addr := s.link.addr,
                   payload := .upload (field record 0 4) record 1 }]))

/-- R153, R138, R140: QUERY STATUS, a unicast LOAD VERIFY and DUMP ROW are answered at once and change nothing; the
status is reported group by group from the state. R129: a table code that names none is refused BAD_FIELD; a broadcast
DUMP ROW is discarded, and a broadcast LOAD VERIFY with such a code changes nothing and gets no reply. R139, R166: a
broadcast LOAD VERIFY starts the SLOT timer with reply slot × slot spacing and is held pending, or, with reply slot 0,
is answered at once; either way it replaces a pending one. At the expiry its reply, with the values then held, takes a
free place, waits when none is free, and is dropped when four wait already. -/
def Obligations.ReadingCommandsAreAnswered : Prop :=
  (∀ (addr : BitVec 8) (tag : BitVec 16) (table : BitVec 8) (index : BitVec 16) (s : State), GateReady addr s →
    let answered (code : BitVec 8) (body : Reply) : State :=
      { s with
        radio := radioHeard s.radio
        arbiter := mgmtAnswered s.arbiter s.link.addr code tag body }
    let row : List Byte := s.array.readBytes (irtRowAddr index.toNat) 24
    exec (.queryStatus addr tag) s = .next (answered 0x04 (.status (reportOf s)))
    ∧ (table ≠ 1 → table ≠ 2 → exec (.loadVerify addr tag table) s = .next (answered 0x23 (.plain .badField)))
    ∧ (table = 1 → exec (.loadVerify addr tag table) s = .next (answered 0x23 (.verify
        { table := .irt, state := s.irt.state, generation := s.irt.generation, rows := reportedRows s .irt,
          received := ((sessionOf s .irt).map Session.received).getD 0,
          broken := ((sessionOf s .irt).map Session.broken).getD .no })))
    ∧ (table = 2 → exec (.loadVerify addr tag table) s = .next (answered 0x23 (.verify
        { table := .profile, state := s.profile.state, generation := s.profile.generation,
          rows := reportedRows s .profile,
          received := ((sessionOf s .profile).map Session.received).getD 0,
          broken := ((sessionOf s .profile).map Session.broken).getD .no })))
    ∧ (table = 1 → sessionOf s .irt ≠ none ∨ s.loader.phase = .draining .irt →
      exec (.dumpRow addr tag table index) s = .next (answered 0x24 (.plain .busy)))
    ∧ (table = 1 → sessionOf s .irt = none → s.loader.phase ≠ .draining .irt → index.toNat < irtPresent s.array →
      exec (.dumpRow addr tag table index) s =
        .next (answered 0x24 (.dumped index.toNat s.irt.state s.irt.generation row)))
    ∧ (table = 1 → sessionOf s .irt = none → s.loader.phase ≠ .draining .irt → irtPresent s.array ≤ index.toNat →
      exec (.dumpRow addr tag table index) s = .next (answered 0x24 (.plain .noRow)))
    ∧ (table = 2 → sessionOf s .profile = none → s.loader.phase ≠ .draining .profile → index ≠ 0 →
      exec (.dumpRow addr tag table index) s = .next (answered 0x24 (.plain .noRow)))
    ∧ (table ≠ 1 → table ≠ 2 → exec (.dumpRow addr tag table index) s = .next (answered 0x24 (.plain .badField)))
    ∧ (table = 2 → sessionOf s .profile ≠ none ∨ s.loader.phase = .draining .profile →
      exec (.dumpRow addr tag table index) s = .next (answered 0x24 (.plain .busy)))
    ∧ (table = 2 → sessionOf s .profile = none → s.loader.phase ≠ .draining .profile → index = 0 →
      exec (.dumpRow addr tag table index) s = .next (answered 0x24
        (if s.array.erasedRange profileRecordAddr 21 then .plain .noRow
        else .dumped 0 s.profile.state s.profile.generation (s.array.readBytes profileRecordAddr 21)))))
  ∧ (∀ (tag : BitVec 16) (table : BitVec 8) (index : BitVec 16) (s : State), s.pins.phase = .run →
    Unbroken s.radio.asm → s.link.state ≠ .search → s.arbiter.gate = .empty →
    exec (.dumpRow 255 tag table index) s = .next { s with radio := radioHeard s.radio }
    ∧ (table ≠ 1 → table ≠ 2 →
      exec (.loadVerify 255 tag table) s = .next { s with radio := radioHeard s.radio }))
  ∧ (∀ (tag : BitVec 16) (s : State) (t : TableName) (code : BitVec 8), tableOf code = some t →
    let queued (g : BitVec 16) (x : TableName) : List Frame :=
      s.arbiter.mgmt ++ [{ tag := g, addr := s.link.addr, payload := .mgmtReply 0x23 (.verify (verifyReport s x)) }]
    (s.pins.phase = .run → Unbroken s.radio.asm → s.link.state ≠ .search → s.arbiter.gate = .empty →
      s.link.replySlot ≠ 0 →
      exec (.loadVerify 255 tag code) s = .next
        { s with
          radio := radioHeard s.radio
          timers := { s.timers with slot := some (s.link.replySlot * (params s).slotSpacing) }
          loader := { s.loader with pendingVerify := some (t, tag) } })
    ∧ (s.pins.phase = .run → Unbroken s.radio.asm → s.link.state ≠ .search → s.arbiter.gate = .empty →
      s.link.replySlot = 0 → s.arbiter.mgmt.length + s.arbiter.waitingVerify.length < 4 →
      exec (.loadVerify 255 tag code) s = .next
        { s with
          radio := radioHeard s.radio
          timers := { s.timers with slot := none }
          loader := { s.loader with pendingVerify := none }
          arbiter := { s.arbiter with mgmt := queued tag t } })
    ∧ ∀ g x, s.timers.slot = some 0 → s.loader.pendingVerify = some (x, g) → s.arbiter.gate = .empty →
      let ended : State :=
        { s with timers := { s.timers with slot := none }, loader := { s.loader with pendingVerify := none } }
      (s.arbiter.mgmt.length + s.arbiter.waitingVerify.length < 4 →
        exec .slotTimerExpiry s = .next { ended with arbiter := { s.arbiter with mgmt := queued g x } })
      ∧ (4 ≤ s.arbiter.mgmt.length → s.arbiter.waitingVerify.length < 4 →
        exec .slotTimerExpiry s = .next
          { ended with arbiter := { s.arbiter with
              waitingVerify := s.arbiter.waitingVerify ++ [(g, verifyReport s x)] } })
      ∧ (4 ≤ s.arbiter.mgmt.length → 4 ≤ s.arbiter.waitingVerify.length → exec .slotTimerExpiry s = .next ended))

/-- R24 to R26, R20: BILL PUSH is refused in order, or creates the entry at the end of table order with the tenders the
journal gives, evicting the first evictable settled bill when the table is full. -/
def Obligations.BillPushCreatesAnEntry : Prop :=
  ∀ (addr : BitVec 8) (tag bill place : BitVec 16) (due prior : BitVec 32) (opened : BitVec 24)
    (known : List (BitVec 32)) (s : State), GateReady addr s →
    let checks :=
      pushChecks s bill.toNat place.toNat due.toNat prior.toNat opened.toNat (known.map BitVec.toNat)
    let ts := derivedTenders s bill.toNat (known.map BitVec.toNat)
    let paid := prior.toNat + (ts.map Tender.base).sum
    let st : BillState := if paid = due.toNat then .settled else .opened
    let entry : Bill :=
      { number := bill.toNat, place := place.toNat, due := due.toNat, priorPaid := prior.toNat, paid := paid,
        reserved := 0, state := st, opened := opened.toNat, tenders := ts, plan := none, voidPending := 0 }
    let arrived (body : Reply) : State :=
      { s with
        radio := radioHeard s.radio
        arbiter := mgmtAnswered s.arbiter s.link.addr 0x10 tag body }
    let c : Instr := .billPush addr tag bill place due prior opened known
    (∀ a, firstRefusal checks = some a → exec c s = .next (arrived (.plain a)))
    ∧ (firstRefusal checks = none → s.bills.entries.length < 32 →
      exec c s = .next
        { arrived (.pushed ts.length paid st) with
          bills :=
            { entries := s.bills.entries ++ [entry]
              settled := if st = .settled then s.bills.settled ++ [bill.toNat] else s.bills.settled }
          events := { s.events with latches := { s.events.latches with
            billChange := some (listDetail 32 bill.toNat s.events.latches.billChange) } } })
    ∧ (∀ n, firstRefusal checks = none → 32 ≤ s.bills.entries.length → evictable s = some n →
      let kept := s.bills.settled.filter (fun k => k ≠ n)
      exec c s = .next
        { arrived (.pushed ts.length paid st) with
          bills :=
            { entries := s.bills.entries.filter (fun b => b.number ≠ n) ++ [entry]
              settled := if st = .settled then kept ++ [bill.toNat] else kept }
          events := { s.events with latches := { s.events.latches with
            billChange := some (listDetail 32 bill.toNat
              (some (listDetail 32 n s.events.latches.billChange))) } } })

/-- R27: BILL AMEND is refused in order, or gives the bill a new due, keeps the PAID shares only, and computes its state
again. R28: BILL DROP is refused in order, or removes the entry from the table, its order and the settled list. -/
def Obligations.BillAmendAndDropChangeTheEntry : Prop :=
  (∀ (addr : BitVec 8) (tag bill : BitVec 16) (due : BitVec 32) (s : State), GateReady addr s →
    let arrived (body : Reply) : State :=
      { s with
        radio := radioHeard s.radio
        arbiter := mgmtAnswered s.arbiter s.link.addr 0x11 tag body }
    (∀ a, firstRefusal (amendChecks s bill.toNat due.toNat) = some a →
      exec (.billAmend addr tag bill due) s = .next (arrived (.plain a)))
    ∧ ∀ b, firstRefusal (amendChecks s bill.toNat due.toNat) = none → findBill s bill.toNat = some b →
      let st : BillState := if b.paid = due.toNat ∧ b.reserved = 0 then .settled else .opened
      let kept := (b.plan.getD []).filter (fun sh => sh.state == .paid)
      ∃ t b', exec (.billAmend addr tag bill due) s = .next t
        ∧ ChangedOnly [.radio, .arbiter, .bills, .events] s t
        ∧ t.arbiter = mgmtAnswered s.arbiter s.link.addr 0x11 tag (.amended due.toNat b.paid st)
        ∧ findBill t bill.toNat = some b'
        ∧ b'.due = due.toNat ∧ b'.state = st ∧ b'.plan = (if kept = [] then none else some kept)
        ∧ b'.paid = b.paid ∧ b'.reserved = b.reserved ∧ b'.tenders.map Tender.txn = b.tenders.map Tender.txn
        ∧ (∀ k, k ≠ bill.toNat → findBill t k = findBill s k)
        ∧ t.events = { s.events with latches := { s.events.latches with
            billChange := some (listDetail 32 bill.toNat s.events.latches.billChange) } })
  ∧ (∀ (addr : BitVec 8) (tag bill : BitVec 16) (s : State), GateReady addr s →
    let arrived (body : Reply) : State :=
      { s with
        radio := radioHeard s.radio
        arbiter := mgmtAnswered s.arbiter s.link.addr 0x12 tag body }
    (∀ a, firstRefusal (dropChecks s bill.toNat) = some a →
      exec (.billDrop addr tag bill) s = .next (arrived (.plain a)))
    ∧ (firstRefusal (dropChecks s bill.toNat) = none →
      exec (.billDrop addr tag bill) s = .next
        { arrived (.plain .ok) with
          bills :=
            { entries := s.bills.entries.filter (fun b => b.number ≠ bill.toNat)
              settled := s.bills.settled.filter (fun k => k ≠ bill.toNat) }
          events := { s.events with latches := { s.events.latches with
            billChange := some (listDetail 32 bill.toNat s.events.latches.billChange) } } }))

/-! ### Loading tables -/

/-- R130, R4, R137: LOAD OPEN is refused in order, or opens a session, puts its table into LOADING, asks for the erase
of the table's block and stays in progress in the gate. The LOADLOCK level it finds is the command's operand, which
the line keeps: the model's choice (log 10). -/
def Obligations.LoadOpenOpensASession : Prop :=
  ∀ (addr : BitVec 8) (tag : BitVec 16) (table : BitVec 8) (generation rows : BitVec 16) (lock : Line) (s : State),
    GateReady addr s →
    let c : Instr := .loadOpen addr tag table generation rows lock
    let checks := openChecks s table.toNat generation.toNat rows.toNat lock
    (∀ a, firstRefusal checks = some a →
      exec c s = .next
        { s with
          pins := { s.pins with loadlock := lock }
          radio := radioHeard s.radio
          arbiter := mgmtAnswered s.arbiter s.link.addr 0x20 tag (.plain a) })
    ∧ (firstRefusal checks = none →
      ∃ t name, exec c s = .next t
        ∧ ChangedOnly [.pins, .radio, .arbiter, .loader, .irt, .profile, .store, .journal, .events] s t
        ∧ tableOf table = some name
        ∧ t.pins = { s.pins with loadlock := lock }
        ∧ t.arbiter = { s.arbiter with gate := .inProgress c }
        ∧ t.loader = { s.loader with
            phase := .opening
            session := some
              { table := name, generation := generation.toNat, expected := rows.toNat, received := 0, broken := .no,
                breakIndex := 0, buffer := [], bufferBusy := false, check := 0xFFFF } }
        ∧ tableState t name = .loading ∧ tableGeneration t name = generation.toNat ∧ reportedRows t name = 0
        ∧ t.store = { s.store with erases := s.store.erases ++ [{ target := .table name, second := false }] }
        ∧ (name = .irt → t.irt.mirror = [] ∧ t.irt.readable = false ∧ t.profile = s.profile
            ∧ t.journal = s.journal ∧ t.events = s.events)
        ∧ (name = .profile → t.irt = s.irt ∧ params t = ProfileRecord.defaults))

/-- R132, R133, R136: a row that passes is taken and answered with its index; the row that fills the buffer asks for the
buffer's PAGE PROGRAM; a row out of sequence breaks the session, a row on a busy buffer does not. R136, R132, R133:
the Profile record is taken clamped, its received check is over the record as sent, and its PAGE PROGRAM into page 1
is asked for at once. -/
def Obligations.LoadRowTakesTheNextRow : Prop :=
  (∀ (addr : BitVec 8) (tag : BitVec 16) (index : BitVec 16) (row : List Byte) (s : State) (se : Session),
    GateReady addr s → s.loader.phase = .rows → s.loader.session = some se → se.table = .irt → row.length = 24 →
    let c : Instr := .loadRow addr tag 1 index row
    let arrived (body : Reply) : State :=
      { s with
        radio := radioHeard s.radio
        arbiter := mgmtAnswered s.arbiter s.link.addr 0x21 tag body }
    let taken : Session := { se with buffer := se.buffer ++ [row], received := se.received + 1 }
    (se.bufferBusy = true → exec c s = .next (arrived (.plain .busy)))
    ∧ (se.bufferBusy = false → se.broken = .storeFault → exec c s = .next (arrived (.plain .storeFault)))
    ∧ (se.bufferBusy = false → se.broken = .no → index.toNat ≠ se.received ∨ se.expected ≤ index.toNat →
      exec c s = .next
        { arrived (.plain .sequence) with
          loader := { s.loader with session := some { se with broken := .sequence, breakIndex := se.received } } })
    ∧ (se.bufferBusy = false → se.broken = .no → index.toNat = se.received → index.toNat < se.expected →
      se.buffer.length ≠ 9 →
      exec c s = .next
        { arrived (.rowTaken index.toNat) with loader := { s.loader with session := some taken } })
    ∧ (se.bufferBusy = false → se.broken = .no → index.toNat = se.received → index.toNat < se.expected →
      se.buffer.length = 9 →
      exec c s = .next
        { arrived (.rowTaken index.toNat) with
          loader := { s.loader with session := some { taken with bufferBusy := true } }
          store := { s.store with
            pagePlace := some
              { table := .irt, page := 1 + (se.received - 9) / 10, bytes := (se.buffer ++ [row]).flatten } } }))
  ∧ (∀ (addr : BitVec 8) (tag : BitVec 16) (row : List Byte) (s : State) (se : Session),
    GateReady addr s → s.loader.phase = .rows → s.loader.session = some se → se.table = .profile → row.length = 21 →
    se.bufferBusy = false → se.broken = .no → se.received = 0 → se.expected = 1 → se.buffer = [] →
    let p := clampProfile (decodeProfile row)
    exec (.loadRow addr tag 2 0 row) s = .next
      { s with
        radio := radioHeard s.radio
        arbiter := mgmtAnswered s.arbiter s.link.addr 0x21 tag (.rowTaken 0)
        loader := { s.loader with
          session := some
            { se with buffer := [encodeProfile p], received := 1, check := checkValue row, bufferBusy := true } }
        store := { s.store with pagePlace := some { table := .profile, page := 1, bytes := encodeProfile p } } }
    ∧ 100 ≤ p.replyTimeout ∧ p.replyTimeout ≤ 3000 ∧ 50 ≤ p.beaconLoss ∧ p.beaconLoss ≤ 6000
    ∧ 50 ≤ p.uploadRetry ∧ p.uploadRetry ≤ 6000 ∧ 1 ≤ p.uploadAttempts ∧ p.uploadAttempts ≤ 8
    ∧ 500 ≤ p.uploadHoldoff ∧ p.uploadHoldoff ≤ 60000 ∧ 1 ≤ p.slotSpacing ∧ p.slotSpacing ≤ 50
    ∧ 100 ≤ p.presenceInterval ∧ p.presenceInterval ≤ 6000 ∧ p.tipCapPercent ≤ 100
    ∧ 8 ≤ p.journalLow ∧ p.journalLow ≤ 256 ∧ p.standIn ≤ 1 ∧ 1 ≤ p.levelMgmtReply ∧ p.levelMgmtReply ≤ 3
    ∧ p.levelAuth ≤ 3 ∧ p.levelUpload ≤ 3 ∧ p.levelData ≤ 3 ∧ p.levelPresence ≤ 3)

/-- R134, R135: a LOAD CLOSE of a session in ROWS waits for a busy buffer; ends a broken session with INVALID, its cause
and its break index; else asks for the buffer's PAGE PROGRAM, or, with the buffer empty, for the header's. R137: of the
Profile, COUNT and CHECK are tested before the header; a failure makes it INVALID, and reports index 0 (log 23). The
header's bytes are the model's layout (log 8), and a host-readable flag that is neither 0 nor 1 is a free value (log
36). -/
def Obligations.LoadCloseProceedsInSteps : Prop :=
  (∀ (addr : BitVec 8) (tag : BitVec 16) (rows check : BitVec 16) (readable : BitVec 8) (s : State) (se : Session),
    GateReady addr s → s.loader.phase = .rows → s.loader.session = some se → se.table = .irt →
    let c : Instr := .loadClose addr tag 1 rows check readable
    let job (step : CloseStep) : CloseJob :=
      { rows := rows.toNat, check := check, readable := flagRead readable, step := step }
    let closing (step : CloseStep) (x : Session) : State :=
      { s with
        radio := radioHeard s.radio
        arbiter := { s.arbiter with gate := .inProgress c }
        loader := { s.loader with phase := .closing, session := some x, close := some (job step) } }
    (se.bufferBusy = true → exec c s = .next (closing .awaitingBuffer se))
    ∧ (se.bufferBusy = false → se.broken ≠ .no →
      exec c s = .next
        { s with
          radio := radioHeard s.radio
          arbiter := mgmtAnswered s.arbiter s.link.addr 0x22 tag
            (.closed false (if se.broken = .sequence then .sequence else .storeFault) se.breakIndex se.generation)
          irt := { state := .invalid, generation := se.generation, readable := false, mirror := [] }
          loader := { s.loader with phase := .idle, session := none, close := none } })
    ∧ (se.bufferBusy = false → se.broken = .no → se.buffer ≠ [] →
      exec c s = .next
        { closing .lastPage { se with bufferBusy := true } with
          store := { s.store with
            pagePlace := some
              { table := .irt, page := 1 + (se.received - se.buffer.length) / 10,
                bytes := se.buffer.flatten } } })
    ∧ (se.bufferBusy = false → se.broken = .no → se.buffer = [] →
      exec c s = .next
        { closing .header se with
          store := { s.store with
            pagePlace := some
              { table := .irt, page := 0,
                bytes := encodeIrtHeader
                  { generation := se.generation, rows := rows.toNat, readable := flagRead readable,
                    check := check } } } }))
  ∧ (∀ (addr : BitVec 8) (tag : BitVec 16) (rows check : BitVec 16) (readable : BitVec 8) (s : State) (se : Session),
    GateReady addr s → s.loader.phase = .rows → s.loader.session = some se → se.table = .profile →
    let c : Instr := .loadClose addr tag 2 rows check readable
    let closing (step : CloseStep) : State :=
      { s with
        radio := radioHeard s.radio
        arbiter := { s.arbiter with gate := .inProgress c }
        loader := { s.loader with
          phase := .closing
          close := some { rows := rows.toNat, check := check, readable := flagRead readable, step := step } } }
    let ended (k : Condition) (index : Nat) : State :=
      { s with
        radio := radioHeard s.radio
        arbiter := mgmtAnswered s.arbiter s.link.addr 0x22 tag (.closed false k index se.generation)
        profile := { state := .invalid, generation := se.generation, values := .defaults }
        loader := { s.loader with phase := .idle, session := none, close := none } }
    (se.bufferBusy = true → exec c s = .next (closing .awaitingBuffer))
    ∧ (se.bufferBusy = false → se.broken ≠ .no →
      exec c s = .next (ended (if se.broken = .sequence then .sequence else .storeFault) se.breakIndex))
    ∧ (se.bufferBusy = false → se.broken = .no → se.buffer = [] →
      (rows.toNat ≠ 1 ∨ se.received ≠ 1 → exec c s = .next (ended .count 0))
      ∧ (rows.toNat = 1 → se.received = 1 → check ≠ se.check → exec c s = .next (ended .check 0))
      ∧ (rows.toNat = 1 → se.received = 1 → check = se.check →
        exec c s = .next
          { closing .header with
            store := { s.store with
              pagePlace := some
                { table := .profile, page := 0,
                  bytes := encodeProfileHeader
                    { generation := se.generation, records := 1,
                      check := checkValue (s.array.readBytes profileRecordAddr 21) } } } })))

/-! ### The gateway's other frames -/

/-- R145, R148, R149, R99: a BEACON that is taken restarts BEACON WATCH, sets the time base and the cell id, and by
link state announces the part (SEARCH) or makes the link UP (DOWN), where the Uploader takes a LIVE record and queues
its UPLOAD frame; one with cell id 0 or seconds of day above 86,399 is counted as a bad radio frame. -/
def Obligations.BeaconKeepsTheLinkUp : Prop :=
  ∀ (cell : BitVec 16) (seconds : BitVec 24) (s : State), s.pins.phase = .run → Unbroken s.radio.asm →
    let c : Instr := .beacon 255 cell seconds
    let good : Prop := cell ≠ 0 ∧ seconds.toNat ≤ 86399
    let link : Link :=
      { s.link with cell := some cell.toNat, base := some { s := seconds.toNat, t := 0 } }
    let timers : Timers := { s.timers with beaconWatch := some (params s).beaconLoss }
    let raised (st : LinkState) : Events :=
      { s.events with latches := { s.events.latches with
        linkChange := some
          { state := st
            oldCell := (s.events.latches.linkChange.map LinkChangeDetail.oldCell).getD (s.link.cell.getD 0)
            newCell := cell.toNat } } }
    let sameCell : Prop := s.link.cell = none ∨ s.link.cell = some cell.toNat
    (¬ good → exec c s = .next
      { s with radio := { asm := .collecting [] false, framesBad := min (s.radio.framesBad + 1) 65535 } })
    ∧ (good → s.link.state = .up → sameCell →
      exec c s = .next { s with radio := radioHeard s.radio, link := link, timers := timers })
    ∧ (good → s.link.state = .up → ¬ sameCell →
      exec c s = .next { s with radio := radioHeard s.radio, link := link, timers := timers, events := raised .up })
    ∧ (good → s.link.state = .search → sameCell → s.timers.presence = none →
      exec c s = .next
        { s with
          radio := radioHeard s.radio
          link := link
          timers := { timers with presence := some (params s).presenceInterval }
          arbiter := { s.arbiter with
            presence := [{ tag := 0, addr := 0, payload := .presence s.link.identity }] } })
    ∧ (good → s.link.state = .search → sameCell → s.timers.presence ≠ none →
      exec c s = .next { s with radio := radioHeard s.radio, link := link, timers := timers })
    ∧ (good → s.link.state = .search → ¬ sameCell → s.timers.presence = none →
      exec c s = .next
        { s with
          radio := radioHeard s.radio
          link := link
          timers := { timers with presence := some (params s).presenceInterval }
          arbiter := { s.arbiter with
            presence := [{ tag := 0, addr := 0, payload := .presence s.link.identity }] }
          events := raised .search })
    ∧ (good → s.link.state = .search → ¬ sameCell → s.timers.presence ≠ none →
      exec c s = .next { s with radio := radioHeard s.radio, link := link, timers := timers, events := raised .search })
    ∧ (good → s.link.state = .down → s.uploader = .off → firstLive s = none →
      exec c s = .next
        { s with
          radio := radioHeard s.radio
          link := { link with state := .up }
          timers := timers
          uploader := .idle
          events := raised .up })
    ∧ (∀ loc, good → s.link.state = .down → s.uploader = .off → firstLive s = some loc →
      let record := s.array.readBytes loc.addr 30
      let number := field record 0 4
      exec c s = .next
        { s with
          radio := radioHeard s.radio
          link := { link with state := .up }
          timers := { timers with upload := some (params s).uploadRetry }
          uploader := .awaitingConfirm loc number 1
          journal := s.journal.onSlot loc (fun x => { x with state := .outstanding })
          arbiter := { s.arbiter with
            upload := s.arbiter.upload ++
              [{ tag := BitVec.ofNat 16 number, addr := s.link.addr, payload := .upload number record 1 }] }
          events := raised .up })

/-- R51, R22, R23, R161, R173: an AUTH REPLY for a slot awaiting it stops the slot's timer, withdraws its AUTH REQUEST,
keeps the issuer reason and ends the payment: APPROVE commits it as an ONLINE tender, DECLINE releases it. -/
def Obligations.AuthReplyEndsThePayment : Prop :=
  ∀ (addr : BitVec 8) (txn : BitVec 32) (disposition reason : BitVec 8) (s : State) (i : Nat) (a : Auth) (b : Bill),
    Addressed addr s → awaitingSlot s txn.toNat = some i → slotAt s i = some a → findBill s a.bill = some b →
    (disposition = 1 ∨ disposition = 2) →
    let approve : Bool := disposition == 1
    ∃ t b' set, exec (.authReply addr txn disposition reason) s = .next t
      ∧ ChangedOnly [.radio, .decision, .bills, .events, .replyTimers, .arbiter] s t
      ∧ a.state = .awaitingReply ∧ a.txn = txn.toNat
      ∧ t.decision = { s.decision with slots := s.decision.slots.set i (some
          { a with state := .done, result := if approve then .approvedOnline else .declinedIssuer, reason := .none,
                   issuer := reason.toNat }) }
      ∧ t.timers.reply = s.timers.reply.set i none
      ∧ t.arbiter = { s.arbiter with auth := s.arbiter.auth.filter (fun f => !f.isAuthOf txn.toNat) }
      ∧ findBill t a.bill = some b'
      ∧ b'.reserved = b.reserved - a.base
      ∧ b'.paid = (if approve then b.paid + a.base else b.paid)
      ∧ b'.tenders = (if approve then b.tenders ++
          [{ txn := a.txn, base := a.base, tip := a.tip, token := a.token, path := .online, state := .approved,
             share := a.share, rangeId := a.rangeId, route := a.route }] else b.tenders)
      ∧ b'.plan = b.plan.map (if approve then setShare a.share .paid a.txn else setShare a.share .opened 0)
      ∧ b'.state = (if b'.paid = b'.due ∧ b'.reserved = 0 then .settled else .opened)
      ∧ t.events = { s.events with latches := { s.events.latches with
          billChange := some (listDetail 32 a.bill s.events.latches.billChange), authDone := some set } }
      ∧ i ∈ set

/-- R53: a reply that matches no slot awaiting one is judged by the late list: a DECLINE of a stand-in approval raises
LATE_DECLINE; every other reply is counted; an entry found leaves the list. R109: a confirm whose number no LIVE or
OUTSTANDING record holds is counted with the late replies and dropped. -/
def Obligations.LateRepliesAndStrayConfirmsAreJudged : Prop :=
  (∀ (addr : BitVec 8) (txn : BitVec 32) (disposition reason : BitVec 8) (s : State), Addressed addr s →
    awaitingSlot s txn.toNat = none → (disposition = 1 ∨ disposition = 2) →
    let found := s.decision.late.find? (fun e => e.txn == txn.toNat)
    let rest := s.decision.late.filter (fun e => e.txn ≠ txn.toNat)
    (found.map LateEntry.outcome = some .stoodIn → disposition = 2 →
      exec (.authReply addr txn disposition reason) s = .next
        { s with
          radio := radioHeard s.radio
          decision := { s.decision with late := rest }
          events := { s.events with latches := { s.events.latches with
            lateDecline := some (listDetail 8 txn.toNat s.events.latches.lateDecline) } } })
    ∧ (found.map LateEntry.outcome = some .stoodIn ∧ disposition = 1 ∨ found.map LateEntry.outcome = some .declined →
      exec (.authReply addr txn disposition reason) s = .next
        { s with
          radio := radioHeard s.radio
          decision := { s.decision with late := rest, lateDiscarded := min (s.decision.lateDiscarded + 1) 65535 } })
    ∧ (found = none →
      exec (.authReply addr txn disposition reason) s = .next
        { s with
          radio := radioHeard s.radio
          decision := { s.decision with lateDiscarded := min (s.decision.lateDiscarded + 1) 65535 } }))
  ∧ (∀ (addr : BitVec 8) (txn : BitVec 32) (disposition : BitVec 8) (s : State), Addressed addr s →
    (disposition = 1 ∨ disposition = 2) →
    (∀ loc st, findRecord s txn.toNat = some (loc, st) → st ≠ .live ∧ st ≠ .outstanding) →
    exec (.uploadConfirm addr txn disposition) s = .next
      { s with
        radio := radioHeard s.radio
        decision := { s.decision with lateDiscarded := min (s.decision.lateDiscarded + 1) 65535 } })

/-- R65, R88, R105 to R108: a confirm finishes the LIVE or OUTSTANDING record of its number: DONE with its mark pending,
a MARK asked for, an approval's exposure taken back, LATE_DECLINE for a refused approval. The Uploader goes on to
the next LIVE record when it was the one in flight, and is untouched otherwise. -/
def Obligations.UploadConfirmFinishesTheRecord : Prop :=
  ∀ (addr : BitVec 8) (txn : BitVec 32) (disposition : BitVec 8) (s : State) (loc : Loc) (st : RecordState),
    Addressed addr s → (disposition = 1 ∨ disposition = 2) → findRecord s txn.toNat = some (loc, st) →
    (st = .live ∨ st = .outstanding) →
    ∃ t r, exec (.uploadConfirm addr txn disposition) s = .next t
      ∧ ChangedOnly [.radio, .journal, .store, .tally, .events, .uploader, .uploadTimer, .arbiter] s t
      ∧ recordAt s loc = some r ∧ r.txn = txn.toNat
      ∧ t.store = { s.store with marks := s.store.marks ++ [{ loc := loc, kind := .uploaded, second := false }] }
      ∧ (r.kind = .approval → t.tally = s.tally.sub r.rangeId r.token (r.base + r.tip))
      ∧ (r.kind = .reversal → t.tally = s.tally)
      ∧ (r.kind = .approval → disposition = 2 →
          t.events = { s.events with latches := { s.events.latches with
            lateDecline := some (listDetail 8 txn.toNat s.events.latches.lateDecline) } })
      ∧ (r.kind = .reversal ∨ disposition = 1 → t.events = s.events)
      ∧ (let done := s.journal.onSlot loc (fun _ => { state := .done, markPending := true })
         ((∀ n k, s.uploader ≠ .awaitingConfirm loc n k) →
            t.journal = done ∧ t.uploader = s.uploader ∧ t.timers.upload = s.timers.upload
            ∧ t.arbiter = s.arbiter)
         ∧ (∀ n k, s.uploader = .awaitingConfirm loc n k →
            (firstLive { s with journal := done } = none →
              t.journal = done ∧ t.uploader = .idle ∧ t.timers.upload = none ∧ t.arbiter.upload = [])
            ∧ (∀ next, firstLive { s with journal := done } = some next →
              t.journal = done.onSlot next (fun x => { x with state := .outstanding })
              ∧ (∃ n', t.uploader = .awaitingConfirm next n' 1)
              ∧ t.timers.upload = some (params s).uploadRetry ∧ t.arbiter.upload.length = 1)))

/-! ### The radio transmitter -/

/-- R158 to R160: a grant takes the oldest frame of an eligible class that no eligible class outranks, by level and then
by the fixed order; with no class eligible, or while a frame is being sent, nothing is granted. The end of a
transmission frees the transmitter. -/
def Obligations.GrantTakesTheHighestLevel : Prop :=
  ∀ s : State,
    (∀ (c : TxClass) (f : Frame) (rest : List Frame), s.arbiter.sending = none → s.arbiter.queue c = f :: rest →
      0 < (params s).level c → linkAllows s.link.state c = true →
      (∀ d, s.arbiter.queue d ≠ [] → 0 < (params s).level d → linkAllows s.link.state d = true → d ≠ c →
        (params s).level d < (params s).level c ∨
          (params s).level d = (params s).level c ∧ classOrder.idxOf c < classOrder.idxOf d) →
      exec .grant s = .next { s with arbiter := { s.arbiter.setQueue c rest with sending := some f } })
    ∧ ((∀ d, s.arbiter.queue d = [] ∨ (params s).level d = 0 ∨ linkAllows s.link.state d = false) →
      exec .grant s = .next s)
    ∧ (s.arbiter.sending ≠ none → exec .grant s = .next s)
    ∧ exec .transmissionComplete s = .next { s with arbiter := { s.arbiter with sending := none } }

/-! ### Timers -/

/-- R154, R147: at a tick boundary every running timer has one boundary less to pass, a stopped one stays stopped, and
the time base counts one tick modulo a day; a timer with none left stays at 0 until its expiry is taken, a command of
its own (log 3). R149: the PRESENCE timer expiring in SEARCH announces the part and
starts again while BEACON WATCH runs, and only stops while it does not. -/
def Obligations.TickAndPresencePaceThePart : Prop :=
  (∀ s : State, s.pins.phase = .run →
    let down (t : Timer) : Timer := t.map (fun n => n - 1)
    exec .tick s = .next
      { s with
        timers :=
          { reply := s.timers.reply.map down, beaconWatch := down s.timers.beaconWatch,
            upload := down s.timers.upload, slot := down s.timers.slot, presence := down s.timers.presence }
        link := { s.link with base := s.link.base.map (fun b => { b with t := (b.t + 1) % 8640000 }) } })
  ∧ (∀ s : State, s.timers.presence = some 0 → s.link.state = .search →
    (s.timers.beaconWatch ≠ none →
      exec .presenceTimerExpiry s = .next
        { s with
          timers := { s.timers with presence := some (params s).presenceInterval }
          arbiter := { s.arbiter with
            presence := [{ tag := 0, addr := 0, payload := .presence s.link.identity }] } })
    ∧ (s.timers.beaconWatch = none →
      exec .presenceTimerExpiry s = .next { s with timers := { s.timers with presence := none } }))

/-- R52, R53, R161: the expiry of a slot's reply timer with stand-in refused ends the payment DECLINED, NO_REPLY: its
AUTH REQUEST is withdrawn, its reservation released, and its number joins the late list as DECLINED. R48, R52, R53:
the expiry of a slot's reply timer with stand-in approved makes it an offline approval under the row now in force:
STORING with the stand-in flag, its exposure added, its APPROVAL record queued (here behind one in program), its
number in the late list as STOOD_IN. -/
def Obligations.ReplyExpiryResolvesByStandIn : Prop :=
  (∀ (i : Fin 4) (s : State) (a : Auth) (b : Bill), s.timers.reply[i.val]? = some (some 0) →
    slotAt s i.val = some a → a.state = .awaitingReply → findBill s a.bill = some b →
    ((params s).standIn = 0 ∨ lookup s a.pfx = none
      ∨ ∃ row, lookup s a.pfx = some row ∧
        (row.mode = 1 ∨ a.base * (params s).tipCapPercent / 100 < a.tip
          ∨ offlineTest s row (a.base + a.tip) a.token ≠ none)) →
    ∃ t b', exec (.replyTimerExpiry i) s = .next t
      ∧ ChangedOnly [.decision, .bills, .events, .replyTimers, .arbiter] s t
      ∧ slotAt t i.val = some { a with state := .done, result := .declined, reason := .noReply }
      ∧ t.timers.reply = s.timers.reply.set i.val none
      ∧ t.arbiter = { s.arbiter with auth := s.arbiter.auth.filter (fun f => !f.isAuthOf a.txn) }
      ∧ t.decision.late =
          (if s.decision.late.length < 8 then s.decision.late else s.decision.late.drop 1)
            ++ [{ txn := a.txn, outcome := .declined }]
      ∧ findBill t a.bill = some b' ∧ b'.reserved = b.reserved - a.base ∧ b'.paid = b.paid
      ∧ b'.tenders = b.tenders ∧ (∃ set, t.events.latches.authDone = some set ∧ i.val ∈ set))
  ∧ (∀ (i : Fin 4) (s : State) (a : Auth) (row : IrtRow) (ip : InProgram), s.timers.reply[i.val]? = some (some 0) →
    slotAt s i.val = some a → a.state = .awaitingReply → s.journal.inProgram = some ip →
    (params s).standIn ≠ 0 → lookup s a.pfx = some row → (row.mode = 2 ∨ row.mode = 3) →
    a.tip ≤ a.base * (params s).tipCapPercent / 100 → offlineTest s row (a.base + a.tip) a.token = none →
    let stored : Auth :=
      { a with state := .storing, path := .offline, standIn := true, rangeId := row.rangeId, route := row.route }
    let r : JRecord :=
      { txn := a.txn, kind := .approval, rangeId := row.rangeId, route := row.route, token := a.token, base := a.base,
        tip := a.tip, bill := a.bill, place := ((findBill s a.bill).map Bill.place).getD 0,
        time := (recordTime s.link).1, standIn := true, timeUnknown := (recordTime s.link).2, original := 0 }
    exec (.replyTimerExpiry i) s = .next
      { s with
        timers := { s.timers with reply := s.timers.reply.set i.val none }
        arbiter := { s.arbiter with auth := s.arbiter.auth.filter (fun f => !f.isAuthOf a.txn) }
        decision := { s.decision with
          slots := s.decision.slots.set i.val (some stored)
          late := (if s.decision.late.length < 8 then s.decision.late else s.decision.late.drop 1)
            ++ [{ txn := a.txn, outcome := .stoodIn }] }
        tally := s.tally.add row.rangeId a.token (a.base + a.tip)
        journal := { s.journal with queue := s.journal.queue ++ [{ record := r, requester := .slot i.val }] } })

/-- R54, R111, R146, R148, R161: BEACON WATCH expiring in UP takes the link DOWN: no slot is left awaiting a reply, AUTH
and UPLOAD frames are withdrawn, the Uploader is OFF, LINK_CHANGE is raised, cell and time base are kept. In SEARCH
nothing follows. -/
def Obligations.BeaconLossTakesTheLinkDown : Prop :=
  ∀ s : State, s.timers.beaconWatch = some 0 →
    (s.link.state = .search →
      exec .beaconWatchExpiry s = .next { s with timers := { s.timers with beaconWatch := none } })
    ∧ (s.link.state = .up →
      ∃ t, exec .beaconWatchExpiry s = .next t
        ∧ ChangedOnly [.link, .replyTimers, .beaconWatch, .uploadTimer, .arbiter, .decision, .bills, .tally, .journal,
            .store, .host, .uploader, .events] s t
        ∧ t.link = { s.link with state := .down } ∧ t.timers.beaconWatch = none
        ∧ (∀ i, awaiting (slotAt t i) = false)
        ∧ t.arbiter = { s.arbiter with auth := [], upload := [] }
        ∧ t.uploader = .off ∧ t.timers.upload = none
        ∧ t.events.latches.linkChange = some
            { state := .down
              oldCell := (s.events.latches.linkChange.map LinkChangeDetail.oldCell).getD (s.link.cell.getD 0)
              newCell := s.link.cell.getD 0 })

/-- R101 to R104: the UPLOAD timer expiring with attempts left makes a new attempt, in the queued frame or a new one;
with none left it gives up into HOLDOFF with the record LIVE again; in HOLDOFF with no record LIVE it enters IDLE. -/
def Obligations.UploadExpiryRetriesThenHoldsOff : Prop :=
  ∀ (s : State) (loc : Loc) (txn attempts : Nat), s.timers.upload = some 0 →
    (s.uploader = .awaitingConfirm loc txn attempts → attempts < (params s).uploadAttempts → s.arbiter.upload = [] →
      exec .uploadTimerExpiry s = .next
        { s with
          uploader := .awaitingConfirm loc txn (attempts + 1)
          timers := { s.timers with upload := some (params s).uploadRetry }
          arbiter := { s.arbiter with upload :=
            [{ tag := BitVec.ofNat 16 txn, addr := s.link.addr,
               payload := .upload txn (s.array.readBytes loc.addr 30) (attempts + 1) }] } })
    ∧ (∀ f n record k, s.uploader = .awaitingConfirm loc txn attempts → attempts < (params s).uploadAttempts →
      s.arbiter.upload = [f] → f.payload = .upload n record k →
      exec .uploadTimerExpiry s = .next
        { s with
          uploader := .awaitingConfirm loc txn (attempts + 1)
          timers := { s.timers with upload := some (params s).uploadRetry }
          arbiter := { s.arbiter with upload := [{ f with payload := .upload n record (attempts + 1) }] } })
    ∧ (s.uploader = .awaitingConfirm loc txn attempts → (params s).uploadAttempts ≤ attempts →
      exec .uploadTimerExpiry s = .next
        { s with
          uploader := .holdoff
          timers := { s.timers with upload := some (params s).uploadHoldoff }
          arbiter := { s.arbiter with upload := [] }
          journal := s.journal.onSlot loc (fun x => { x with state := .live }) })
    ∧ (s.uploader = .holdoff → firstLive s = none →
      exec .uploadTimerExpiry s = .next { s with uploader := .idle, timers := { s.timers with upload := none } })
    ∧ (s.uploader = .holdoff → firstLive s = some loc →
      let record := s.array.readBytes loc.addr 30
      exec .uploadTimerExpiry s = .next
        { s with
          uploader := .awaitingConfirm loc (field record 0 4) 1
          timers := { s.timers with upload := some (params s).uploadRetry }
          arbiter := { s.arbiter with upload := s.arbiter.upload ++
            [{ tag := BitVec.ofNat 16 (field record 0 4), addr := s.link.addr,
               payload := .upload (field record 0 4) record 1 }] }
          journal := s.journal.onSlot loc (fun x => { x with state := .outstanding }) })

/-! ### The Store Engine -/

/-- R119, R120: the idle engine starts the record program, else the oldest mark, else, with PWRWARN deasserted, the
epoch program, the page program, the oldest journal erase, the epoch erase or the table erase. Under PWRWARN the
last kinds are withheld. A running operation is not pre-empted. -/
def Obligations.StoreEngineChoosesInOrder : Prop :=
  ∀ s : State,
    let started (op : StoreOp) (st : Store) : Host.Outcome State Fault Refusal :=
      .next { s with store := { st with running := some op } }
    (s.store.running ≠ none → exec .storeOperationStart s = .next s)
    ∧ (s.store.running = none →
      (∀ loc bytes, s.store.recordPlace = some (loc, bytes) →
        exec .storeOperationStart s = started (.recordProgram loc bytes) { s.store with recordPlace := none })
      ∧ (s.store.recordPlace = none →
        (∀ r rest, s.store.marks = r :: rest →
          exec .storeOperationStart s = started (.mark r) { s.store with marks := rest })
        ∧ (s.store.marks = [] → s.pins.pwrwarn = .asserted → exec .storeOperationStart s = .next s)
        ∧ (s.store.marks = [] → s.pins.pwrwarn = .deasserted →
          (∀ w e, s.store.epochPlace = some (w, e) →
            exec .storeOperationStart s = started (.epochProgram w e) { s.store with epochPlace := none })
          ∧ (s.store.epochPlace = none →
            (∀ r, s.store.pagePlace = some r →
              exec .storeOperationStart s = started (.pageProgram r) { s.store with pagePlace := none })
            ∧ (s.store.pagePlace = none →
              (∀ r before after, s.store.erases = before ++ r :: after → r.isJournal = true →
                (∀ q ∈ before, q.isJournal = false) →
                exec .storeOperationStart s = started (.blockErase r) { s.store with erases := before ++ after })
              ∧ (∀ r before after, s.store.erases = before ++ r :: after → r.target = .epoch →
                (∀ q ∈ s.store.erases, q.isJournal = false) → (∀ q ∈ before, q.target ≠ .epoch) →
                exec .storeOperationStart s = started (.blockErase r) { s.store with erases := before ++ after })
              ∧ (∀ r rest t, s.store.erases = r :: rest → r.target = .table t →
                (∀ q ∈ rest, q.isJournal = false ∧ q.target ≠ .epoch) →
                exec .storeOperationStart s = started (.blockErase r) { s.store with erases := rest })
              ∧ (s.store.erases = [] → exec .storeOperationStart s = .next s))))))

/-- R49, R81, R22, R99, R125: a record program whose read-back matched makes its record LIVE and its payment
APPROVED_OFFLINE with a tender on its bill; the result is kept for report. Here nothing is queued behind it and the
Uploader is not IDLE. -/
def Obligations.RecordStoredApprovesThePayment : Prop :=
  ∀ (e : ArrayEnd) (s : State) (loc : Loc) (bytes : List Byte) (r : JRecord) (retry : Bool) (i : Nat) (a : Auth)
    (b : Bill),
    s.store.running = some (.recordProgram loc bytes) → loc.block < 4 → loc.slot < 128 → bytes.length ≤ 32 →
    (s.array.program loc.addr bytes e).2 = true →
    s.journal.inProgram = some { loc := loc, entry := { record := r, requester := .slot i }, retry := retry } →
    s.journal.queue = [] → s.uploader ≠ .idle → slotAt s i = some a → findBill s a.bill = some b →
    ∃ t b' set, exec (.recordProgramComplete e) s = .next t
      ∧ ChangedOnly [.array, .store, .journal, .decision, .bills, .events] s t
      ∧ t.array = (s.array.program loc.addr bytes e).1
      ∧ t.store = { s.store with
          running := none, lastRecord := some .success, prevRecord := s.store.lastRecord }
      ∧ t.journal = { s.journal.onSlot loc (fun x => { x with state := .live }) with inProgram := none }
      ∧ t.decision = { s.decision with slots := s.decision.slots.set i (some
          { a with state := .done, result := .approvedOffline, reason := .none }) }
      ∧ findBill t a.bill = some b'
      ∧ b'.reserved = b.reserved - a.base ∧ b'.paid = b.paid + a.base
      ∧ b'.tenders = b.tenders ++
          [{ txn := a.txn, base := a.base, tip := a.tip, token := a.token, path := .offline, state := .approved,
             share := a.share, rangeId := a.rangeId, route := a.route }]
      ∧ t.events = { s.events with latches := { s.events.latches with
          billChange := some (listDetail 32 a.bill s.events.latches.billChange), authDone := some set } }
      ∧ i ∈ set

/-- R82, R64, R49, R126: a record's first failed program leaves its slot BAD, raises STORE_FAULT and is retried at the
write position before anything queued; the second ends the payment DECLINED, STORE_FAULT, and takes its exposure
back. -/
def Obligations.FailedRecordIsRetriedOnce : Prop :=
  ∀ (e : ArrayEnd) (s : State) (loc : Loc) (bytes : List Byte) (entry : QueuedRecord),
    s.store.running = some (.recordProgram loc bytes) → loc.block < 4 → loc.slot < 128 → bytes.length ≤ 32 →
    (s.array.program loc.addr bytes e).2 = false →
    (∀ loc', s.journal.inProgram = some { loc := loc, entry := entry, retry := false } →
      s.journal.writeAt = some loc' →
      ∃ t, exec (.recordProgramComplete e) s = .next t
        ∧ ChangedOnly [.array, .store, .journal, .events] s t
        ∧ t.store.running = none ∧ t.store.lastRecord = some .fail ∧ t.store.prevRecord = s.store.lastRecord
        ∧ t.store.recordPlace = some (loc', encodeRecord entry.record)
        ∧ t.store.programFailures = min (s.store.programFailures + 1) 65535
        ∧ t.store.storeFaults = min (s.store.storeFaults + 1) 65535
        ∧ t.journal.inProgram = some { loc := loc', entry := entry, retry := true }
        ∧ t.journal.queue = s.journal.queue
        ∧ (loc ≠ loc' → (recordSlotAt t loc).state = (if loc.block < s.journal.blocks.length ∧
            loc.slot < (blockAt s loc.block).slots.length then .bad else .free))
        ∧ (t.events.latches.storeFault.map StoreFaultDetail.kind) = some .recordProgram)
    ∧ (∀ i a b, s.journal.inProgram = some { loc := loc, entry := entry, retry := true } →
      entry.requester = .slot i → entry.record.kind = .approval → s.journal.queue = [] → slotAt s i = some a →
      findBill s a.bill = some b →
      ∃ t b', exec (.recordProgramComplete e) s = .next t
        ∧ ChangedOnly [.array, .store, .journal, .decision, .bills, .tally, .events] s t
        ∧ slotAt t i = some { a with state := .done, result := .declined, reason := .storeFault }
        ∧ t.tally = s.tally.sub entry.record.rangeId entry.record.token (entry.record.base + entry.record.tip)
        ∧ findBill t a.bill = some b' ∧ b'.reserved = b.reserved - a.base ∧ b'.paid = b.paid
        ∧ b'.tenders = b.tenders ∧ t.journal.inProgram = none
        ∧ t.store.lastRecord = some .fail ∧ t.store.storeFaults = min (s.store.storeFaults + 1) 65535)

/-- R88, R34: a mark that programs clears its slot's mark pending flag; a first failure asks for it again at the end of
the mark list; a second raises STORE_FAULT, kind MARK, and clears the flag. The VOID that waits for it is answered
OK with reversal 0 in both last cases. The record's state is kept. R117: a first failure leaves in the array what the
write reached. R69: after a second the record reads without the mark, its byte erased (log 40). -/
def Obligations.MarkIsRetriedOnce : Prop :=
  ∀ (e : ArrayEnd) (s : State) (r : MarkRequest), s.store.running = some (.mark r) → r.loc.block < 4 →
    r.loc.slot < 128 →
    let ok := (s.array.program (markAddr r.loc r.kind) [0x00] e).2
    (ok = false → r.second = false →
      exec (.markComplete e) s = .next
        { s with
          array := (s.array.program (markAddr r.loc r.kind) [0x00] e).1
          store := { s.store with
            running := none
            marks := s.store.marks ++ [{ r with second := true }]
            programFailures := min (s.store.programFailures + 1) 65535 } })
    ∧ (ok = true ∨ r.second = true →
      ∃ t, exec (.markComplete e) s = .next t
        ∧ ChangedOnly [.array, .store, .journal, .host, .events] s t
        ∧ t.store.marks = s.store.marks ∧ t.store.running = none
        ∧ (ok = true → t.array = (s.array.program (markAddr r.loc r.kind) [0x00] e).1)
        ∧ (ok = false →
            t.array = (s.array.program (markAddr r.loc r.kind) [0x00] e).1.write (markAddr r.loc r.kind) 0xFF)
        ∧ recordSlotAt t r.loc = { recordSlotAt s r.loc with markPending := false }
        ∧ (ok = true → t.events = s.events)
        ∧ (ok = false → (t.events.latches.storeFault.map StoreFaultDetail.kind) = some .mark)
        ∧ (s.host.voidJob = none → t.host = s.host)
        ∧ (∀ job, s.host.voidJob = some job → job.path = .mark r.loc → r.kind = .voided →
            t.host = { s.host with
              voidJob := none
              replies := s.host.replies ++
                [{ code := 0x06, tag := job.tag, body := .voided 0, ofRequest := true }] }))

/-- R42, R95, R96, R122: the epoch program that ends the start-up scan gives the Decision Unit its epoch with sequence
0, latches READY with it and opens the ports; one that ends a wrap ends exhaustion; a first failure is tried again
at the next word; a second raises STORE_FAULT, kind EPOCH. -/
def Obligations.EpochProgramEndsTheUpdate : Prop :=
  ∀ (e : ArrayEnd) (s : State) (w epoch : Nat) (u : EpochUpdate),
    s.store.running = some (.epochProgram w epoch) → w < 64 → s.store.update = some u →
    let ok := (s.array.program (epochWordAddr w) (encodeEpochWord epoch) e).2
    let array := (s.array.program (epochWordAddr w) (encodeEpochWord epoch) e).1
    (ok = true → u.startUp = true →
      ∃ t, exec (.epochProgramComplete e) s = .next t
        ∧ ChangedOnly [.array, .store, .journal, .decision, .events, .pins] s t
        ∧ t.array = array ∧ t.pins = { s.pins with phase := .run }
        ∧ t.decision = { s.decision with epoch := u.epoch, seq := 0, exhausted := false }
        ∧ t.events.latches.ready = some u.epoch ∧ t.store.update = none ∧ t.store.running = none)
    ∧ (ok = true → u.startUp = false →
      exec (.epochProgramComplete e) s = .next
        { s with
          array := array
          store := { s.store with running := none, update := none }
          decision := { s.decision with exhausted := false } })
    ∧ (ok = false → u.retry = false → s.store.epochAt < 64 →
      exec (.epochProgramComplete e) s = .next
        { s with
          array := array
          store := { s.store with
            running := none
            programFailures := min (s.store.programFailures + 1) 65535
            update := some { u with retry := true }
            epochPlace := some (s.store.epochAt, u.epoch)
            epochAt := s.store.epochAt + 1 } })
    ∧ (ok = false → u.retry = true → u.startUp = false →
      ∃ t, exec (.epochProgramComplete e) s = .next t
        ∧ ChangedOnly [.array, .store, .events] s t
        ∧ t.store.update = none
        ∧ (t.events.latches.storeFault.map StoreFaultDetail.kind) = some .epoch)
    ∧ (ok = false → u.retry = true → u.startUp = true →
      ∃ t, exec (.epochProgramComplete e) s = .next t
        ∧ ChangedOnly [.array, .store, .journal, .decision, .events, .pins] s t
        ∧ t.decision.exhausted = true ∧ t.events.latches.ready = some 65535 ∧ t.pins = { s.pins with phase := .run }
        ∧ (tornCount s = 0 → (t.events.latches.storeFault.map StoreFaultDetail.kind) = some .epoch)
        ∧ (0 < tornCount s → (t.events.latches.storeFault.map StoreFaultDetail.kind) = some .torn))

/-- R133, R134, R135, R137, R7, R141: a page program's end empties the buffer of a session in ROWS, or breaks the
session with STORE_FAULT, and frees a draining loader. In a close it is followed, after the buffer's page or the last,
by the header's program, before which the Profile's COUNT and CHECK are judged; after the header, by the verification,
which gives VALID with TABLE_CHANGE, or INVALID with its condition and row index; and a failure, or a session that was
broken, ends the close INVALID. The header's bytes are the model's layout (log 8); so is row index 0 for NONE, COUNT,
CHECK and READBACK, which no row fails (log 23). R6: the rows present at start-up are the row places written before the
first erased one; the verification gives NONE exactly when no condition fails, and else the first condition that fails,
in their order, with the first row index at which it fails. -/
def Obligations.PageProgramMovesTheLoadOn : Prop :=
  (∀ (m : Mem),
    irtPresent m ≤ 200 ∧ (irtPresent m < 200 → m.erasedRange (irtRowAddr (irtPresent m)) 24 = true)
    ∧ ∀ i < irtPresent m, m.erasedRange (irtRowAddr i) 24 = false)
  ∧ (∀ (m : Mem) (h : IrtHeader) (present : Nat) (k : Condition) (i : Nat),
    verifyIrt m h present = (k, i) ↔
      (k = .none ∧ i = 0 ∧ ∀ c j, ¬ irtFails m h present c j)
      ∨ (irtFails m h present k i ∧ (∀ j < i, ¬ irtFails m h present k j)
        ∧ ∀ c j, c.code < k.code → ¬ irtFails m h present c j))
  ∧ ∀ (e : ArrayEnd) (s : State) (r : PageRequest), s.store.running = some (.pageProgram r) →
    r.bytes.length ≤ 256 → (r.page + 1) * 256 ≤ r.table.bytes →
    let ok := (s.array.program (r.table.base + r.page * 256) r.bytes e).2
    let array := (s.array.program (r.table.base + r.page * 256) r.bytes e).1
    let ended : State := { s with array := array, store := { s.store with running := none } }
    let faulted (t : State) : Prop :=
      t.array = array ∧ t.store.running = none
      ∧ t.store.programFailures = min (s.store.programFailures + 1) 65535
      ∧ t.store.storeFaults = min (s.store.storeFaults + 1) 65535
      ∧ (t.events.latches.storeFault.map StoreFaultDetail.kind) = some .pageProgram
    let changed (name : TableName) (g : Nat) : Events :=
      { s.events with latches := { s.events.latches with
        tableChange := some
          { irt := if name = .irt then some g else s.events.latches.tableChange.bind TableChangeDetail.irt
            profile :=
              if name = .profile then some g else s.events.latches.tableChange.bind TableChangeDetail.profile } } }
    (∀ se, ok = true → s.loader.phase = .rows → s.loader.session = some se →
      exec (.pageProgramComplete e) s = .next
        { ended with loader := { s.loader with session := some { se with buffer := [], bufferBusy := false } } })
    ∧ (∀ se, ok = false → s.loader.phase = .rows → s.loader.session = some se →
      ∃ t, exec (.pageProgramComplete e) s = .next t
        ∧ ChangedOnly [.array, .store, .loader, .events] s t ∧ faulted t
        ∧ t.loader = { s.loader with
            session := some { se with
              buffer := [], bufferBusy := false, broken := .storeFault, breakIndex := se.received } })
    ∧ (∀ x, ok = true → s.loader.phase = .draining x →
      exec (.pageProgramComplete e) s = .next { ended with loader := { s.loader with phase := .idle } })
    ∧ (∀ se c, s.loader.phase = .closing → s.loader.session = some se → s.loader.close = some c →
      let headed (bytes : List Byte) : State :=
        { ended with
          loader := { s.loader with
            session := some { se with buffer := [], bufferBusy := false }, close := some { c with step := .header } }
          store := { s.store with
            running := none, pagePlace := some { table := se.table, page := 0, bytes := bytes } } }
      let bodyDone : Prop := ok = true ∧ (c.step = .awaitingBuffer ∧ se.broken = .no ∨ c.step = .lastPage)
      let sound : Prop := c.rows = 1 ∧ se.received = 1 ∧ c.check = se.check
      (bodyDone → se.table = .irt →
        exec (.pageProgramComplete e) s = .next (headed (encodeIrtHeader
          { generation := se.generation, rows := c.rows, readable := c.readable, check := c.check })))
      ∧ (bodyDone → se.table = .profile → sound →
        exec (.pageProgramComplete e) s = .next (headed (encodeProfileHeader
          { generation := se.generation, records := 1, check := checkValue (array.readBytes profileRecordAddr 21) })))
      ∧ ∀ cmd, s.arbiter.gate = .inProgress cmd → radioAddr cmd ≠ 255 →
        let idle : Loader := { s.loader with phase := .idle, session := none, close := none }
        let opened (body : Reply) : Arbiter :=
          { mgmtAnswered s.arbiter s.link.addr (commandCode cmd) (mgmtTag cmd) body with gate := .empty }
        let invalid (k : Condition) (i : Nat) : State :=
          { ended with
            loader := idle
            irt :=
              if se.table = .irt then
                { state := .invalid, generation := se.generation, readable := false, mirror := [] }
              else s.irt
            profile :=
              if se.table = .profile then { state := .invalid, generation := se.generation, values := .defaults }
              else s.profile
            arbiter := opened (.closed false k i se.generation) }
        (bodyDone → se.table = .profile → ¬ sound →
          exec (.pageProgramComplete e) s = .next
            (invalid (if c.rows = 1 ∧ se.received = 1 then .check else .count) 0))
        ∧ (ok = true → c.step = .awaitingBuffer → se.broken ≠ .no →
          exec (.pageProgramComplete e) s = .next
            (invalid (if se.broken = .sequence then .sequence else .storeFault) se.breakIndex))
        ∧ (ok = false →
          ∃ t, exec (.pageProgramComplete e) s = .next t
            ∧ ChangedOnly [.array, .store, .loader, .irt, .profile, .arbiter, .events] s t ∧ faulted t
            ∧ t.loader = idle ∧ tableState t se.table = .invalid ∧ tableGeneration t se.table = se.generation
            ∧ t.arbiter = opened
                (.closed false .storeFault (if c.step = .awaitingBuffer then se.received else 0) se.generation))
        ∧ (∀ h, ok = true → c.step = .header → se.table = .irt → decodeIrtHeader (array.readBytes irtBase 9) = some h →
          let judged := verifyIrt array h se.received
          (judged.1 = .none →
            exec (.pageProgramComplete e) s = .next
              { ended with
                loader := idle
                irt := { state := .valid, generation := h.generation, readable := h.readable,
                         mirror := (irtImage array h.rows).map decodeRow }
                arbiter := opened (.closed true .none 0 h.generation)
                events := changed .irt h.generation })
          ∧ (judged.1 ≠ .none → exec (.pageProgramComplete e) s = .next (invalid judged.1 judged.2)))
        ∧ (∀ h, ok = true → c.step = .header → se.table = .profile →
          decodeProfileHeader (array.readBytes profileBase 8) = some h →
          let record := array.readBytes profileRecordAddr 21
          let low : Bool := s.journal.freeSpace < (decodeProfile record).journalLow
          (checkValue record = h.check →
            ∃ t, exec (.pageProgramComplete e) s = .next t
              ∧ ChangedOnly [.array, .store, .loader, .profile, .journal, .arbiter, .events] s t
              ∧ t.array = array ∧ t.store = ended.store ∧ t.loader = idle
              ∧ t.profile = { state := .valid, generation := h.generation, values := decodeProfile record }
              ∧ t.journal = { s.journal with lowFlag := low }
              ∧ t.arbiter = opened (.closed true .none 0 h.generation)
              ∧ t.events =
                { changed .profile h.generation with latches :=
                  { (changed .profile h.generation).latches with
                    journalLow :=
                      if low = true ∧ s.journal.lowFlag = false then some s.journal.freeSpace
                      else s.events.latches.journalLow } })
          ∧ (checkValue record ≠ h.check → exec (.pageProgramComplete e) s = .next (invalid .readback 0))))

/-- R91, R131, R122: the end of a block erase: a journal block becomes ERASED and, when none is FILLING, is filled next;
a first failure is asked for again and a second retires the block; a table's opens ROWS or ends the session with the
table INVALID; the epoch block's is followed by the update's program. -/
def Obligations.BlockEraseIsHandedOn : Prop :=
  ∀ (e : ArrayEnd) (s : State) (r : EraseRequest), s.store.running = some (.blockErase r) →
    let ok := (s.array.erase r.target.base r.target.bytes e).2
    let array := (s.array.erase r.target.base r.target.bytes e).1
    let failed : Store := { s.store with running := none, eraseFailures := min (s.store.eraseFailures + 1) 65535 }
    (∀ b, r.target = .journal b → b < 4 → ok = true →
      ∃ t, exec (.blockEraseComplete e) s = .next t
        ∧ ChangedOnly [.array, .store, .journal, .events] s t
        ∧ t.array = array ∧ t.store = { s.store with running := none }
        ∧ (∀ w, s.journal.writeAt = some w → t.journal.writeAt = some w ∧ t.journal.order = s.journal.order
            ∧ (b < s.journal.blocks.length → blockAt t b = JBlock.erased))
        ∧ (s.journal.writeAt = none → t.journal.writeAt = some { block := b, slot := 0 }
            ∧ t.journal.order = s.journal.order ++ [b]
            ∧ (b < s.journal.blocks.length → blockAt t b = { JBlock.erased with state := .filling })))
    ∧ (∀ b, r.target = .journal b → b < 4 → ok = false → r.second = false →
      exec (.blockEraseComplete e) s = .next
        { s with
          array := array
          store := { failed with erases := s.store.erases ++ [{ target := .journal b, second := true }] } })
    ∧ (∀ b, r.target = .journal b → b < 4 → ok = false → r.second = true →
      ∃ t, exec (.blockEraseComplete e) s = .next t
        ∧ ChangedOnly [.array, .store, .journal, .events] s t
        ∧ t.journal = s.journal.onBlock b (fun x => { x with state := .retired })
        ∧ (t.events.latches.storeFault.map StoreFaultDetail.kind) = some .blockErase)
    ∧ (∀ name se cmd, r.target = .table name → s.loader.phase = .opening → s.loader.session = some se →
      s.arbiter.gate = .inProgress cmd → radioAddr cmd ≠ 255 →
      let opened (body : Reply) : Arbiter :=
        { mgmtAnswered s.arbiter s.link.addr (commandCode cmd) (mgmtTag cmd) body with gate := .empty }
      (ok = true →
        exec (.blockEraseComplete e) s = .next
          { s with
            array := array
            store := { s.store with running := none }
            loader := { s.loader with phase := .rows }
            arbiter := opened (.loadOpened se.table se.generation) })
      ∧ (ok = false →
        ∃ t, exec (.blockEraseComplete e) s = .next t
          ∧ ChangedOnly [.array, .store, .loader, .irt, .profile, .arbiter, .events] s t
          ∧ t.loader = { s.loader with phase := .idle, session := none, close := none }
          ∧ tableState t se.table = .invalid ∧ tableGeneration t se.table = se.generation
          ∧ t.arbiter = opened (.plain .storeFault)
          ∧ (t.events.latches.storeFault.map StoreFaultDetail.kind) = some .tableErase))
    ∧ (∀ u, r.target = .epoch → s.store.update = some u → ok = true →
      exec (.blockEraseComplete e) s = .next
        { s with
          array := array
          store := { s.store with running := none, epochPlace := some (0, u.epoch), epochAt := 1 } })

/-- R118, R116, R126: an operation stopped at its time limit leaves in the array what it reached, is counted as a
failure and as a time-limit failure, and its requester is told TIME_LIMIT whatever a read-back would have found. The
second MARK of a byte, stopped, leaves its record without the mark, its byte erased (R69; log 40). The model's own
(log 29): the end of an operation whose target lies outside the array is the fault `outsideArray`. -/
def Obligations.TimeLimitIsAFailure : Prop :=
  (∀ (e : ArrayEnd) (s : State) (op : StoreOp), s.store.running = some op → op.targetExists = true →
    exec (.operationTimeLimit e) s = .next (handCompletion op .timeLimit
      { s with
        array := match op with
          | .mark { loc, kind, second := true } => (op.apply s.array e).1.write (markAddr loc kind) 0xFF
          | _ => (op.apply s.array e).1
        store := { s.store with
          running := none
          timeLimitFailures := min (s.store.timeLimitFailures + 1) 65535
          programFailures :=
            if op.kind = .blockErase then s.store.programFailures else min (s.store.programFailures + 1) 65535
          eraseFailures :=
            if op.kind = .blockErase then min (s.store.eraseFailures + 1) 65535 else s.store.eraseFailures } }))
  ∧ (∀ (e : ArrayEnd) (s : State) (op : StoreOp), s.store.running = some op → op.targetExists = false →
    exec (.operationTimeLimit e) s = .fault .outsideArray ∧ exec (.lossOfPower e) s = .fault .outsideArray
    ∧ exec (.powerOn e) s = .fault .outsideArray ∧ exec (.resetnAssert e) s = .fault .outsideArray)

/-- R115, R116, R117: an operation leaves every byte outside its target as it was; a program that succeeds leaves its
bytes as asked for, and an erase erased bytes. R117: a program over a byte that is neither erased nor already right
only moves it toward the byte asked for, bit by bit (log 9), and never gets there. R13, R124: an operation that a
reset cuts short changes nothing outside its record slot, mark byte, word, page or block. A record program (R97) and a
mark (R75) leave there what the stopped write reached; an epoch word's and an epoch block's leave no valid word, a
header's and a table block's no intact header. R91, R93: an erase of a journal block leaves in each record slot what
it reached, but a slot that it changed does not come to read LIVE: such a one is left erased (log 9). R115: only the
end or the cutting short of a store operation changes the nonvolatile array. -/
def Obligations.ArrayChangesOnlyAtItsTargets : Prop :=
  (∀ (m : Mem) (op : StoreOp) (e : ArrayEnd), m.wf = true →
    (∀ a, (a < (extent op).1 ∨ (extent op).1 + (extent op).2 ≤ a) → (op.apply m e).1.read a = m.read a)
    ∧ ((op.apply m e).2 = true →
      (∀ loc bytes, op = .recordProgram loc bytes → (op.apply m e).1.readBytes loc.addr bytes.length = bytes)
      ∧ (∀ r, op = .mark r → (op.apply m e).1.read (markAddr r.loc r.kind) = 0x00)
      ∧ (∀ w k, op = .epochProgram w k → (op.apply m e).1.readBytes (epochWordAddr w) 4 = encodeEpochWord k)
      ∧ (∀ r, op = .pageProgram r →
        (op.apply m e).1.readBytes (r.table.base + r.page * 256) r.bytes.length = r.bytes)
      ∧ (∀ r, op = .blockErase r → ∀ a, r.target.base ≤ a → a < r.target.base + r.target.bytes →
        (op.apply m e).1.read a = 0xFF)))
  ∧ (∀ (m : Mem) (a i : Nat) (bytes : List Byte) (asked : Byte) (e : ArrayEnd), m.wf = true → bytes[i]? = some asked →
    let old := m.read (a + i)
    let new := (m.program a bytes e).1.read (a + i)
    (old = asked → new = asked)
    ∧ (old ≠ asked → old ≠ 0xFF →
      new ≠ asked ∧ new ≠ 0xFF ∧ ∀ k, new.getLsbD k = old.getLsbD k ∨ new.getLsbD k = asked.getLsbD k))
  ∧ (∀ (m : Mem) (op : StoreOp) (e : ArrayEnd), m.wf = true → op.targetExists = true →
    (∀ a, (a < (target op).1 ∨ (target op).1 + (target op).2 ≤ a) → (op.cut m e).read a = m.read a)
    ∧ (∀ loc bytes, op = .recordProgram loc bytes → op.cut m e = (op.apply m e).1)
    ∧ (∀ r, op = .mark r → op.cut m e = (op.apply m e).1)
    ∧ (∀ w k, op = .epochProgram w k → decodeEpochWord ((op.cut m e).readBytes (epochWordAddr w) 4) = none)
    ∧ (∀ r, op = .pageProgram r → r.page = 0 →
      headerIntact (op.cut m e) r.table = false ∧ (op.cut m e).erasedRange r.table.base r.table.bytes = false)
    ∧ (∀ r t, op = .blockErase r → r.target = .table t → headerIntact (op.cut m e) t = false)
    ∧ (∀ r b i, op = .blockErase r → r.target = .journal b → i < 128 →
      let slot (x : Mem) : List Byte := x.readBytes (b * 4096 + i * 32) 32
      let reached := slot (op.apply m e).1
      slot (op.cut m e) =
        if recordValid reached ∧ markedState reached = .live ∧ reached ≠ slot m then List.replicate 32 0xFF
        else reached)
    ∧ (∀ r w, op = .blockErase r → r.target = .epoch → w < 64 →
      decodeEpochWord ((op.cut m e).readBytes (epochWordAddr w) 4) = none))
  ∧ (∀ (c : Instr) (s t : State), exec c s = .next t → endsStoreOperation c = false → t.array = s.array)

/-! ### Supply and reset -/

/-- R120, R171: a change of PWRWARN takes the line's level and raises POWER_WARN with it once the part has left reset; a
level the line already has is no change (log 2). R38, R57, R72, R97, R114, R124, R127, R142, R156, R167, R180: the loss
of supply and the assertion of RESETN stop the running operation where it stands and lose everything volatile; the
array keeps what the operation, cut short, left, as the model narrows it (log 9). The model's own (log 17): until the
scan recovers the epoch, the Decision Unit holds epoch 0 and the exhausted mark. -/
def Obligations.ResetAndPwrwarnActOnThePart : Prop :=
  (∀ (level : Line) (s : State),
    (level ≠ s.pins.pwrwarn → s.pins.phase = .run ∨ s.pins.phase = .scan →
      exec (.pwrwarnChange level) s = .next
        { s with
          pins := { s.pins with pwrwarn := level }
          events := { s.events with latches := { s.events.latches with powerWarn := some level } } })
    ∧ (level = s.pins.pwrwarn → exec (.pwrwarnChange level) s = .next s))
  ∧ (∀ (e : ArrayEnd) (s : State), (∀ op, s.store.running = some op → op.targetExists = true) →
    let left : Mem := match s.store.running with
      | some op => op.cut s.array e
      | none => s.array
    (∃ t, exec (.lossOfPower e) s = .next t ∧ VolatileCleared s t ∧ t.array = left
      ∧ t.pins = { s.pins with phase := .off })
    ∧ (s.pins.phase = .run ∨ s.pins.phase = .scan →
      ∃ t, exec (.resetnAssert e) s = .next t ∧ VolatileCleared s t ∧ t.array = left
        ∧ t.pins = { s.pins with phase := .held, resetn := .asserted }))

/-- R12, R92 to R96: a factory-new part whose supply comes, or whose RESETN is released, begins its scan with nothing
held and the epoch program of epoch 1 waiting in word 0, with POWER_WARN raised when the line is asserted. R95, R96,
R41: whatever the array holds, a part that starts its scan is either waiting for the epoch program of an epoch above
every epoch the array holds, with its ports closed, or has ended its scan exhausted. R12, R137: each table is EMPTY,
INVALID or VALID by its image (the header's layout: log 8; the image decides alone: log 37). The model's own (log
17): the exhausted mark and the epoch held during the scan, and epoch 65,535 in a part that starts exhausted. R92: each
record slot has the state its bytes read, TORN for an earlier twin. R93: the block order and the write position follow
from the newest block. R68: the tallies count the LIVE approvals. -/
def Obligations.StartUpNeverReusesAnEpoch : Prop :=
  (∀ s : State, s.array = [] →
    (s.store.running = none → s.pins.resetn = .deasserted →
      exec (.powerOn .whole) s = .next (erasedPartScan s s.pins))
    ∧ (s.pins.phase = .held →
      exec .resetnRelease s = .next (erasedPartScan s { s.pins with resetn := .deasserted })))
  ∧ (∀ (c : Instr) (s : State),
    (∃ e, c = .powerOn e ∧ s.store.running = none ∧ s.pins.resetn = .deasserted)
      ∨ c = .resetnRelease ∧ s.pins.phase = .held →
    let m := s.array
    let number (b i : Nat) : Nat := field (m.readBytes (b * 4096 + i * 32) 32) 0 4
    let valid (b i : Nat) : Prop := b < 4 ∧ i < 128 ∧ recordValid (m.readBytes (b * 4096 + i * 32) 32) = true
    ∃ t, exec c s = .next t ∧ t.array = m
      ∧ (t.pins.phase = .scan ∧ t.decision.exhausted = true
          ∧ (∃ k, t.store.update = some { epoch := k + 1, retry := false, startUp := true }
            ∧ k + 1 ≤ 65535 ∧ (∀ x ∈ wordEpochs m, x ≤ k) ∧ (∀ x ∈ recordEpochs m, x ≤ k))
        ∨ t.pins.phase = .run ∧ t.decision.exhausted = true ∧ t.events.latches.ready = some 65535)
      ∧ (m.erasedRange irtBase irtBytes = true →
          t.irt = { state := .empty, generation := 0, readable := false, mirror := [] })
      ∧ (m.erasedRange irtBase irtBytes = false → decodeIrtHeader (m.readBytes irtBase 9) = none →
          t.irt = { state := .invalid, generation := 0, readable := false, mirror := [] })
      ∧ (∀ h, m.erasedRange irtBase irtBytes = false → decodeIrtHeader (m.readBytes irtBase 9) = some h →
          ((verifyIrt m h (irtPresent m)).1 = .none →
            t.irt = { state := .valid, generation := h.generation, readable := h.readable,
                      mirror := (irtImage m h.rows).map decodeRow })
          ∧ ((verifyIrt m h (irtPresent m)).1 ≠ .none →
            t.irt = { state := .invalid, generation := h.generation, readable := false, mirror := [] }))
      ∧ (m.erasedRange profileBase profileBlockBytes = true →
          t.profile = { state := .empty, generation := 0, values := .defaults })
      ∧ (m.erasedRange profileBase profileBlockBytes = false →
          decodeProfileHeader (m.readBytes profileBase 8) = none →
          t.profile = { state := .invalid, generation := 0, values := .defaults })
      ∧ (∀ h, m.erasedRange profileBase profileBlockBytes = false →
          decodeProfileHeader (m.readBytes profileBase 8) = some h →
          let record := m.readBytes profileRecordAddr 21
          t.profile =
            if checkValue record = h.check then
              { state := .valid, generation := h.generation, values := decodeProfile record }
            else { state := .invalid, generation := h.generation, values := .defaults })
      ∧ (∀ b i, b < 4 → i < 128 →
          let read : RecordState := (recordSlotAt t { block := b, slot := i }).state
          let erased (k : Nat) : Bool := m.erasedRange (b * 4096 + k * 32) 32
          (¬ valid b i → erased i = false → read = .torn)
          ∧ (valid b i → read = markedState (m.readBytes (b * 4096 + i * 32) 32)
              ∨ read = .torn ∧ ∃ b' i', valid b' i' ∧ ¬ (b' = b ∧ i' = i) ∧ number b' i' = number b i)
          ∧ (erased i = true → read = .unused ∨ read = .free)
          ∧ (erased i = true → (∃ k, i < k ∧ k < 128 ∧ erased k = false) → read = .unused))
      ∧ (∀ n i k, t.pins.phase = .scan → valid n i → 1 ≤ k → k ≤ 128 →
          (∀ b' i', valid b' i' → number b' i' ≤ number n i ∧ (number b' i' = number n i → b' = n)) →
          m.erasedRange (n * 4096 + k * 32) (4096 - k * 32) = true →
          m.erasedRange (n * 4096 + (k - 1) * 32) 32 = false →
          let written : List Nat :=
            [(n + 1) % 4, (n + 2) % 4, (n + 3) % 4, n].filter (fun b => !m.erasedRange (b * 4096) 4096)
          (k < 128 → t.journal.order = written ∧ t.journal.writeAt = some { block := n, slot := k })
          ∧ (k = 128 →
            match [(n + 1) % 4, (n + 2) % 4, (n + 3) % 4].find? (fun b => m.erasedRange (b * 4096) 4096) with
            | some b => t.journal.order = written ++ [b] ∧ t.journal.writeAt = some { block := b, slot := 0 }
            | none => t.journal.order = written ∧ t.journal.writeAt = none))
      ∧ (let live : List JRecord := (orderedSlots t).filterMap (fun p =>
           if p.2.state = .live then (recordAt t p.1).filter (fun r => r.kind == .approval) else none)
         (∀ id, t.tally.sumOf id = ((live.filter (fun r => r.rangeId == id)).map (fun r => r.base + r.tip)).sum)
         ∧ (∀ token, t.tally.countOf token = (live.filter (fun r => r.token == token)).length)))

/-- The array's canonical form (log 7) is kept by every step. -/
def Obligations.EveryStepKeepsTheArrayCanonical : Prop :=
  ∀ s t : State, ArrayCanonical s → step s = .next t → ArrayCanonical t

/-- R143: every step keeps the link UP exactly while the part holds an address and BEACON WATCH runs, and in SEARCH
exactly while it holds none. -/
def Obligations.EveryStepKeepsTheLinkConsistent : Prop :=
  ∀ s t : State, LinkConsistent s → step s = .next t → LinkConsistent t

/-- The state right after reset meets the invariants that every step keeps. -/
def Obligations.ResetMeetsTheInvariants : Prop :=
  ArrayCanonical State.reset ∧ LinkConsistent State.reset

/-! ### Formats -/

/-- R181 to R183: the bytes of any frame, stuffed and between flags, come back from the receive assembler as one frame
with its kind, address, tag and payload, and pass the check. -/
def Obligations.StuffedFramesComeBack : Prop :=
  ∀ (kind addr : Nat) (tag : BitVec 16) (payload : List Byte), kind < 256 → addr < 256 → payload.length ≤ 200 →
    asmRun .hunting (wire kind addr tag payload) =
      (.collecting [] false, [.ended (frameBytes kind addr tag payload)])
    ∧ frameSound (frameBytes kind addr tag payload) = true
    ∧ frameParts (frameBytes kind addr tag payload) = (kind, BitVec.ofNat 8 addr, tag, payload)

/-- R74, R186, R75: a journal record comes back from its 32 bytes with every field, its check value valid whatever its
marks, and its marks giving its state. -/
def Obligations.RecordsComeBackFromTheirBytes : Prop :=
  ∀ (r : JRecord) (uploaded voided : Byte), r.txn < 2 ^ 32 → r.rangeId < 2 ^ 16 → r.route < 16 → r.base < 2 ^ 24 →
    r.tip < 2 ^ 24 → r.bill < 2 ^ 16 → r.place < 2 ^ 16 → r.time < 2 ^ 24 → r.original < 2 ^ 32 →
    let bytes := encodeRecord r ++ [uploaded, voided]
    bytes.length = 32 ∧ decodeRecord bytes = r ∧ recordValid bytes = true
    ∧ markedState bytes = (if voided ≠ 0xFF then .voided else if uploaded ≠ 0xFF then .done else .live)
end

