-- ==== Sys2Proof/Laws/State.lean ====
section
/-! SUPPORT. What each update of State leaves in each field, so that no proof unfolds a record update. -/

namespace Sys2Proof.Machine

variable (s : State)

section
variable (x : Pins)
@[simp] theorem State.setPins_pins : (s.setPins x).pins = x := rfl
@[simp] theorem State.setPins_array : (s.setPins x).array = s.array := rfl
@[simp] theorem State.setPins_irt : (s.setPins x).irt = s.irt := rfl
@[simp] theorem State.setPins_profile : (s.setPins x).profile = s.profile := rfl
@[simp] theorem State.setPins_bills : (s.setPins x).bills = s.bills := rfl
@[simp] theorem State.setPins_decision : (s.setPins x).decision = s.decision := rfl
@[simp] theorem State.setPins_tally : (s.setPins x).tally = s.tally := rfl
@[simp] theorem State.setPins_journal : (s.setPins x).journal = s.journal := rfl
@[simp] theorem State.setPins_uploader : (s.setPins x).uploader = s.uploader := rfl
@[simp] theorem State.setPins_store : (s.setPins x).store = s.store := rfl
@[simp] theorem State.setPins_loader : (s.setPins x).loader = s.loader := rfl
@[simp] theorem State.setPins_link : (s.setPins x).link = s.link := rfl
@[simp] theorem State.setPins_timers : (s.setPins x).timers = s.timers := rfl
@[simp] theorem State.setPins_arbiter : (s.setPins x).arbiter = s.arbiter := rfl
@[simp] theorem State.setPins_radio : (s.setPins x).radio = s.radio := rfl
@[simp] theorem State.setPins_host : (s.setPins x).host = s.host := rfl
@[simp] theorem State.setPins_events : (s.setPins x).events = s.events := rfl
@[simp] theorem State.setPins_pending : (s.setPins x).pending = s.pending := rfl
end

section
variable (x : Mem)
@[simp] theorem State.setArray_pins : (s.setArray x).pins = s.pins := rfl
@[simp] theorem State.setArray_array : (s.setArray x).array = x := rfl
@[simp] theorem State.setArray_irt : (s.setArray x).irt = s.irt := rfl
@[simp] theorem State.setArray_profile : (s.setArray x).profile = s.profile := rfl
@[simp] theorem State.setArray_bills : (s.setArray x).bills = s.bills := rfl
@[simp] theorem State.setArray_decision : (s.setArray x).decision = s.decision := rfl
@[simp] theorem State.setArray_tally : (s.setArray x).tally = s.tally := rfl
@[simp] theorem State.setArray_journal : (s.setArray x).journal = s.journal := rfl
@[simp] theorem State.setArray_uploader : (s.setArray x).uploader = s.uploader := rfl
@[simp] theorem State.setArray_store : (s.setArray x).store = s.store := rfl
@[simp] theorem State.setArray_loader : (s.setArray x).loader = s.loader := rfl
@[simp] theorem State.setArray_link : (s.setArray x).link = s.link := rfl
@[simp] theorem State.setArray_timers : (s.setArray x).timers = s.timers := rfl
@[simp] theorem State.setArray_arbiter : (s.setArray x).arbiter = s.arbiter := rfl
@[simp] theorem State.setArray_radio : (s.setArray x).radio = s.radio := rfl
@[simp] theorem State.setArray_host : (s.setArray x).host = s.host := rfl
@[simp] theorem State.setArray_events : (s.setArray x).events = s.events := rfl
@[simp] theorem State.setArray_pending : (s.setArray x).pending = s.pending := rfl
end

section
variable (x : Irt)
@[simp] theorem State.setIrt_pins : (s.setIrt x).pins = s.pins := rfl
@[simp] theorem State.setIrt_array : (s.setIrt x).array = s.array := rfl
@[simp] theorem State.setIrt_irt : (s.setIrt x).irt = x := rfl
@[simp] theorem State.setIrt_profile : (s.setIrt x).profile = s.profile := rfl
@[simp] theorem State.setIrt_bills : (s.setIrt x).bills = s.bills := rfl
@[simp] theorem State.setIrt_decision : (s.setIrt x).decision = s.decision := rfl
@[simp] theorem State.setIrt_tally : (s.setIrt x).tally = s.tally := rfl
@[simp] theorem State.setIrt_journal : (s.setIrt x).journal = s.journal := rfl
@[simp] theorem State.setIrt_uploader : (s.setIrt x).uploader = s.uploader := rfl
@[simp] theorem State.setIrt_store : (s.setIrt x).store = s.store := rfl
@[simp] theorem State.setIrt_loader : (s.setIrt x).loader = s.loader := rfl
@[simp] theorem State.setIrt_link : (s.setIrt x).link = s.link := rfl
@[simp] theorem State.setIrt_timers : (s.setIrt x).timers = s.timers := rfl
@[simp] theorem State.setIrt_arbiter : (s.setIrt x).arbiter = s.arbiter := rfl
@[simp] theorem State.setIrt_radio : (s.setIrt x).radio = s.radio := rfl
@[simp] theorem State.setIrt_host : (s.setIrt x).host = s.host := rfl
@[simp] theorem State.setIrt_events : (s.setIrt x).events = s.events := rfl
@[simp] theorem State.setIrt_pending : (s.setIrt x).pending = s.pending := rfl
end

section
variable (x : Profile)
@[simp] theorem State.setProfile_pins : (s.setProfile x).pins = s.pins := rfl
@[simp] theorem State.setProfile_array : (s.setProfile x).array = s.array := rfl
@[simp] theorem State.setProfile_irt : (s.setProfile x).irt = s.irt := rfl
@[simp] theorem State.setProfile_profile : (s.setProfile x).profile = x := rfl
@[simp] theorem State.setProfile_bills : (s.setProfile x).bills = s.bills := rfl
@[simp] theorem State.setProfile_decision : (s.setProfile x).decision = s.decision := rfl
@[simp] theorem State.setProfile_tally : (s.setProfile x).tally = s.tally := rfl
@[simp] theorem State.setProfile_journal : (s.setProfile x).journal = s.journal := rfl
@[simp] theorem State.setProfile_uploader : (s.setProfile x).uploader = s.uploader := rfl
@[simp] theorem State.setProfile_store : (s.setProfile x).store = s.store := rfl
@[simp] theorem State.setProfile_loader : (s.setProfile x).loader = s.loader := rfl
@[simp] theorem State.setProfile_link : (s.setProfile x).link = s.link := rfl
@[simp] theorem State.setProfile_timers : (s.setProfile x).timers = s.timers := rfl
@[simp] theorem State.setProfile_arbiter : (s.setProfile x).arbiter = s.arbiter := rfl
@[simp] theorem State.setProfile_radio : (s.setProfile x).radio = s.radio := rfl
@[simp] theorem State.setProfile_host : (s.setProfile x).host = s.host := rfl
@[simp] theorem State.setProfile_events : (s.setProfile x).events = s.events := rfl
@[simp] theorem State.setProfile_pending : (s.setProfile x).pending = s.pending := rfl
end

section
variable (x : BillTable)
@[simp] theorem State.setBills_pins : (s.setBills x).pins = s.pins := rfl
@[simp] theorem State.setBills_array : (s.setBills x).array = s.array := rfl
@[simp] theorem State.setBills_irt : (s.setBills x).irt = s.irt := rfl
@[simp] theorem State.setBills_profile : (s.setBills x).profile = s.profile := rfl
@[simp] theorem State.setBills_bills : (s.setBills x).bills = x := rfl
@[simp] theorem State.setBills_decision : (s.setBills x).decision = s.decision := rfl
@[simp] theorem State.setBills_tally : (s.setBills x).tally = s.tally := rfl
@[simp] theorem State.setBills_journal : (s.setBills x).journal = s.journal := rfl
@[simp] theorem State.setBills_uploader : (s.setBills x).uploader = s.uploader := rfl
@[simp] theorem State.setBills_store : (s.setBills x).store = s.store := rfl
@[simp] theorem State.setBills_loader : (s.setBills x).loader = s.loader := rfl
@[simp] theorem State.setBills_link : (s.setBills x).link = s.link := rfl
@[simp] theorem State.setBills_timers : (s.setBills x).timers = s.timers := rfl
@[simp] theorem State.setBills_arbiter : (s.setBills x).arbiter = s.arbiter := rfl
@[simp] theorem State.setBills_radio : (s.setBills x).radio = s.radio := rfl
@[simp] theorem State.setBills_host : (s.setBills x).host = s.host := rfl
@[simp] theorem State.setBills_events : (s.setBills x).events = s.events := rfl
@[simp] theorem State.setBills_pending : (s.setBills x).pending = s.pending := rfl
end

section
variable (x : Decision)
@[simp] theorem State.setDecision_pins : (s.setDecision x).pins = s.pins := rfl
@[simp] theorem State.setDecision_array : (s.setDecision x).array = s.array := rfl
@[simp] theorem State.setDecision_irt : (s.setDecision x).irt = s.irt := rfl
@[simp] theorem State.setDecision_profile : (s.setDecision x).profile = s.profile := rfl
@[simp] theorem State.setDecision_bills : (s.setDecision x).bills = s.bills := rfl
@[simp] theorem State.setDecision_decision : (s.setDecision x).decision = x := rfl
@[simp] theorem State.setDecision_tally : (s.setDecision x).tally = s.tally := rfl
@[simp] theorem State.setDecision_journal : (s.setDecision x).journal = s.journal := rfl
@[simp] theorem State.setDecision_uploader : (s.setDecision x).uploader = s.uploader := rfl
@[simp] theorem State.setDecision_store : (s.setDecision x).store = s.store := rfl
@[simp] theorem State.setDecision_loader : (s.setDecision x).loader = s.loader := rfl
@[simp] theorem State.setDecision_link : (s.setDecision x).link = s.link := rfl
@[simp] theorem State.setDecision_timers : (s.setDecision x).timers = s.timers := rfl
@[simp] theorem State.setDecision_arbiter : (s.setDecision x).arbiter = s.arbiter := rfl
@[simp] theorem State.setDecision_radio : (s.setDecision x).radio = s.radio := rfl
@[simp] theorem State.setDecision_host : (s.setDecision x).host = s.host := rfl
@[simp] theorem State.setDecision_events : (s.setDecision x).events = s.events := rfl
@[simp] theorem State.setDecision_pending : (s.setDecision x).pending = s.pending := rfl
end

section
variable (x : Tally)
@[simp] theorem State.setTally_pins : (s.setTally x).pins = s.pins := rfl
@[simp] theorem State.setTally_array : (s.setTally x).array = s.array := rfl
@[simp] theorem State.setTally_irt : (s.setTally x).irt = s.irt := rfl
@[simp] theorem State.setTally_profile : (s.setTally x).profile = s.profile := rfl
@[simp] theorem State.setTally_bills : (s.setTally x).bills = s.bills := rfl
@[simp] theorem State.setTally_decision : (s.setTally x).decision = s.decision := rfl
@[simp] theorem State.setTally_tally : (s.setTally x).tally = x := rfl
@[simp] theorem State.setTally_journal : (s.setTally x).journal = s.journal := rfl
@[simp] theorem State.setTally_uploader : (s.setTally x).uploader = s.uploader := rfl
@[simp] theorem State.setTally_store : (s.setTally x).store = s.store := rfl
@[simp] theorem State.setTally_loader : (s.setTally x).loader = s.loader := rfl
@[simp] theorem State.setTally_link : (s.setTally x).link = s.link := rfl
@[simp] theorem State.setTally_timers : (s.setTally x).timers = s.timers := rfl
@[simp] theorem State.setTally_arbiter : (s.setTally x).arbiter = s.arbiter := rfl
@[simp] theorem State.setTally_radio : (s.setTally x).radio = s.radio := rfl
@[simp] theorem State.setTally_host : (s.setTally x).host = s.host := rfl
@[simp] theorem State.setTally_events : (s.setTally x).events = s.events := rfl
@[simp] theorem State.setTally_pending : (s.setTally x).pending = s.pending := rfl
end

section
variable (x : Journal)
@[simp] theorem State.setJournal_pins : (s.setJournal x).pins = s.pins := rfl
@[simp] theorem State.setJournal_array : (s.setJournal x).array = s.array := rfl
@[simp] theorem State.setJournal_irt : (s.setJournal x).irt = s.irt := rfl
@[simp] theorem State.setJournal_profile : (s.setJournal x).profile = s.profile := rfl
@[simp] theorem State.setJournal_bills : (s.setJournal x).bills = s.bills := rfl
@[simp] theorem State.setJournal_decision : (s.setJournal x).decision = s.decision := rfl
@[simp] theorem State.setJournal_tally : (s.setJournal x).tally = s.tally := rfl
@[simp] theorem State.setJournal_journal : (s.setJournal x).journal = x := rfl
@[simp] theorem State.setJournal_uploader : (s.setJournal x).uploader = s.uploader := rfl
@[simp] theorem State.setJournal_store : (s.setJournal x).store = s.store := rfl
@[simp] theorem State.setJournal_loader : (s.setJournal x).loader = s.loader := rfl
@[simp] theorem State.setJournal_link : (s.setJournal x).link = s.link := rfl
@[simp] theorem State.setJournal_timers : (s.setJournal x).timers = s.timers := rfl
@[simp] theorem State.setJournal_arbiter : (s.setJournal x).arbiter = s.arbiter := rfl
@[simp] theorem State.setJournal_radio : (s.setJournal x).radio = s.radio := rfl
@[simp] theorem State.setJournal_host : (s.setJournal x).host = s.host := rfl
@[simp] theorem State.setJournal_events : (s.setJournal x).events = s.events := rfl
@[simp] theorem State.setJournal_pending : (s.setJournal x).pending = s.pending := rfl
end

section
variable (x : UploadState)
@[simp] theorem State.setUploader_pins : (s.setUploader x).pins = s.pins := rfl
@[simp] theorem State.setUploader_array : (s.setUploader x).array = s.array := rfl
@[simp] theorem State.setUploader_irt : (s.setUploader x).irt = s.irt := rfl
@[simp] theorem State.setUploader_profile : (s.setUploader x).profile = s.profile := rfl
@[simp] theorem State.setUploader_bills : (s.setUploader x).bills = s.bills := rfl
@[simp] theorem State.setUploader_decision : (s.setUploader x).decision = s.decision := rfl
@[simp] theorem State.setUploader_tally : (s.setUploader x).tally = s.tally := rfl
@[simp] theorem State.setUploader_journal : (s.setUploader x).journal = s.journal := rfl
@[simp] theorem State.setUploader_uploader : (s.setUploader x).uploader = x := rfl
@[simp] theorem State.setUploader_store : (s.setUploader x).store = s.store := rfl
@[simp] theorem State.setUploader_loader : (s.setUploader x).loader = s.loader := rfl
@[simp] theorem State.setUploader_link : (s.setUploader x).link = s.link := rfl
@[simp] theorem State.setUploader_timers : (s.setUploader x).timers = s.timers := rfl
@[simp] theorem State.setUploader_arbiter : (s.setUploader x).arbiter = s.arbiter := rfl
@[simp] theorem State.setUploader_radio : (s.setUploader x).radio = s.radio := rfl
@[simp] theorem State.setUploader_host : (s.setUploader x).host = s.host := rfl
@[simp] theorem State.setUploader_events : (s.setUploader x).events = s.events := rfl
@[simp] theorem State.setUploader_pending : (s.setUploader x).pending = s.pending := rfl
end

section
variable (x : Store)
@[simp] theorem State.setStore_pins : (s.setStore x).pins = s.pins := rfl
@[simp] theorem State.setStore_array : (s.setStore x).array = s.array := rfl
@[simp] theorem State.setStore_irt : (s.setStore x).irt = s.irt := rfl
@[simp] theorem State.setStore_profile : (s.setStore x).profile = s.profile := rfl
@[simp] theorem State.setStore_bills : (s.setStore x).bills = s.bills := rfl
@[simp] theorem State.setStore_decision : (s.setStore x).decision = s.decision := rfl
@[simp] theorem State.setStore_tally : (s.setStore x).tally = s.tally := rfl
@[simp] theorem State.setStore_journal : (s.setStore x).journal = s.journal := rfl
@[simp] theorem State.setStore_uploader : (s.setStore x).uploader = s.uploader := rfl
@[simp] theorem State.setStore_store : (s.setStore x).store = x := rfl
@[simp] theorem State.setStore_loader : (s.setStore x).loader = s.loader := rfl
@[simp] theorem State.setStore_link : (s.setStore x).link = s.link := rfl
@[simp] theorem State.setStore_timers : (s.setStore x).timers = s.timers := rfl
@[simp] theorem State.setStore_arbiter : (s.setStore x).arbiter = s.arbiter := rfl
@[simp] theorem State.setStore_radio : (s.setStore x).radio = s.radio := rfl
@[simp] theorem State.setStore_host : (s.setStore x).host = s.host := rfl
@[simp] theorem State.setStore_events : (s.setStore x).events = s.events := rfl
@[simp] theorem State.setStore_pending : (s.setStore x).pending = s.pending := rfl
end

section
variable (x : Loader)
@[simp] theorem State.setLoader_pins : (s.setLoader x).pins = s.pins := rfl
@[simp] theorem State.setLoader_array : (s.setLoader x).array = s.array := rfl
@[simp] theorem State.setLoader_irt : (s.setLoader x).irt = s.irt := rfl
@[simp] theorem State.setLoader_profile : (s.setLoader x).profile = s.profile := rfl
@[simp] theorem State.setLoader_bills : (s.setLoader x).bills = s.bills := rfl
@[simp] theorem State.setLoader_decision : (s.setLoader x).decision = s.decision := rfl
@[simp] theorem State.setLoader_tally : (s.setLoader x).tally = s.tally := rfl
@[simp] theorem State.setLoader_journal : (s.setLoader x).journal = s.journal := rfl
@[simp] theorem State.setLoader_uploader : (s.setLoader x).uploader = s.uploader := rfl
@[simp] theorem State.setLoader_store : (s.setLoader x).store = s.store := rfl
@[simp] theorem State.setLoader_loader : (s.setLoader x).loader = x := rfl
@[simp] theorem State.setLoader_link : (s.setLoader x).link = s.link := rfl
@[simp] theorem State.setLoader_timers : (s.setLoader x).timers = s.timers := rfl
@[simp] theorem State.setLoader_arbiter : (s.setLoader x).arbiter = s.arbiter := rfl
@[simp] theorem State.setLoader_radio : (s.setLoader x).radio = s.radio := rfl
@[simp] theorem State.setLoader_host : (s.setLoader x).host = s.host := rfl
@[simp] theorem State.setLoader_events : (s.setLoader x).events = s.events := rfl
@[simp] theorem State.setLoader_pending : (s.setLoader x).pending = s.pending := rfl
end

section
variable (x : Link)
@[simp] theorem State.setLink_pins : (s.setLink x).pins = s.pins := rfl
@[simp] theorem State.setLink_array : (s.setLink x).array = s.array := rfl
@[simp] theorem State.setLink_irt : (s.setLink x).irt = s.irt := rfl
@[simp] theorem State.setLink_profile : (s.setLink x).profile = s.profile := rfl
@[simp] theorem State.setLink_bills : (s.setLink x).bills = s.bills := rfl
@[simp] theorem State.setLink_decision : (s.setLink x).decision = s.decision := rfl
@[simp] theorem State.setLink_tally : (s.setLink x).tally = s.tally := rfl
@[simp] theorem State.setLink_journal : (s.setLink x).journal = s.journal := rfl
@[simp] theorem State.setLink_uploader : (s.setLink x).uploader = s.uploader := rfl
@[simp] theorem State.setLink_store : (s.setLink x).store = s.store := rfl
@[simp] theorem State.setLink_loader : (s.setLink x).loader = s.loader := rfl
@[simp] theorem State.setLink_link : (s.setLink x).link = x := rfl
@[simp] theorem State.setLink_timers : (s.setLink x).timers = s.timers := rfl
@[simp] theorem State.setLink_arbiter : (s.setLink x).arbiter = s.arbiter := rfl
@[simp] theorem State.setLink_radio : (s.setLink x).radio = s.radio := rfl
@[simp] theorem State.setLink_host : (s.setLink x).host = s.host := rfl
@[simp] theorem State.setLink_events : (s.setLink x).events = s.events := rfl
@[simp] theorem State.setLink_pending : (s.setLink x).pending = s.pending := rfl
end

section
variable (x : Timers)
@[simp] theorem State.setTimers_pins : (s.setTimers x).pins = s.pins := rfl
@[simp] theorem State.setTimers_array : (s.setTimers x).array = s.array := rfl
@[simp] theorem State.setTimers_irt : (s.setTimers x).irt = s.irt := rfl
@[simp] theorem State.setTimers_profile : (s.setTimers x).profile = s.profile := rfl
@[simp] theorem State.setTimers_bills : (s.setTimers x).bills = s.bills := rfl
@[simp] theorem State.setTimers_decision : (s.setTimers x).decision = s.decision := rfl
@[simp] theorem State.setTimers_tally : (s.setTimers x).tally = s.tally := rfl
@[simp] theorem State.setTimers_journal : (s.setTimers x).journal = s.journal := rfl
@[simp] theorem State.setTimers_uploader : (s.setTimers x).uploader = s.uploader := rfl
@[simp] theorem State.setTimers_store : (s.setTimers x).store = s.store := rfl
@[simp] theorem State.setTimers_loader : (s.setTimers x).loader = s.loader := rfl
@[simp] theorem State.setTimers_link : (s.setTimers x).link = s.link := rfl
@[simp] theorem State.setTimers_timers : (s.setTimers x).timers = x := rfl
@[simp] theorem State.setTimers_arbiter : (s.setTimers x).arbiter = s.arbiter := rfl
@[simp] theorem State.setTimers_radio : (s.setTimers x).radio = s.radio := rfl
@[simp] theorem State.setTimers_host : (s.setTimers x).host = s.host := rfl
@[simp] theorem State.setTimers_events : (s.setTimers x).events = s.events := rfl
@[simp] theorem State.setTimers_pending : (s.setTimers x).pending = s.pending := rfl
end

section
variable (x : Arbiter)
@[simp] theorem State.setArbiter_pins : (s.setArbiter x).pins = s.pins := rfl
@[simp] theorem State.setArbiter_array : (s.setArbiter x).array = s.array := rfl
@[simp] theorem State.setArbiter_irt : (s.setArbiter x).irt = s.irt := rfl
@[simp] theorem State.setArbiter_profile : (s.setArbiter x).profile = s.profile := rfl
@[simp] theorem State.setArbiter_bills : (s.setArbiter x).bills = s.bills := rfl
@[simp] theorem State.setArbiter_decision : (s.setArbiter x).decision = s.decision := rfl
@[simp] theorem State.setArbiter_tally : (s.setArbiter x).tally = s.tally := rfl
@[simp] theorem State.setArbiter_journal : (s.setArbiter x).journal = s.journal := rfl
@[simp] theorem State.setArbiter_uploader : (s.setArbiter x).uploader = s.uploader := rfl
@[simp] theorem State.setArbiter_store : (s.setArbiter x).store = s.store := rfl
@[simp] theorem State.setArbiter_loader : (s.setArbiter x).loader = s.loader := rfl
@[simp] theorem State.setArbiter_link : (s.setArbiter x).link = s.link := rfl
@[simp] theorem State.setArbiter_timers : (s.setArbiter x).timers = s.timers := rfl
@[simp] theorem State.setArbiter_arbiter : (s.setArbiter x).arbiter = x := rfl
@[simp] theorem State.setArbiter_radio : (s.setArbiter x).radio = s.radio := rfl
@[simp] theorem State.setArbiter_host : (s.setArbiter x).host = s.host := rfl
@[simp] theorem State.setArbiter_events : (s.setArbiter x).events = s.events := rfl
@[simp] theorem State.setArbiter_pending : (s.setArbiter x).pending = s.pending := rfl
end

section
variable (x : RadioPort)
@[simp] theorem State.setRadio_pins : (s.setRadio x).pins = s.pins := rfl
@[simp] theorem State.setRadio_array : (s.setRadio x).array = s.array := rfl
@[simp] theorem State.setRadio_irt : (s.setRadio x).irt = s.irt := rfl
@[simp] theorem State.setRadio_profile : (s.setRadio x).profile = s.profile := rfl
@[simp] theorem State.setRadio_bills : (s.setRadio x).bills = s.bills := rfl
@[simp] theorem State.setRadio_decision : (s.setRadio x).decision = s.decision := rfl
@[simp] theorem State.setRadio_tally : (s.setRadio x).tally = s.tally := rfl
@[simp] theorem State.setRadio_journal : (s.setRadio x).journal = s.journal := rfl
@[simp] theorem State.setRadio_uploader : (s.setRadio x).uploader = s.uploader := rfl
@[simp] theorem State.setRadio_store : (s.setRadio x).store = s.store := rfl
@[simp] theorem State.setRadio_loader : (s.setRadio x).loader = s.loader := rfl
@[simp] theorem State.setRadio_link : (s.setRadio x).link = s.link := rfl
@[simp] theorem State.setRadio_timers : (s.setRadio x).timers = s.timers := rfl
@[simp] theorem State.setRadio_arbiter : (s.setRadio x).arbiter = s.arbiter := rfl
@[simp] theorem State.setRadio_radio : (s.setRadio x).radio = x := rfl
@[simp] theorem State.setRadio_host : (s.setRadio x).host = s.host := rfl
@[simp] theorem State.setRadio_events : (s.setRadio x).events = s.events := rfl
@[simp] theorem State.setRadio_pending : (s.setRadio x).pending = s.pending := rfl
end

section
variable (x : HostPort)
@[simp] theorem State.setHost_pins : (s.setHost x).pins = s.pins := rfl
@[simp] theorem State.setHost_array : (s.setHost x).array = s.array := rfl
@[simp] theorem State.setHost_irt : (s.setHost x).irt = s.irt := rfl
@[simp] theorem State.setHost_profile : (s.setHost x).profile = s.profile := rfl
@[simp] theorem State.setHost_bills : (s.setHost x).bills = s.bills := rfl
@[simp] theorem State.setHost_decision : (s.setHost x).decision = s.decision := rfl
@[simp] theorem State.setHost_tally : (s.setHost x).tally = s.tally := rfl
@[simp] theorem State.setHost_journal : (s.setHost x).journal = s.journal := rfl
@[simp] theorem State.setHost_uploader : (s.setHost x).uploader = s.uploader := rfl
@[simp] theorem State.setHost_store : (s.setHost x).store = s.store := rfl
@[simp] theorem State.setHost_loader : (s.setHost x).loader = s.loader := rfl
@[simp] theorem State.setHost_link : (s.setHost x).link = s.link := rfl
@[simp] theorem State.setHost_timers : (s.setHost x).timers = s.timers := rfl
@[simp] theorem State.setHost_arbiter : (s.setHost x).arbiter = s.arbiter := rfl
@[simp] theorem State.setHost_radio : (s.setHost x).radio = s.radio := rfl
@[simp] theorem State.setHost_host : (s.setHost x).host = x := rfl
@[simp] theorem State.setHost_events : (s.setHost x).events = s.events := rfl
@[simp] theorem State.setHost_pending : (s.setHost x).pending = s.pending := rfl
end

section
variable (x : Events)
@[simp] theorem State.setEvents_pins : (s.setEvents x).pins = s.pins := rfl
@[simp] theorem State.setEvents_array : (s.setEvents x).array = s.array := rfl
@[simp] theorem State.setEvents_irt : (s.setEvents x).irt = s.irt := rfl
@[simp] theorem State.setEvents_profile : (s.setEvents x).profile = s.profile := rfl
@[simp] theorem State.setEvents_bills : (s.setEvents x).bills = s.bills := rfl
@[simp] theorem State.setEvents_decision : (s.setEvents x).decision = s.decision := rfl
@[simp] theorem State.setEvents_tally : (s.setEvents x).tally = s.tally := rfl
@[simp] theorem State.setEvents_journal : (s.setEvents x).journal = s.journal := rfl
@[simp] theorem State.setEvents_uploader : (s.setEvents x).uploader = s.uploader := rfl
@[simp] theorem State.setEvents_store : (s.setEvents x).store = s.store := rfl
@[simp] theorem State.setEvents_loader : (s.setEvents x).loader = s.loader := rfl
@[simp] theorem State.setEvents_link : (s.setEvents x).link = s.link := rfl
@[simp] theorem State.setEvents_timers : (s.setEvents x).timers = s.timers := rfl
@[simp] theorem State.setEvents_arbiter : (s.setEvents x).arbiter = s.arbiter := rfl
@[simp] theorem State.setEvents_radio : (s.setEvents x).radio = s.radio := rfl
@[simp] theorem State.setEvents_host : (s.setEvents x).host = s.host := rfl
@[simp] theorem State.setEvents_events : (s.setEvents x).events = x := rfl
@[simp] theorem State.setEvents_pending : (s.setEvents x).pending = s.pending := rfl
end

section
variable (x : List Instr)
@[simp] theorem State.setPending_pins : (s.setPending x).pins = s.pins := rfl
@[simp] theorem State.setPending_array : (s.setPending x).array = s.array := rfl
@[simp] theorem State.setPending_irt : (s.setPending x).irt = s.irt := rfl
@[simp] theorem State.setPending_profile : (s.setPending x).profile = s.profile := rfl
@[simp] theorem State.setPending_bills : (s.setPending x).bills = s.bills := rfl
@[simp] theorem State.setPending_decision : (s.setPending x).decision = s.decision := rfl
@[simp] theorem State.setPending_tally : (s.setPending x).tally = s.tally := rfl
@[simp] theorem State.setPending_journal : (s.setPending x).journal = s.journal := rfl
@[simp] theorem State.setPending_uploader : (s.setPending x).uploader = s.uploader := rfl
@[simp] theorem State.setPending_store : (s.setPending x).store = s.store := rfl
@[simp] theorem State.setPending_loader : (s.setPending x).loader = s.loader := rfl
@[simp] theorem State.setPending_link : (s.setPending x).link = s.link := rfl
@[simp] theorem State.setPending_timers : (s.setPending x).timers = s.timers := rfl
@[simp] theorem State.setPending_arbiter : (s.setPending x).arbiter = s.arbiter := rfl
@[simp] theorem State.setPending_radio : (s.setPending x).radio = s.radio := rfl
@[simp] theorem State.setPending_host : (s.setPending x).host = s.host := rfl
@[simp] theorem State.setPending_events : (s.setPending x).events = s.events := rfl
@[simp] theorem State.setPending_pending : (s.setPending x).pending = x := rfl
end

end Sys2Proof.Machine
end

