-- ==== Sys2Proof/Laws/Frames.lean ====
section
/-! SUPPORT. One frame lemma for each shared operation: the parts it does not list are left alone. -/

namespace Sys2Proof.Laws

open Sys2Proof.Machine Sys2Proof.Safety

variable {p : Part} {s t : State}

@[simp] theorem same_setPins (x : Pins) (h : p ≠ .pins) : p.same s (t.setPins x) ↔ p.same s t := by
  cases p <;> simp_all [Part.same]

@[simp] theorem same_setArray (x : Mem) (h : p ≠ .array) : p.same s (t.setArray x) ↔ p.same s t := by
  cases p <;> simp_all [Part.same]

@[simp] theorem same_setIrt (x : Irt) (h : p ≠ .irt) : p.same s (t.setIrt x) ↔ p.same s t := by
  cases p <;> simp_all [Part.same]

@[simp] theorem same_setProfile (x : Profile) (h : p ≠ .profile) : p.same s (t.setProfile x) ↔ p.same s t := by
  cases p <;> simp_all [Part.same]

@[simp] theorem same_setBills (x : BillTable) (h : p ≠ .bills) : p.same s (t.setBills x) ↔ p.same s t := by
  cases p <;> simp_all [Part.same]

@[simp] theorem same_setDecision (x : Decision) (h : p ≠ .decision) : p.same s (t.setDecision x) ↔ p.same s t := by
  cases p <;> simp_all [Part.same]

@[simp] theorem same_setTally (x : Tally) (h : p ≠ .tally) : p.same s (t.setTally x) ↔ p.same s t := by
  cases p <;> simp_all [Part.same]

@[simp] theorem same_setJournal (x : Journal) (h : p ≠ .journal) : p.same s (t.setJournal x) ↔ p.same s t := by
  cases p <;> simp_all [Part.same]

@[simp] theorem same_setUploader (x : UploadState) (h : p ≠ .uploader) : p.same s (t.setUploader x) ↔ p.same s t := by
  cases p <;> simp_all [Part.same]

@[simp] theorem same_setStore (x : Store) (h : p ≠ .store) : p.same s (t.setStore x) ↔ p.same s t := by
  cases p <;> simp_all [Part.same]

@[simp] theorem same_setLoader (x : Loader) (h : p ≠ .loader) : p.same s (t.setLoader x) ↔ p.same s t := by
  cases p <;> simp_all [Part.same]

@[simp] theorem same_setLink (x : Link) (h : p ≠ .link) : p.same s (t.setLink x) ↔ p.same s t := by
  cases p <;> simp_all [Part.same]

@[simp] theorem same_setArbiter (x : Arbiter) (h : p ≠ .arbiter) : p.same s (t.setArbiter x) ↔ p.same s t := by
  cases p <;> simp_all [Part.same]

@[simp] theorem same_setRadio (x : RadioPort) (h : p ≠ .radio) : p.same s (t.setRadio x) ↔ p.same s t := by
  cases p <;> simp_all [Part.same]

@[simp] theorem same_setHost (x : HostPort) (h : p ≠ .host) : p.same s (t.setHost x) ↔ p.same s t := by
  cases p <;> simp_all [Part.same]

@[simp] theorem same_setEvents (x : Events) (h : p ≠ .events) : p.same s (t.setEvents x) ↔ p.same s t := by
  cases p <;> simp_all [Part.same]

@[simp] theorem same_setPending (x : List Instr) (h : p ≠ .pending) : p.same s (t.setPending x) ↔ p.same s t := by
  cases p <;> simp_all [Part.same]

@[simp] theorem same_setLatches (x : Latches) (h : p ≠ .events) : p.same s (t.setLatches x) ↔ p.same s t := by
  simp [State.setLatches, h]

@[simp] theorem same_raisePowerWarn (l : Line) (h0 : p ≠ .events) :
    p.same s (raisePowerWarn l t) ↔ p.same s t := by
  unfold raisePowerWarn
  (repeat' split) <;> simp [h0]

@[simp] theorem same_raiseLateDecline (n : Nat) (h0 : p ≠ .events) :
    p.same s (raiseLateDecline n t) ↔ p.same s t := by
  unfold raiseLateDecline
  (repeat' split) <;> simp [h0]

@[simp] theorem same_raiseBillChange (n : Nat) (h0 : p ≠ .events) :
    p.same s (raiseBillChange n t) ↔ p.same s t := by
  unfold raiseBillChange
  (repeat' split) <;> simp [h0]

@[simp] theorem same_raiseAuthDone (i : Nat) (h0 : p ≠ .events) :
    p.same s (raiseAuthDone i t) ↔ p.same s t := by
  unfold raiseAuthDone
  (repeat' split) <;> simp [h0]

@[simp] theorem same_dropAuthDone (i : Nat) (h0 : p ≠ .events) :
    p.same s (dropAuthDone i t) ↔ p.same s t := by
  unfold dropAuthDone
  (repeat' split) <;> simp [h0]

@[simp] theorem same_raiseLinkChange (l : LinkState) (c d : Nat) (h0 : p ≠ .events) :
    p.same s (raiseLinkChange l c d t) ↔ p.same s t := by
  unfold raiseLinkChange
  (repeat' split) <;> simp [h0]

@[simp] theorem same_raiseJournalLow (n : Nat) (h0 : p ≠ .events) :
    p.same s (raiseJournalLow n t) ↔ p.same s t := by
  unfold raiseJournalLow
  (repeat' split) <;> simp [h0]

@[simp] theorem same_raiseTableChange (x : TableName) (g : Nat) (h0 : p ≠ .events) :
    p.same s (raiseTableChange x g t) ↔ p.same s t := by
  unfold raiseTableChange
  (repeat' split) <;> simp [h0]

@[simp] theorem same_raiseDataWaiting (n : Nat) (h0 : p ≠ .events) :
    p.same s (raiseDataWaiting n t) ↔ p.same s t := by
  unfold raiseDataWaiting
  (repeat' split) <;> simp [h0]

@[simp] theorem same_raiseReady (h0 : p ≠ .events) :
    p.same s (raiseReady t) ↔ p.same s t := by
  unfold raiseReady
  (repeat' split) <;> simp [h0]

@[simp] theorem same_raiseStoreFault (k : FaultKind) (n : Option Nat) (h0 : p ≠ .events) (h1 : p ≠ .store) :
    p.same s (raiseStoreFault k n t) ↔ p.same s t := by
  unfold raiseStoreFault
  (repeat' split) <;> simp [h0, h1]

@[simp] theorem same_setRecordState (loc : Loc) (st : RecordState) (h0 : p ≠ .journal) :
    p.same s (setRecordState loc st t) ↔ p.same s t := by
  unfold setRecordState
  (repeat' split) <;> simp [h0]

@[simp] theorem same_evaluateLow (h0 : p ≠ .journal) (h1 : p ≠ .events) :
    p.same s (evaluateLow t) ↔ p.same s t := by
  unfold evaluateLow
  (repeat' split) <;> simp [h0, h1]

@[simp] theorem same_setReplyTimer (i : Nat) (x : Timer) (h0 : p ≠ .replyTimers) :
    p.same s (setReplyTimer i x t) ↔ p.same s t := by
  cases p <;> first | contradiction | (unfold setReplyTimer; (repeat' split) <;> simp [Part.same, params, queueMgmtReply, placeVerify] <;> (repeat' split) <;> simp [Part.same])

@[simp] theorem same_setUploadTimer (x : Timer) (h0 : p ≠ .uploadTimer) :
    p.same s (setUploadTimer x t) ↔ p.same s t := by
  cases p <;> first | contradiction | (unfold setUploadTimer; (repeat' split) <;> simp [Part.same, params, queueMgmtReply, placeVerify] <;> (repeat' split) <;> simp [Part.same])

@[simp] theorem same_queueReply (r : HostReply) (h0 : p ≠ .host) :
    p.same s (queueReply r t) ↔ p.same s t := by
  unfold queueReply
  (repeat' split) <;> simp [h0]

@[simp] theorem same_answerRequest (c : BitVec 8) (g : BitVec 16) (r : Reply) (h0 : p ≠ .host) :
    p.same s (answerRequest c g r t) ↔ p.same s t := by
  unfold answerRequest
  (repeat' split) <;> simp [h0]

@[simp] theorem same_queueMgmtReply (c : BitVec 8) (g : BitVec 16) (r : Reply) (h0 : p ≠ .arbiter) :
    p.same s (queueMgmtReply c g r t) ↔ p.same s t := by
  unfold queueMgmtReply
  (repeat' split) <;> simp [h0]

@[simp] theorem same_updateBill (n : Nat) (f : Bill → Bill) (h0 : p ≠ .bills) :
    p.same s (updateBill n f t) ↔ p.same s t := by
  unfold updateBill
  (repeat' split) <;> simp [h0]

@[simp] theorem same_restate (n : Nat) (h0 : p ≠ .bills) :
    p.same s (restate n t) ↔ p.same s t := by
  unfold restate
  (repeat' split) <;> simp [h0]

@[simp] theorem same_changeBill (n : Nat) (f : Bill → Bill) (h0 : p ≠ .bills) (h1 : p ≠ .events) :
    p.same s (changeBill n f t) ↔ p.same s t := by
  unfold changeBill
  (repeat' split) <;> simp [h0, h1]

@[simp] theorem same_commitBill (a : Auth) (q : Path) (h0 : p ≠ .bills) (h1 : p ≠ .events) :
    p.same s (commitBill a q t) ↔ p.same s t := by
  unfold commitBill
  (repeat' split) <;> simp [h0, h1]

@[simp] theorem same_releaseBill (a : Auth) (h0 : p ≠ .bills) (h1 : p ≠ .events) :
    p.same s (releaseBill a t) ↔ p.same s t := by
  unfold releaseBill
  (repeat' split) <;> simp [h0, h1]

@[simp] theorem same_removeBill (n : Nat) (h0 : p ≠ .bills) (h1 : p ≠ .events) :
    p.same s (removeBill n t) ↔ p.same s t := by
  unfold removeBill
  (repeat' split) <;> simp [h0, h1]

@[simp] theorem same_addBill (b : Bill) (h0 : p ≠ .bills) (h1 : p ≠ .events) :
    p.same s (addBill b t) ↔ p.same s t := by
  unfold addBill
  (repeat' split) <;> simp [h0, h1]

@[simp] theorem same_makeRoom (h0 : p ≠ .bills) (h1 : p ≠ .events) :
    p.same s (makeRoom t) ↔ p.same s t := by
  unfold makeRoom
  (repeat' split) <;> simp [h0, h1]

@[simp] theorem same_serveSplit (g : BitVec 16) (b n : Nat) (h0 : p ≠ .bills) (h1 : p ≠ .events) (h2 : p ≠ .host) :
    p.same s (serveSplit g b n t) ↔ p.same s t := by
  unfold serveSplit
  (repeat' split) <;> simp [h0, h1, h2]

@[simp] theorem same_serveQueryBill (g : BitVec 16) (b n m : Nat) (h0 : p ≠ .host) :
    p.same s (serveQueryBill g b n m t) ↔ p.same s t := by
  unfold serveQueryBill
  (repeat' split) <;> simp [h0]

@[simp] theorem same_serveListBills (g : BitVec 16) (h0 : p ≠ .host) :
    p.same s (serveListBills g t) ↔ p.same s t := by
  unfold serveListBills
  (repeat' split) <;> simp [h0]

@[simp] theorem same_requestRecord (loc : Loc) (bs : List Byte) (h0 : p ≠ .store) :
    p.same s (requestRecord loc bs t) ↔ p.same s t := by
  unfold requestRecord
  (repeat' split) <;> simp [h0]

@[simp] theorem same_requestMark (r : MarkRequest) (h0 : p ≠ .store) :
    p.same s (requestMark r t) ↔ p.same s t := by
  unfold requestMark
  (repeat' split) <;> simp [h0]

@[simp] theorem same_requestPage (r : PageRequest) (h0 : p ≠ .store) :
    p.same s (requestPage r t) ↔ p.same s t := by
  unfold requestPage
  (repeat' split) <;> simp [h0]

@[simp] theorem same_requestErase (r : EraseRequest) (h0 : p ≠ .store) :
    p.same s (requestErase r t) ↔ p.same s t := by
  unfold requestErase
  (repeat' split) <;> simp [h0]

@[simp] theorem same_stepUpdate (e : Nat) (h0 : p ≠ .store) :
    p.same s (stepUpdate e t) ↔ p.same s t := by
  unfold stepUpdate
  (repeat' split) <;> simp [h0]

@[simp] theorem same_startUpdate (e : Nat) (b : Bool) (h0 : p ≠ .store) :
    p.same s (startUpdate e b t) ↔ p.same s t := by
  unfold startUpdate
  (repeat' split) <;> simp [h0]

@[simp] theorem same_startOperation (h0 : p ≠ .store) :
    p.same s (startOperation t) ↔ p.same s t := by
  unfold startOperation
  (repeat' split) <;> simp [h0]

@[simp] theorem same_endOperation (o : StoreOp) (l : Bool) (e : ArrayEnd) (h0 : p ≠ .array) (h1 : p ≠ .store) :
    p.same s (endOperation o l e t) ↔ p.same s t := by
  unfold endOperation
  (repeat' split) <;> simp [h0, h1]

@[simp] theorem same_interruptOperation (e : ArrayEnd) (h0 : p ≠ .array) :
    p.same s (interruptOperation e t) ↔ p.same s t := by
  unfold interruptOperation
  (repeat' split) <;> simp [h0]

@[simp] theorem same_handRecordResult (r : OpResult) (h0 : p ≠ .store) :
    p.same s (handRecordResult r t) ↔ p.same s t := by
  unfold handRecordResult
  (repeat' split) <;> simp [h0]

@[simp] theorem same_serveReadExposure (g : BitVec 16) (n m : Nat) (h0 : p ≠ .host) :
    p.same s (serveReadExposure g n m t) ↔ p.same s t := by
  unfold serveReadExposure
  (repeat' split) <;> simp [h0]

@[simp] theorem same_setSlot (i : Nat) (x : Option Auth) (h0 : p ≠ .decision) :
    p.same s (setSlot i x t) ↔ p.same s t := by
  unfold setSlot
  (repeat' split) <;> simp [h0]

@[simp] theorem same_settleSlot (i : Nat) (a : Auth) (r : Result) (d : DeclineReason) (n : Nat) (h0 : p ≠ .decision) (h1 : p ≠ .bills) (h2 : p ≠ .events) :
    p.same s (settleSlot i a r d n t) ↔ p.same s t := by
  unfold settleSlot
  (repeat' split) <;> simp [h0, h1, h2]

@[simp] theorem same_issueNumber (h0 : p ≠ .decision) (h1 : p ≠ .store) :
    p.same s (issueNumber t) ↔ p.same s t := by
  unfold issueNumber
  (repeat' split) <;> simp [h0, h1]

@[simp] theorem same_joinLate (n : Nat) (o : LateOutcome) (h0 : p ≠ .decision) :
    p.same s (joinLate n o t) ↔ p.same s t := by
  unfold joinLate
  (repeat' split) <;> simp [h0]

@[simp] theorem same_declineLate (n : Nat) (h0 : p ≠ .decision) :
    p.same s (declineLate n t) ↔ p.same s t := by
  unfold declineLate
  (repeat' split) <;> simp [h0]

@[simp] theorem same_countLate (h0 : p ≠ .decision) :
    p.same s (countLate t) ↔ p.same s t := by
  unfold countLate
  (repeat' split) <;> simp [h0]

@[simp] theorem same_dropLate (n : Nat) (h0 : p ≠ .decision) :
    p.same s (dropLate n t) ↔ p.same s t := by
  unfold dropLate
  (repeat' split) <;> simp [h0]

@[simp] theorem same_judgeLate (n : Nat) (b : Bool) (h0 : p ≠ .decision) (h1 : p ≠ .events) :
    p.same s (judgeLate n b t) ↔ p.same s t := by
  unfold judgeLate
  (repeat' split) <;> simp [h0, h1]

@[simp] theorem same_withdrawAuth (n : Nat) (h0 : p ≠ .arbiter) :
    p.same s (withdrawAuth n t) ↔ p.same s t := by
  unfold withdrawAuth
  (repeat' split) <;> simp [h0]

@[simp] theorem same_issueRecord (loc : Loc) (e : QueuedRecord) (b : Bool) (h0 : p ≠ .journal) (h1 : p ≠ .store) (h2 : p ≠ .events) :
    p.same s (issueRecord loc e b t) ↔ p.same s t := by
  unfold issueRecord
  (repeat' split) <;> simp [h0, h1, h2]

@[simp] theorem same_endVoid (j : VoidJob) (r : Reply) (h0 : p ≠ .host) :
    p.same s (endVoid j r t) ↔ p.same s t := by
  unfold endVoid
  (repeat' split) <;> simp [h0]

@[simp] theorem same_clearVoidPending (n : Nat) (h0 : p ≠ .bills) :
    p.same s (clearVoidPending n t) ↔ p.same s t := by
  unfold clearVoidPending
  (repeat' split) <;> simp [h0]

@[simp] theorem same_voidTender (n m : Nat) (h0 : p ≠ .bills) (h1 : p ≠ .events) :
    p.same s (voidTender n m t) ↔ p.same s t := by
  unfold voidTender
  (repeat' split) <;> simp [h0, h1]

@[simp] theorem same_recordStored (e : QueuedRecord) (h0 : p ≠ .decision) (h1 : p ≠ .bills) (h2 : p ≠ .events) (h3 : p ≠ .host) :
    p.same s (recordStored e t) ↔ p.same s t := by
  unfold recordStored
  (repeat' split) <;> simp [h0, h1, h2, h3]

@[simp] theorem same_recordLost (e : QueuedRecord) (h0 : p ≠ .decision) (h1 : p ≠ .bills) (h2 : p ≠ .events) (h3 : p ≠ .host) (h4 : p ≠ .tally) :
    p.same s (recordLost e t) ↔ p.same s t := by
  unfold recordLost
  (repeat' split) <;> simp [h0, h1, h2, h3, h4]

@[simp] theorem same_recordUnplaced (e : QueuedRecord) (h0 : p ≠ .decision) (h1 : p ≠ .bills) (h2 : p ≠ .events) (h3 : p ≠ .host) (h4 : p ≠ .tally) (h5 : p ≠ .store) :
    p.same s (recordUnplaced e t) ↔ p.same s t := by
  unfold recordUnplaced
  (repeat' split) <;> simp [h0, h1, h2, h3, h4, h5]

@[simp] theorem same_issueQueue (q : List QueuedRecord) (h0 : p ≠ .journal) (h1 : p ≠ .store) (h2 : p ≠ .events) (h3 : p ≠ .decision) (h4 : p ≠ .bills) (h5 : p ≠ .host) (h6 : p ≠ .tally) :
    p.same s (issueQueue q t) ↔ p.same s t := by
  induction q generalizing t with
  | nil => simp [issueQueue, h0, h1, h2, h3, h4, h5, h6]
  | cons e rest ih => rw [issueQueue]; split <;> simp [ih, h0, h1, h2, h3, h4, h5, h6]

@[simp] theorem same_issueNext (h0 : p ≠ .journal) (h1 : p ≠ .store) (h2 : p ≠ .events) (h3 : p ≠ .decision) (h4 : p ≠ .bills) (h5 : p ≠ .host) (h6 : p ≠ .tally) :
    p.same s (issueNext t) ↔ p.same s t := by
  unfold issueNext
  (repeat' split) <;> simp [h0, h1, h2, h3, h4, h5, h6]

@[simp] theorem same_appendRecord (e : QueuedRecord) (h0 : p ≠ .journal) (h1 : p ≠ .store) (h2 : p ≠ .events) (h3 : p ≠ .decision) (h4 : p ≠ .bills) (h5 : p ≠ .host) (h6 : p ≠ .tally) :
    p.same s (appendRecord e t) ↔ p.same s t := by
  unfold appendRecord
  (repeat' split) <;> simp [h0, h1, h2, h3, h4, h5, h6]

@[simp] theorem same_issueRetry (e : QueuedRecord) (h0 : p ≠ .journal) (h1 : p ≠ .store) (h2 : p ≠ .events) (h3 : p ≠ .decision) (h4 : p ≠ .bills) (h5 : p ≠ .host) (h6 : p ≠ .tally) :
    p.same s (issueRetry e t) ↔ p.same s t := by
  unfold issueRetry
  (repeat' split) <;> simp [h0, h1, h2, h3, h4, h5, h6]

@[simp] theorem same_reclaimFrom (q : List Nat) (h0 : p ≠ .journal) (h1 : p ≠ .store) :
    p.same s (reclaimFrom q t) ↔ p.same s t := by
  induction q generalizing t with
  | nil => simp [reclaimFrom, h0, h1]
  | cons e rest ih => rw [reclaimFrom]; split <;> simp [ih, h0, h1]

@[simp] theorem same_reclaim (h0 : p ≠ .journal) (h1 : p ≠ .store) :
    p.same s (reclaim t) ↔ p.same s t := by
  unfold reclaim
  (repeat' split) <;> simp [h0, h1]

@[simp] theorem same_markRecord (loc : Loc) (k : MarkKind) (h0 : p ≠ .journal) (h1 : p ≠ .store) :
    p.same s (markRecord loc k t) ↔ p.same s t := by
  unfold markRecord
  (repeat' split) <;> simp [h0, h1]

@[simp] theorem same_clearMarkPending (loc : Loc) (h0 : p ≠ .journal) :
    p.same s (clearMarkPending loc t) ↔ p.same s t := by
  unfold clearMarkPending
  (repeat' split) <;> simp [h0]

@[simp] theorem same_endVoidByMark (r : MarkRequest) (h0 : p ≠ .host) :
    p.same s (endVoidByMark r t) ↔ p.same s t := by
  unfold endVoidByMark
  (repeat' split) <;> simp [h0]

@[simp] theorem same_takeMarkResult (r : MarkRequest) (b : Bool) (h0 : p ≠ .journal) (h1 : p ≠ .store) (h2 : p ≠ .events) (h3 : p ≠ .host) :
    p.same s (takeMarkResult r b t) ↔ p.same s t := by
  unfold takeMarkResult
  (repeat' split) <;> simp [h0, h1, h2, h3]

@[simp] theorem same_blockErased (n : Nat) (h0 : p ≠ .journal) (h1 : p ≠ .events) :
    p.same s (blockErased n t) ↔ p.same s t := by
  unfold blockErased
  (repeat' split) <;> simp [h0, h1]

@[simp] theorem same_takeJournalErase (n : Nat) (b c : Bool) (h0 : p ≠ .journal) (h1 : p ≠ .events) (h2 : p ≠ .store) :
    p.same s (takeJournalErase n b c t) ↔ p.same s t := by
  unfold takeJournalErase
  (repeat' split) <;> simp [h0, h1, h2]

@[simp] theorem same_voidByMark (g : BitVec 16) (n : Nat) (x : Tender) (loc : Loc) (h0 : p ≠ .journal) (h1 : p ≠ .store) (h2 : p ≠ .tally) (h3 : p ≠ .host) (h4 : p ≠ .bills) (h5 : p ≠ .events) :
    p.same s (voidByMark g n x loc t) ↔ p.same s t := by
  unfold voidByMark
  (repeat' split) <;> simp [h0, h1, h2, h3, h4, h5]

@[simp] theorem same_voidByReversal (g : BitVec 16) (b : Bill) (x : Tender) (h0 : p ≠ .journal) (h1 : p ≠ .store) (h2 : p ≠ .events) (h3 : p ≠ .decision) (h4 : p ≠ .bills) (h5 : p ≠ .host) (h6 : p ≠ .tally) :
    p.same s (voidByReversal g b x t) ↔ p.same s t := by
  unfold voidByReversal
  (repeat' split) <;> simp [h0, h1, h2, h3, h4, h5, h6]

@[simp] theorem same_serveVoid (g : BitVec 16) (n m : Nat) (h0 : p ≠ .journal) (h1 : p ≠ .store) (h2 : p ≠ .events) (h3 : p ≠ .decision) (h4 : p ≠ .bills) (h5 : p ≠ .host) (h6 : p ≠ .tally) :
    p.same s (serveVoid g n m t) ↔ p.same s t := by
  unfold serveVoid
  (repeat' split) <;> simp [h0, h1, h2, h3, h4, h5, h6]

@[simp] theorem same_queueUpload (n m : Nat) (bs : List Byte) (h0 : p ≠ .arbiter) :
    p.same s (queueUpload n m bs t) ↔ p.same s t := by
  unfold queueUpload
  (repeat' split) <;> simp [h0]

@[simp] theorem same_withdrawUpload (h0 : p ≠ .arbiter) :
    p.same s (withdrawUpload t) ↔ p.same s t := by
  unfold withdrawUpload
  (repeat' split) <;> simp [h0]

@[simp] theorem same_selectAt (loc : Loc) (h0 : p ≠ .journal) (h1 : p ≠ .uploader) (h2 : p ≠ .uploadTimer) (h3 : p ≠ .arbiter) :
    p.same s (selectAt loc t) ↔ p.same s t := by
  unfold selectAt
  (repeat' split) <;> simp [h0, h1, h2, h3]

@[simp] theorem same_selectRecord (h0 : p ≠ .journal) (h1 : p ≠ .uploader) (h2 : p ≠ .uploadTimer) (h3 : p ≠ .arbiter) :
    p.same s (selectRecord t) ↔ p.same s t := by
  unfold selectRecord
  (repeat' split) <;> simp [h0, h1, h2, h3]

@[simp] theorem same_selectIfIdle (h0 : p ≠ .journal) (h1 : p ≠ .uploader) (h2 : p ≠ .uploadTimer) (h3 : p ≠ .arbiter) :
    p.same s (selectIfIdle t) ↔ p.same s t := by
  unfold selectIfIdle
  (repeat' split) <;> simp [h0, h1, h2, h3]

@[simp] theorem same_uploaderUp (h0 : p ≠ .journal) (h1 : p ≠ .uploader) (h2 : p ≠ .uploadTimer) (h3 : p ≠ .arbiter) :
    p.same s (uploaderUp t) ↔ p.same s t := by
  unfold uploaderUp
  (repeat' split) <;> simp [h0, h1, h2, h3]

@[simp] theorem same_newAttempt (loc : Loc) (n m : Nat) (h0 : p ≠ .uploader) (h1 : p ≠ .uploadTimer) (h2 : p ≠ .arbiter) :
    p.same s (newAttempt loc n m t) ↔ p.same s t := by
  unfold newAttempt
  (repeat' split) <;> simp [h0, h1, h2]

@[simp] theorem same_giveUp (loc : Loc) (h0 : p ≠ .journal) (h1 : p ≠ .uploader) (h2 : p ≠ .uploadTimer) (h3 : p ≠ .arbiter) :
    p.same s (giveUp loc t) ↔ p.same s t := by
  unfold giveUp
  (repeat' split) <;> simp [h0, h1, h2, h3]

@[simp] theorem same_uploadExpiry (h0 : p ≠ .journal) (h1 : p ≠ .uploader) (h2 : p ≠ .uploadTimer) (h3 : p ≠ .arbiter) :
    p.same s (uploadExpiry t) ↔ p.same s t := by
  unfold uploadExpiry
  (repeat' split) <;> simp [h0, h1, h2, h3]

@[simp] theorem same_returnOutstanding (h0 : p ≠ .journal) :
    p.same s (returnOutstanding t) ↔ p.same s t := by
  unfold returnOutstanding
  (repeat' split) <;> simp [h0]

@[simp] theorem same_uploaderOff (h0 : p ≠ .journal) (h1 : p ≠ .uploader) (h2 : p ≠ .uploadTimer) (h3 : p ≠ .arbiter) :
    p.same s (uploaderOff t) ↔ p.same s t := by
  unfold uploaderOff
  (repeat' split) <;> simp [h0, h1, h2, h3]

@[simp] theorem same_uploaderRestart (h0 : p ≠ .journal) (h1 : p ≠ .uploader) (h2 : p ≠ .uploadTimer) (h3 : p ≠ .arbiter) :
    p.same s (uploaderRestart t) ↔ p.same s t := by
  unfold uploaderRestart
  (repeat' split) <;> simp [h0, h1, h2, h3]

@[simp] theorem same_confirmUploader (loc : Loc) (h0 : p ≠ .journal) (h1 : p ≠ .uploader) (h2 : p ≠ .uploadTimer) (h3 : p ≠ .arbiter) :
    p.same s (confirmUploader loc t) ↔ p.same s t := by
  unfold confirmUploader
  (repeat' split) <;> simp [h0, h1, h2, h3]

@[simp] theorem same_finishRecord (loc : Loc) (n : Nat) (b : Bool) (h0 : p ≠ .journal) (h1 : p ≠ .uploader) (h2 : p ≠ .uploadTimer) (h3 : p ≠ .arbiter) (h4 : p ≠ .store) (h5 : p ≠ .tally) (h6 : p ≠ .events) :
    p.same s (finishRecord loc n b t) ↔ p.same s t := by
  unfold finishRecord
  (repeat' split) <;> simp [h0, h1, h2, h3, h4, h5, h6]

@[simp] theorem same_takeConfirm (n : Nat) (b : Bool) (h0 : p ≠ .journal) (h1 : p ≠ .uploader) (h2 : p ≠ .uploadTimer) (h3 : p ≠ .arbiter) (h4 : p ≠ .store) (h5 : p ≠ .tally) (h6 : p ≠ .events) (h7 : p ≠ .decision) :
    p.same s (takeConfirm n b t) ↔ p.same s t := by
  unfold takeConfirm
  (repeat' split) <;> simp [h0, h1, h2, h3, h4, h5, h6, h7]

@[simp] theorem same_recordSucceeded (q : InProgram) (h0 : p ≠ .journal) (h1 : p ≠ .store) (h2 : p ≠ .events) (h3 : p ≠ .decision) (h4 : p ≠ .bills) (h5 : p ≠ .host) (h6 : p ≠ .tally) (h7 : p ≠ .uploader) (h8 : p ≠ .uploadTimer) (h9 : p ≠ .arbiter) :
    p.same s (recordSucceeded q t) ↔ p.same s t := by
  unfold recordSucceeded
  (repeat' split) <;> simp [h0, h1, h2, h3, h4, h5, h6, h7, h8, h9]

@[simp] theorem same_recordFailed (q : InProgram) (h0 : p ≠ .journal) (h1 : p ≠ .store) (h2 : p ≠ .events) (h3 : p ≠ .decision) (h4 : p ≠ .bills) (h5 : p ≠ .host) (h6 : p ≠ .tally) :
    p.same s (recordFailed q t) ↔ p.same s t := by
  unfold recordFailed
  (repeat' split) <;> simp [h0, h1, h2, h3, h4, h5, h6]

@[simp] theorem same_takeRecordResult (r : OpResult) (h0 : p ≠ .journal) (h1 : p ≠ .store) (h2 : p ≠ .events) (h3 : p ≠ .decision) (h4 : p ≠ .bills) (h5 : p ≠ .host) (h6 : p ≠ .tally) (h7 : p ≠ .uploader) (h8 : p ≠ .uploadTimer) (h9 : p ≠ .arbiter) :
    p.same s (takeRecordResult r t) ↔ p.same s t := by
  unfold takeRecordResult
  dsimp only
  (repeat' split) <;> simp [h0, h1, h2, h3, h4, h5, h6, h7, h8, h9]

@[simp] theorem same_approveOffline (i : Nat) (a : Auth) (r : IrtRow) (b : Bool) (h0 : p ≠ .journal) (h1 : p ≠ .store) (h2 : p ≠ .events) (h3 : p ≠ .decision) (h4 : p ≠ .bills) (h5 : p ≠ .host) (h6 : p ≠ .tally) :
    p.same s (approveOffline i a r b t) ↔ p.same s t := by
  unfold approveOffline
  (repeat' split) <;> simp [h0, h1, h2, h3, h4, h5, h6]

@[simp] theorem same_goOnline (i : Nat) (a : Auth) (h0 : p ≠ .decision) (h1 : p ≠ .arbiter) (h2 : p ≠ .replyTimers) :
    p.same s (goOnline i a t) ↔ p.same s t := by
  unfold goOnline
  (repeat' split) <;> simp [h0, h1, h2]

@[simp] theorem same_takeDecision (i : Nat) (a : Auth) (r : Option IrtRow) (h0 : p ≠ .journal) (h1 : p ≠ .store) (h2 : p ≠ .events) (h3 : p ≠ .decision) (h4 : p ≠ .bills) (h5 : p ≠ .host) (h6 : p ≠ .tally) (h7 : p ≠ .arbiter) (h8 : p ≠ .replyTimers) :
    p.same s (takeDecision i a r t) ↔ p.same s t := by
  unfold takeDecision
  (repeat' split) <;> simp [h0, h1, h2, h3, h4, h5, h6, h7, h8]

@[simp] theorem same_accept (i b h x : Nat) (k : BitVec 32) (n m : Nat) (h0 : p ≠ .journal) (h1 : p ≠ .store) (h2 : p ≠ .events) (h3 : p ≠ .decision) (h4 : p ≠ .bills) (h5 : p ≠ .host) (h6 : p ≠ .tally) (h7 : p ≠ .arbiter) (h8 : p ≠ .replyTimers) :
    p.same s (accept i b h x k n m t) ↔ p.same s t := by
  unfold accept
  (repeat' split) <;> simp [h0, h1, h2, h3, h4, h5, h6, h7, h8]

@[simp] theorem same_serveAuthorize (g : BitVec 16) (b h x : Nat) (k : BitVec 32) (n m : Nat) (h0 : p ≠ .journal) (h1 : p ≠ .store) (h2 : p ≠ .events) (h3 : p ≠ .decision) (h4 : p ≠ .bills) (h5 : p ≠ .host) (h6 : p ≠ .tally) (h7 : p ≠ .arbiter) (h8 : p ≠ .replyTimers) :
    p.same s (serveAuthorize g b h x k n m t) ↔ p.same s t := by
  unfold serveAuthorize
  (repeat' split) <;> simp [h0, h1, h2, h3, h4, h5, h6, h7, h8]

@[simp] theorem same_standIn (i : Nat) (h0 : p ≠ .journal) (h1 : p ≠ .store) (h2 : p ≠ .events) (h3 : p ≠ .decision) (h4 : p ≠ .bills) (h5 : p ≠ .host) (h6 : p ≠ .tally) (h7 : p ≠ .arbiter) (h8 : p ≠ .replyTimers) :
    p.same s (standIn i t) ↔ p.same s t := by
  unfold standIn
  dsimp only
  (repeat' split) <;> simp [h0, h1, h2, h3, h4, h5, h6, h7, h8]

@[simp] theorem same_standInAll (h0 : p ≠ .journal) (h1 : p ≠ .store) (h2 : p ≠ .events) (h3 : p ≠ .decision) (h4 : p ≠ .bills) (h5 : p ≠ .host) (h6 : p ≠ .tally) (h7 : p ≠ .arbiter) (h8 : p ≠ .replyTimers) :
    p.same s (standInAll t) ↔ p.same s t := by
  unfold standInAll
  generalize awaitingByTxn t = q
  induction q generalizing t with
  | nil => simp
  | cons i rest ih => simp [ih, h0, h1, h2, h3, h4, h5, h6, h7, h8]

@[simp] theorem same_declineReset (i : Nat) (h0 : p ≠ .decision) (h1 : p ≠ .bills) (h2 : p ≠ .events) (h3 : p ≠ .replyTimers) :
    p.same s (declineReset i t) ↔ p.same s t := by
  unfold declineReset
  (repeat' split) <;> simp [h0, h1, h2, h3]

@[simp] theorem same_declineAll (h0 : p ≠ .decision) (h1 : p ≠ .bills) (h2 : p ≠ .events) (h3 : p ≠ .replyTimers) :
    p.same s (declineAll t) ↔ p.same s t := by
  unfold declineAll
  generalize awaitingSlots t = q
  induction q generalizing t with
  | nil => simp
  | cons i rest ih => simp [ih, h0, h1, h2, h3]

@[simp] theorem same_takeAuthReply (n m : Nat) (b : Bool) (h0 : p ≠ .decision) (h1 : p ≠ .bills) (h2 : p ≠ .events) (h3 : p ≠ .replyTimers) (h4 : p ≠ .arbiter) :
    p.same s (takeAuthReply n m b t) ↔ p.same s t := by
  unfold takeAuthReply
  (repeat' split) <;> simp [h0, h1, h2, h3, h4]

@[simp] theorem same_serveReadResult (g : BitVec 16) (i : Nat) (h0 : p ≠ .decision) (h1 : p ≠ .events) (h2 : p ≠ .host) :
    p.same s (serveReadResult g i t) ↔ p.same s t := by
  unfold serveReadResult
  (repeat' split) <;> simp [h0, h1, h2]

@[simp] theorem same_answerCommand (c : Instr) (r : Reply) (h0 : p ≠ .arbiter) :
    p.same s (answerCommand c r t) ↔ p.same s t := by
  unfold answerCommand
  (repeat' split) <;> simp [h0]

@[simp] theorem same_setGate (g : Gate) (h0 : p ≠ .arbiter) :
    p.same s (setGate g t) ↔ p.same s t := by
  unfold setGate
  (repeat' split) <;> simp [h0]

@[simp] theorem same_openGate (r : Reply) (h0 : p ≠ .arbiter) :
    p.same s (openGate r t) ↔ p.same s t := by
  unfold openGate
  (repeat' split) <;> simp [h0]

@[simp] theorem same_placeVerify (g : BitVec 16) (r : VerifyReport) (h0 : p ≠ .arbiter) :
    p.same s (placeVerify g r t) ↔ p.same s t := by
  unfold placeVerify
  (repeat' split) <;> simp [h0]

@[simp] theorem same_placeWaitingVerify (h0 : p ≠ .arbiter) :
    p.same s (placeWaitingVerify t) ↔ p.same s t := by
  unfold placeWaitingVerify
  (repeat' split) <;> simp [h0]

@[simp] theorem same_grantFrame (h0 : p ≠ .arbiter) :
    p.same s (grantFrame t) ↔ p.same s t := by
  unfold grantFrame
  (repeat' split) <;> simp [h0]

@[simp] theorem same_invalidTable (x : TableName) (n : Nat) (h0 : p ≠ .irt) (h1 : p ≠ .profile) :
    p.same s (invalidTable x n t) ↔ p.same s t := by
  unfold invalidTable
  (repeat' split) <;> simp [h0, h1]

@[simp] theorem same_loadingTable (x : TableName) (n : Nat) (h0 : p ≠ .irt) (h1 : p ≠ .profile) (h2 : p ≠ .journal) (h3 : p ≠ .events) :
    p.same s (loadingTable x n t) ↔ p.same s t := by
  unfold loadingTable
  (repeat' split) <;> simp [h0, h1, h2, h3]

@[simp] theorem same_validIrt (h : IrtHeader) (h0 : p ≠ .irt) :
    p.same s (validIrt h t) ↔ p.same s t := by
  unfold validIrt
  (repeat' split) <;> simp [h0]

@[simp] theorem same_validProfile (h : ProfileHeader) (h0 : p ≠ .profile) :
    p.same s (validProfile h t) ↔ p.same s t := by
  unfold validProfile
  (repeat' split) <;> simp [h0]

@[simp] theorem same_endSession (h0 : p ≠ .loader) :
    p.same s (endSession t) ↔ p.same s t := by
  unfold endSession
  (repeat' split) <;> simp [h0]

@[simp] theorem same_setSession (q : Session) (h0 : p ≠ .loader) :
    p.same s (setSession q t) ↔ p.same s t := by
  unfold setSession
  (repeat' split) <;> simp [h0]

@[simp] theorem same_setClose (q : CloseJob) (h0 : p ≠ .loader) :
    p.same s (setClose q t) ↔ p.same s t := by
  unfold setClose
  (repeat' split) <;> simp [h0]

@[simp] theorem same_takeLoadOpen (c : Instr) (x : BitVec 8) (n m : Nat) (l : Line) (h0 : p ≠ .irt) (h1 : p ≠ .profile) (h2 : p ≠ .journal) (h3 : p ≠ .events) (h4 : p ≠ .loader) (h5 : p ≠ .arbiter) (h6 : p ≠ .store) :
    p.same s (takeLoadOpen c x n m l t) ↔ p.same s t := by
  unfold takeLoadOpen
  (repeat' split) <;> simp [h0, h1, h2, h3, h4, h5, h6]

@[simp] theorem same_takeTableErase (b : Bool) (h0 : p ≠ .irt) (h1 : p ≠ .profile) (h2 : p ≠ .events) (h3 : p ≠ .loader) (h4 : p ≠ .arbiter) (h5 : p ≠ .store) :
    p.same s (takeTableErase b t) ↔ p.same s t := by
  unfold takeTableErase
  (repeat' split) <;> simp [h0, h1, h2, h3, h4, h5]

@[simp] theorem same_programBuffer (q : Session) (h0 : p ≠ .loader) (h1 : p ≠ .store) :
    p.same s (programBuffer q t) ↔ p.same s t := by
  unfold programBuffer
  (repeat' split) <;> simp [h0, h1]

@[simp] theorem same_takeRow (q : Session) (bs : List Byte) (h0 : p ≠ .loader) (h1 : p ≠ .store) :
    p.same s (takeRow q bs t) ↔ p.same s t := by
  unfold takeRow
  (repeat' split) <;> simp [h0, h1]

@[simp] theorem same_takeLoadRow (c : Instr) (x : BitVec 8) (n : Nat) (bs : List Byte) (h0 : p ≠ .loader) (h1 : p ≠ .store) (h2 : p ≠ .arbiter) :
    p.same s (takeLoadRow c x n bs t) ↔ p.same s t := by
  unfold takeLoadRow
  (repeat' split) <;> simp [h0, h1, h2]

@[simp] theorem same_closeInvalid (q : Session) (k : Condition) (n : Nat) (h0 : p ≠ .irt) (h1 : p ≠ .profile) (h2 : p ≠ .loader) (h3 : p ≠ .arbiter) :
    p.same s (closeInvalid q k n t) ↔ p.same s t := by
  unfold closeInvalid
  (repeat' split) <;> simp [h0, h1, h2, h3]

@[simp] theorem same_closeValid (q : Session) (n : Nat) (h0 : p ≠ .loader) (h1 : p ≠ .arbiter) (h2 : p ≠ .events) :
    p.same s (closeValid q n t) ↔ p.same s t := by
  unfold closeValid
  (repeat' split) <;> simp [h0, h1, h2]

@[simp] theorem same_closeHeader (q : Session) (j : CloseJob) (h0 : p ≠ .irt) (h1 : p ≠ .profile) (h2 : p ≠ .loader) (h3 : p ≠ .arbiter) (h4 : p ≠ .store) :
    p.same s (closeHeader q j t) ↔ p.same s t := by
  unfold closeHeader
  (repeat' split) <;> simp [h0, h1, h2, h3, h4]

@[simp] theorem same_closeContinue (q : Session) (j : CloseJob) (h0 : p ≠ .irt) (h1 : p ≠ .profile) (h2 : p ≠ .loader) (h3 : p ≠ .arbiter) (h4 : p ≠ .store) :
    p.same s (closeContinue q j t) ↔ p.same s t := by
  unfold closeContinue
  (repeat' split) <;> simp [h0, h1, h2, h3, h4]

@[simp] theorem same_takeLoadClose (c : Instr) (x : BitVec 8) (n : Nat) (k : BitVec 16) (b : Bool) (h0 : p ≠ .irt) (h1 : p ≠ .profile) (h2 : p ≠ .loader) (h3 : p ≠ .arbiter) (h4 : p ≠ .store) :
    p.same s (takeLoadClose c x n k b t) ↔ p.same s t := by
  unfold takeLoadClose
  (repeat' split) <;> simp [h0, h1, h2, h3, h4]

@[simp] theorem same_closeVerifyIrt (q : Session) (h0 : p ≠ .irt) (h1 : p ≠ .profile) (h2 : p ≠ .loader) (h3 : p ≠ .arbiter) (h4 : p ≠ .events) :
    p.same s (closeVerifyIrt q t) ↔ p.same s t := by
  unfold closeVerifyIrt
  (repeat' split) <;> simp [h0, h1, h2, h3, h4]

@[simp] theorem same_closeVerifyProfile (q : Session) (h0 : p ≠ .irt) (h1 : p ≠ .profile) (h2 : p ≠ .loader) (h3 : p ≠ .arbiter) (h4 : p ≠ .events) (h5 : p ≠ .journal) :
    p.same s (closeVerifyProfile q t) ↔ p.same s t := by
  unfold closeVerifyProfile
  (repeat' split) <;> simp [h0, h1, h2, h3, h4, h5]

@[simp] theorem same_closeVerify (q : Session) (h0 : p ≠ .irt) (h1 : p ≠ .profile) (h2 : p ≠ .loader) (h3 : p ≠ .arbiter) (h4 : p ≠ .events) (h5 : p ≠ .journal) :
    p.same s (closeVerify q t) ↔ p.same s t := by
  unfold closeVerify
  (repeat' split) <;> simp [h0, h1, h2, h3, h4, h5]

@[simp] theorem same_pageFault (b : Bool) (h0 : p ≠ .events) (h1 : p ≠ .store) :
    p.same s (pageFault b t) ↔ p.same s t := by
  unfold pageFault
  (repeat' split) <;> simp [h0, h1]

@[simp] theorem same_takeClosingPage (q : Session) (j : CloseJob) (b : Bool) (h0 : p ≠ .irt) (h1 : p ≠ .profile) (h2 : p ≠ .journal) (h3 : p ≠ .events) (h4 : p ≠ .loader) (h5 : p ≠ .arbiter) (h6 : p ≠ .store) :
    p.same s (takeClosingPage q j b t) ↔ p.same s t := by
  unfold takeClosingPage
  (repeat' split) <;> simp [h0, h1, h2, h3, h4, h5, h6]

@[simp] theorem same_takePageResult (b : Bool) (h0 : p ≠ .irt) (h1 : p ≠ .profile) (h2 : p ≠ .journal) (h3 : p ≠ .events) (h4 : p ≠ .loader) (h5 : p ≠ .arbiter) (h6 : p ≠ .store) :
    p.same s (takePageResult b t) ↔ p.same s t := by
  unfold takePageResult
  dsimp only
  (repeat' split) <;> simp [h0, h1, h2, h3, h4, h5, h6]

@[simp] theorem same_endPendingVerify (h0 : p ≠ .loader) (h1 : p ≠ .slotTimer) :
    p.same s (endPendingVerify t) ↔ p.same s t := by
  cases p <;> first | contradiction | simp [endPendingVerify, Part.same]

@[simp] theorem same_takeBroadcastVerify (g : BitVec 16) (x : TableName) (h0 : p ≠ .arbiter) (h1 : p ≠ .loader) (h2 : p ≠ .slotTimer) :
    p.same s (takeBroadcastVerify g x t) ↔ p.same s t := by
  unfold takeBroadcastVerify
  split
  · simp [h0, h1, h2]
  · cases p <;> first | contradiction | simp [Part.same]

@[simp] theorem same_takeLoadVerify (c : Instr) (g : BitVec 16) (x : BitVec 8) (h0 : p ≠ .arbiter) (h1 : p ≠ .loader) (h2 : p ≠ .slotTimer) :
    p.same s (takeLoadVerify c g x t) ↔ p.same s t := by
  unfold takeLoadVerify
  (repeat' split) <;> simp [h0, h1, h2]

@[simp] theorem same_slotExpiry (h0 : p ≠ .arbiter) (h1 : p ≠ .loader) :
    p.same s (slotExpiry t) ↔ p.same s t := by
  unfold slotExpiry
  (repeat' split) <;> simp [h0, h1]

@[simp] theorem same_takeDumpRow (c : Instr) (x : BitVec 8) (n : Nat) (h0 : p ≠ .arbiter) :
    p.same s (takeDumpRow c x n t) ↔ p.same s t := by
  unfold takeDumpRow
  (repeat' split) <;> simp [h0]

@[simp] theorem same_abortSession (h0 : p ≠ .irt) (h1 : p ≠ .profile) (h2 : p ≠ .loader) :
    p.same s (abortSession t) ↔ p.same s t := by
  unfold abortSession
  (repeat' split) <;> simp [h0, h1, h2]

@[simp] theorem same_serveReadRange (g : BitVec 16) (n m : Nat) (h0 : p ≠ .host) :
    p.same s (serveReadRange g n m t) ↔ p.same s t := by
  unfold serveReadRange
  (repeat' split) <;> simp [h0]

@[simp] theorem same_queuePresence (h0 : p ≠ .arbiter) :
    p.same s (queuePresence t) ↔ p.same s t := by
  unfold queuePresence
  (repeat' split) <;> simp [h0]

@[simp] theorem same_startPresence (h0 : p ≠ .presenceTimer) :
    p.same s (startPresence t) ↔ p.same s t := by
  cases p <;> first | contradiction | (unfold startPresence; (repeat' split) <;> simp [Part.same, params, queueMgmtReply, placeVerify] <;> (repeat' split) <;> simp [Part.same])

@[simp] theorem same_presenceExpiry (h0 : p ≠ .arbiter) (h1 : p ≠ .presenceTimer) :
    p.same s (presenceExpiry t) ↔ p.same s t := by
  unfold presenceExpiry
  (repeat' split) <;> simp [h0, h1]

@[simp] theorem same_beaconTaken (n m : Nat) (h0 : p ≠ .beaconWatch) (h1 : p ≠ .link) :
    p.same s (beaconTaken n m t) ↔ p.same s t := by
  cases p <;> first | contradiction | (unfold beaconTaken; (repeat' split) <;> simp [Part.same, params, queueMgmtReply, placeVerify] <;> (repeat' split) <;> simp [Part.same])

@[simp] theorem same_beaconByState (l : LinkState) (h0 : p ≠ .journal) (h1 : p ≠ .uploader) (h2 : p ≠ .uploadTimer) (h3 : p ≠ .arbiter) (h4 : p ≠ .presenceTimer) (h5 : p ≠ .link) :
    p.same s (beaconByState l t) ↔ p.same s t := by
  unfold beaconByState
  (repeat' split) <;> simp [h0, h1, h2, h3, h4, h5]

@[simp] theorem same_takeBeacon (n m : Nat) (h0 : p ≠ .journal) (h1 : p ≠ .uploader) (h2 : p ≠ .uploadTimer) (h3 : p ≠ .arbiter) (h4 : p ≠ .presenceTimer) (h5 : p ≠ .link) (h6 : p ≠ .beaconWatch) (h7 : p ≠ .events) :
    p.same s (takeBeacon n m t) ↔ p.same s t := by
  unfold takeBeacon
  (repeat' split) <;> simp [h0, h1, h2, h3, h4, h5, h6, h7]

@[simp] theorem same_withdrawAllAuth (h0 : p ≠ .arbiter) :
    p.same s (withdrawAllAuth t) ↔ p.same s t := by
  unfold withdrawAllAuth
  (repeat' split) <;> simp [h0]

@[simp] theorem same_linkLeavesUp (h0 : p ≠ .journal) (h1 : p ≠ .store) (h2 : p ≠ .events) (h3 : p ≠ .decision) (h4 : p ≠ .bills) (h5 : p ≠ .host) (h6 : p ≠ .tally) (h7 : p ≠ .arbiter) (h8 : p ≠ .replyTimers) (h9 : p ≠ .uploader) (h10 : p ≠ .uploadTimer) :
    p.same s (linkLeavesUp t) ↔ p.same s t := by
  unfold linkLeavesUp
  (repeat' split) <;> simp [h0, h1, h2, h3, h4, h5, h6, h7, h8, h9, h10]

@[simp] theorem same_beaconExpiry (h0 : p ≠ .journal) (h1 : p ≠ .store) (h2 : p ≠ .events) (h3 : p ≠ .decision) (h4 : p ≠ .bills) (h5 : p ≠ .host) (h6 : p ≠ .tally) (h7 : p ≠ .arbiter) (h8 : p ≠ .replyTimers) (h9 : p ≠ .uploader) (h10 : p ≠ .uploadTimer) (h11 : p ≠ .link) :
    p.same s (beaconExpiry t) ↔ p.same s t := by
  unfold beaconExpiry
  (repeat' split) <;> simp [h0, h1, h2, h3, h4, h5, h6, h7, h8, h9, h10, h11]

@[simp] theorem same_leaveSearch (n : Nat) (h0 : p ≠ .presenceTimer) (h1 : p ≠ .arbiter) :
    p.same s (leaveSearch n t) ↔ p.same s t := by
  cases p <;> first | contradiction | (unfold leaveSearch; (repeat' split) <;> simp [Part.same, params, queueMgmtReply, placeVerify] <;> (repeat' split) <;> simp [Part.same])

@[simp] theorem same_assignFromSearch (n m : Nat) (h0 : p ≠ .journal) (h1 : p ≠ .uploader) (h2 : p ≠ .uploadTimer) (h3 : p ≠ .arbiter) (h4 : p ≠ .presenceTimer) (h5 : p ≠ .link) (h6 : p ≠ .events) :
    p.same s (assignFromSearch n m t) ↔ p.same s t := by
  unfold assignFromSearch
  dsimp only
  (repeat' split) <;> simp [h0, h1, h2, h3, h4, h5, h6]

@[simp] theorem same_assignTaken (n m : Nat) (h0 : p ≠ .journal) (h1 : p ≠ .uploader) (h2 : p ≠ .uploadTimer) (h3 : p ≠ .arbiter) (h4 : p ≠ .presenceTimer) (h5 : p ≠ .link) (h6 : p ≠ .events) :
    p.same s (assignTaken n m t) ↔ p.same s t := by
  unfold assignTaken
  (repeat' split) <;> simp [h0, h1, h2, h3, h4, h5, h6]

@[simp] theorem same_takeAssign (c : Instr) (i : BitVec 48) (n m : Nat) (h0 : p ≠ .journal) (h1 : p ≠ .uploader) (h2 : p ≠ .uploadTimer) (h3 : p ≠ .arbiter) (h4 : p ≠ .presenceTimer) (h5 : p ≠ .link) (h6 : p ≠ .events) :
    p.same s (takeAssign c i n m t) ↔ p.same s t := by
  unfold takeAssign
  (repeat' split) <;> simp [h0, h1, h2, h3, h4, h5, h6]

@[simp] theorem same_releaseTraffic (h0 : p ≠ .journal) (h1 : p ≠ .store) (h2 : p ≠ .events) (h3 : p ≠ .decision) (h4 : p ≠ .bills) (h5 : p ≠ .host) (h6 : p ≠ .tally) (h7 : p ≠ .arbiter) (h8 : p ≠ .replyTimers) (h9 : p ≠ .uploader) (h10 : p ≠ .uploadTimer) (h11 : p ≠ .loader) (h12 : p ≠ .slotTimer) (h13 : p ≠ .irt) (h14 : p ≠ .profile) :
    p.same s (releaseTraffic t) ↔ p.same s t := by
  unfold releaseTraffic
  (repeat' split) <;> simp [h0, h1, h2, h3, h4, h5, h6, h7, h8, h9, h10, h11, h12, h13, h14]

@[simp] theorem same_releaseLink (h0 : p ≠ .events) (h1 : p ≠ .link) (h2 : p ≠ .beaconWatch) (h3 : p ≠ .presenceTimer) :
    p.same s (releaseLink t) ↔ p.same s t := by
  cases p <;> first | contradiction | simp [releaseLink, Part.same, raiseLinkChange, State.setLatches]

@[simp] theorem same_takeRelease (c : Instr) (h0 : p ≠ .journal) (h1 : p ≠ .store) (h2 : p ≠ .events) (h3 : p ≠ .decision) (h4 : p ≠ .bills) (h5 : p ≠ .host) (h6 : p ≠ .tally) (h7 : p ≠ .arbiter) (h8 : p ≠ .replyTimers) (h9 : p ≠ .uploader) (h10 : p ≠ .uploadTimer) (h11 : p ≠ .loader) (h12 : p ≠ .slotTimer) (h13 : p ≠ .link) (h14 : p ≠ .beaconWatch) (h15 : p ≠ .presenceTimer) (h16 : p ≠ .irt) (h17 : p ≠ .profile) :
    p.same s (takeRelease c t) ↔ p.same s t := by
  unfold takeRelease
  (repeat' split) <;> simp [h0, h1, h2, h3, h4, h5, h6, h7, h8, h9, h10, h11, h12, h13, h14, h15, h16, h17]

@[simp] theorem same_emptyQueues (h0 : p ≠ .arbiter) :
    p.same s (emptyQueues t) ↔ p.same s t := by
  unfold emptyQueues
  (repeat' split) <;> simp [h0]

@[simp] theorem same_takeLinkReset (c : Instr) (h0 : p ≠ .decision) (h1 : p ≠ .bills) (h2 : p ≠ .events) (h3 : p ≠ .replyTimers) (h4 : p ≠ .loader) (h5 : p ≠ .slotTimer) (h6 : p ≠ .irt) (h7 : p ≠ .profile) (h8 : p ≠ .journal) (h9 : p ≠ .uploader) (h10 : p ≠ .uploadTimer) (h11 : p ≠ .arbiter) :
    p.same s (takeLinkReset c t) ↔ p.same s t := by
  unfold takeLinkReset
  (repeat' split) <;> simp [h0, h1, h2, h3, h4, h5, h6, h7, h8, h9, h10, h11]

@[simp] theorem same_takeQueryStatus (c : Instr) (h0 : p ≠ .arbiter) :
    p.same s (takeQueryStatus c t) ↔ p.same s t := by
  unfold takeQueryStatus
  (repeat' split) <;> simp [h0]

@[simp] theorem same_takeUnknownCommand (c : Instr) (h0 : p ≠ .arbiter) :
    p.same s (takeUnknownCommand c t) ↔ p.same s t := by
  unfold takeUnknownCommand
  (repeat' split) <;> simp [h0]

@[simp] theorem same_serveSetMasks (g : BitVec 16) (m n : BitVec 16) (h0 : p ≠ .events) (h1 : p ≠ .host) :
    p.same s (serveSetMasks g m n t) ↔ p.same s t := by
  unfold serveSetMasks
  (repeat' split) <;> simp [h0, h1]

@[simp] theorem same_serveNextEvent (g : BitVec 16) (h0 : p ≠ .events) (h1 : p ≠ .host) :
    p.same s (serveNextEvent g t) ↔ p.same s t := by
  unfold serveNextEvent
  (repeat' split) <;> simp [h0, h1]

@[simp] theorem same_serveSleep (g : BitVec 16) (h0 : p ≠ .host) :
    p.same s (serveSleep g t) ↔ p.same s t := by
  unfold serveSleep
  (repeat' split) <;> simp [h0]

@[simp] theorem same_servePortReset (g : BitVec 16) (h0 : p ≠ .events) (h1 : p ≠ .host) :
    p.same s (servePortReset g t) ↔ p.same s t := by
  unfold servePortReset
  (repeat' split) <;> simp [h0, h1]

@[simp] theorem same_serveStatus (g : BitVec 16) (h0 : p ≠ .host) :
    p.same s (serveStatus g t) ↔ p.same s t := by
  unfold serveStatus
  (repeat' split) <;> simp [h0]

@[simp] theorem same_serveUnknown (c : Instr) (g : BitVec 16) (h0 : p ≠ .host) :
    p.same s (serveUnknown c g t) ↔ p.same s t := by
  unfold serveUnknown
  (repeat' split) <;> simp [h0]

@[simp] theorem same_serveRequest (c : Instr) (h0 : p ≠ .journal) (h1 : p ≠ .store) (h2 : p ≠ .events) (h3 : p ≠ .decision) (h4 : p ≠ .bills) (h5 : p ≠ .host) (h6 : p ≠ .tally) (h7 : p ≠ .arbiter) (h8 : p ≠ .replyTimers) :
    p.same s (serveRequest c t) ↔ p.same s t := by
  unfold serveRequest
  (repeat' split) <;> simp [h0, h1, h2, h3, h4, h5, h6, h7, h8]

@[simp] theorem same_countHostBad (h0 : p ≠ .host) :
    p.same s (countHostBad t) ↔ p.same s t := by
  unfold countHostBad
  (repeat' split) <;> simp [h0]

@[simp] theorem same_wakePort (h0 : p ≠ .host) :
    p.same s (wakePort t) ↔ p.same s t := by
  unfold wakePort
  (repeat' split) <;> simp [h0]

@[simp] theorem same_answerFrame (c : BitVec 8) (g : BitVec 16) (a : Answer) (h0 : p ≠ .host) :
    p.same s (answerFrame c g a t) ↔ p.same s t := by
  unfold answerFrame
  (repeat' split) <;> simp [h0]

@[simp] theorem same_requestArrives (c : Instr) (h0 : p ≠ .journal) (h1 : p ≠ .store) (h2 : p ≠ .events) (h3 : p ≠ .decision) (h4 : p ≠ .bills) (h5 : p ≠ .host) (h6 : p ≠ .tally) (h7 : p ≠ .arbiter) (h8 : p ≠ .replyTimers) :
    p.same s (requestArrives c t) ↔ p.same s t := by
  unfold requestArrives
  (repeat' split) <;> simp [h0, h1, h2, h3, h4, h5, h6, h7, h8]

@[simp] theorem same_hostDataArrives (g : BitVec 16) (bs : List Byte) (h0 : p ≠ .host) (h1 : p ≠ .arbiter) :
    p.same s (hostDataArrives g bs t) ↔ p.same s t := by
  unfold hostDataArrives
  (repeat' split) <;> simp [h0, h1]

@[simp] theorem same_statusLock (c : Instr) (h0 : p ≠ .pins) :
    p.same s (statusLock c t) ↔ p.same s t := by
  unfold statusLock
  (repeat' split) <;> simp [h0]

@[simp] theorem same_hostFrameTaken (c : Instr) (h0 : p ≠ .journal) (h1 : p ≠ .store) (h2 : p ≠ .events) (h3 : p ≠ .decision) (h4 : p ≠ .bills) (h5 : p ≠ .host) (h6 : p ≠ .tally) (h7 : p ≠ .arbiter) (h8 : p ≠ .replyTimers) :
    p.same s (hostFrameTaken c t) ↔ p.same s t := by
  unfold hostFrameTaken
  (repeat' split) <;> simp [h0, h1, h2, h3, h4, h5, h6, h7, h8]

@[simp] theorem same_hostArrives (c : Instr) (h0 : p ≠ .journal) (h1 : p ≠ .store) (h2 : p ≠ .events) (h3 : p ≠ .decision) (h4 : p ≠ .bills) (h5 : p ≠ .host) (h6 : p ≠ .tally) (h7 : p ≠ .arbiter) (h8 : p ≠ .replyTimers) (h9 : p ≠ .pins) :
    p.same s (hostArrives c t) ↔ p.same s t := by
  unfold hostArrives
  dsimp only
  (repeat' split) <;> simp [h0, h1, h2, h3, h4, h5, h6, h7, h8, h9]

@[simp] theorem same_judgeHostFrame (bs : List Byte) (h0 : p ≠ .journal) (h1 : p ≠ .store) (h2 : p ≠ .events) (h3 : p ≠ .decision) (h4 : p ≠ .bills) (h5 : p ≠ .host) (h6 : p ≠ .tally) (h7 : p ≠ .arbiter) (h8 : p ≠ .replyTimers) (h9 : p ≠ .pins) :
    p.same s (judgeHostFrame bs t) ↔ p.same s t := by
  unfold judgeHostFrame
  dsimp only
  (repeat' split) <;> simp [h0, h1, h2, h3, h4, h5, h6, h7, h8, h9]

@[simp] theorem same_hostByte (b : Byte) (h0 : p ≠ .journal) (h1 : p ≠ .store) (h2 : p ≠ .events) (h3 : p ≠ .decision) (h4 : p ≠ .bills) (h5 : p ≠ .host) (h6 : p ≠ .tally) (h7 : p ≠ .arbiter) (h8 : p ≠ .replyTimers) (h9 : p ≠ .pins) :
    p.same s (hostByte b t) ↔ p.same s t := by
  unfold hostByte
  dsimp only
  (repeat' split) <;> simp [h0, h1, h2, h3, h4, h5, h6, h7, h8, h9]

@[simp] theorem same_hostBytes (bs : List Byte) (h0 : p ≠ .journal) (h1 : p ≠ .store) (h2 : p ≠ .events) (h3 : p ≠ .decision) (h4 : p ≠ .bills) (h5 : p ≠ .host) (h6 : p ≠ .tally) (h7 : p ≠ .arbiter) (h8 : p ≠ .replyTimers) (h9 : p ≠ .pins) :
    p.same s (hostBytes bs t) ↔ p.same s t := by
  have fold : ∀ (u : State), p.same s (bs.foldl (fun s b => hostByte b s) u) ↔ p.same s u := by
    induction bs with
    | nil => simp
    | cons b rest ih => intro u; simp [ih, h0, h1, h2, h3, h4, h5, h6, h7, h8, h9]
  unfold hostBytes
  split <;> simp [fold]

@[simp] theorem same_beginHostFrame (h0 : p ≠ .host) :
    p.same s (beginHostFrame t) ↔ p.same s t := by
  unfold beginHostFrame
  (repeat' split) <;> simp [h0]

@[simp] theorem same_endHostFrame (h0 : p ≠ .host) :
    p.same s (endHostFrame t) ↔ p.same s t := by
  unfold endHostFrame
  (repeat' split) <;> simp [h0]

@[simp] theorem same_deliver (f : DataFrame) (h0 : p ≠ .host) (h1 : p ≠ .events) :
    p.same s (deliver f t) ↔ p.same s t := by
  unfold deliver
  (repeat' split) <;> simp [h0, h1]

@[simp] theorem same_countRadioBad (h0 : p ≠ .radio) :
    p.same s (countRadioBad t) ↔ p.same s t := by
  unfold countRadioBad
  (repeat' split) <;> simp [h0]

@[simp] theorem same_radioFrameEnded (h0 : p ≠ .radio) :
    p.same s (radioFrameEnded t) ↔ p.same s t := by
  unfold radioFrameEnded
  (repeat' split) <;> simp [h0]

@[simp] theorem same_authReplyPassed (d : BitVec 8) (n m k : Nat) (h0 : p ≠ .decision) (h1 : p ≠ .bills) (h2 : p ≠ .events) (h3 : p ≠ .replyTimers) (h4 : p ≠ .arbiter) (h5 : p ≠ .radio) :
    p.same s (authReplyPassed d n m k t) ↔ p.same s t := by
  unfold authReplyPassed
  (repeat' split) <;> simp [h0, h1, h2, h3, h4, h5]

@[simp] theorem same_beaconPassed (n m : Nat) (h0 : p ≠ .journal) (h1 : p ≠ .uploader) (h2 : p ≠ .uploadTimer) (h3 : p ≠ .arbiter) (h4 : p ≠ .presenceTimer) (h5 : p ≠ .link) (h6 : p ≠ .beaconWatch) (h7 : p ≠ .events) (h8 : p ≠ .radio) :
    p.same s (beaconPassed n m t) ↔ p.same s t := by
  unfold beaconPassed
  (repeat' split) <;> simp [h0, h1, h2, h3, h4, h5, h6, h7, h8]

@[simp] theorem same_uploadConfirmPassed (d : BitVec 8) (n m : Nat) (h0 : p ≠ .journal) (h1 : p ≠ .uploader) (h2 : p ≠ .uploadTimer) (h3 : p ≠ .arbiter) (h4 : p ≠ .store) (h5 : p ≠ .tally) (h6 : p ≠ .events) (h7 : p ≠ .decision) (h8 : p ≠ .radio) :
    p.same s (uploadConfirmPassed d n m t) ↔ p.same s t := by
  unfold uploadConfirmPassed
  (repeat' split) <;> simp [h0, h1, h2, h3, h4, h5, h6, h7, h8]

@[simp] theorem same_beaconArrives (d : BitVec 8) (n m : Nat) (h0 : p ≠ .journal) (h1 : p ≠ .uploader) (h2 : p ≠ .uploadTimer) (h3 : p ≠ .arbiter) (h4 : p ≠ .presenceTimer) (h5 : p ≠ .link) (h6 : p ≠ .beaconWatch) (h7 : p ≠ .events) (h8 : p ≠ .radio) :
    p.same s (beaconArrives d n m t) ↔ p.same s t := by
  unfold beaconArrives radioArrives
  (repeat' split) <;> simp [h0, h1, h2, h3, h4, h5, h6, h7, h8]

@[simp] theorem same_authReplyArrives (d : BitVec 8) (n m k : Nat) (h0 : p ≠ .decision) (h1 : p ≠ .bills) (h2 : p ≠ .events) (h3 : p ≠ .replyTimers) (h4 : p ≠ .arbiter) (h5 : p ≠ .radio) :
    p.same s (authReplyArrives d n m k t) ↔ p.same s t := by
  unfold authReplyArrives radioArrives
  (repeat' split) <;> simp [h0, h1, h2, h3, h4, h5]

@[simp] theorem same_uploadConfirmArrives (d : BitVec 8) (n m : Nat) (h0 : p ≠ .journal) (h1 : p ≠ .uploader) (h2 : p ≠ .uploadTimer) (h3 : p ≠ .arbiter) (h4 : p ≠ .store) (h5 : p ≠ .tally) (h6 : p ≠ .events) (h7 : p ≠ .decision) (h8 : p ≠ .radio) :
    p.same s (uploadConfirmArrives d n m t) ↔ p.same s t := by
  unfold uploadConfirmArrives radioArrives
  (repeat' split) <;> simp [h0, h1, h2, h3, h4, h5, h6, h7, h8]

@[simp] theorem same_gatewayDataArrives (d : BitVec 8) (g : BitVec 16) (bs : List Byte) (h0 : p ≠ .host) (h1 : p ≠ .events) (h2 : p ≠ .radio) :
    p.same s (gatewayDataArrives d g bs t) ↔ p.same s t := by
  unfold gatewayDataArrives radioArrives
  (repeat' split) <;> simp [h0, h1, h2]

@[simp] theorem same_startExhausted (h0 : p ≠ .decision) :
    p.same s (startExhausted t) ↔ p.same s t := by
  unfold startExhausted
  (repeat' split) <;> simp [h0]

@[simp] theorem same_raiseTorn (h0 : p ≠ .events) (h1 : p ≠ .store) :
    p.same s (raiseTorn t) ↔ p.same s t := by
  unfold raiseTorn
  (repeat' split) <;> simp [h0, h1]

@[simp] theorem same_endScan (h0 : p ≠ .pins) (h1 : p ≠ .journal) (h2 : p ≠ .store) (h3 : p ≠ .events) :
    p.same s (endScan t) ↔ p.same s t := by
  unfold endScan
  dsimp only
  (repeat' split) <;> simp [h0, h1, h2, h3]

@[simp] theorem same_forgetUpdate (h0 : p ≠ .store) :
    p.same s (forgetUpdate t) ↔ p.same s t := by
  unfold forgetUpdate
  (repeat' split) <;> simp [h0]

@[simp] theorem same_updateSucceeded (u : EpochUpdate) (h0 : p ≠ .pins) (h1 : p ≠ .journal) (h2 : p ≠ .store) (h3 : p ≠ .events) (h4 : p ≠ .decision) :
    p.same s (updateSucceeded u t) ↔ p.same s t := by
  unfold updateSucceeded
  (repeat' split) <;> simp [h0, h1, h2, h3, h4]

@[simp] theorem same_updateFailed (u : EpochUpdate) (h0 : p ≠ .pins) (h1 : p ≠ .journal) (h2 : p ≠ .store) (h3 : p ≠ .events) (h4 : p ≠ .decision) :
    p.same s (updateFailed u t) ↔ p.same s t := by
  unfold updateFailed
  dsimp only
  (repeat' split) <;> simp [h0, h1, h2, h3, h4]

@[simp] theorem same_takeEpochResult (b : Bool) (h0 : p ≠ .pins) (h1 : p ≠ .journal) (h2 : p ≠ .store) (h3 : p ≠ .events) (h4 : p ≠ .decision) :
    p.same s (takeEpochResult b t) ↔ p.same s t := by
  unfold takeEpochResult
  (repeat' split) <;> simp [h0, h1, h2, h3, h4]

@[simp] theorem same_takeEpochErase (b : Bool) (h0 : p ≠ .pins) (h1 : p ≠ .journal) (h2 : p ≠ .store) (h3 : p ≠ .events) (h4 : p ≠ .decision) :
    p.same s (takeEpochErase b t) ↔ p.same s t := by
  unfold takeEpochErase
  (repeat' split) <;> simp [h0, h1, h2, h3, h4]

@[simp] theorem same_recoverEpoch (h0 : p ≠ .pins) (h1 : p ≠ .journal) (h2 : p ≠ .store) (h3 : p ≠ .events) (h4 : p ≠ .decision) :
    p.same s (recoverEpoch t) ↔ p.same s t := by
  unfold recoverEpoch
  (repeat' split) <;> simp [h0, h1, h2, h3, h4]

@[simp] theorem same_deriveIrt (h0 : p ≠ .irt) (h1 : p ≠ .profile) :
    p.same s (deriveIrt t) ↔ p.same s t := by
  unfold deriveIrt
  (repeat' split) <;> simp [h0, h1]

@[simp] theorem same_deriveProfile (h0 : p ≠ .irt) (h1 : p ≠ .profile) :
    p.same s (deriveProfile t) ↔ p.same s t := by
  unfold deriveProfile
  (repeat' split) <;> simp [h0, h1]

end Sys2Proof.Laws
end

