-- ==== Sys2Proof/Laws/Memory.lean ====
section
/-! SUPPORT. The nonvolatile array: every operation keeps the canonical form, and what a byte reads after each. -/

namespace Sys2Proof.Laws

open Sys2Proof.Machine

/-! ### The canonical form -/

/-- An entry in front of a sorted list lies below all of it. -/
theorem sorted_cons (c : Host.Cell) (m : Mem) :
    Mem.sorted (c :: m) = true ↔ (∀ x ∈ m, c.1 < x.1) ∧ Mem.sorted m = true := by
  induction m generalizing c with
  | nil => simp [Mem.sorted]
  | cons d rest ih =>
    obtain ⟨a, v⟩ := c
    obtain ⟨b, w⟩ := d
    simp only [Mem.sorted, Bool.and_eq_true, decide_eq_true_eq, List.mem_cons, forall_eq_or_imp]
    constructor
    · rintro ⟨h, hs⟩
      exact ⟨⟨h, fun x hx => lt_trans h (((ih (b, w)).1 hs).1 x hx)⟩, hs⟩
    · rintro ⟨⟨h, -⟩, hs⟩
      exact ⟨h, hs⟩

/-- The canonical form, entry by entry. -/
theorem wf_cons (c : Host.Cell) (m : Mem) :
    Mem.wf (c :: m) = true ↔ (∀ x ∈ m, c.1 < x.1) ∧ c.2 ≠ erasedByte ∧ Mem.wf m = true := by
  simp only [Mem.wf, Bool.and_eq_true, sorted_cons, List.all_cons, bne_iff_ne]
  tauto

@[simp] theorem wf_nil : Mem.wf [] = true := rfl

/-- An entry after a write is the one written or one from before. -/
theorem mem_write {m : Mem} {a : Nat} {v : Byte} {x : Host.Cell} (h : x ∈ m.write a v) : x = (a, v) ∨ x ∈ m := by
  induction m with
  | nil => unfold Mem.write at h; split at h <;> simp_all
  | cons c rest ih =>
    obtain ⟨k, w⟩ := c
    unfold Mem.write at h
    repeat' split at h
    all_goals simp_all
    all_goals first
      | tauto
      | (rcases h with h | h
         · tauto
         · rcases ih h with h | h <;> tauto)

/-- A write keeps the canonical form. -/
theorem write_wf {m : Mem} (a : Nat) (v : Byte) (h : m.wf = true) : (m.write a v).wf = true := by
  induction m with
  | nil => unfold Mem.write; split <;> simp_all [wf_cons]
  | cons c rest ih =>
    obtain ⟨k, w⟩ := c
    have hc := (wf_cons _ _).1 h
    unfold Mem.write
    split
    · split
      · exact h
      · refine (wf_cons _ _).2 ⟨?_, by assumption, h⟩
        intro x hx
        rcases List.mem_cons.1 hx with rfl | hx
        · assumption
        · exact lt_trans (by assumption) (hc.1 x hx)
    · split
      · split
        · exact hc.2.2
        · refine (wf_cons _ _).2 ⟨?_, by assumption, hc.2.2⟩
          rename_i hak _
          intro x hx
          exact hak ▸ hc.1 x hx
      · refine (wf_cons _ _).2 ⟨?_, hc.2.1, ih hc.2.2⟩
        intro x hx
        rcases mem_write hx with rfl | hx
        · simp only; omega
        · exact hc.1 x hx

/-- Writes of consecutive bytes keep the canonical form. -/
theorem writeBytes_wf {m : Mem} (a : Nat) (bs : List Byte) (h : m.wf = true) : (m.writeBytes a bs).wf = true := by
  induction bs generalizing m a with
  | nil => exact h
  | cons v vs ih => exact ih (a + 1) (write_wf a v h)

/-- Leaving entries out keeps the canonical form. -/
theorem filter_wf {m : Mem} (f : Host.Cell → Bool) (h : m.wf = true) : Mem.wf (m.filter f) = true := by
  induction m with
  | nil => exact h
  | cons c rest ih =>
    have hc := (wf_cons _ _).1 h
    rw [List.filter_cons]
    split
    · exact (wf_cons _ _).2 ⟨fun x hx => hc.1 x (List.mem_filter.1 hx).1, hc.2.1, ih hc.2.2⟩
    · exact ih hc.2.2

/-- An erased range keeps the canonical form. -/
theorem eraseRange_wf {m : Mem} (a n : Nat) (h : m.wf = true) : (m.eraseRange a n).wf = true := filter_wf _ h

/-- Survivors of an erase keep the canonical form. -/
theorem putSurvivors_wf {before m : Mem} (a n : Nat) (cells : List (Nat × Byte)) (h : m.wf = true) :
    (putSurvivors before a n cells m).wf = true := by
  induction cells generalizing m with
  | nil => exact h
  | cons c rest ih =>
    obtain ⟨o, v⟩ := c
    refine ih ?_
    split
    · exact write_wf _ _ h
    · exact h

/-- A program keeps the canonical form. -/
theorem program_wf {m : Mem} (a : Nat) (bytes : List Byte) (e : ArrayEnd) (h : m.wf = true) :
    (m.program a bytes e).1.wf = true := writeBytes_wf a _ h

/-- An erase keeps the canonical form. -/
theorem erase_wf {m : Mem} (a n : Nat) (e : ArrayEnd) (h : m.wf = true) : (m.erase a n e).1.wf = true := by
  unfold Mem.erase
  cases e with
  | whole => exact eraseRange_wf a n h
  | left cells => exact putSurvivors_wf a n cells (eraseRange_wf a n h)

/-- Every store operation keeps the canonical form. -/
theorem apply_wf {m : Mem} (op : StoreOp) (e : ArrayEnd) (h : m.wf = true) : (op.apply m e).1.wf = true := by
  cases op with
  | recordProgram loc bytes => exact program_wf _ _ _ h
  | mark r => exact program_wf _ _ _ h
  | epochProgram w epoch => exact program_wf _ _ _ h
  | pageProgram r => exact program_wf _ _ _ h
  | blockErase r => exact erase_wf _ _ _ h

/-- A list of changes that each keep a property of the array keeps it. -/
theorem foldl_keeps {P : Mem → Prop} {f : Mem → Nat → Mem} (hf : ∀ m i, P m → P (f m i)) (l : List Nat) {m : Mem}
    (h : P m) : P (l.foldl f m) := by
  induction l generalizing m with
  | nil => exact h
  | cons i rest ih => exact ih (hf m i h)

/-- A header lost or torn keeps the canonical form. -/
theorem loseHeader_wf {m : Mem} (t : TableName) (h : m.wf = true) : (loseHeader t m).wf = true := by
  unfold loseHeader; split
  · exact eraseRange_wf _ _ h
  · exact h

theorem tearHeader_wf {m : Mem} (t : TableName) (h : m.wf = true) : (tearHeader t m).wf = true := by
  unfold tearHeader; split
  · exact write_wf _ _ (eraseRange_wf _ _ h)
  · exact h

/-- What an operation that ended leaves keeps the canonical form. -/
theorem leaves_wf {m : Mem} (op : StoreOp) (e : ArrayEnd) (r : OpResult) (h : m.wf = true) :
    (op.leaves m e r).wf = true := by
  have ha := apply_wf op e h
  unfold StoreOp.leaves
  cases op with
  | mark q =>
    dsimp only
    split
    · exact write_wf _ _ ha
    · exact ha
  | recordProgram loc bytes => exact ha
  | epochProgram w epoch => exact ha
  | pageProgram q => exact ha
  | blockErase q => exact ha

/-- A slot of an erase cut short, or an epoch word lost, keeps the canonical form. -/
theorem keepFinished_wf {before m : Mem} (loc : Loc) (h : m.wf = true) : (keepFinished before loc m).wf = true := by
  unfold keepFinished; dsimp only; split
  · exact eraseRange_wf _ _ h
  · exact h

theorem loseWord_wf {m : Mem} (w : Nat) (h : m.wf = true) : (loseWord w m).wf = true := by
  unfold loseWord; split
  · exact eraseRange_wf _ _ h
  · exact h

/-- What a reset leaves of an operation keeps the canonical form. -/
theorem cut_wf {m : Mem} (op : StoreOp) (e : ArrayEnd) (h : m.wf = true) : (op.cut m e).wf = true := by
  have ha := apply_wf op e h
  unfold StoreOp.cut
  cases op with
  | recordProgram loc bytes => exact ha
  | mark r => exact ha
  | epochProgram w epoch => exact loseWord_wf w ha
  | pageProgram r =>
    dsimp only
    split
    · exact tearHeader_wf _ ha
    · exact ha
  | blockErase r =>
    dsimp only
    unfold EraseTarget.cut
    split
    · exact foldl_keeps (P := fun m => m.wf = true) (fun _ _ h => keepFinished_wf _ h) _ ha
    · exact foldl_keeps (P := fun m => m.wf = true) (fun _ _ h => loseWord_wf _ h) _ ha
    · exact loseHeader_wf _ ha

/-- The factory-new array is in canonical form. -/
theorem reset_array_wf : State.reset.array.wf = true := rfl

/-! ### Reading -/

@[simp] theorem read_nil (a : Nat) : Mem.read [] a = erasedByte := rfl

/-- An address below every entry reads erased. -/
theorem read_below {m : Mem} {a : Nat} (h : ∀ x ∈ m, a < x.1) : m.read a = erasedByte := by
  induction m with
  | nil => rfl
  | cons c rest ih =>
    obtain ⟨k, w⟩ := c
    have hk : a < k := h (k, w) (by simp)
    simp only [Mem.read, if_neg (Nat.ne_of_gt hk)]
    exact ih (fun x hx => h x (List.mem_cons_of_mem _ hx))

/-- A byte written reads as written; every other byte reads as before. -/
theorem read_write {m : Mem} (h : m.wf = true) (a b : Nat) (v : Byte) :
    (m.write a v).read b = if b = a then v else m.read b := by
  induction m with
  | nil => unfold Mem.write; split <;> split <;> simp_all [Mem.read, eq_comm]
  | cons c rest ih =>
    obtain ⟨k, w⟩ := c
    have hc := (wf_cons _ _).1 h
    have ih := ih hc.2.2
    unfold Mem.write
    split
    · rename_i hak
      have hlow : Mem.read ((k, w) :: rest) a = erasedByte :=
        read_below (by
          intro x hx
          rcases List.mem_cons.1 hx with rfl | hx
          · exact hak
          · exact lt_trans hak (hc.1 x hx))
      split
      · split <;> simp_all
      · by_cases hb : b = a
        · simp [Mem.read, hb]
        · simp [Mem.read, hb, Ne.symm hb]
    · split
      · rename_i _ hak
        subst hak
        have hlow : Mem.read rest a = erasedByte := read_below hc.1
        by_cases hb : b = a
        · subst hb; split <;> simp_all [Mem.read]
        · split <;> simp [Mem.read, hb, Ne.symm hb]
      · rename_i _ hak
        by_cases hb : b = k
        · subst hb; simp [Mem.read, Ne.symm hak]
        · simp [Mem.read, Ne.symm hb, ih]

/-- Bytes written read as written; every byte outside them reads as before. -/
theorem read_writeBytes {m : Mem} (h : m.wf = true) (a b : Nat) (bs : List Byte) :
    (m.writeBytes a bs).read b = if a ≤ b ∧ b < a + bs.length then bs.getD (b - a) erasedByte else m.read b := by
  induction bs generalizing m a with
  | nil => simp [Mem.writeBytes]
  | cons v vs ih =>
    rw [Mem.writeBytes, ih (write_wf a v h), read_write h]
    by_cases hb : b = a
    · subst hb; simp
    · by_cases hr : a + 1 ≤ b ∧ b < a + 1 + vs.length
      · have : b - a = (b - (a + 1)) + 1 := by omega
        simp only [List.length_cons]
        rw [if_pos hr, if_pos (by omega), this, List.getD_cons_succ]
      · simp only [List.length_cons]
        rw [if_neg hr, if_neg hb, if_neg (by omega)]

/-- An erased range reads erased; every byte outside it reads as before. -/
theorem read_eraseRange (m : Mem) (a n b : Nat) :
    (m.eraseRange a n).read b = if a ≤ b ∧ b < a + n then erasedByte else m.read b := by
  induction m with
  | nil => simp [Mem.eraseRange, Mem.read]
  | cons c rest ih =>
    obtain ⟨k, w⟩ := c
    unfold Mem.eraseRange at ih ⊢
    rw [List.filter_cons]
    by_cases hk : k < a ∨ a + n ≤ k
    · rw [if_pos (by simpa using hk)]
      by_cases hb : k = b
      · subst hb; simp only [Mem.read, if_true]; rw [if_neg (by omega)]
      · simp only [Mem.read, if_neg hb, ih]
    · rw [if_neg (by simpa using hk)]
      by_cases hb : k = b
      · subst hb; rw [ih]; simp only [if_pos (show a ≤ k ∧ k < a + n by omega)]
      · rw [ih]; simp only [Mem.read, if_neg hb]

/-- What a program leaves has as many bytes as it was asked for. -/
theorem landed_length (m : Mem) (a : Nat) (e : ArrayEnd) (i : Nat) (bytes : List Byte) :
    (landed m a e i bytes).length = bytes.length := by
  induction bytes generalizing i with
  | nil => rfl
  | cons b rest ih => simp [landed, ih]

/-- A program leaves every byte outside its target. -/
theorem read_program_outside {m : Mem} (h : m.wf = true) {a b : Nat} (bytes : List Byte) (e : ArrayEnd)
    (hb : b < a ∨ a + bytes.length ≤ b) : (m.program a bytes e).1.read b = m.read b := by
  simp only [Mem.program]
  rw [read_writeBytes h, landed_length, if_neg (by omega)]

/-- Survivors of an erase leave every byte outside the range. -/
theorem read_putSurvivors_outside {before m : Mem} (h : m.wf = true) {a n b : Nat} (cells : List (Nat × Byte))
    (hb : b < a ∨ a + n ≤ b) : (putSurvivors before a n cells m).read b = m.read b := by
  induction cells generalizing m with
  | nil => rfl
  | cons c rest ih =>
    obtain ⟨o, v⟩ := c
    unfold putSurvivors
    split
    · rw [ih (write_wf _ _ h), read_write h, if_neg (by omega)]
    · exact ih h

/-- An erase leaves every byte outside its range. -/
theorem read_erase_outside {m : Mem} (h : m.wf = true) {a n b : Nat} (e : ArrayEnd) (hb : b < a ∨ a + n ≤ b) :
    (m.erase a n e).1.read b = m.read b := by
  unfold Mem.erase
  cases e with
  | whole => simp only [read_eraseRange]; rw [if_neg (by omega)]
  | left cells =>
    simp only
    rw [read_putSurvivors_outside (eraseRange_wf a n h) cells hb, read_eraseRange, if_neg (by omega)]

/-! ### Programs over bytes that are not erased, and operations cut short -/

/-- What becomes of a byte of a program: it stays when it is right already; an erased byte takes what the array made of
it; any other byte stays or moves toward the byte asked for without coming to it. -/
theorem landByte_cases (old req env : Byte) :
    (old = req ∧ landByte old req env = req) ∨ (old ≠ req ∧ old = erasedByte ∧ landByte old req env = env)
      ∨ (old ≠ req ∧ old ≠ erasedByte ∧ landByte old req env = old)
      ∨ (old ≠ req ∧ old ≠ erasedByte ∧ landByte old req env = moveToward old req env
          ∧ moveToward old req env ≠ req ∧ moveToward old req env ≠ erasedByte) := by
  unfold landByte
  split
  · exact .inl ⟨by assumption, rfl⟩
  · split
    · exact .inr (.inl ⟨by assumption, by assumption, rfl⟩)
    · split
      · exact .inr (.inr (.inl ⟨by assumption, by assumption, rfl⟩))
      · rename_i h
        exact .inr (.inr (.inr ⟨by assumption, by assumption, rfl, fun e => h (.inl e), fun e => h (.inr e)⟩))

/-- Outside the header, a lost or torn header changes nothing. -/
theorem read_loseHeader_outside (m : Mem) (t : TableName) {b : Nat} (hb : b < t.base ∨ t.base + t.headerLength ≤ b) :
    (loseHeader t m).read b = m.read b := by
  unfold loseHeader; split
  · rw [read_eraseRange, if_neg (by omega)]
  · rfl

theorem read_tearHeader_outside {m : Mem} (h : m.wf = true) (t : TableName) {b : Nat}
    (hb : b < t.base ∨ t.base + t.headerLength ≤ b) : (tearHeader t m).read b = m.read b := by
  have hne : b ≠ t.base := by
    have : 0 < t.headerLength := by cases t <;> decide
    omega
  unfold tearHeader; split
  · rw [read_write (eraseRange_wf _ _ h), if_neg hne, read_eraseRange, if_neg (by omega)]
  · rfl

/-- A mark lost is erased; every other byte reads as before. -/
theorem read_loseMark {m : Mem} (h : m.wf = true) (r : MarkRequest) (b : Nat) :
    (loseMark r m).read b = if b = markAddr r.loc r.kind then erasedByte else m.read b := read_write h _ _ _

/-- What an operation that ended leaves is what it wrote, but for a mark that failed twice, which is lost. -/
theorem leaves_cases (m : Mem) (e : ArrayEnd) (r : OpResult) (op : StoreOp) :
    op.leaves m e r = (op.apply m e).1
      ∨ ∃ q, op = .mark q ∧ q.second = true ∧ r ≠ .success ∧ op.leaves m e r = loseMark q (op.apply m e).1 := by
  cases op with
  | mark q =>
    by_cases h : q.second = true ∧ r ≠ .success
    · exact .inr ⟨q, rfl, h.1, h.2, if_pos h⟩
    · exact .inl (if_neg h)
  | recordProgram loc bytes => exact .inl rfl
  | epochProgram w epoch => exact .inl rfl
  | pageProgram q => exact .inl rfl
  | blockErase q => exact .inl rfl

/-- Outside the record slot or the epoch word, a slot of an erase cut short or a lost word changes nothing. -/
theorem read_keepFinished_outside (before m : Mem) (loc : Loc) {b : Nat}
    (hb : b < loc.addr ∨ loc.addr + Limits.recordBytes ≤ b) : (keepFinished before loc m).read b = m.read b := by
  unfold keepFinished; dsimp only; split
  · rw [read_eraseRange, if_neg (by omega)]
  · rfl

theorem read_loseWord_outside (m : Mem) (w : Nat) {b : Nat}
    (hb : b < epochWordAddr w ∨ epochWordAddr w + 4 ≤ b) : (loseWord w m).read b = m.read b := by
  unfold loseWord; split
  · rw [read_eraseRange, if_neg (by omega)]
  · rfl

end Sys2Proof.Laws
end

