-- ==== Sys2Proof/Laws/PerInstr.lean ====
section
/-! SUPPORT. Statements made instruction by instruction: the codes of R184. -/

namespace Sys2Proof.Laws

open Sys2Proof.Machine Sys2Proof.Safety

/-- A request carries a request code of R184, a management command a command code, and no command is both a host request
and a frame of the radio port. -/
def Codes.Statement (i : Instr) : Prop :=
  (isRequest i = true → requestCodeKnown (requestCode i) = true)
    ∧ (isCommand i = true → commandCodeKnown (commandCode i) = true)
    ∧ ¬ (isRequest i = true ∧ isDownstream i = true)

/-- A condition that computes to a Bool and the claim under it. -/
theorem Codes.of_eq {i : Instr} (hr : isRequest i = false ∨ requestCodeKnown (requestCode i) = true)
    (hc : isCommand i = false ∨ commandCodeKnown (commandCode i) = true)
    (hd : isRequest i = false ∨ isDownstream i = false) : Codes.Statement i :=
  ⟨fun h => hr.resolve_left (by simp [h]), fun h => hc.resolve_left (by simp [h]),
    fun h => hd.elim (by simp [h.1]) (by simp [h.2])⟩

theorem Codes.authorize : ∀ a b c d e f g, Codes.Statement (.authorize a b c d e f g) :=
  fun _ _ _ _ _ _ _ => Codes.of_eq (.inr rfl) (.inl rfl) (.inr rfl)

theorem Codes.readResult : ∀ a b, Codes.Statement (.readResult a b) :=
  fun _ _ => Codes.of_eq (.inr rfl) (.inl rfl) (.inr rfl)

theorem Codes.split : ∀ a b c, Codes.Statement (.split a b c) :=
  fun _ _ _ => Codes.of_eq (.inr rfl) (.inl rfl) (.inr rfl)

theorem Codes.queryBill : ∀ a b c d, Codes.Statement (.queryBill a b c d) :=
  fun _ _ _ _ => Codes.of_eq (.inr rfl) (.inl rfl) (.inr rfl)

theorem Codes.listBills : ∀ a, Codes.Statement (.listBills a) :=
  fun _ => Codes.of_eq (.inr rfl) (.inl rfl) (.inr rfl)

theorem Codes.void : ∀ a b c, Codes.Statement (.void a b c) :=
  fun _ _ _ => Codes.of_eq (.inr rfl) (.inl rfl) (.inr rfl)

theorem Codes.readRange : ∀ a b c, Codes.Statement (.readRange a b c) :=
  fun _ _ _ => Codes.of_eq (.inr rfl) (.inl rfl) (.inr rfl)

theorem Codes.readExposure : ∀ a b c, Codes.Statement (.readExposure a b c) :=
  fun _ _ _ => Codes.of_eq (.inr rfl) (.inl rfl) (.inr rfl)

theorem Codes.nextEvent : ∀ a, Codes.Statement (.nextEvent a) :=
  fun _ => Codes.of_eq (.inr rfl) (.inl rfl) (.inr rfl)

theorem Codes.setMasks : ∀ a b c, Codes.Statement (.setMasks a b c) :=
  fun _ _ _ => Codes.of_eq (.inr rfl) (.inl rfl) (.inr rfl)

theorem Codes.sleep : ∀ a, Codes.Statement (.sleep a) :=
  fun _ => Codes.of_eq (.inr rfl) (.inl rfl) (.inr rfl)

theorem Codes.portReset : ∀ a, Codes.Statement (.portReset a) :=
  fun _ => Codes.of_eq (.inr rfl) (.inl rfl) (.inr rfl)

theorem Codes.status : ∀ a b, Codes.Statement (.status a b) :=
  fun _ _ => Codes.of_eq (.inr rfl) (.inl rfl) (.inr rfl)

theorem Codes.unknownRequest : ∀ a b, Codes.Statement (.unknownRequest a b) :=
  fun _ _ => Codes.of_eq (.inl rfl) (.inl rfl) (.inl rfl)

theorem Codes.hostData : ∀ a b, Codes.Statement (.hostData a b) :=
  fun _ _ => Codes.of_eq (.inl rfl) (.inl rfl) (.inl rfl)

theorem Codes.hostFrameBad : ∀ a, Codes.Statement (.hostFrameBad a) :=
  fun _ => Codes.of_eq (.inl rfl) (.inl rfl) (.inl rfl)

theorem Codes.hostFrameSent : Codes.Statement .hostFrameSent :=
  Codes.of_eq (.inl rfl) (.inl rfl) (.inl rfl)

theorem Codes.hostTransmitBegin : Codes.Statement .hostTransmitBegin :=
  Codes.of_eq (.inl rfl) (.inl rfl) (.inl rfl)

theorem Codes.assign : ∀ a b c d e, Codes.Statement (.assign a b c d e) :=
  fun _ _ _ _ _ => Codes.of_eq (.inl rfl) (.inr rfl) (.inl rfl)

theorem Codes.release : ∀ a b, Codes.Statement (.release a b) :=
  fun _ _ => Codes.of_eq (.inl rfl) (.inr rfl) (.inl rfl)

theorem Codes.linkReset : ∀ a b, Codes.Statement (.linkReset a b) :=
  fun _ _ => Codes.of_eq (.inl rfl) (.inr rfl) (.inl rfl)

theorem Codes.queryStatus : ∀ a b, Codes.Statement (.queryStatus a b) :=
  fun _ _ => Codes.of_eq (.inl rfl) (.inr rfl) (.inl rfl)

theorem Codes.billPush : ∀ a b c d e f g h, Codes.Statement (.billPush a b c d e f g h) :=
  fun _ _ _ _ _ _ _ _ => Codes.of_eq (.inl rfl) (.inr rfl) (.inl rfl)

theorem Codes.billAmend : ∀ a b c d, Codes.Statement (.billAmend a b c d) :=
  fun _ _ _ _ => Codes.of_eq (.inl rfl) (.inr rfl) (.inl rfl)

theorem Codes.billDrop : ∀ a b c, Codes.Statement (.billDrop a b c) :=
  fun _ _ _ => Codes.of_eq (.inl rfl) (.inr rfl) (.inl rfl)

theorem Codes.loadOpen : ∀ a b c d e f, Codes.Statement (.loadOpen a b c d e f) :=
  fun _ _ _ _ _ _ => Codes.of_eq (.inl rfl) (.inr rfl) (.inl rfl)

theorem Codes.loadRow : ∀ a b c d e, Codes.Statement (.loadRow a b c d e) :=
  fun _ _ _ _ _ => Codes.of_eq (.inl rfl) (.inr rfl) (.inl rfl)

theorem Codes.loadClose : ∀ a b c d e f, Codes.Statement (.loadClose a b c d e f) :=
  fun _ _ _ _ _ _ => Codes.of_eq (.inl rfl) (.inr rfl) (.inl rfl)

theorem Codes.loadVerify : ∀ a b c, Codes.Statement (.loadVerify a b c) :=
  fun _ _ _ => Codes.of_eq (.inl rfl) (.inr rfl) (.inl rfl)

theorem Codes.dumpRow : ∀ a b c d, Codes.Statement (.dumpRow a b c d) :=
  fun _ _ _ _ => Codes.of_eq (.inl rfl) (.inr rfl) (.inl rfl)

theorem Codes.unknownCommand : ∀ a b c, Codes.Statement (.unknownCommand a b c) :=
  fun _ _ _ => Codes.of_eq (.inl rfl) (.inl rfl) (.inl rfl)

theorem Codes.heldCommandTaken : ∀ a, Codes.Statement (.heldCommandTaken a) :=
  fun _ => Codes.of_eq (.inl rfl) (.inl rfl) (.inl rfl)

theorem Codes.verifyReplyPlaced : Codes.Statement .verifyReplyPlaced :=
  Codes.of_eq (.inl rfl) (.inl rfl) (.inl rfl)

theorem Codes.beacon : ∀ a b c, Codes.Statement (.beacon a b c) :=
  fun _ _ _ => Codes.of_eq (.inl rfl) (.inl rfl) (.inl rfl)

theorem Codes.authReply : ∀ a b c d, Codes.Statement (.authReply a b c d) :=
  fun _ _ _ _ => Codes.of_eq (.inl rfl) (.inl rfl) (.inl rfl)

theorem Codes.uploadConfirm : ∀ a b c, Codes.Statement (.uploadConfirm a b c) :=
  fun _ _ _ => Codes.of_eq (.inl rfl) (.inl rfl) (.inl rfl)

theorem Codes.gatewayData : ∀ a b c, Codes.Statement (.gatewayData a b c) :=
  fun _ _ _ => Codes.of_eq (.inl rfl) (.inl rfl) (.inl rfl)

theorem Codes.radioFrameBad : ∀ a, Codes.Statement (.radioFrameBad a) :=
  fun _ => Codes.of_eq (.inl rfl) (.inl rfl) (.inl rfl)

theorem Codes.grant : Codes.Statement .grant :=
  Codes.of_eq (.inl rfl) (.inl rfl) (.inl rfl)

theorem Codes.transmissionComplete : Codes.Statement .transmissionComplete :=
  Codes.of_eq (.inl rfl) (.inl rfl) (.inl rfl)

theorem Codes.replyTimerExpiry : ∀ a, Codes.Statement (.replyTimerExpiry a) :=
  fun _ => Codes.of_eq (.inl rfl) (.inl rfl) (.inl rfl)

theorem Codes.beaconWatchExpiry : Codes.Statement .beaconWatchExpiry :=
  Codes.of_eq (.inl rfl) (.inl rfl) (.inl rfl)

theorem Codes.uploadTimerExpiry : Codes.Statement .uploadTimerExpiry :=
  Codes.of_eq (.inl rfl) (.inl rfl) (.inl rfl)

theorem Codes.slotTimerExpiry : Codes.Statement .slotTimerExpiry :=
  Codes.of_eq (.inl rfl) (.inl rfl) (.inl rfl)

theorem Codes.presenceTimerExpiry : Codes.Statement .presenceTimerExpiry :=
  Codes.of_eq (.inl rfl) (.inl rfl) (.inl rfl)

theorem Codes.tick : Codes.Statement .tick :=
  Codes.of_eq (.inl rfl) (.inl rfl) (.inl rfl)

theorem Codes.storeOperationStart : Codes.Statement .storeOperationStart :=
  Codes.of_eq (.inl rfl) (.inl rfl) (.inl rfl)

theorem Codes.recordProgramComplete : ∀ a, Codes.Statement (.recordProgramComplete a) :=
  fun _ => Codes.of_eq (.inl rfl) (.inl rfl) (.inl rfl)

theorem Codes.markComplete : ∀ a, Codes.Statement (.markComplete a) :=
  fun _ => Codes.of_eq (.inl rfl) (.inl rfl) (.inl rfl)

theorem Codes.epochProgramComplete : ∀ a, Codes.Statement (.epochProgramComplete a) :=
  fun _ => Codes.of_eq (.inl rfl) (.inl rfl) (.inl rfl)

theorem Codes.pageProgramComplete : ∀ a, Codes.Statement (.pageProgramComplete a) :=
  fun _ => Codes.of_eq (.inl rfl) (.inl rfl) (.inl rfl)

theorem Codes.blockEraseComplete : ∀ a, Codes.Statement (.blockEraseComplete a) :=
  fun _ => Codes.of_eq (.inl rfl) (.inl rfl) (.inl rfl)

theorem Codes.operationTimeLimit : ∀ a, Codes.Statement (.operationTimeLimit a) :=
  fun _ => Codes.of_eq (.inl rfl) (.inl rfl) (.inl rfl)

theorem Codes.pwrwarnChange : ∀ a, Codes.Statement (.pwrwarnChange a) :=
  fun _ => Codes.of_eq (.inl rfl) (.inl rfl) (.inl rfl)

theorem Codes.powerOn : ∀ a, Codes.Statement (.powerOn a) :=
  fun _ => Codes.of_eq (.inl rfl) (.inl rfl) (.inl rfl)

theorem Codes.resetnAssert : ∀ a, Codes.Statement (.resetnAssert a) :=
  fun _ => Codes.of_eq (.inl rfl) (.inl rfl) (.inl rfl)

theorem Codes.resetnRelease : Codes.Statement .resetnRelease :=
  Codes.of_eq (.inl rfl) (.inl rfl) (.inl rfl)

theorem Codes.lossOfPower : ∀ a, Codes.Statement (.lossOfPower a) :=
  fun _ => Codes.of_eq (.inl rfl) (.inl rfl) (.inl rfl)

end Sys2Proof.Laws
end

