-- ==== Sys2Proof/Laws/Ports.lean ====
section
/-! SUPPORT. What arrives where: a request at a ready host port, a command at a ready gate, a frame at an assigned part;
and the entry of a bill after each change. -/

namespace Sys2Proof.Laws

open Sys2Proof.Machine Sys2Proof.Safety

/-! ### Host port -/

/-- With nothing of a frame collected, an opening flag is only collected from. -/
theorem openHostFrame_unbroken {s : State} (h : Unbroken s.host.asm) (hp : s.pins.phase = .run ∨ s.pins.phase = .scan) :
    openHostFrame s = s.setHost { s.host with asm := .collecting [] false } := by
  unfold openHostFrame hostBytes
  rcases hp with hp | hp <;> rcases h with h | h <;> simp [hp, hostByte, asmByte, h]

/-- With nothing of a frame collected, the opening flag of a whole frame brings nothing about. -/
theorem hostFrameArrives_unbroken {s : State} (h : Unbroken s.host.asm) (c : Instr) :
    hostFrameArrives c s = hostArrives c s := by
  unfold hostFrameArrives
  cases hp : s.pins.phase
  case run => rw [openHostFrame_unbroken h (.inl hp)]; unfold hostArrives; simp only [hp, State.setHost]; rfl
  case scan => rw [openHostFrame_unbroken h (.inr hp)]; unfold hostArrives; simp only [hp, State.setHost]; rfl
  all_goals simp [openHostFrame, hostBytes, hp]

/-- The same on the radio port. -/
theorem openRadioFrame_unbroken {s : State} (h : Unbroken s.radio.asm) (hp : s.pins.phase = .run) :
    openRadioFrame s = radioFrameEnded s := by
  unfold openRadioFrame radioBytes
  rcases h with h | h <;> simp [hp, radioByte, asmByte, h, radioFrameEnded]

/-- A frame that ends twice over is one frame ended. -/
@[simp] theorem radioFrameEnded_twice (s : State) : radioFrameEnded (radioFrameEnded s) = radioFrameEnded s := rfl

/-- The state in which the owner of a request finds the part. -/
theorem hostArrives_ready {s : State} (h : HostReady s) (c : Instr) (hc : ∀ tag p, c ≠ .hostData tag p) :
    hostArrives c s = serveRequest c ((statusLock c s).setHost (hostTaken s.host)) := by
  obtain ⟨h1, h2, h3, h4, -⟩ := h
  have hp : ¬ Limits.pendingReplies ≤ replyPlaces (statusLock c (wakePort s)).host := by
    cases c <;> simp [statusLock, wakePort, replyPlaces, h3] <;> omega
  unfold hostArrives
  rw [h1]
  simp only [if_neg hp]
  cases c <;> simp_all [hostFrameTaken, requestArrives, statusLock, wakePort, hostTaken, State.setHost, State.setPins]

/-- The same of a whole frame, its opening flag included. -/
theorem hostFrameArrives_ready {s : State} (h : HostReady s) (c : Instr) (hc : ∀ tag p, c ≠ .hostData tag p) :
    hostFrameArrives c s = serveRequest c ((statusLock c s).setHost (hostTaken s.host)) := by
  rw [hostFrameArrives_unbroken h.2.2.2.2 c, hostArrives_ready h c hc]

/-- A reply made ready after a request was taken. -/
theorem answer_taken (s : State) (code : BitVec 8) (tag : BitVec 16) (body : Reply) :
    answerRequest code tag body (s.setHost (hostTaken s.host)) =
      { s with host := hostAnswered s.host code tag body } := rfl

/-! ### Management gate -/

/-- A command for the part alone that finds the gate ready is performed. -/
theorem commandArrives_ready {s : State} {c : Instr} (h : GateReady (radioAddr c) s) :
    commandArrives c s = performCommand c (lockOf c (radioFrameEnded s)) := by
  obtain ⟨h1, h2, h3, h4, h5, h6, -⟩ := h
  have hf : filterPasses s (radioAddr c) (isAssign c) = true := by
    cases hs : s.link.state <;> simp_all [filterPasses, assigned]
  have hg : (lockOf c (radioFrameEnded s)).arbiter = s.arbiter := by cases c <;> rfl
  have ho : openPlaces s.arbiter ≠ 0 := by
    simp only [openPlaces, placesForVerify, unreserved, h5, Gate.reserved, Gate.waiting]
    omega
  unfold commandArrives
  simp only [h1, hf, if_true]
  unfold commandAtGate
  simp only [hg, h5]
  simp [ho]

/-- The same of a whole frame of a management command, its opening flag included. -/
theorem radioFrameArrives_ready {s : State} {c : Instr} (h : GateReady (radioAddr c) s)
    (hc : downstreamArrives c = commandArrives c) :
    radioFrameArrives c s = performCommand c (lockOf c (radioFrameEnded s)) := by
  unfold radioFrameArrives
  rw [openRadioFrame_unbroken h.2.2.2.2.2.2 h.1, hc]
  exact commandArrives_ready (s := radioFrameEnded s) ⟨h.1, h.2.1, h.2.2.1, h.2.2.2.1, h.2.2.2.2.1, h.2.2.2.2.2.1, .inr rfl⟩

/-- A unicast command is answered. -/
theorem answerCommand_unicast {s : State} {c : Instr} (h : radioAddr c ≠ broadcastAddr) (body : Reply) :
    answerCommand c body s = queueMgmtReply (commandCode c) (mgmtTag c) body s := by
  simp [answerCommand, expectsReply, unicast, h]

/-- A frame that is not a command reaches its owner. -/
theorem radioArrives_addressed {s : State} {addr : BitVec 8} (h : Addressed addr s) (b : Bool) (act : State → State) :
    radioArrives addr b act s = act (radioFrameEnded s) := by
  obtain ⟨h1, h2, h3, h4, -⟩ := h
  have hf : filterPasses s addr b = true := by
    cases hs : s.link.state <;> simp_all [filterPasses, assigned]
  simp [radioArrives, h1, hf]

/-! ### Bills -/

/-- A found entry has the number asked for. -/
theorem findBill_number {s : State} {n : Nat} {b : Bill} (h : findBill s n = some b) : b.number = n := by
  have := List.find?_some h
  simpa using this

/-- The entry of a number after a change of an entry that keeps its number. -/
theorem findBill_updateBill (s : State) (n k : Nat) (f : Bill → Bill) (hf : ∀ b, (f b).number = b.number) :
    findBill (updateBill n f s) k = if k = n then (findBill s k).map f else findBill s k := by
  simp only [findBill, updateBill, State.setBills]
  induction s.bills.entries with
  | nil => simp
  | cons b rest ih =>
    simp only [List.map_cons, List.find?_cons]
    by_cases hb : b.number = n
    · by_cases hk : k = n
      · subst hk; simp [hb, hf]
      · have h1 : (n == k) = false := beq_eq_false_iff_ne.mpr (fun h => hk h.symm)
        simp only [hb, if_true, hf, h1, hk, if_false] at ih ⊢
        exact ih
    · by_cases hbk : b.number = k
      · have : k ≠ n := fun h => hb (hbk.trans h)
        simp [hbk, this]
      · have h1 : (b.number == k) = false := beq_eq_false_iff_ne.mpr hbk
        simp only [if_neg hb, h1] at ih ⊢
        exact ih

/-- The entry of a number after its state has been computed again. -/
theorem findBill_restate (s : State) (n k : Nat) :
    findBill (restate n s) k =
      if k = n then (findBill s k).map (fun b => { b with state := b.stateNow }) else findBill s k := by
  unfold restate
  cases h : findBill s n with
  | none => by_cases hk : k = n <;> simp [hk, h]
  | some b =>
    have := findBill_updateBill s n k (fun b => { b with state := b.stateNow }) (fun _ => rfl)
    simpa [findBill] using this

/-- The entry of a number after a change that changes paid, reserved or due. -/
theorem findBill_changeBill (s : State) (n k : Nat) (f : Bill → Bill) (hf : ∀ b, (f b).number = b.number) :
    findBill (changeBill n f s) k =
      if k = n then (findBill s k).map (fun b => { f b with state := (f b).stateNow }) else findBill s k := by
  have : findBill (changeBill n f s) k = findBill (restate n (updateBill n f s)) k := rfl
  rw [this, findBill_restate, findBill_updateBill _ _ _ _ hf]
  by_cases hk : k = n
  · simp [hk, Option.map_map, Function.comp_def]
  · simp [hk]

/-- The latches after a bill has changed. -/
theorem changeBill_events (s : State) (n : Nat) (f : Bill → Bill) :
    (changeBill n f s).events = { s.events with latches := { s.events.latches with
      billChange := some (listDetail Limits.billChanges n s.events.latches.billChange) } } := by
  unfold changeBill restate
  cases findBill (updateBill n f s) n <;> rfl

end Sys2Proof.Laws
end

