-- ==== Sys2Proof/WellFormed.lean ====
section
/-! DEFINITION. Which commands can arise. The fixed-width fields fit by their types; what is left to check is the
lengths that a frame's 200-byte payload allows (R181, R184), the bytes of one frame on the wire (R181) and the offsets
inside the array's largest block (R115). -/

namespace Sys2Proof

/-- R184: a DATA payload is 0 to 200 bytes. -/
def dataPayloadOk (p : List Byte) : Bool := p.length ≤ 200

/-- R184: a MGMT or REQUEST payload is 1 to 200 bytes. -/
def codedPayloadOk (p : List Byte) : Bool := 1 ≤ p.length && p.length ≤ 200

/-- R181: one frame is at most 416 bytes on the wire. -/
def wireOk (w : List Byte) : Bool := 1 ≤ w.length && w.length ≤ 416

/-- R184: the known list of a BILL PUSH follows 17 bytes (code, bill, place, due, prior paid, time opened, count), so
at most 45 numbers fit in 200 bytes. -/
def knownListOk (k : List (BitVec 32)) : Bool := k.length ≤ 45

/-- R184: the row of a LOAD ROW follows 4 bytes (code, table, index). -/
def rowOk (r : List Byte) : Bool := r.length ≤ 196

/-- R115: the largest block, the IRT table block, has 21 pages of 256 bytes. -/
def arrayEndOk : ArrayEnd → Bool
  | .whole => true
  | .left cells => cells.all (fun c => c.1 < 5376)

/-- The commands that can arise. -/
def Instr.wellFormed : Instr → Bool
  | .unknownRequest _ p => codedPayloadOk p
  | .hostData _ p => dataPayloadOk p
  | .hostFrameBad w => wireOk w
  | .billPush _ _ _ _ _ _ _ known => knownListOk known
  | .loadRow _ _ _ _ row => rowOk row
  | .unknownCommand _ _ p => codedPayloadOk p
  | .gatewayData _ _ p => dataPayloadOk p
  | .radioFrameBad w => wireOk w
  | .recordProgramComplete e => arrayEndOk e
  | .markComplete e => arrayEndOk e
  | .epochProgramComplete e => arrayEndOk e
  | .pageProgramComplete e => arrayEndOk e
  | .blockEraseComplete e => arrayEndOk e
  | .operationTimeLimit e => arrayEndOk e
  | .powerOn e => arrayEndOk e
  | .resetnAssert e => arrayEndOk e
  | .lossOfPower e => arrayEndOk e
  | .authorize _ _ _ _ _ _ _ => true
  | .readResult _ _ => true
  | .split _ _ _ => true
  | .queryBill _ _ _ _ => true
  | .listBills _ => true
  | .void _ _ _ => true
  | .readRange _ _ _ => true
  | .readExposure _ _ _ => true
  | .nextEvent _ => true
  | .setMasks _ _ _ => true
  | .sleep _ => true
  | .portReset _ => true
  | .status _ _ => true
  | .hostFrameSent => true
  | .hostTransmitBegin => true
  | .assign _ _ _ _ _ => true
  | .release _ _ => true
  | .linkReset _ _ => true
  | .queryStatus _ _ => true
  | .billAmend _ _ _ _ => true
  | .billDrop _ _ _ => true
  | .loadOpen _ _ _ _ _ _ => true
  | .loadClose _ _ _ _ _ _ => true
  | .loadVerify _ _ _ => true
  | .dumpRow _ _ _ _ => true
  | .heldCommandTaken _ => true
  | .verifyReplyPlaced => true
  | .beacon _ _ _ => true
  | .authReply _ _ _ _ => true
  | .uploadConfirm _ _ _ => true
  | .grant => true
  | .transmissionComplete => true
  | .replyTimerExpiry _ => true
  | .beaconWatchExpiry => true
  | .uploadTimerExpiry => true
  | .slotTimerExpiry => true
  | .presenceTimerExpiry => true
  | .tick => true
  | .storeOperationStart => true
  | .pwrwarnChange _ => true
  | .resetnRelease => true

end Sys2Proof
end

