-- ==== Sys2Proof/Tests/Slice0.lean ====
section
/-! SUPPORT. The model's own tests. Expected values come from the manual: its worked examples and its rules. Then, for
each statement of Obligations.lean that has hypotheses, states and operands that meet them, clause by clause. -/

namespace Sys2Proof.Tests

set_option Elab.async false

open Sys2Proof.Machine Sys2Proof.Safety

/-! ### Ill-formed commands are refused -/

theorem test_empty_request_is_illFormed : (Instr.unknownRequest 1 []).wellFormed = false := by decide
theorem test_long_request_is_illFormed :
    (Instr.unknownRequest 1 (List.replicate 201 0)).wellFormed = false := by decide +kernel
theorem test_long_host_data_is_illFormed : (Instr.hostData 1 (List.replicate 201 0)).wellFormed = false := by
  decide +kernel
theorem test_empty_bad_frame_is_illFormed : (Instr.hostFrameBad []).wellFormed = false := by decide
theorem test_long_bad_frame_is_illFormed : (Instr.radioFrameBad (List.replicate 417 0)).wellFormed = false := by
  decide +kernel
theorem test_long_known_list_is_illFormed :
    (Instr.billPush 1 1 1 1 1 1 1 (List.replicate 46 1)).wellFormed = false := by decide +kernel
theorem test_long_row_is_illFormed : (Instr.loadRow 1 1 1 0 (List.replicate 197 0)).wellFormed = false := by
  decide +kernel
theorem test_empty_command_is_illFormed : (Instr.unknownCommand 1 1 []).wellFormed = false := by decide
theorem test_long_gateway_data_is_illFormed : (Instr.gatewayData 1 1 (List.replicate 201 0)).wellFormed = false := by
  decide +kernel
theorem test_outcome_outside_block_is_illFormed :
    (Instr.blockEraseComplete (.left [(5376, 0)])).wellFormed = false := by decide
theorem test_longest_payloads_are_wellFormed :
    (Instr.hostData 1 (List.replicate 200 0)).wellFormed = true
      ∧ (Instr.billPush 1 1 1 1 1 1 1 (List.replicate 45 1)).wellFormed = true := by decide +kernel

/-! ### Words: the table gives no row any bits -/

theorem test_no_word_spells_a_command : decodeTableWord 32 0xFFFFFFFF = none := by decide
theorem test_a_word_places_nothing : State.reset.withFetchWord 32 7 = State.reset := by decide +kernel

/-! ### States -/

/-- The state after a command. -/
def after (c : Instr) (s : State) : State :=
  match exec c s with
  | .next t => t
  | .fault _ => s
  | .refused _ => s

/-- A part past its first start: epoch 1, nothing held. -/
def idle : State :=
  { State.reset with
    pins := { State.reset.pins with phase := .run }
    store := { Store.reset with epochPlace := none, update := none }
    decision := { Decision.reset with epoch := 1, exhausted := false } }

/-- The part with the link UP at address 17, cell 3. -/
def linked : State :=
  { idle with
    link := { state := .up, addr := 17, replySlot := 2, cell := some 3, base := some { s := 86380, t := 2537 },
              identity := Config.unitIdentity }
    timers := { Timers.reset with beaconWatch := some 350 } }

/-- The part with its link lost. -/
def lost : State :=
  { linked with link := { linked.link with state := .down }, timers := Timers.reset }

/-- A bill with nothing paid. -/
def bill (number due : Nat) : Bill :=
  { number := number, place := 12, due := due, priorPaid := 0, paid := 0, reserved := 0, state := .opened,
    opened := 36000, tenders := [], plan := none, voidPending := 0 }

/-- A state with other bills. -/
def withBills (bs : List Bill) (s : State) : State := { s with bills := { entries := bs, settled := [] } }

/-- The row of section 1.6 with range id 41, in a mode. -/
def row41 (mode : Nat) : IrtRow :=
  { rangeId := 41, prefixLow := 41200000, prefixHigh := 41299999, mode := mode, floorLimit := 15000, cap := 60000,
    perCard := 2, route := 3 }

/-- A state with a VALID table of one row. -/
def withRow (mode : Nat) (s : State) : State :=
  { s with irt := { state := .valid, generation := 118, readable := true, mirror := [row41 mode] } }

/-- A state whose Profile is VALID with these values. -/
def withProfile (p : ProfileRecord) (s : State) : State :=
  { s with profile := { state := .valid, generation := 1, values := p } }

/-- A reply that a DATA frame or a refusal has left. -/
def waitingReply : HostReply := { code := 0, tag := 0, body := .plain .ok, ofRequest := false }

/-- A part with pending replies. -/
def crowded (n : Nat) (job : Option VoidJob) : State :=
  { idle with host := { idle.host with replies := List.replicate n waitingReply, voidJob := job } }

/-- A VOID in progress. -/
def job : VoidJob := { tag := 9, bill := 5, tender := 65537, path := .mark { block := 0, slot := 0 } }

/-- An approved offline tender of 65537 in the range of `row41`. -/
def tender : Tender :=
  { txn := 65537, base := 4691, tip := 1000, token := 0xA, path := .offline, state := .approved, share := 1,
    rangeId := 41, route := 3 }

/-- The bill of section 2.10 after its first payment. -/
def paidBill : Bill :=
  { bill 5 18761 with
    paid := 4691, tenders := [tender]
    plan := some [{ amount := 4691, state := .paid, txn := 65537 }, { amount := 4690, state := .opened, txn := 0 },
      { amount := 4690, state := .opened, txn := 0 }, { amount := 4690, state := .opened, txn := 0 }] }

/-- The APPROVAL record of that payment. -/
def record : JRecord :=
  { txn := 65537, kind := .approval, rangeId := 41, route := 3, token := 0xA, base := 4691, tip := 1000, bill := 5,
    place := 12, time := 45000, standIn := false, timeUnknown := false, original := 0 }

/-- The first record slot. -/
def firstSlot : Loc := { block := 0, slot := 0 }

/-- A part that holds that record at J0:0 in a state. -/
def recorded (st : RecordState) (s : State) : State :=
  { s with
    array := Mem.writeBytes [] 0 (encodeRecord record)
    journal := { (Journal.reset.onSlot firstSlot (fun _ => { state := st, markPending := false })) with
      writeAt := some { block := 0, slot := 1 } } }

/-- A slot that holds that payment in a state. -/
def auth (st : SlotState) : Auth :=
  { state := st, txn := 65537, bill := 5, share := 0, pfx := 41250017, token := 0xA, base := 4691, tip := 1000,
    rangeId := 41, route := 3, path := .online, standIn := false, result := .none, reason := .none, issuer := 0 }

/-- A part whose slot 0 holds it, its base reserved. -/
def paying (st : SlotState) (s : State) : State :=
  { s with
    decision := { s.decision with slots := [some (auth st), none, none, none], seq := 1 }
    bills := { entries := [{ bill 5 18761 with reserved := 4691 }], settled := [] }
    timers := { s.timers with reply := [some 0, none, none, none] } }

/-- The engine running an operation. -/
def busy (op : StoreOp) (s : State) : State := { s with store := { s.store with running := some op } }

/-- A session of the IRT in ROWS with rows taken and buffered. -/
def loading (taken buffered : Nat) (s : State) : State :=
  { s with
    irt := { state := .loading, generation := 120, readable := false, mirror := [] }
    loader := { Loader.reset with
      phase := .rows
      session := some
        { table := .irt, generation := 120, expected := 12, received := taken, broken := .no, breakIndex := 0,
          buffer := List.replicate buffered (encodeRow (row41 1)), bufferBusy := false, check := 0xFFFF } } }

/-- The session changed. -/
def onSession (f : Session → Session) (s : State) : State :=
  { s with loader := { s.loader with session := s.loader.session.map f } }

/-- A session of the Profile in ROWS. -/
def loadingProfile : State :=
  onSession (fun x => { x with table := .profile, expected := 1, received := 0, buffer := [] }) (loading 0 0 linked)

/-! ### Worked examples of the manual -/

/-- 00 section 5.6: the check value of the ASCII digits 1 to 9. -/
theorem test_check_value : checkValue [0x31, 0x32, 0x33, 0x34, 0x35, 0x36, 0x37, 0x38, 0x39] = 0x29B1 := by
  decide +kernel

/-- Section 1.6: lookups at an interval's ends and just outside. -/
theorem test_lookup_ends :
    lookup (withRow 3 idle) 41200000 = some (row41 3) ∧ lookup (withRow 3 idle) 41299999 = some (row41 3)
      ∧ lookup (withRow 3 idle) 41300000 = none ∧ lookup (withRow 3 idle) 41199999 = none := by decide +kernel

/-- Section 2.10: 18,761 split into four; 14,071 split again into two beside a PAID share. -/
theorem test_split_amounts :
    (((bill 5 18761).split 4).plan.getD []).map Share.amount = [4691, 4690, 4690, 4690]
      ∧ ((paidBill.split 2).plan.getD []).map Share.amount = [4691, 7035, 7035] := by decide +kernel

/-- Section 2.10: a tender's share index follows its PAID share from 2 to 1. -/
theorem test_split_follows_share :
    let b : Bill := { paidBill with
      tenders := [{ tender with share := 2 }]
      plan := some [{ amount := 1, state := .opened, txn := 0 }, { amount := 4691, state := .paid, txn := 65537 }] }
    (b.split 2).tenders.map Tender.share = [1] := by decide +kernel

/-- R41: with epoch 3, sequence 18 is number 196,626; sequence 65,535 is 262,143. -/
theorem test_numbers : numberOf 3 18 = 196626 ∧ numberOf 3 65535 = 262143 := by decide

/-- R84: s = 86,380 and t = 2,537 give time 5. -/
theorem test_record_time : recordTime linked.link = (5, false) := by decide

/-- Section 5.10: write position J0:126 and one ERASED block leave 130 places. -/
theorem test_free_space :
    Journal.freeSpace { Journal.reset with
      blocks := [{ JBlock.erased with state := .filling }, .erased, { JBlock.erased with state := .full },
        { JBlock.erased with state := .full }]
      writeAt := some { block := 0, slot := 126 } } = 130 := by decide +kernel

/-- Section 9.8: ASSIGN from SEARCH with BEACON WATCH running makes the link UP, LINK_CHANGE (UP, 3, 3). -/
theorem test_assign_links_up :
    let s : State := { idle with
      link := { idle.link with cell := some 3 }, timers := { Timers.reset with beaconWatch := some 1 } }
    let t := after (.assign 255 1 Config.unitIdentity 17 0) s
    t.link.state = .up ∧ t.link.addr = 17
      ∧ t.events.latches.linkChange = some { state := .up, oldCell := 3, newCell := 3 } := by decide +kernel

/-- Section 10.8: MGMT_REPLY and AUTH both at level 3; the fixed order gives MGMT_REPLY. -/
theorem test_grant_order :
    let m : Frame := { tag := 1, addr := 17, payload := .mgmtReply 4 (.plain .ok) }
    let a : Frame := { tag := 2, addr := 17, payload := .data [] }
    (after .grant { linked with arbiter := { Arbiter.reset with mgmt := [m], auth := [a] } }).arbiter.sending
      = some m := by decide +kernel

/-- Section 11.7: the refused upload asserts ATTN in ASLEEP, LINK_CHANGE and DATA_WAITING out of the mask do not. -/
theorem test_attn_asleep :
    let quiet : Latches := { Latches.clear with
      linkChange := some { state := .up, oldCell := 3, newCell := 4 }, dataWaiting := some 1 }
    let asleep (l : Latches) : State := { idle with
      host := { idle.host with power := .asleep }, events := { idle.events with latches := l, wake := 0b0000101111 } }
    attn (asleep quiet) = false
      ∧ attn (asleep { quiet with lateDecline := some { items := [262402], overflow := false } }) = true := by
  decide +kernel

/-- R96 on a factory-new part: the scan begins as State.reset stands. -/
theorem test_scan_of_erased_part : beginScan State.reset = State.reset := by decide +kernel

/-- R171, R175: ten sources in the run mask; the wake mask of R175. -/
theorem test_reset_masks : State.reset.events.run = 1023 ∧ State.reset.events.wake = 303 := by decide

/-- R181: the opening flag of a good frame ends a byte already collected, which counts once. -/
theorem test_opening_flag_ends_what_was_collected :
    (after (.listBills 1) (after (.hostFrameBad [0x7E, 0x01]) idle)).host.framesBad = 1 := by decide +kernel

/-- R117: a byte moves only toward the value written, and never to it. -/
theorem test_program_moves_a_byte_toward :
    landByte 0x0F 0x00 0xFF = 0x0F ∧ landByte 0xF0 0x00 0x7F = 0x70 ∧ landByte 0x0F 0x00 0x00 = 0x0F
      ∧ landByte 0xFF 0x00 0x12 = 0x12 ∧ landByte 0x0F 0x0F 0x00 = 0x0F := by decide +kernel

/-- R139: a broadcast LOAD VERIFY at reply slot 0 replaces a pending one; one reply is sent. -/
theorem test_verify_replaces_the_pending_one :
    let s : State := { linked with
      link := { linked.link with replySlot := 0 }, timers := { linked.timers with slot := some 4 }
      loader := { Loader.reset with pendingVerify := some (.irt, 7) } }
    let t := after (.loadVerify 255 8 2) s
    t.timers.slot = none ∧ t.loader.pendingVerify = none ∧ t.arbiter.mgmt.map Frame.tag = [8] := by decide +kernel

/-! ### Witnesses: the host port -/

theorem witness_StepTakesTheFrontCommand :
    ({ idle with pending := [.tick, .grant] } : State).pending = .tick :: [.grant] ∧ State.reset.pending = [] := by
  decide

theorem witness_TurnsAndPlacesAreKept :
    (isHostFrame (.listBills 1) = true ∧ idle.pins.phase = .run
      ∧ ({ crowded 15 none with host := { (crowded 15 none).host with inProgress := true } } : State).host.inProgress
          = true
      ∧ (crowded 15 none).host.replies.length + 0 < 16)
    ∧ (crowded 16 none).pins.phase = .run ∧ 16 ≤ (crowded 16 none).host.replies.length + 0
    ∧ (crowded 15 (some job)).host.voidJob ≠ none ∧ 16 ≤ (crowded 15 (some job)).host.replies.length + 1 := by
  decide +kernel

theorem witness_TurnsAndPlacesAreKept_raw :
    isHostFrame (.unknownRequest 1 [5]) = true ∧ (∀ tag payload, Instr.unknownRequest 1 [5] ≠ .hostData tag payload)
      ∧ isHostFrame (.hostData 1 []) = true := ⟨rfl, nofun, rfl⟩

theorem witness_ScanAnswersStartingAndDiscardsTheRadio :
    isHostFrame (.status 1 .deasserted) = true ∧ isHostFrame (.unknownRequest 1 [14]) = true
      ∧ State.reset.pins.phase = .scan
      ∧ State.reset.host.replies.length + (if State.reset.host.voidJob = none then 0 else 1) < 16
      ∧ isRadioFrame (.beacon 255 3 0) = true ∧ isRadioFrame (.unknownCommand 17 1 [5]) = true := by decide +kernel

theorem witness_RawFramesAreAnswered :
    HostReady idle ∧ (([0] : List Byte).headD 0 = 0) ∧ 13 < (([14] : List Byte).headD 0).toNat
      ∧ (1, 20) ∈ requestLengths ∧ ([1] : List Byte).length ≠ 20
      ∧ (([4, 0, 5, 0, 0] : List Byte).length ≠ 4 ∧ ([4, 0, 5, 0, 0] : List Byte).length ≠ 6)
      ∧ GateReady 17 linked ∧ (([5] : List Byte).headD 0).toNat ∉ [1, 2, 3, 4, 16, 17, 18, 32, 33, 34, 35, 36]
      ∧ (2, 1) ∈ commandLengths ∧ ([2, 0] : List Byte).length ≠ 1 := by decide +kernel

/-- A part with frames in its DATA queue and its delivery queue, in a host power state. -/
def dataHeld (n : Nat) (p : HostPower) : State :=
  { linked with
    arbiter := { linked.arbiter with data := List.replicate n { tag := 0, addr := 17, payload := .data [] } }
    host := { linked.host with delivery := List.replicate n { tag := 0, payload := [] }, power := p } }

theorem witness_DataFramesAreQueuedBothWays :
    (dataHeld 7 .awake).pins.phase = .run ∧ (dataHeld 7 .awake).host.replies.length + 0 < 16
      ∧ (dataHeld 7 .awake).arbiter.data.length < 8 ∧ 8 ≤ (dataHeld 8 .awake).arbiter.data.length
      ∧ linked.link.state ≠ .search ∧ (17 : BitVec 8).toNat = linked.link.addr
      ∧ (dataHeld 7 .awake).host.power = .awake ∧ (dataHeld 7 .asleep).host.power = .asleep
      ∧ (dataHeld 7 .asleep).host.delivery.length < 8 ∧ 8 ≤ (dataHeld 8 .asleep).host.delivery.length := by
  decide +kernel

/-- A frame of 207 bytes whose length field is wrong. -/
def badFrame : List Byte := List.replicate 207 0x7E

theorem test_bad_frame_is_unsound : frameSound badFrame = false := by
  have h : (field badFrame 4 1 + 7 == badFrame.length) = false := by decide +kernel
  rw [frameSound, h, Bool.and_false]

theorem witness_BadFramesAreCountedOnly :
    let s : State := { idle with
      host := { idle.host with asm := .collecting [] false }, radio := { idle.radio with asm := .collecting [] false } }
    s.host.asm = .collecting [] false ∧ s.radio.asm = .collecting [] false ∧ s.pins.phase = .run
      ∧ State.reset.pins.phase = .scan
      ∧ badFrame.length = 207 ∧ ([0] : List Byte).length < 7
      ∧ (frameParts (frameBytes 0x20 1 0 [5])).2.1 ≠ 0 ∧ frameSound (frameBytes 0x20 1 0 [5]) = true := by
  decide +kernel

/-- Six bytes, and an escape left pending, in both assemblers; a good frame whose closing flag is still to come. -/
theorem witness_BadFramesAreCountedOnly_open :
    let s (a : Assembler) : State :=
      { idle with host := { idle.host with asm := a }, radio := { idle.radio with asm := a } }
    (s (.collecting [1, 2, 3, 4, 5, 6] false)).host.asm = .collecting [1, 2, 3, 4, 5, 6] false
      ∧ ([1, 2, 3, 4, 5, 6] : List Byte).length < 7 ∧ (s (.collecting [] true)).radio.asm = .collecting [] true
      ∧ isHostFrame (.unknownRequest 1 [0]) = true ∧ isRadioFrame (.queryStatus 17 1) = true
      ∧ (after (.hostFrameBad [flag]) (s (.collecting (frameBytes 0x21 0 5 [5]) false))).host.replies.length = 1 := by
  decide +kernel

theorem witness_HostTransmitterServesRepliesFirst :
    let f : DataFrame := { tag := 1, payload := [] }
    let r : HostReply := { waitingReply with ofRequest := true }
    let with' (replies : List HostReply) (tx : HostTx) (p : HostPower) : State :=
      { idle with host := { idle.host with replies := replies, tx := tx, delivery := [f], power := p } }
    ((with' [r] .free .awake).host.tx = .free ∧ (with' [r] .free .awake).host.replies = [r])
      ∧ ((with' [] .free .awake).host.replies = [] ∧ (with' [] .free .awake).host.delivery = [f])
      ∧ (with' [] .free .asleep).host.power = .asleep
      ∧ ((with' [r] .reply .awake).host.tx = .reply ∧ r.ofRequest = true ∧ waitingReply.ofRequest = false)
      ∧ (with' [] (.delivery f) .awake).host.tx = .delivery f := by decide +kernel

theorem witness_MasksSleepAndPortResetAreTaken : HostReady idle ∧ HostReady (crowded 15 none) := by decide +kernel

/-- POWER_WARN and READY pending, only READY enabled. -/
def readyPending : State :=
  { idle with events :=
      { idle.events with
        latches := { Latches.clear with powerWarn := some .asserted, ready := some 1 }, run := 0b1000000000 } }

theorem witness_NextEventAndAttnAgree :
    HostReady readyPending ∧ readyPending.events.latches.pending .ready = true
      ∧ readyPending.events.run.getLsbD Event.ready.priority = true
      ∧ (∀ e' : Event, e'.priority < Event.ready.priority →
          readyPending.events.latches.pending e' = false
            ∨ readyPending.events.run.getLsbD e'.priority = false)
      ∧ (∀ e : Event, idle.events.latches.pending e = false ∨ idle.events.run.getLsbD e.priority = false)
      ∧ exec (.nextEvent 1) readyPending = .next (after (.nextEvent 1) readyPending)
      ∧ readyPending.host.power = .awake := by
  refine ⟨by decide +kernel, by decide, by decide, ?_, ?_, rfl, rfl⟩
  · intro e'; cases e' <;> decide
  · intro e; cases e <;> decide

theorem witness_HostReadsAreAnsweredAtOnce :
    let s := withRow 3 (withBills [bill 5 100] idle)
    HostReady s ∧ findBill s 6 = none ∧ findBill s 5 = some (bill 5 100)
      ∧ idle.irt.state ≠ .valid ∧ s.irt.state = .valid ∧ s.irt.readable = true
      ∧ s.irt.mirror.length ≤ 1 ∧ s.irt.mirror[0]? = some (row41 3)
      ∧ lookup s 41299999 = some (row41 3) ∧ lookup s 41300000 = none := by decide +kernel

/-! ### Witnesses: bills -/

theorem witness_ListBillsNamesEveryEntry : HostReady (withBills [bill 5 100] idle) := by decide +kernel

/-- Each refusal of SPLIT, and a split that is taken. -/
theorem witness_SplitIsRefusedInOrder :
    let s := withBills [bill 5 18761, { bill 6 100 with reserved := 1 }, 
      { bill 7 100 with paid := 100, state := .settled }, { paidBill with number := 8 }, bill 9 11] idle
    HostReady s
      ∧ firstRefusal (splitChecks s 4 2) = some .noBill ∧ firstRefusal (splitChecks s 5 1) = some .badCount
      ∧ firstRefusal (splitChecks s 5 13) = some .badCount ∧ firstRefusal (splitChecks s 6 2) = some .inUse
      ∧ firstRefusal (splitChecks s 7 2) = some .settled ∧ firstRefusal (splitChecks s 8 12) = some .sharesFull
      ∧ firstRefusal (splitChecks s 9 12) = some .tooSmall
      ∧ firstRefusal (splitChecks s 5 12) = none ∧ findBill s 5 = some (bill 5 18761) := by decide +kernel

theorem witness_SplitBuildsNearEqualShares :
    let s := withBills [paidBill] idle
    HostReady s ∧ firstRefusal (splitChecks s 5 2) = none ∧ findBill s 5 = some paidBill
      ∧ (paidBill.plan.getD [])[0]? = some { amount := 4691, state := .paid, txn := 65537 } := by decide +kernel

theorem witness_BillChangesKeepPaidBalanced :
    paidBill.paid = paidBill.priorPaid
        + ((paidBill.tenders.filter (fun u => u.state == .approved)).map Tender.base).sum
      ∧ (paidBill.tenders.map Tender.txn).Nodup ∧ ∃ u ∈ paidBill.tenders, u.txn = 65537 ∧ u.state = .approved := by
  decide +kernel

/-! ### Witnesses: payments -/

/-- Refusals of AUTHORIZE at the ends of the amount range, and each kind of refusal of VOID. -/
theorem witness_AuthorizeAndVoidAreRefusedInOrder :
    let s := withBills [paidBill, { bill 6 100 with paid := 10, tenders := [{ tender with state := .voided }] }] idle
    let full : State := { s with journal := { s.journal with writeAt := none, blocks := [] } }
    let ended : State := { s with decision := { s.decision with exhausted := true } }
    let using5 : State := { s with decision := (paying .storing idle).decision }
    HostReady s
      ∧ firstRefusal (authorizeChecks s 5 1 0 0) = some .zeroAmount
      ∧ firstRefusal (authorizeChecks s 5 1 10000000 0) = some .amountRange
      ∧ firstRefusal (authorizeChecks s 5 1 9999999 10000000) = some .amountRange
      ∧ firstRefusal (authorizeChecks s 7 0 9999999 9999999) = some .noBill
      ∧ firstRefusal (authorizeChecks s 5 1 4691 0) = some .shareTaken
      ∧ firstRefusal (authorizeChecks ended 5 2 4690 0) = some .numbersExhausted
      ∧ firstRefusal (voidChecks s 7 65537) = some .noBill ∧ firstRefusal (voidChecks s 5 1) = some .noTender
      ∧ firstRefusal (voidChecks s 6 65537) = some .noTender ∧ firstRefusal (voidChecks using5 5 65537) = some .inUse
      ∧ (firstRefusal (voidChecks full 5 65537) = none ∧ findBill full 5 = some paidBill
          ∧ paidBill.tenderOf 65537 = some tender ∧ HostReady full
          ∧ full.journal.freeSpace - full.journal.queue.length = 0)
      ∧ HostReady ended ∧ ended.journal.freeSpace - ended.journal.queue.length ≠ 0 ∧ ended.decision.exhausted = true
      ∧ findRecord ended 65537 = none ∧ findRecord full 65537 = none := by decide +kernel

theorem witness_VoidOfALiveRecordMarksIt :
    let s := recorded .live (withBills [paidBill] idle)
    HostReady s ∧ firstRefusal (voidChecks s 5 65537) = none ∧ findBill s 5 = some paidBill
      ∧ paidBill.tenderOf 65537 = some tender ∧ tender.path = .offline
      ∧ findRecord s 65537 = some (firstSlot, .live) := by decide +kernel

/-- The payment of section 2.10 as the record in program. -/
def inProgram : InProgram := { loc := firstSlot, entry := { record := record, requester := .slot 0 }, retry := false }

theorem witness_OtherVoidsQueueAReversal :
    let s := recorded .done (withBills [paidBill] { idle with decision := { idle.decision with seq := 65533 } })
    let online := withBills [{ paidBill with tenders := [{ tender with path := .online }] }] s
    HostReady s ∧ firstRefusal (voidChecks s 5 65537) = none ∧ findBill s 5 = some paidBill
      ∧ paidBill.tenderOf 65537 = some tender
      ∧ (∀ loc, findRecord s 65537 ≠ some (loc, .live))
      ∧ s.journal.queue.length < s.journal.freeSpace ∧ s.decision.exhausted = false ∧ s.decision.seq + 1 < 65535
      ∧ (s.journal.inProgram = none ∧ s.journal.queue = [] ∧ s.journal.writeAt = some { block := 0, slot := 1 })
      ∧ ({ s with journal := { s.journal with inProgram := some inProgram } } : State).journal.inProgram
          = some inProgram
      ∧ (findBill online 5).bind (fun b => (b.tenderOf 65537).map Tender.path) = some .online := by
  have h : findRecord (recorded .done
      (withBills [paidBill] { idle with decision := { idle.decision with seq := 65533 } })) 65537
        = some (firstSlot, .done) := by decide +kernel
  refine ⟨by decide +kernel, by decide +kernel, by decide +kernel, by decide +kernel, ?_, by decide +kernel⟩
  intro loc; rw [h]; simp

/-- A part with the link UP or lost, bill 5, a row of a mode, and a sequence. -/
def buying (mode seq : Nat) (s : State) : State :=
  withRow mode (withBills [bill 5 18761] { s with decision := { s.decision with seq := seq } })

/-- What the statements about an AUTHORIZE of base 4,691 for bill 5 ask of a state. -/
abbrev Taken (s : State) (tip : Nat) : Prop :=
  HostReady s ∧ firstRefusal (authorizeChecks s 5 0 4691 tip) = none ∧ s.decision.slots[0]? = some none
    ∧ (∀ j < 0, slotAt s j ≠ none) ∧ findBill s 5 = some (bill 5 18761) ∧ s.decision.seq + 1 < 65535

/-- A part whose tally of range 41 stands at its cap. -/
def capped (mode : Nat) (s : State) : State :=
  { buying mode 0 s with tally := { table := [{ rangeId := 41, count := 9, sum := 60000 }], repeats := [] } }

/-- A part whose Profile refuses stand-in. -/
def noStandIn (s : State) : State := withProfile { ProfileRecord.defaults with standIn := 0 } s

theorem witness_AuthorizeGoesOnline :
    (Taken (buying 1 65533 linked) 0 ∧ (buying 1 65533 linked).link.state = .up
        ∧ lookup (buying 1 65533 linked) 41200000 = some (row41 1) ∧ (row41 1).mode = 1)
      ∧ (Taken (buying 3 0 linked) 1408 ∧ 4691 * (params (buying 3 0 linked)).tipCapPercent / 100 < 1408)
      ∧ (Taken (capped 3 linked) 0 ∧ offlineTest (capped 3 linked) (row41 3) 4691 7 ≠ none)
      ∧ lookup (buying 1 0 linked) 41300000 = none := by decide +kernel

theorem witness_AuthorizeApprovesOffline :
    (Taken (buying 3 65533 linked) 1407 ∧ 1407 ≤ 4691 * (params (buying 3 65533 linked)).tipCapPercent / 100
        ∧ lookup (buying 3 65533 linked) 41250017 = some (row41 3) ∧ (row41 3).mode = 3
        ∧ offlineTest (buying 3 65533 linked) (row41 3) (4691 + 1407) 10 = none
        ∧ (buying 3 65533 linked).journal.queue = [] ∧ (buying 3 65533 linked).journal.writeAt ≠ none)
      ∧ (Taken (buying 2 0 lost) 1407 ∧ (row41 2).mode = 2 ∧ (buying 2 0 lost).link.state ≠ .up
        ∧ (params (buying 2 0 lost)).standIn ≠ 0
        ∧ offlineTest (buying 2 0 lost) (row41 2) (4691 + 1407) 10 = none)
      ∧ ({ buying 3 0 linked with journal := { Journal.reset with inProgram := some inProgram } } : State
          ).journal.inProgram ≠ none := by decide +kernel

theorem witness_AuthorizeDeclinesAtOnce :
    (Taken (buying 3 65533 lost) 1408 ∧ (buying 3 65533 lost).link.state ≠ .up
        ∧ 4691 * (params (buying 3 65533 lost)).tipCapPercent / 100 < 1408)
      ∧ (Taken (buying 3 0 lost) 0 ∧ lookup (buying 3 0 lost) 41300000 = none)
      ∧ (Taken (buying 1 0 lost) 0 ∧ (lookup (buying 1 0 lost) 41200000).map IrtRow.mode = some 1)
      ∧ (Taken (noStandIn (buying 2 0 lost)) 0 ∧ (params (noStandIn (buying 2 0 lost))).standIn = 0
        ∧ (lookup (noStandIn (buying 2 0 lost)) 41200000).map IrtRow.mode = some 2)
      ∧ (Taken (capped 2 lost) 0 ∧ offlineTest (capped 2 lost) (row41 2) 4691 7 = some .cumulativeCap)
      ∧ (Taken (capped 3 lost) 0 ∧ offlineTest (capped 3 lost) (row41 3) 4691 7 = some .cumulativeCap) :=
  ⟨by decide +kernel, by decide +kernel, by decide +kernel, by decide +kernel, by decide +kernel, by decide +kernel⟩

theorem witness_TransactionNumbersRise :
    let at' (epoch seq epochAt : Nat) : State := { idle with
      decision := { idle.decision with epoch := epoch, seq := seq }, store := { idle.store with epochAt := epochAt } }
    ((at' 1 65533 1).decision.seq < 65535 ∧ (at' 1 65533 1).decision.seq + 1 < 65535)
      ∧ ((at' 65534 65534 63).decision.seq + 1 = 65535 ∧ (at' 65534 65534 63).decision.epoch < 65535
        ∧ (at' 65534 65534 63).store.epochAt < 64)
      ∧ 64 ≤ (at' 65534 65534 64).store.epochAt ∧ 65535 ≤ (at' 65535 65534 64).decision.epoch := by decide +kernel

theorem witness_ReadResultAnswersBySlotState :
    HostReady idle ∧ 3 < (4 : BitVec 8).toNat ∧ (3 : BitVec 8).toNat ≤ 3 ∧ slotAt idle 3 = none
      ∧ HostReady (paying .storing idle) ∧ slotAt (paying .storing idle) 0 = some (auth .storing)
      ∧ (auth .storing).state ≠ .done ∧ HostReady (paying .done idle)
      ∧ slotAt (paying .done idle) 0 = some (auth .done) ∧ (auth .done).state = .done := by decide +kernel

/-- The engine programming the record of the payment in slot 0. -/
def storing : State :=
  busy (.recordProgram firstSlot (encodeRecord record))
    (paying .storing { idle with journal := { Journal.reset with inProgram := some inProgram } })

theorem witness_OfflineApprovalNeedsAStoredRecord :
    exec (.recordProgramComplete .whole) storing = .next (after (.recordProgramComplete .whole) storing)
      ∧ (slotAt (after (.recordProgramComplete .whole) storing) 0).map (fun a => (a.state, a.result))
          = some (.done, .approvedOffline) := ⟨rfl, by decide +kernel⟩

/-! ### Witnesses: management commands -/

theorem witness_FilteredFramesAreDiscarded :
    isRadioFrame (.queryStatus 17 1) = true ∧ idle.pins.phase = .run ∧ idle.link.state = .search
      ∧ radioAddr (.queryStatus 17 1) ≠ 255 ∧ heardUnassigned (.loadVerify 255 1 1) = false
      ∧ isRadioFrame (.unknownCommand 255 1 [1]) = true ∧ heardUnassigned (.unknownCommand 255 1 [1]) = false
      ∧ linked.link.state ≠ .search ∧ (radioAddr (.queryStatus 18 1)).toNat ≠ linked.link.addr
      ∧ radioAddr (.queryStatus 18 1) ≠ 255 := by decide +kernel

/-- A part whose MGMT_REPLY queue and gate hold these. -/
def gated (n : Nat) (g : Gate) : State :=
  { linked with arbiter := { Arbiter.reset with
      mgmt := List.replicate n { tag := 0, addr := 17, payload := .mgmtReply 4 (.plain .ok) }, gate := g } }

/-- A command that waits. -/
def waiting : Instr := .queryStatus 17 7

theorem witness_GateHoldsOneCommand :
    isCommand (.release 17 1) = true ∧ radioAddr (.unknownCommand 17 1 [5]) = 17
      ∧ (gated 3 (.held waiting)).pins.phase = .run
      ∧ (gated 3 (.held waiting)).link.state ≠ .search ∧ (gated 3 (.held waiting)).arbiter.gate ≠ .empty
      ∧ (radioAddr (.release 17 1)).toNat = linked.link.addr ∧ radioAddr (.release 17 1) ≠ 255
      ∧ 0 < openPlaces (gated 2 (.held waiting)).arbiter ∧ openPlaces (gated 4 (.held waiting)).arbiter = 0
      ∧ radioAddr (.loadVerify 255 1 1) = 255
      ∧ (gated 4 .empty).arbiter.gate = .empty ∧ 4 ≤ (gated 4 .empty).arbiter.mgmt.length := by decide +kernel

/-- A verify report. -/
def report : VerifyReport :=
  { table := .irt, state := .valid, generation := 118, rows := 1, received := 0, broken := .no }

theorem witness_FreedPlacesServeTheWaiters :
    let verify : State := { gated 3 .empty with
      arbiter := { (gated 3 .empty).arbiter with waitingVerify := [(7, report)] } }
    (verify.arbiter.waitingVerify = [(7, report)] ∧ verify.arbiter.gate = .empty ∧ verify.arbiter.mgmt.length < 4)
      ∧ ((gated 3 (.held waiting)).arbiter.gate = .held waiting ∧ (gated 3 (.held waiting)).arbiter.waitingVerify = []
        ∧ (gated 3 (.held waiting)).arbiter.mgmt.length < 4)
      ∧ 4 ≤ (gated 4 (.held waiting)).arbiter.mgmt.length := by decide +kernel

/-- A LOAD OPEN held with LOADLOCK asserted: locked, or accepted with the line deasserted at its taking. -/
theorem witness_FreedPlacesServeTheWaiters_open :
    let s := gated 3 (.held (.loadOpen 17 7 1 120 12 .asserted))
    s.arbiter.waitingVerify = [] ∧ s.arbiter.mgmt.length < 4 ∧ (17 : BitVec 8) ≠ 255
      ∧ firstRefusal (openChecks s 1 120 12 .asserted) = some .locked
      ∧ firstRefusal (openChecks s 1 120 12 .deasserted) = none := by decide +kernel

theorem witness_AssignGivesAnAddress :
    let heard : State := { idle with
      timers := { Timers.reset with beaconWatch := some 0 }, link := { idle.link with cell := some 3 } }
    (idle.pins.phase = .run ∧ idle.arbiter.gate = .empty
        ∧ idle.arbiter.mgmt.length + idle.arbiter.waitingVerify.length < 4
        ∧ (254 : BitVec 8) ≠ 0 ∧ (254 : BitVec 8) ≠ 255 ∧ (63 : BitVec 8).toNat ≤ 63)
      ∧ linked.link.state ≠ .search
      ∧ (idle.link.state = .search ∧ idle.timers.beaconWatch = none)
      ∧ (heard.link.state = .search ∧ heard.timers.beaconWatch ≠ none ∧ heard.uploader = .off
        ∧ firstLive heard = none)
      ∧ firstLive (recorded .live heard) = some firstSlot ∧ (recorded .live heard).uploader = .off
      ∧ ({ heard with uploader := .holdoff } : State).uploader ≠ .off
      ∧ (0 : BitVec 48) ≠ linked.link.identity ∧ 63 < (64 : BitVec 8).toNat ∧ GateReady 17 linked := by
  decide +kernel

/-- The link UP, a payment awaiting its reply, the Uploader waiting for a confirm. -/
def working : State :=
  { recorded .outstanding (paying .awaitingReply linked) with
    uploader := .awaitingConfirm firstSlot 65537 1
    timers := { linked.timers with reply := [some 600, none, none, none], upload := some 300 } }

theorem witness_ReleaseReturnsToSearch :
    GateReady 17 working ∧ (loading 10 0 working).loader.phase = .rows ∧ GateReady 17 (loading 10 0 working)
      ∧ (loading 10 0 working).loader.session.isSome = true ∧ working.loader.phase ≠ .rows := by decide +kernel

theorem witness_LinkResetClearsTheTraffic :
    GateReady 17 working ∧ slotAt working 0 = some (auth .awaitingReply) ∧ (auth .awaitingReply).state = .awaitingReply
      ∧ awaiting (slotAt working 1) = false ∧ working.link.state = .up
      ∧ working.uploader = .awaitingConfirm firstSlot 65537 1
      ∧ firstLive (setRecordState firstSlot .live working) = some firstSlot
      ∧ GateReady 17 lost ∧ lost.link.state ≠ .up := by decide +kernel

/-- A session in ROWS; the Uploader in HOLDOFF with a record LIVE, and in IDLE with none. -/
theorem witness_LinkResetClearsTheTraffic_fresh :
    let holdoff : State := { recorded .live linked with uploader := .holdoff }
    let resting : State := { linked with uploader := .idle }
    (GateReady 17 (loading 10 0 working) ∧ (loading 10 0 working).loader.phase = .rows
        ∧ (loading 10 0 working).loader.session.isSome = true ∧ working.loader.phase ≠ .rows)
      ∧ (GateReady 17 holdoff ∧ holdoff.link.state = .up ∧ firstLive holdoff = some firstSlot)
      ∧ (GateReady 17 resting ∧ resting.link.state = .up ∧ firstLive resting = none) := by decide +kernel

/-- One row stored in the IRT's first row place. -/
def storedRows : Mem := Mem.writeBytes [] (irtRowAddr 0) (encodeRow (row41 1))

theorem witness_ReadingCommandsAreAnswered :
    let s : State := { linked with array := storedRows }
    GateReady 17 s ∧ ((3 : BitVec 8) ≠ 1 ∧ (3 : BitVec 8) ≠ 2)
      ∧ sessionOf (loading 1 1 s) .irt ≠ none ∧ GateReady 17 (loading 1 1 s)
      ∧ sessionOf s .irt = none ∧ s.loader.phase ≠ .draining .irt
      ∧ (0 : BitVec 16).toNat < irtPresent s.array ∧ irtPresent s.array ≤ (1 : BitVec 16).toNat
      ∧ sessionOf s .profile = none ∧ s.loader.phase ≠ .draining .profile := by decide +kernel

/-- The Profile's record place erased and written; a session of the Profile, and its page still being programmed. -/
theorem witness_ReadingCommandsAreAnswered_profile :
    let stored : State := { linked with array := Mem.writeBytes [] profileRecordAddr (encodeProfile .defaults) }
    let draining : State := { linked with loader := { Loader.reset with phase := .draining .profile } }
    (GateReady 17 stored ∧ sessionOf stored .profile = none ∧ stored.loader.phase ≠ .draining .profile
        ∧ stored.array.erasedRange profileRecordAddr 21 = false ∧ linked.array.erasedRange profileRecordAddr 21 = true)
      ∧ (GateReady 17 loadingProfile ∧ sessionOf loadingProfile .profile ≠ none)
      ∧ (GateReady 17 draining ∧ draining.loader.phase = .draining .profile) := by decide +kernel

theorem witness_ReadingCommandsAreAnswered_broadcast :
    let pending (mgmt verify : Nat) : State := { gated mgmt .empty with
      timers := { linked.timers with slot := some 0 }
      loader := { Loader.reset with pendingVerify := some (.irt, 7) }
      arbiter := { (gated mgmt .empty).arbiter with waitingVerify := List.replicate verify (7, report) } }
    tableOf 1 = some .irt ∧ linked.link.replySlot ≠ 0 ∧ linked.arbiter.gate = .empty
      ∧ ({ linked with link := { linked.link with replySlot := 0 } } : State).link.replySlot = 0
      ∧ (pending 3 0).timers.slot = some 0 ∧ (pending 3 0).loader.pendingVerify = some (.irt, 7)
      ∧ (pending 3 0).arbiter.gate = .empty
      ∧ (pending 3 0).arbiter.mgmt.length + (pending 3 0).arbiter.waitingVerify.length < 4
      ∧ (4 ≤ (pending 4 3).arbiter.mgmt.length ∧ (pending 4 3).arbiter.waitingVerify.length < 4)
      ∧ (4 ≤ (pending 4 4).arbiter.mgmt.length ∧ 4 ≤ (pending 4 4).arbiter.waitingVerify.length) := by decide +kernel

/-- A Bill Table of settled bills numbered from 100. -/
def manyBills (n : Nat) : List Bill :=
  (List.range n).map (fun i => { bill (100 + i) 10 with paid := 10, priorPaid := 10, state := .settled })

/-- A part with that table. -/
def fullTable (n : Nat) : State :=
  { linked with bills := { entries := manyBills n, settled := (manyBills n).map Bill.number } }

theorem witness_BillPushCreatesAnEntry :
    let s := recorded .live linked
    GateReady 17 s
      ∧ firstRefusal (pushChecks s 5 12 18761 14071 72540 []) = some .overpaid
      ∧ firstRefusal (pushChecks s 5 12 18761 14070 86399 []) = none
      ∧ firstRefusal (pushChecks s 5 1000 18761 0 0 []) = some .badField
      ∧ firstRefusal (pushChecks (withBills [bill 5 1] s) 5 12 18761 0 0 []) = some .billExists
      ∧ firstRefusal (pushChecks (withBills (manyBills 32) linked) 5 12 10 0 0 []) = some .full := by decide +kernel

theorem witness_BillPushCreatesAnEntry_table :
    (GateReady 17 (fullTable 31) ∧ (fullTable 31).bills.entries.length < 32
        ∧ firstRefusal (pushChecks (fullTable 31) 5 999 9999999 9999999 86399 []) = none)
      ∧ (GateReady 17 (fullTable 32) ∧ 32 ≤ (fullTable 32).bills.entries.length
        ∧ evictable (fullTable 32) = some 100
        ∧ firstRefusal (pushChecks (fullTable 32) 5 12 10 0 0 []) = none) := by decide +kernel

theorem witness_BillAmendAndDropChangeTheEntry :
    let s := withBills [paidBill, { bill 6 100 with reserved := 10 }, { bill 7 100 with voidPending := 3 }] linked
    GateReady 17 s
      ∧ firstRefusal (amendChecks s 5 10000000) = some .badField ∧ firstRefusal (amendChecks s 4 1) = some .noBill
      ∧ firstRefusal (amendChecks s 7 100) = some .inUse ∧ firstRefusal (amendChecks s 5 4690) = some .belowTendered
      ∧ firstRefusal (amendChecks s 5 4691) = none ∧ findBill s 5 = some paidBill
      ∧ firstRefusal (dropChecks s 0) = some .badField ∧ firstRefusal (dropChecks s 4) = some .noBill
      ∧ firstRefusal (dropChecks s 6) = some .inUse ∧ firstRefusal (dropChecks s 5) = none := by decide +kernel

theorem witness_LoadOpenOpensASession :
    GateReady 17 linked
      ∧ firstRefusal (openChecks linked 3 1 1 .deasserted) = some .badField
      ∧ firstRefusal (openChecks linked 1 1 193 .deasserted) = some .badField
      ∧ firstRefusal (openChecks linked 2 1 2 .deasserted) = some .badField
      ∧ firstRefusal (openChecks linked 1 1 192 .asserted) = some .locked
      ∧ firstRefusal (openChecks (loading 0 0 linked) 1 1 192 .deasserted) = some .busy
      ∧ firstRefusal (openChecks linked 1 65535 192 .deasserted) = none
      ∧ firstRefusal (openChecks linked 2 1 1 .deasserted) = none := by decide +kernel

theorem witness_LoadRowTakesTheNextRow :
    let s := loading 9 9 linked
    let se := s.loader.session
    GateReady 17 s ∧ s.loader.phase = .rows ∧ se.map Session.table = some .irt
      ∧ (encodeRow (row41 1)).length = 24
      ∧ (se.map Session.bufferBusy = some false ∧ se.map Session.broken = some .no ∧ se.map Session.received = some 9
        ∧ se.map Session.expected = some 12 ∧ se.map (fun x => x.buffer.length) = some 9)
      ∧ ((loading 11 1 linked).loader.session.map Session.received = some 11)
      ∧ (onSession (fun x => { x with bufferBusy := true }) s).loader.session.map Session.bufferBusy = some true
      ∧ (onSession (fun x => { x with broken := .storeFault }) s).loader.session.map Session.broken
          = some .storeFault
      ∧ (10 : BitVec 16).toNat ≠ 9 := by decide +kernel

theorem witness_LoadRowTakesTheNextRow_profile :
    GateReady 17 loadingProfile ∧ loadingProfile.loader.phase = .rows
      ∧ loadingProfile.loader.session = some
          { table := .profile, generation := 120, expected := 1, received := 0, broken := .no, breakIndex := 0,
            buffer := [], bufferBusy := false, check := 0xFFFF }
      ∧ (List.replicate 21 (0 : Byte)).length = 21 := by decide +kernel

theorem witness_LoadCloseProceedsInSteps :
    let s := loading 12 2 linked
    let se := s.loader.session
    GateReady 17 s ∧ s.loader.phase = .rows ∧ se.map Session.table = some .irt
      ∧ (se.map Session.bufferBusy = some false ∧ se.map Session.broken = some .no
        ∧ se.map (fun x => x.buffer.length) = some 2)
      ∧ (loading 10 0 linked).loader.session.map (fun x => x.buffer) = some []
      ∧ (onSession (fun x => { x with bufferBusy := true }) s).loader.session.map Session.bufferBusy = some true
      ∧ (onSession (fun x => { x with broken := .sequence }) s).loader.session.map Session.broken
          = some .sequence := by decide +kernel

/-- The Profile's session with its record taken and programmed. -/
theorem witness_LoadCloseProceedsInSteps_profile :
    let s := onSession (fun x => { x with received := 1 }) loadingProfile
    GateReady 17 s ∧ s.loader.phase = .rows ∧ (1 : BitVec 16).toNat = 1 ∧ (2 : BitVec 16).toNat ≠ 1
      ∧ s.loader.session = some
          { table := .profile, generation := 120, expected := 1, received := 1, broken := .no, breakIndex := 0,
            buffer := [], bufferBusy := false, check := 0xFFFF } := by decide +kernel

/-! ### Witnesses: the gateway's other frames -/

theorem witness_BeaconKeepsTheLinkUp :
    linked.pins.phase = .run ∧ ((3 : BitVec 16) ≠ 0 ∧ (86399 : BitVec 24).toNat ≤ 86399)
      ∧ ¬ (86400 : BitVec 24).toNat ≤ 86399
      ∧ (linked.link.state = .up ∧ linked.link.cell = some 3)
      ∧ ¬ (linked.link.cell = none ∨ linked.link.cell = some 4)
      ∧ (idle.link.state = .search ∧ idle.link.cell = none ∧ idle.timers.presence = none)
      ∧ ({ idle with timers := { Timers.reset with presence := some 0 } } : State).timers.presence ≠ none
      ∧ (let held : Link := { idle.link with cell := some 3 }
        held.state = .search ∧ ¬ (held.cell = none ∨ held.cell = some 4))
      ∧ ((recorded .live lost).link.state = .down ∧ (recorded .live lost).uploader = .off
        ∧ firstLive (recorded .live lost) = some firstSlot)
      ∧ (lost.link.state = .down ∧ lost.uploader = .off ∧ firstLive lost = none) := by decide +kernel

theorem witness_AuthReplyEndsThePayment :
    Addressed 17 working ∧ awaitingSlot working 65537 = some 0
      ∧ slotAt working 0 = some (auth .awaitingReply)
      ∧ findBill working 5 = some { bill 5 18761 with reserved := 4691 } := by decide +kernel

/-- A part whose late list holds one number of each outcome. -/
def lateHeld : State :=
  { linked with decision := { linked.decision with
      late := [{ txn := 7, outcome := .stoodIn }, { txn := 8, outcome := .declined }] } }

theorem witness_LateRepliesAndStrayConfirmsAreJudged :
    Addressed 17 lateHeld ∧ awaitingSlot lateHeld 7 = none ∧ awaitingSlot lateHeld 8 = none
      ∧ awaitingSlot lateHeld 9 = none
      ∧ (lateHeld.decision.late.find? (fun e => e.txn == 7)).map LateEntry.outcome = some .stoodIn
      ∧ (lateHeld.decision.late.find? (fun e => e.txn == 8)).map LateEntry.outcome = some .declined
      ∧ lateHeld.decision.late.find? (fun e => e.txn == 9) = none
      ∧ findRecord linked 9 = none ∧ findRecord (recorded .done linked) 65537 = some (firstSlot, .done) := by
  decide +kernel

theorem witness_UploadConfirmFinishesTheRecord :
    Addressed 17 working ∧ findRecord working 65537 = some (firstSlot, .outstanding)
      ∧ working.uploader = .awaitingConfirm firstSlot 65537 1
      ∧ firstLive { working with
          journal := working.journal.onSlot firstSlot (fun _ => { state := .done, markPending := true }) } = none
      ∧ (Addressed 17 (recorded .live linked) ∧ findRecord (recorded .live linked) 65537 = some (firstSlot, .live)
        ∧ (recorded .live linked).uploader = .off) := by decide +kernel

/-- Two records: one OUTSTANDING at J0:0, one LIVE at J0:1. -/
def twoRecords : State :=
  { working with
    array := working.array.writeBytes 32 (encodeRecord { record with txn := 65538 })
    journal := { (working.journal.onSlot { block := 0, slot := 1 } (fun _ => { state := .live, markPending := false }))
      with writeAt := some { block := 0, slot := 2 } } }

theorem witness_UploadConfirmFinishesTheRecord_next :
    findRecord twoRecords 65537 = some (firstSlot, .outstanding)
      ∧ firstLive { twoRecords with
          journal := twoRecords.journal.onSlot firstSlot (fun _ => { state := .done, markPending := true }) }
        = some { block := 0, slot := 1 } := by decide +kernel

theorem witness_GrantTakesTheHighestLevel :
    let f : Frame := { tag := 2, addr := 17, payload := .data [] }
    let s : State := { linked with arbiter := { Arbiter.reset with data := [f], presence := [f] } }
    (s.arbiter.sending = none ∧ s.arbiter.queue .data = [f] ∧ 0 < (params s).level .data
        ∧ linkAllows s.link.state .data = true)
      ∧ (∀ d : TxClass, s.arbiter.queue d ≠ [] → 0 < (params s).level d → linkAllows s.link.state d = true →
          d ≠ .data → (params s).level d < (params s).level .data
            ∨ (params s).level d = (params s).level .data ∧ classOrder.idxOf .data < classOrder.idxOf d)
      ∧ (∀ d : TxClass, linked.arbiter.queue d = [] ∨ (params linked).level d = 0
          ∨ linkAllows linked.link.state d = false)
      ∧ ({ linked with arbiter := { Arbiter.reset with sending := some f } } : State).arbiter.sending ≠ none := by
  refine ⟨by decide +kernel, ?_, ?_, by decide +kernel⟩
  · intro d; cases d <;> decide +kernel
  · intro d; cases d <;> decide +kernel

/-! ### Witnesses: timers -/

theorem witness_TickAndPresencePaceThePart :
    linked.pins.phase = .run
      ∧ (let s : State := { idle with timers := { Timers.reset with presence := some 0, beaconWatch := some 1 } }
         s.timers.presence = some 0 ∧ s.link.state = .search ∧ s.timers.beaconWatch ≠ none)
      ∧ ({ idle with timers := { Timers.reset with presence := some 0 } } : State).timers.beaconWatch = none := by
  decide +kernel

/-- The payment of slot 0 at the expiry of its reply timer, a record in program. -/
def unanswered (mode : Nat) (s : State) : State :=
  withRow mode { paying .awaitingReply s with journal := { Journal.reset with inProgram := some inProgram } }

theorem witness_ReplyExpiryResolvesByStandIn :
    ((unanswered 3 linked).timers.reply[(0 : Fin 4).val]? = some (some 0)
        ∧ slotAt (unanswered 3 linked) 0 = some (auth .awaitingReply)
        ∧ findBill (unanswered 3 linked) 5 = some { bill 5 18761 with reserved := 4691 })
      ∧ (params (noStandIn (unanswered 3 linked))).standIn = 0
      ∧ lookup (unanswered 1 linked) 41250017 = some (row41 1) ∧ (row41 1).mode = 1
      ∧ lookup (paying .awaitingReply linked) 41250017 = none
      ∧ ((unanswered 3 linked).journal.inProgram = some inProgram ∧ (params (unanswered 3 linked)).standIn ≠ 0
        ∧ lookup (unanswered 3 linked) 41250017 = some (row41 3) ∧ (row41 3).mode = 3
        ∧ (auth .awaitingReply).tip ≤ (auth .awaitingReply).base * (params (unanswered 3 linked)).tipCapPercent / 100
        ∧ offlineTest (unanswered 3 linked) (row41 3) 5691 10 = none) := by decide +kernel

theorem witness_BeaconLossTakesTheLinkDown :
    let s : State := { working with timers := { working.timers with beaconWatch := some 0 } }
    s.timers.beaconWatch = some 0 ∧ s.link.state = .up
      ∧ ({ idle with timers := { Timers.reset with beaconWatch := some 0 } } : State).timers.beaconWatch = some 0
      ∧ idle.link.state = .search := by decide +kernel

/-- The UPLOAD timer at its expiry, with a number of attempts made and these frames queued. -/
def expiring (u : UploadState) (frames : List Frame) : State :=
  { working with
    uploader := u, timers := { working.timers with upload := some 0 }
    arbiter := { Arbiter.reset with upload := frames } }

/-- An UPLOAD frame not yet granted. -/
def uploadFrame : Frame := { tag := 1, addr := 17, payload := .upload 65537 (encodeRecord record) 1 }

theorem witness_UploadExpiryRetriesThenHoldsOff :
    ((expiring (.awaitingConfirm firstSlot 65537 2) []).timers.upload = some 0
        ∧ 2 < (params (expiring (.awaitingConfirm firstSlot 65537 2) [])).uploadAttempts
        ∧ (expiring (.awaitingConfirm firstSlot 65537 2) []).arbiter.upload = [])
      ∧ ((expiring (.awaitingConfirm firstSlot 65537 1) [uploadFrame]).arbiter.upload = [uploadFrame]
        ∧ uploadFrame.payload = .upload 65537 (encodeRecord record) 1)
      ∧ (params (expiring (.awaitingConfirm firstSlot 65537 3) [])).uploadAttempts ≤ 3
      ∧ ((expiring .holdoff []).uploader = .holdoff ∧ firstLive (expiring .holdoff []) = none)
      ∧ firstLive (recorded .live (expiring .holdoff [])) = some firstSlot := by decide +kernel

/-! ### Witnesses: the Store Engine -/

/-- The engine with these requests. -/
def asking (st : Store) (warn : Line) : State :=
  { idle with store := st, pins := { idle.pins with pwrwarn := warn } }

theorem witness_StoreEngineChoosesInOrder :
    let quiet := idle.store
    let m : MarkRequest := { loc := firstSlot, kind := .voided, second := false }
    let p : PageRequest := { table := .irt, page := 1, bytes := [1] }
    let j : EraseRequest := { target := .journal 2, second := false }
    let ep : EraseRequest := { target := .epoch, second := false }
    let tb : EraseRequest := { target := .table .irt, second := false }
    (asking { quiet with running := some (.mark m) } .asserted).store.running ≠ none
      ∧ (asking { quiet with recordPlace := some (firstSlot, [1]) } .asserted).store.recordPlace
          = some (firstSlot, [1])
      ∧ (asking { quiet with marks := [m] } .asserted).store.marks = [m]
      ∧ (asking { quiet with epochPlace := some (63, 7) } .asserted).pins.pwrwarn = .asserted
      ∧ (asking { quiet with epochPlace := some (63, 7) } .deasserted).store.epochPlace = some (63, 7)
      ∧ (asking { quiet with pagePlace := some p } .deasserted).store.pagePlace = some p
      ∧ ((asking { quiet with erases := [tb, j, ep] } .deasserted).store.erases = [tb] ++ j :: [ep]
        ∧ j.isJournal = true ∧ ∀ q ∈ [tb], q.isJournal = false)
      ∧ ((asking { quiet with erases := [tb, ep] } .deasserted).store.erases = [tb] ++ ep :: []
        ∧ (∀ q ∈ [tb, ep], q.isJournal = false) ∧ ∀ q ∈ [tb], q.target ≠ .epoch)
      ∧ ((asking { quiet with erases := [tb] } .deasserted).store.erases = tb :: [] ∧ tb.target = .table .irt)
      ∧ (asking quiet .deasserted).store.erases = [] := by decide +kernel

theorem witness_RecordStoredApprovesThePayment :
    storing.store.running = some (.recordProgram firstSlot (encodeRecord record))
      ∧ (firstSlot.block < 4 ∧ firstSlot.slot < 128 ∧ (encodeRecord record).length ≤ 32)
      ∧ (storing.array.program firstSlot.addr (encodeRecord record) .whole).2 = true
      ∧ storing.journal.inProgram
          = some { loc := firstSlot, entry := { record := record, requester := .slot 0 }, retry := false }
      ∧ storing.journal.queue = [] ∧ storing.uploader ≠ .idle ∧ slotAt storing 0 = some (auth .storing)
      ∧ findBill storing 5 = some { bill 5 18761 with reserved := 4691 } := by decide +kernel

/-- A program that leaves two of its bytes wrong. -/
def torn : ArrayEnd := .left [(0, 0x00), (1, 0x7F)]

theorem witness_FailedRecordIsRetriedOnce :
    let again : State := { storing with
      journal := { storing.journal with inProgram := some { inProgram with retry := true } } }
    (storing.array.program firstSlot.addr (encodeRecord record) torn).2 = false
      ∧ storing.journal.inProgram = some inProgram ∧ inProgram.retry = false
      ∧ storing.journal.writeAt = some firstSlot
      ∧ (again.journal.inProgram = some { inProgram with retry := true } ∧ again.journal.queue = []
        ∧ inProgram.entry.requester = .slot 0 ∧ inProgram.entry.record.kind = .approval
        ∧ slotAt again 0 = some (auth .storing)) := by decide +kernel

theorem witness_MarkIsRetriedOnce :
    let r : MarkRequest := { loc := firstSlot, kind := .voided, second := false }
    let s := busy (.mark r) (recorded .voided (crowded 0 (some job)))
    s.store.running = some (.mark r) ∧ r.loc.block < 4 ∧ r.loc.slot < 128
      ∧ (s.array.program (markAddr r.loc r.kind) [0x00] (.left [])).2 = false ∧ r.second = false
      ∧ (s.array.program (markAddr r.loc r.kind) [0x00] .whole).2 = true
      ∧ s.host.voidJob = some job ∧ job.path = .mark r.loc ∧ idle.host.voidJob = none := by decide +kernel

/-- R69: a mark that failed twice, or whose second MARK was stopped at its time limit, leaves a record that the scan
finds LIVE, though its byte came to be programmed; one that succeeded leaves it VOIDED. -/
theorem test_failed_mark_leaves_the_record_live :
    let s (second : Bool) :=
      busy (.mark { loc := firstSlot, kind := .voided, second := second }) (recorded .voided idle)
    let found (t : State) : RecordState := (scanSlot t.array firstSlot).state
    found (after (.markComplete (.left [(0, 0x7F)])) (s true)) = .live
      ∧ found (after (.operationTimeLimit .whole) (s true)) = .live
      ∧ found (after (.markComplete .whole) (s false)) = .voided := by decide +kernel

/-- R117, R118: a first MARK that failed leaves its byte as the array left it; one stopped at its limit with the byte
programmed is followed by a second that passes read-back. -/
theorem test_first_failed_mark_leaves_what_it_wrote :
    let r : MarkRequest := { loc := firstSlot, kind := .voided, second := false }
    let s := busy (.mark r) (recorded .voided idle)
    let t := after (.operationTimeLimit .whole) s
    (after (.markComplete (.left [(0, 0x7F)])) s).array.read (markAddr firstSlot .voided) = 0x7F
      ∧ t.array.read (markAddr firstSlot .voided) = 0x00 ∧ t.store.marks = [{ r with second := true }]
      ∧ ((StoreOp.mark { r with second := true }).apply t.array (.left [])).2 = true := by decide +kernel

/-- An epoch program in its last word, of an update. -/
def programming (u : EpochUpdate) (at' : Nat) : State :=
  busy (.epochProgram 63 u.epoch) { idle with store := { idle.store with update := some u, epochAt := at' } }

theorem witness_EpochProgramEndsTheUpdate :
    let u : EpochUpdate := { epoch := 7, retry := false, startUp := true }
    let s := programming u 63
    s.store.running = some (.epochProgram 63 7) ∧ 63 < 64 ∧ s.store.update = some u
      ∧ (s.array.program (epochWordAddr 63) (encodeEpochWord 7) .whole).2 = true
      ∧ (s.array.program (epochWordAddr 63) (encodeEpochWord 7) (.left [])).2 = false
      ∧ s.store.epochAt < 64
      ∧ (programming { u with startUp := false } 64).store.update = some { u with startUp := false }
      ∧ (programming { u with retry := true } 64).store.update = some { u with retry := true }
      ∧ tornCount s = 0
      ∧ 0 < tornCount { s with journal := s.journal.onSlot firstSlot (fun x => { x with state := .torn }) } := by
  decide +kernel

/-- The IRT header of one stored row. -/
def header : IrtHeader :=
  { generation := 120, rows := 1, readable := true, check := checkValue (encodeRow (row41 1)) }

/-- The engine programming the header of a unicast close. -/
def closing : State :=
  busy (.pageProgram { table := .irt, page := 0, bytes := encodeIrtHeader header })
    { loading 1 0 linked with
      array := storedRows
      arbiter := { Arbiter.reset with gate := .inProgress (.loadClose 17 1 1 1 header.check 1) }
      loader := { (loading 1 0 linked).loader with
        phase := .closing
        close := some { rows := 1, check := header.check, readable := true, step := .header } } }

theorem witness_PageProgramMovesTheLoadOn :
    let r : PageRequest := { table := .irt, page := 20, bytes := List.replicate 240 5 }
    let s := busy (.pageProgram r) (loading 10 10 linked)
    (s.store.running = some (.pageProgram r) ∧ r.bytes.length ≤ 256 ∧ (r.page + 1) * 256 ≤ r.table.bytes
        ∧ s.loader.phase = .rows ∧ s.loader.session.isSome = true)
      ∧ (closing.loader.phase = .closing
        ∧ closing.loader.close = some { rows := 1, check := header.check, readable := true, step := .header }
        ∧ closing.loader.session.map Session.table = some .irt
        ∧ closing.arbiter.gate = .inProgress (.loadClose 17 1 1 1 header.check 1))
      ∧ ({ s with loader := { Loader.reset with phase := .draining .irt } } : State).loader.phase
          = .draining .irt := by decide +kernel

/-- A close of the Profile whose last page, or header, is being programmed. -/
def closingProfile (step : CloseStep) (s : State) : State :=
  let record := encodeProfile .defaults
  let header := encodeProfileHeader { generation := 120, records := 1, check := checkValue record }
  busy (.pageProgram (if step = .header then { table := .profile, page := 0, bytes := header }
      else { table := .profile, page := 1, bytes := record }))
    { onSession (fun x => { x with received := 1, check := checkValue record }) s with
      array := Mem.writeBytes [] profileRecordAddr record
      arbiter := { Arbiter.reset with gate := .inProgress (.loadClose 17 1 2 1 (checkValue record) 0) }
      loader := { (onSession (fun x => { x with received := 1, check := checkValue record }) s).loader with
        phase := .closing
        close := some { rows := 1, check := checkValue record, readable := false, step := step } } }

/-- The steps of a close: the page waited for, the last page and the header, sound, unsound, broken and failed. -/
theorem witness_PageProgramMovesTheLoadOn_close :
    let record := encodeProfile .defaults
    let s := closingProfile .awaitingBuffer loadingProfile
    let programmed (s : State) (e : ArrayEnd) : Bool := match s.store.running with
      | some op => (op.apply s.array e).2
      | none => false
    (s.loader.phase = .closing ∧ s.loader.session.map Session.received = some 1
        ∧ s.loader.session.map Session.check = some (checkValue record)
        ∧ s.loader.close = some { rows := 1, check := checkValue record, readable := false, step := .awaitingBuffer }
        ∧ s.loader.session.map Session.broken = some .no ∧ programmed s .whole = true)
      ∧ (onSession (fun x => { x with received := 2 }) s).loader.session.map Session.received = some 2
      ∧ (onSession (fun x => { x with broken := .sequence }) s).loader.session.map Session.broken = some .sequence
      ∧ programmed (closingProfile .header loadingProfile) .whole = true
      ∧ programmed (closingProfile .header loadingProfile) (.left []) = false
      ∧ (let t := after (.pageProgramComplete .whole) s
        t.loader.close.map CloseJob.step = some .header
          ∧ t.store.pagePlace.map PageRequest.page = some 0)
      ∧ ((after (.pageProgramComplete .whole) (closingProfile .header loadingProfile)).profile.state = .valid
        ∧ (after (.pageProgramComplete (.left [])) (closingProfile .header loadingProfile)).profile.state
          = .invalid) := by
  decide +kernel

/-- The array after the header's program, and the header read back. -/
theorem witness_PageProgramMovesTheLoadOn_header :
    (closing.array.program irtBase (encodeIrtHeader header) .whole).2 = true
      ∧ decodeIrtHeader ((closing.array.program irtBase (encodeIrtHeader header) .whole).1.readBytes irtBase 9)
          = some header
      ∧ (verifyIrt (closing.array.program irtBase (encodeIrtHeader header) .whole).1 header 1).1 = .none
      ∧ (verifyIrt (closing.array.program irtBase (encodeIrtHeader header) .whole).1 header 2).1 = .count
      ∧ (closing.array.program irtBase (encodeIrtHeader header) (.left [])).2 = false := by decide +kernel

theorem witness_BlockEraseIsHandedOn :
    let erasing (t : EraseTarget) (second : Bool) (s : State) : State :=
      busy (.blockErase { target := t, second := second }) s
    let opening : State := { linked with
      arbiter := { Arbiter.reset with gate := .inProgress (.loadOpen 17 1 1 120 12 .deasserted) }
      loader := { (loading 0 0 linked).loader with phase := .opening } }
    let update : State := { idle with
      store := { idle.store with update := some { epoch := 7, retry := false, startUp := false } } }
    let survivor : ArrayEnd := .left [(0, 0x00)]
    (erasing (.journal 3) false idle).store.running = some (.blockErase { target := .journal 3, second := false })
      ∧ ((recorded .done idle).array.erase 0 4096 .whole).2 = true
      ∧ ((recorded .done idle).array.erase 0 4096 survivor).2 = false
      ∧ idle.journal.writeAt = some firstSlot
      ∧ ({ idle with journal := { idle.journal with writeAt := none } } : State).journal.writeAt = none
      ∧ (opening.loader.phase = .opening ∧ opening.loader.session.isSome = true)
      ∧ (erasing .epoch false update).store.update = some { epoch := 7, retry := false, startUp := false } := by
  decide +kernel

theorem witness_TimeLimitIsAFailure :
    (StoreOp.recordProgram firstSlot (encodeRecord record)).targetExists = true
      ∧ (StoreOp.epochProgram 64 1).targetExists = false
      ∧ (busy (.epochProgram 64 1) idle).store.running = some (.epochProgram 64 1) := by decide +kernel

theorem witness_ArrayChangesOnlyAtItsTargets :
    Mem.wf storedRows = true ∧ (0 < (extent (.epochProgram 63 1)).1)
      ∧ ((StoreOp.recordProgram firstSlot (encodeRecord record)).apply [] .whole).2 = true
      ∧ ((StoreOp.blockErase { target := .table .irt, second := false }).apply storedRows .whole).2 = true
      ∧ endsStoreOperation .grant = false := by decide +kernel

/-- A byte of a program that is neither erased nor right; each kind of operation with its target in the array. -/
theorem witness_ArrayChangesOnlyAtItsTargets_cut :
    (Mem.read storedRows (irtRowAddr 0) ≠ 0xFF ∧ Mem.read storedRows (irtRowAddr 0) ≠ 0x55)
      ∧ ((StoreOp.mark { loc := firstSlot, kind := .voided, second := false }).apply [] .whole).2 = true
      ∧ ((StoreOp.epochProgram 63 1).apply [] .whole).2 = true
      ∧ ((StoreOp.pageProgram { table := .irt, page := 0, bytes := encodeIrtHeader header }).apply storedRows .whole).2
          = true
      ∧ (StoreOp.recordProgram { block := 3, slot := 127 } (encodeRecord record)).targetExists = true
      ∧ (StoreOp.epochProgram 63 1).targetExists = true
      ∧ (StoreOp.pageProgram { table := .profile, page := 0, bytes := [1] }).targetExists = true
      ∧ (StoreOp.blockErase { target := .journal 3, second := false }).targetExists = true := by decide +kernel

/-- R13: an IRT header's program cut short leaves INVALID with generation 0, though every byte had been programmed; one
that ended leaves VALID. -/
theorem test_header_cut_short_is_invalid :
    let op : StoreOp := .pageProgram { table := .irt, page := 0, bytes := encodeIrtHeader header }
    let derived (m : Mem) : Irt := (deriveIrt { idle with array := m }).irt
    (derived (op.cut storedRows .whole)).state = .invalid ∧ (derived (op.cut storedRows .whole)).generation = 0
      ∧ (derived (op.apply storedRows .whole).1).state = .valid := by decide +kernel

/-- R97: a record whose program a reset stops is found LIVE when every byte stood, TORN when only a part did. -/
theorem test_record_cut_short_is_found_live_or_torn :
    let op : StoreOp := .recordProgram firstSlot (encodeRecord record)
    (scanSlot (op.cut [] .whole) firstSlot).state = .live ∧ (scanSlot (op.cut [] torn) firstSlot).state = .torn
      ∧ (scanSlot (op.cut [] (.left [])) firstSlot).state = .unused := by decide +kernel

/-- Section 5.11: the slots of J3 that an interrupted erase did not reach are found DONE. R91: a slot that lost its mark
alone does not come back LIVE. -/
theorem test_erase_cut_short_keeps_finished_slots :
    let m := (Mem.writeBytes [] 0 (encodeRecord record ++ [0x00])).writeBytes 4064 (encodeRecord record ++ [0x00])
    let op : StoreOp := .blockErase { target := .journal 0, second := false }
    let kept (n : Nat) : ArrayEnd := .left ((List.range n).map (fun i => (4064 + i, m.read (4064 + i))))
    let last : Loc := { block := 0, slot := 127 }
    (scanSlot (op.cut m (kept 32)) firstSlot).state = .unused ∧ (scanSlot (op.cut m (kept 32)) last).state = .done
      ∧ (scanSlot (op.apply m (kept 30)).1 last).state = .live
      ∧ (scanSlot (op.cut m (kept 30)) last).state = .unused := by decide +kernel

/-! ### Witnesses: supply, reset, invariants, formats -/

theorem witness_ResetAndPwrwarnActOnThePart :
    (Line.asserted ≠ idle.pins.pwrwarn ∧ idle.pins.phase = .run ∧ State.reset.pins.phase = .scan)
      ∧ Line.deasserted = idle.pins.pwrwarn
      ∧ (∀ op, storing.store.running = some op → op.targetExists = true) := by
  refine ⟨by decide, by decide, ?_⟩
  intro op h
  have : storing.store.running = some (.recordProgram firstSlot (encodeRecord record)) := rfl
  rw [this] at h
  cases h
  decide +kernel

theorem witness_StartUpNeverReusesAnEpoch :
    let off : State := { State.reset with pins := { State.reset.pins with phase := .off } }
    off.array = [] ∧ off.store.running = none ∧ off.pins.resetn = .deasserted
      ∧ ({ off with pins := { off.pins with phase := .held } } : State).pins.phase = .held := by decide +kernel

/-- The image of one row with its header, and the record of the worked payment with epoch 1, in a part held in reset. -/
def storedPart : State :=
  { State.reset with
    pins := { State.reset.pins with phase := .held }
    array := (Mem.writeBytes (Mem.writeBytes storedRows irtBase (encodeIrtHeader header)) 0 (encodeRecord record)
      ).writeBytes (epochWordAddr 0) (encodeEpochWord 1) }

theorem witness_StartUpNeverReusesAnEpoch_stored :
    storedPart.pins.phase = .held ∧ storedPart.array.erasedRange irtBase irtBytes = false
      ∧ decodeIrtHeader (storedPart.array.readBytes irtBase 9) = some header
      ∧ (verifyIrt storedPart.array header 1).1 = .none ∧ decodeIrtHeader (storedRows.readBytes irtBase 9) = none
      ∧ storedPart.array.erasedRange profileBase profileBlockBytes = true
      ∧ recordValid (storedPart.array.readBytes 0 32) = true
      ∧ storedPart.array.erasedRange 32 (4096 - 32) = true ∧ storedPart.array.erasedRange 0 32 = false := by
  decide +kernel

/-- R12, R92, R93, R68, R95: what the start-up makes of that part. -/
theorem test_start_up_of_a_stored_part :
    let t := after .resetnRelease storedPart
    t.irt.state = .valid ∧ t.irt.generation = 120 ∧ t.profile.state = .empty
      ∧ (recordSlotAt t firstSlot).state = .live ∧ t.journal.writeAt = some { block := 0, slot := 1 }
      ∧ t.tally.sumOf 41 = 5691 ∧ t.store.update.map EpochUpdate.epoch = some 2 := by decide +kernel

theorem witness_invariants_meet_a_step :
    ArrayCanonical working ∧ LinkConsistent working ∧ ArrayCanonical State.reset ∧ LinkConsistent State.reset := by
  decide +kernel

theorem witness_step_answers_next :
    step { working with pending := [.grant] } = .next (after .grant working) := rfl

theorem witness_StuffedFramesComeBack :
    (0x7E : Nat) < 256 ∧ (255 : Nat) < 256 ∧ (List.replicate 200 (0x7E : Byte)).length ≤ 200 := by decide +kernel

theorem witness_RecordsComeBackFromTheirBytes :
    let r : JRecord := { record with
      txn := 2 ^ 32 - 1, rangeId := 2 ^ 16 - 1, route := 15, base := 2 ^ 24 - 1, tip := 2 ^ 24 - 1, bill := 2 ^ 16 - 1,
      place := 2 ^ 16 - 1, time := 2 ^ 24 - 1, original := 2 ^ 32 - 1 }
    r.txn < 2 ^ 32 ∧ r.rangeId < 2 ^ 16 ∧ r.route < 16 ∧ r.base < 2 ^ 24 ∧ r.tip < 2 ^ 24 ∧ r.bill < 2 ^ 16
      ∧ r.place < 2 ^ 16 ∧ r.time < 2 ^ 24 ∧ r.original < 2 ^ 32 := by decide

end Sys2Proof.Tests
end

