-- ==== Sys2Proof/Proofs/Bills.lean ====
section
/-! PROOFS. Bills at the host port: LIST BILLS (R32) and SPLIT (R29, R30). -/

namespace Sys2Proof.Proofs.Bills

open Sys2Proof.Machine Sys2Proof.Safety Sys2Proof.Laws

/-! ### LIST BILLS -/

/-- LIST BILLS at a ready port is the owner's work on the state in which the request was taken. -/
theorem exec_listBills_ready {s : State} (h : HostReady s) (tag : BitVec 16) :
    exec (.listBills tag) s = .next (serveListBills tag (s.setHost (hostTaken s.host))) :=
  congrArg Host.Outcome.next (hostFrameArrives_ready h (.listBills tag) (by simp))

/-- The one byte of a number. -/
theorem be_one (v : Nat) : be 1 v = [BitVec.ofNat 8 v] := by simp [be]

/-- R32: the content of LIST BILLS' reply is the count and, in table order, number, place and state. -/
theorem content_bills_of_entries (es : List Bill) :
    (Reply.bills (es.map (fun b => (b.number, b.place, b.state)))).content = BitVec.ofNat 8 es.length ::
      es.flatMap (fun b => be 2 b.number ++ be 2 b.place ++ be 1 b.state.code) := by
  simp [Reply.content, listBytes, be_one, List.flatMap_map]

/-- Settles O11: the port is ready, so the owner answers from the table at once. -/
theorem listBillsNamesEveryEntry : Obligations.ListBillsNamesEveryEntry := by
  intro tag s h
  refine ⟨?_, rfl, content_bills_of_entries s.bills.entries⟩
  rw [exec_listBills_ready h, serveListBills, answer_taken]
  rfl

/-! ### SPLIT: the checks -/

@[simp] theorem firstRefusal_nil {α : Type} : firstRefusal ([] : List (Bool × α)) = none := rfl

@[simp] theorem firstRefusal_cons {α : Type} (c : Bool) (a : α) (rest : List (Bool × α)) :
    firstRefusal ((c, a) :: rest) = if c then some a else firstRefusal rest := by
  cases c <;> simp [firstRefusal]

/-- R29: without an entry, NO_BILL comes first. -/
theorem splitChecks_of_noBill {s : State} {bill : Nat} (n : Nat) (h : findBill s bill = none) :
    firstRefusal (splitChecks s bill n) = some .noBill := by
  simp [splitChecks, h]

/-- R29: with an entry, the checks in order are those that the Bill Table applies to it: the same conditions, in the
same places of the chain. -/
theorem splitChecks_of_bill {s : State} {bill : Nat} {b : Bill} (n : Nat) (h : findBill s bill = some b) :
    firstRefusal (splitChecks s bill n) = splitRefusal b n := by
  have isPaid : Share.isPaid = fun sh => sh.state == .paid := rfl
  simp [splitChecks, splitRefusal, h, Limits.shares, isPaid]

/-- R29: what the passing checks leave: at least two shares, each of at least one unit. -/
theorem splitRefusal_none {b : Bill} {n : Nat} (h : splitRefusal b n = none) :
    2 ≤ n ∧ (b.due - b.paid) / n ≠ 0 := by
  unfold splitRefusal at h
  split_ifs at h with count _ _ _ small
  exact ⟨by omega, small⟩

/-! ### SPLIT: the request -/

/-- SPLIT at a ready port is the owner's work on the state in which the request was taken. -/
theorem exec_split_ready {s : State} (h : HostReady s) (tag bill : BitVec 16) (n : BitVec 8) :
    exec (.split tag bill n) s =
      .next (serveSplit tag bill.toNat n.toNat (s.setHost (hostTaken s.host))) :=
  congrArg Host.Outcome.next (hostFrameArrives_ready h (.split tag bill n) (by simp))

/-- A SPLIT that a check refuses only makes its refusal ready. -/
theorem serveSplit_refused (s : State) {bill n : Nat} {a : Answer} (tag : BitVec 16)
    (h : firstRefusal (splitChecks s bill n) = some a) :
    serveSplit tag bill n s = answerRequest 0x03 tag (.plain a) s := by
  cases hb : findBill s bill with
  | none =>
    rw [splitChecks_of_noBill n hb] at h
    cases h
    simp [serveSplit, hb]
  | some b =>
    rw [splitChecks_of_bill n hb] at h
    simp [serveSplit, hb, h]

/-- A SPLIT that passes its checks changes the entry, raises BILL_CHANGE and answers with the new plan. -/
theorem serveSplit_passed (s : State) {bill n : Nat} {b : Bill} (tag : BitVec 16)
    (h : firstRefusal (splitChecks s bill n) = none) (hb : findBill s bill = some b) :
    serveSplit tag bill n s = answerRequest 0x03 tag (.plan ((b.split n).plan.getD []))
      (raiseBillChange bill (updateBill bill (fun x => x.split n) s)) := by
  rw [splitChecks_of_bill n hb] at h
  simp [serveSplit, hb, h]

/-- Every part of a state is the same as itself. -/
theorem same_self (p : Part) (s : State) : p.same s s := by cases p <;> rfl

/-- Settles O12: the owner applies the same checks in the same order, and TOO_SMALL is the one that a bill with
nothing left to divide cannot pass. -/
theorem splitIsRefusedInOrder : Obligations.SplitIsRefusedInOrder := by
  intro tag bill n s ready
  rw [exec_split_ready ready]
  refine ⟨fun a refused => ?_, fun b passed found => ⟨?_, _, rfl, fun p other => ?_⟩⟩
  · rw [serveSplit_refused (s.setHost (hostTaken s.host)) tag refused, answer_taken]
  · rw [splitChecks_of_bill _ found] at passed
    obtain ⟨-, portion⟩ := splitRefusal_none passed
    exact Nat.pos_of_ne_zero (fun nothing => portion (by rw [nothing, Nat.zero_div]))
  · simp only [List.mem_cons, List.not_mem_nil, or_false, not_or] at other
    obtain ⟨host, bills, events⟩ := other
    rw [same_serveSplit tag _ _ bills events host, same_setHost _ host]
    exact same_self p s

/-! ### SPLIT: the plan -/

/-- `n` amounts of `q`, the first `m` of them one unit more. -/
theorem sum_near_equal (q m n : Nat) :
    ((List.range n).map (fun k => q + (if k + 1 ≤ m then 1 else 0))).sum = n * q + min m n := by
  induction n with
  | zero => simp
  | succ n ih =>
    rw [List.range_succ, List.map_append, List.sum_append, ih, Nat.succ_mul]
    simp only [List.map_cons, List.map_nil, List.sum_singleton]
    split_ifs <;> omega

/-- R30: the new shares sum to the remainder they divide. -/
theorem newShares_sum (r : Nat) {n : Nat} (h : 0 < n) : ((newShares r n).map Share.amount).sum = r := by
  have units : r % n < n := Nat.mod_lt r h
  calc ((newShares r n).map Share.amount).sum
      = n * (r / n) + min (r % n) n := by
        rw [← sum_near_equal, newShares, List.map_map]; rfl
    _ = n * (r / n) + r % n := by rw [Nat.min_eq_left units.le]
    _ = r := Nat.div_add_mod r n

/-- R30: the new index of a PAID share is its place among the PAID shares that the plan keeps. -/
theorem renumber_of_paid {plan : List Share} {k : Nat} {sh : Share} (h : plan[k]? = some sh) (paid : sh.isPaid = true) :
    1 ≤ renumber plan (k + 1) ∧ (plan.filter Share.isPaid)[renumber plan (k + 1) - 1]? = some sh := by
  have upTo : (plan.take (k + 1)).filter Share.isPaid = (plan.take k).filter Share.isPaid ++ [sh] := by
    rw [List.take_add_one, h, List.filter_append]
    simp [paid]
  have index : renumber plan (k + 1) = ((plan.take k).filter Share.isPaid).length + 1 := by
    rw [renumber, upTo, List.length_append, List.length_singleton]
  have kept : plan.filter Share.isPaid =
      (plan.take k).filter Share.isPaid ++ sh :: (plan.drop (k + 1)).filter Share.isPaid := by
    conv_lhs => rw [← List.take_append_drop (k + 1) plan, List.filter_append, upTo]
    simp
  refine ⟨by omega, ?_⟩
  rw [index, Nat.add_sub_cancel, kept]
  simp

/-- Settles O13: the near-equal amounts sum to the remainder, each kept share stands at its new index, and the owner's
work on the ready port is the state written out. -/
theorem splitBuildsNearEqualShares : Obligations.SplitBuildsNearEqualShares := by
  intro tag bill n s b ready passed found r paid fresh follow
  have several : 2 ≤ n.toNat := (splitRefusal_none (splitChecks_of_bill _ found ▸ passed)).1
  refine ⟨newShares_sum r (by omega), fun k sh at_k isPaid => ?_, ?_, rfl⟩
  · obtain ⟨pos, kept⟩ := renumber_of_paid at_k (beq_iff_eq.mpr isPaid)
    have inside := (List.getElem?_eq_some_iff.mp kept).1
    exact ⟨pos, (List.getElem?_append_left inside).trans kept⟩
  · rw [exec_split_ready ready, serveSplit_passed (s.setHost (hostTaken s.host)) tag passed found]
    rfl

end Sys2Proof.Proofs.Bills
end

