-- ==== Sys2Proof/Proofs/Steps.lean ====
section
/-! PROOFS. What a step can do: every command but the end of a store operation is made of the work of the blocks' owners
and of changes of the ports, so a relation that these keep is kept by the step. -/

namespace Sys2Proof.Proofs.Steps

open Sys2Proof.Machine Sys2Proof.Safety Sys2Proof.Laws

/-- A relation between a state and a later one that holds across each owner's work and each change of a port. -/
structure KeptByWork (R : State → State → Prop) : Prop where
  refl : ∀ s, R s s
  trans : ∀ {s t u}, R s t → R t u → R s u
  pins : ∀ s x, R s (s.setPins x)
  host : ∀ s x, R s (s.setHost x)
  radio : ∀ s x, R s (s.setRadio x)
  arbiter : ∀ s x, R s (s.setArbiter x)
  events : ∀ s x, R s (s.setEvents x)
  request : ∀ c s, R s (serveRequest c s)
  command : ∀ c s, R s (performCommand c s)
  beacon : ∀ n m s, R s (takeBeacon n m s)
  authReply : ∀ n m b s, R s (takeAuthReply n m b s)
  confirm : ∀ n b s, R s (takeConfirm n b s)
  replyExpiry : ∀ i s, R s (replyExpiry i s)
  beaconExpiry : ∀ s, R s (beaconExpiry (s.setTimers { s.timers with beaconWatch := none }))
  uploadExpiry : ∀ s, R s (uploadExpiry (setUploadTimer none s))
  slotExpiry : ∀ s, R s (slotExpiry (s.setTimers { s.timers with slot := none }))
  presenceExpiry : ∀ s, R s (presenceExpiry (s.setTimers { s.timers with presence := none }))
  tick : ∀ s, R s ((s.setTimers s.timers.tick).setLink { s.link with base := s.link.base.map TimeBase.tick })
  operation : ∀ s, R s (startOperation s)
  scan : ∀ s, R s (beginScan s)

variable {R : State → State → Prop}

/-- A weaker relation is kept too. -/
theorem KeptByWork.weaken (K : KeptByWork R) {Q : State → State → Prop} (weaker : ∀ {s t}, R s t → Q s t)
    (trans : ∀ {s t u}, Q s t → Q t u → Q s u) : KeptByWork Q where
  refl s := weaker (K.refl s)
  trans := trans
  pins s x := weaker (K.pins s x)
  host s x := weaker (K.host s x)
  radio s x := weaker (K.radio s x)
  arbiter s x := weaker (K.arbiter s x)
  events s x := weaker (K.events s x)
  request c s := weaker (K.request c s)
  command c s := weaker (K.command c s)
  beacon n m s := weaker (K.beacon n m s)
  authReply n m b s := weaker (K.authReply n m b s)
  confirm n b s := weaker (K.confirm n b s)
  replyExpiry i s := weaker (K.replyExpiry i s)
  beaconExpiry s := weaker (K.beaconExpiry s)
  uploadExpiry s := weaker (K.uploadExpiry s)
  slotExpiry s := weaker (K.slotExpiry s)
  presenceExpiry s := weaker (K.presenceExpiry s)
  tick s := weaker (K.tick s)
  operation s := weaker (K.operation s)
  scan s := weaker (K.scan s)

/-! ### The host port -/

theorem KeptByWork.hostArrives (K : KeptByWork R) (c : Instr) (s : State) : R s (hostArrives c s) := by
  have answered (code tag a) (t : State) : R t (answerFrame code tag a t) := K.host t _
  have counted (t : State) : R t (countHostBad t) := K.host t _
  have woken : R s (wakePort s) := K.host s _
  have locked (t : State) : R t (statusLock c t) := by
    cases c <;> exact K.pins t _
  have data (tag payload) (t : State) : R t (hostDataArrives tag payload t) := by
    unfold hostDataArrives
    split
    · exact K.trans (K.arbiter t _) (answered ..)
    · exact answered ..
  have turn (t : State) : R t (requestArrives c t) := by
    unfold requestArrives
    split
    · exact answered ..
    · exact K.trans (K.host t _) (K.request c _)
  have taken (t : State) : R t (hostFrameTaken c t) := by
    cases c <;> first | exact data .. | exact turn t
  unfold Machine.hostArrives
  dsimp only
  split
  · exact K.refl s
  · exact K.refl s
  · split
    · exact K.trans woken (counted _)
    · exact K.trans woken (answered ..)
  · split
    · exact K.trans woken (K.trans (locked _) (counted _))
    · exact K.trans woken (K.trans (locked _) (taken _))

theorem KeptByWork.hostBytes (K : KeptByWork R) (bytes : List Byte) (s : State) : R s (hostBytes bytes s) := by
  have counted (t : State) : R t (countHostBad t) := K.host t _
  have judged (bs) (t : State) : R t (judgeHostFrame bs t) := by
    unfold judgeHostFrame
    dsimp only
    repeat' split
    · exact K.hostArrives _ t
    · exact counted t
    · exact counted t
  have byte (b) (t : State) : R t (hostByte b t) := by
    unfold hostByte
    dsimp only
    split
    · exact K.host t _
    · exact K.trans (K.host t _) (counted _)
    · exact K.trans (K.host t _) (judged ..)
  have run (t : State) : R t (bytes.foldl (fun s b => hostByte b s) t) := by
    induction bytes generalizing t with
    | nil => exact K.refl t
    | cons b rest ih => exact K.trans (byte b t) (ih _)
  unfold Machine.hostBytes
  split
  · exact K.refl s
  · exact K.refl s
  · exact run s
  · exact run s

theorem KeptByWork.hostFrameArrives (K : KeptByWork R) (c : Instr) (s : State) : R s (hostFrameArrives c s) :=
  K.trans (K.hostBytes [flag] s) (K.hostArrives c _)

theorem KeptByWork.beginHostFrame (K : KeptByWork R) (s : State) : R s (beginHostFrame s) := by
  unfold Machine.beginHostFrame
  repeat' split
  all_goals exact K.host s _

theorem KeptByWork.endHostFrame (K : KeptByWork R) (s : State) : R s (endHostFrame s) := by
  unfold Machine.endHostFrame
  split
  all_goals exact K.host s _

/-! ### The radio port -/

theorem KeptByWork.queueMgmtReply (K : KeptByWork R) (code tag body) (s : State) :
    R s (queueMgmtReply code tag body s) := K.arbiter s _

theorem KeptByWork.radioFrameEnded (K : KeptByWork R) (s : State) : R s (radioFrameEnded s) := K.radio s _

theorem KeptByWork.commandAtGate (K : KeptByWork R) (c : Instr) (s : State) : R s (commandAtGate c s) := by
  unfold Machine.commandAtGate
  split
  · split
    · exact K.arbiter s _
    · exact K.command c s
  all_goals
    split
    · exact K.queueMgmtReply ..
    · exact K.refl s

theorem KeptByWork.commandArrives (K : KeptByWork R) (c : Instr) (s : State) : R s (commandArrives c s) := by
  have locked (t : State) : R t (lockOf c t) := by
    cases c <;> exact K.pins t _
  unfold Machine.commandArrives
  split
  · split
    · exact K.trans (K.radioFrameEnded s) (K.trans (locked _) (K.commandAtGate c _))
    · exact K.radioFrameEnded s
  · exact K.radioFrameEnded s
  · exact K.refl s
  · exact K.refl s

theorem KeptByWork.radioArrives (K : KeptByWork R) (addr : BitVec 8) (b : Bool) {act : State → State}
    (work : ∀ t, R t (act t)) (s : State) : R s (radioArrives addr b act s) := by
  unfold Machine.radioArrives
  split
  · split
    · exact K.trans (K.radioFrameEnded s) (work _)
    · exact K.radioFrameEnded s
  · exact K.radioFrameEnded s
  · exact K.refl s
  · exact K.refl s

theorem KeptByWork.countRadioBad (K : KeptByWork R) (s : State) : R s (countRadioBad s) := K.radio s _

theorem KeptByWork.deliver (K : KeptByWork R) (f : DataFrame) (s : State) : R s (deliver f s) := by
  unfold Machine.deliver
  dsimp only
  split
  · split
    · exact K.trans (K.host s _) (K.events _ _)
    · exact K.host s _
  · exact K.host s _

theorem KeptByWork.downstreamArrives (K : KeptByWork R) (c : Instr) (s : State) : R s (downstreamArrives c s) := by
  unfold Machine.downstreamArrives
  split
  case h_1 addr cell seconds =>
    refine K.radioArrives _ _ (fun t => ?_) s
    unfold beaconPassed
    repeat' split
    · exact K.countRadioBad t
    · exact K.beacon ..
    · exact K.refl t
  case h_2 addr txn disposition reason =>
    refine K.radioArrives _ _ (fun t => ?_) s
    unfold authReplyPassed
    repeat' split
    · exact K.refl t
    · exact K.authReply ..
    · exact K.authReply ..
    · exact K.countRadioBad t
  case h_3 addr txn disposition =>
    refine K.radioArrives _ _ (fun t => ?_) s
    unfold uploadConfirmPassed
    repeat' split
    · exact K.refl t
    · exact K.confirm ..
    · exact K.confirm ..
    · exact K.countRadioBad t
  case h_4 addr tag payload => exact K.radioArrives _ _ (K.deliver _) s
  case h_5 => exact K.commandArrives c s

theorem KeptByWork.radioBytes (K : KeptByWork R) (bytes : List Byte) (s : State) : R s (radioBytes bytes s) := by
  have judged (bs) (t : State) : R t (judgeRadioFrame bs t) := by
    unfold judgeRadioFrame
    dsimp only
    repeat' split
    · exact K.countRadioBad t
    · exact K.refl t
    · exact K.downstreamArrives _ t
    · exact K.countRadioBad t
  have byte (b) (t : State) : R t (radioByte b t) := by
    unfold radioByte
    dsimp only
    split
    · exact K.radio t _
    · exact K.trans (K.radio t _) (K.countRadioBad _)
    · exact K.trans (K.radio t _) (judged ..)
  have run {f : Byte → State → State} (hf : ∀ b t, R t (f b t)) (t : State) :
      R t (bytes.foldl (fun s b => f b s) t) := by
    induction bytes generalizing t with
    | nil => exact K.refl t
    | cons b rest ih => exact K.trans (hf b t) (ih _)
  unfold Machine.radioBytes
  split
  · exact K.refl s
  · exact K.refl s
  · exact run (fun b t => K.radio t _) s
  · exact run byte s

theorem KeptByWork.radioFrameArrives (K : KeptByWork R) (c : Instr) (s : State) : R s (radioFrameArrives c s) :=
  K.trans (K.radioBytes [flag] s) (K.downstreamArrives c _)

theorem KeptByWork.placeWaitingVerify (K : KeptByWork R) (s : State) : R s (placeWaitingVerify s) := by
  unfold Machine.placeWaitingVerify
  repeat' split
  · exact K.refl s
  · exact K.trans (K.arbiter s _) (K.queueMgmtReply ..)
  · exact K.refl s

theorem KeptByWork.takeHeld (K : KeptByWork R) (lock : Line) (s : State) : R s (takeHeld lock s) := by
  have found : R s (setGate .empty (s.setPins { s.pins with loadlock := lock })) :=
    K.trans (K.pins s _) (K.arbiter _ _)
  unfold Machine.takeHeld
  repeat' split
  · exact K.trans found (K.command _ _)
  · exact K.trans found (K.command _ _)
  · exact K.refl s
  · exact K.refl s
  · exact K.refl s

theorem KeptByWork.grantFrame (K : KeptByWork R) (s : State) : R s (grantFrame s) := by
  unfold Machine.grantFrame
  repeat' split
  all_goals exact K.arbiter s _

/-! ### Every command but the end of a store operation -/

theorem KeptByWork.pwrwarn (K : KeptByWork R) (level : Line) (s : State) :
    R s (if level = s.pins.pwrwarn then s else warnChange level (s.setPins { s.pins with pwrwarn := level })) := by
  have warned (t : State) : R t (warnChange level t) := by
    unfold warnChange
    split
    all_goals first | exact K.refl t | exact K.events t _
  split
  · exact K.refl s
  · exact K.trans (K.pins s _) (warned _)

theorem KeptByWork.releasePart (K : KeptByWork R) (s : State) : R s (releasePart s) := by
  unfold Machine.releasePart
  split
  all_goals first | exact K.scan s | exact K.refl s

/-- A relation kept by the owners' work is kept by every command that neither ends nor cuts short a store operation. -/
theorem KeptByWork.exec (K : KeptByWork R) {c : Instr} {s t : State} (h : exec c s = .next t)
    (other : endsStoreOperation c = false) : R s t := by
  have guarded {p : Prop} [Decidable p] {u : State} (hu : R s u) : R s (if p then u else s) := by
    split
    · exact hu
    · exact K.refl s
  cases c
  case recordProgramComplete => cases other
  case markComplete => cases other
  case epochProgramComplete => cases other
  case pageProgramComplete => cases other
  case blockEraseComplete => cases other
  case operationTimeLimit => cases other
  case powerOn => cases other
  case resetnAssert => cases other
  case lossOfPower => cases other
  case hostFrameBad wire => cases h; exact K.hostBytes wire s
  case hostFrameSent => cases h; exact K.endHostFrame s
  case hostTransmitBegin => cases h; exact K.beginHostFrame s
  case heldCommandTaken lock => cases h; exact K.takeHeld lock s
  case verifyReplyPlaced => cases h; exact K.placeWaitingVerify s
  case radioFrameBad wire => cases h; exact K.radioBytes wire s
  case grant => cases h; exact K.grantFrame s
  case transmissionComplete => cases h; exact K.arbiter s _
  case replyTimerExpiry i => cases h; exact guarded (K.replyExpiry i s)
  case beaconWatchExpiry => cases h; exact guarded (K.beaconExpiry s)
  case uploadTimerExpiry => cases h; exact guarded (K.uploadExpiry s)
  case slotTimerExpiry => cases h; exact guarded (K.slotExpiry s)
  case presenceTimerExpiry => cases h; exact guarded (K.presenceExpiry s)
  case tick =>
    cases h
    split
    · exact K.tick s
    all_goals exact K.refl s
  case storeOperationStart => cases h; exact K.operation s
  case pwrwarnChange level => cases h; exact K.pwrwarn level s
  case resetnRelease => cases h; exact K.trans (K.pins s _) (K.releasePart _)
  all_goals
    cases h
    first | exact K.hostFrameArrives _ s | exact K.radioFrameArrives _ s

/-! ### Ends of store operations -/

/-- An end of a store operation is none, or it completes the running operation, whose kind is the one that ends. -/
theorem endRunning_cases {kind : Option OpKind} {limit : Bool} {e : ArrayEnd} {s t : State}
    (h : endRunning kind limit e s = .next t) :
    t = s ∨ ∃ op, s.store.running = some op ∧ (kind = none ∨ kind = some op.kind)
      ∧ t = completeOperation op limit e s := by
  unfold endRunning at h
  split at h
  · cases h; exact .inl rfl
  · split at h
    · split at h
      · cases h; exact .inr ⟨_, ‹_›, ‹_›, rfl⟩
      · cases h
    · cases h; exact .inl rfl

/-- Every command is one of three kinds: it neither ends nor cuts short a store operation, it is the end of one, or it
is of the supply or RESETN. -/
theorem exec_kinds {c : Instr} {s t : State} (h : exec c s = .next t) :
    endsStoreOperation c = false ∨ (∃ kind limit e, endRunning kind limit e s = .next t)
      ∨ ∃ e, c = .powerOn e ∨ c = .resetnAssert e ∨ c = .lossOfPower e := by
  cases c
  case recordProgramComplete e => exact .inr (.inl ⟨_, _, e, h⟩)
  case markComplete e => exact .inr (.inl ⟨_, _, e, h⟩)
  case epochProgramComplete e => exact .inr (.inl ⟨_, _, e, h⟩)
  case pageProgramComplete e => exact .inr (.inl ⟨_, _, e, h⟩)
  case blockEraseComplete e => exact .inr (.inl ⟨_, _, e, h⟩)
  case operationTimeLimit e => exact .inr (.inl ⟨_, _, e, h⟩)
  case powerOn e => exact .inr (.inr ⟨e, .inl rfl⟩)
  case resetnAssert e => exact .inr (.inr ⟨e, .inr (.inl rfl)⟩)
  case lossOfPower e => exact .inr (.inr ⟨e, .inr (.inr rfl)⟩)
  all_goals exact .inl rfl

/-- What a relation must also be kept by to be kept by the loss of supply, by POWER_ON and by RESETN. -/
theorem KeptByWork.exec_of_supply (K : KeptByWork R) (stop : ∀ phase e s, R s (stopPart phase e s)) {c : Instr}
    {s t : State} (h : Machine.exec c s = .next t)
    (supply : ∃ e, c = .powerOn e ∨ c = .resetnAssert e ∨ c = .lossOfPower e) : R s t := by
  obtain ⟨e, rfl | rfl | rfl⟩ := supply
  · have begun (u : State) : R u (startPart u) := by
      unfold startPart
      split
      · exact K.pins u _
      · exact K.scan u
    simp only [Machine.exec, execPowerOn] at h
    split at h
    · cases h; exact K.trans (stop ..) (begun _)
    · cases h
  · have held : R s (holdPart e s) := by
      unfold holdPart
      split
      all_goals first | exact stop .. | exact K.refl s
    simp only [Machine.exec, execResetnAssert] at h
    split at h
    · cases h; exact K.trans held (K.pins _ _)
    · cases h
  · simp only [Machine.exec, execLossOfPower] at h
    split at h
    · cases h; exact stop ..
    · cases h

/-- A relation kept by the owners' work, by completions and by the stopping of the part is kept by every command. -/
theorem KeptByWork.exec_always (K : KeptByWork R) (stop : ∀ phase e s, R s (stopPart phase e s))
    (complete : ∀ op limit e s, R s (completeOperation op limit e s)) {c : Instr} {s t : State}
    (h : Machine.exec c s = .next t) : R s t := by
  rcases exec_kinds h with other | ⟨kind, limit, e, ends⟩ | supply
  · exact K.exec h other
  · rcases endRunning_cases ends with rfl | ⟨op, -, -, rfl⟩
    · exact K.refl _
    · exact complete ..
  · exact K.exec_of_supply stop h supply

/-- A step runs the front command on the state with the queue's rest, or stays. -/
theorem step_cases {s t : State} (h : step s = .next t) :
    t = s ∨ ∃ c rest, s.pending = c :: rest ∧ Machine.exec c (s.setPending rest) = .next t := by
  unfold step at h
  split at h
  · cases h; exact .inl rfl
  · exact .inr ⟨_, _, ‹_›, h⟩

end Sys2Proof.Proofs.Steps
end

