-- ==== Sys2Proof/Proofs/Inv.lean ====
section
/-! PROOFS. The invariants that every step keeps: the canonical form of the array (O56) and the link (O57). -/

namespace Sys2Proof.Proofs.Invariants

open Sys2Proof.Machine Sys2Proof.Safety Sys2Proof.Laws Sys2Proof.Proofs.Bills Sys2Proof.Proofs.Steps

/-! ### What more operations leave alone -/

section
variable {p : Part} {s t : State}

theorem same_takeBillPush (bill place due prior opened : Nat) (known : List Nat) (h0 : p ≠ .bills) (h1 : p ≠ .events) :
    p.same s (takeBillPush bill place due prior opened known t).1 ↔ p.same s t := by
  unfold takeBillPush
  dsimp only
  repeat' split
  · rfl
  · rfl
  · rw [same_addBill _ h0 h1, same_makeRoom h0 h1]

theorem same_takeBillAmend (bill due : Nat) (h0 : p ≠ .bills) (h1 : p ≠ .events) :
    p.same s (takeBillAmend bill due t).1 ↔ p.same s t := by
  unfold takeBillAmend
  repeat' split
  · rfl
  · rfl
  · rfl
  · exact same_changeBill _ _ h0 h1

theorem same_takeBillDrop (bill : Nat) (h0 : p ≠ .bills) (h1 : p ≠ .events) :
    p.same s (takeBillDrop bill t).1 ↔ p.same s t := by
  unfold takeBillDrop
  repeat' split
  · rfl
  · rfl
  · rfl
  · exact same_removeBill _ h0 h1

theorem same_takeBillCommand (c : Instr) {act : State → State × Reply} (h0 : p ≠ .arbiter)
    (work : p.same s (act t).1 ↔ p.same s t) : p.same s (takeBillCommand c act t) ↔ p.same s t := by
  unfold takeBillCommand
  split
  · rfl
  · rw [same_answerCommand _ _ h0, work]

/-- Every management command but ASSIGN and RELEASE leaves the array, the link and BEACON WATCH alone; those two leave
the array alone. -/
theorem same_performCommand (c : Instr) (hp : p = .array ∨ p = .link ∨ p = .beaconWatch)
    (hc : p = .array ∨ (∀ a g i n r, c ≠ .assign a g i n r) ∧ ∀ a g, c ≠ .release a g) :
    p.same s (performCommand c t) ↔ p.same s t := by
  have away : p ≠ .bills ∧ p ≠ .events ∧ p ≠ .arbiter := by rcases hp with rfl | rfl | rfl <;> decide
  obtain ⟨bills, events, arbiter⟩ := away
  cases c <;> try rfl
  case assign a g i n r =>
    rcases hc with rfl | ⟨h, -⟩
    · simp [performCommand]
    · exact absurd rfl (h a g i n r)
  case release a g =>
    rcases hc with rfl | ⟨-, h⟩
    · simp [performCommand]
    · exact absurd rfl (h a g)
  case billPush => exact same_takeBillCommand _ arbiter (same_takeBillPush _ _ _ _ _ _ bills events)
  case billAmend => exact same_takeBillCommand _ arbiter (same_takeBillAmend _ _ bills events)
  case billDrop => exact same_takeBillCommand _ arbiter (same_takeBillDrop _ bills events)
  all_goals rcases hp with rfl | rfl | rfl <;> simp [performCommand]

/-- A completion is handed on without a change of the array, the link or BEACON WATCH. -/
theorem same_handCompletion (op : StoreOp) (r : OpResult) (hp : p = .array ∨ p = .link ∨ p = .beaconWatch) :
    p.same s (handCompletion op r t) ↔ p.same s t := by
  unfold handCompletion
  repeat' split
  all_goals rcases hp with rfl | rfl | rfl <;> simp

/-- The scan keeps what the loss of the volatile state leaves of the array, the link and BEACON WATCH. -/
theorem same_beginScan (hp : p = .array ∨ p = .link ∨ p = .beaconWatch) :
    p.same s (beginScan t) ↔ p.same s (clearVolatile t) := by
  have warned (u : State) : p.same s (warnAtScan u) ↔ p.same s u := by
    unfold warnAtScan
    split
    · exact same_raisePowerWarn _ (by rcases hp with rfl | rfl | rfl <;> decide)
    · rfl
  unfold beginScan
  dsimp only
  rcases hp with rfl | rfl | rfl <;> simp [warned]

end

/-! ### The array -/

/-- The owners' work leaves the array alone. -/
theorem arrayKept : KeptByWork (fun s t => Part.array.same s t) where
  refl s := rfl
  trans h h' := h'.trans h
  pins s x := rfl
  host s x := rfl
  radio s x := rfl
  arbiter s x := rfl
  events s x := rfl
  request c s := by simp [same_self]
  command c s := (same_performCommand c (.inl rfl) (.inl rfl)).2 rfl
  beacon n m s := by simp [same_self]
  authReply n m b s := by simp [same_self]
  confirm n b s := by simp [same_self]
  replyExpiry i s := by
    unfold replyExpiry
    dsimp only
    split <;> simp [same_self]
  beaconExpiry s := by simp only [ne_eq, reduceCtorEq, not_false_eq_true, same_beaconExpiry]; rfl
  uploadExpiry s := by simp [same_self]
  slotExpiry s := by simp only [ne_eq, reduceCtorEq, not_false_eq_true, same_slotExpiry]; rfl
  presenceExpiry s := by simp only [ne_eq, reduceCtorEq, not_false_eq_true, same_presenceExpiry]; rfl
  tick s := rfl
  operation s := by simp [same_self]
  scan s := (same_beginScan (.inl rfl)).2 rfl

/-- R115: a command that neither ends nor cuts short a store operation leaves the array alone. -/
theorem exec_array {c : Instr} {s t : State} (h : exec c s = .next t) (other : endsStoreOperation c = false) :
    t.array = s.array := arrayKept.exec h other

/-- An operation that ends, or is cut short, leaves the array in canonical form. -/
theorem canonical_completeOperation (op : StoreOp) (limit : Bool) (e : ArrayEnd) (s : State) (h : ArrayCanonical s) :
    ArrayCanonical (completeOperation op limit e s) := by
  have handed : (completeOperation op limit e s).array = (endOperation op limit e s).array :=
    (same_handCompletion (p := .array) op _ (.inl rfl)).2 rfl
  rw [ArrayCanonical, handed]
  exact leaves_wf op e _ h

theorem canonical_stopPart (phase : Phase) (e : ArrayEnd) (s : State) (h : ArrayCanonical s) :
    ArrayCanonical (stopPart phase e s) := by
  have stopped : (stopPart phase e s).array = (interruptOperation e s).array := rfl
  rw [ArrayCanonical, stopped]
  unfold interruptOperation
  split
  · exact h
  · exact cut_wf _ e h

/-- Settles O56: only the end or the cutting short of a store operation changes the array, and each of these keeps the
canonical form. -/
theorem everyStepKeepsTheArrayCanonical : Obligations.EveryStepKeepsTheArrayCanonical := by
  intro s t canonical h
  have kept : KeptByWork (fun s t => ArrayCanonical s → ArrayCanonical t) :=
    arrayKept.weaken (fun same h => by rw [ArrayCanonical, same]; exact h) (fun h h' => h' ∘ h)
  rcases step_cases h with rfl | ⟨c, rest, -, h⟩
  · exact canonical
  · exact kept.exec_always canonical_stopPart canonical_completeOperation h canonical

/-! ### The link -/

/-- R143: what leaves the link and BEACON WATCH alone leaves the link consistent. -/
theorem linkConsistent_of_same {s t : State} (link : Part.link.same s t) (watch : Part.beaconWatch.same s t)
    (h : LinkConsistent s) : LinkConsistent t := by
  rw [LinkConsistent, link, watch]
  exact h

/-- R145: a beacon starts BEACON WATCH, and takes a part that is DOWN to UP. -/
theorem linkConsistent_takeBeacon (n m : Nat) (s : State) (h : LinkConsistent s) : LinkConsistent (takeBeacon n m s) := by
  have raised {l c d} {u : State} (hu : LinkConsistent u) : LinkConsistent (raiseLinkChange l c d u) := hu
  have taken : LinkConsistent (beaconByState s.link.state (beaconTaken n m s)) := by
    obtain ⟨up, search⟩ := h
    cases hs : s.link.state with
    | search =>
      have watched : LinkConsistent (beaconTaken n m s) := by
        simp_all [LinkConsistent, beaconTaken]
      unfold beaconByState
      dsimp only
      split <;> exact watched
    | up => simp_all [LinkConsistent, beaconByState, beaconTaken]
    | down =>
      have up : LinkConsistent ((beaconTaken n m s).setLink { (beaconTaken n m s).link with state := .up }) := by
        simp_all [LinkConsistent, beaconTaken]
      exact linkConsistent_of_same ((same_uploaderUp (p := .link) nofun nofun nofun nofun).2 rfl)
        ((same_uploaderUp (p := .beaconWatch) nofun nofun nofun nofun).2 rfl) up
  unfold takeBeacon
  dsimp only
  split
  · exact raised taken
  · exact taken

/-- R150: an ASSIGN gives a part that holds no address one that is not 0, and the state that BEACON WATCH gives. -/
theorem linkConsistent_takeAssign (c : Instr) (i : BitVec 48) (n m : Nat) (s : State) (h : LinkConsistent s) :
    LinkConsistent (takeAssign c i n m s) := by
  have answered (body) {u : State} (hu : LinkConsistent u) : LinkConsistent (answerCommand c body u) :=
    linkConsistent_of_same (by simp [same_self]) (by simp [same_self]) hu
  have assigned (hn : n ≠ 0) : LinkConsistent (assignTaken n m s) := by
    obtain ⟨up, search⟩ := h
    unfold assignTaken
    split
    case isTrue held => cases hs : s.link.state <;> simp_all [LinkConsistent, Machine.assigned]
    case isFalse =>
      have linked : LinkConsistent ((leaveSearch n s).setLink
          { s.link with state := assignedState s, addr := n, replySlot := m }) := by
        have watch : (leaveSearch n s).timers.beaconWatch = s.timers.beaconWatch := rfl
        cases hw : s.timers.beaconWatch <;> simp_all [LinkConsistent, assignedState]
      unfold assignFromSearch
      dsimp only
      split
      · exact linkConsistent_of_same (s := (leaveSearch n s).setLink _) (by simp [same_self]) (by simp [same_self]) linked
      · exact linked
  unfold takeAssign
  dsimp only
  split
  · exact answered _ h
  · split
    · exact h
    · split
      · exact answered _ h
      · exact answered _ (assigned (by omega))

/-- R151: RELEASE takes the address and stops BEACON WATCH. -/
theorem linkConsistent_takeRelease (c : Instr) (s : State) (h : LinkConsistent s) : LinkConsistent (takeRelease c s) := by
  unfold takeRelease
  split
  · exact h
  · simp [LinkConsistent, releaseLink, raiseLinkChange, State.setLatches]

/-- R146: the expiry of BEACON WATCH takes a part that is UP to DOWN. -/
theorem linkConsistent_beaconExpiry (s : State) (h : LinkConsistent s) :
    LinkConsistent (beaconExpiry (s.setTimers { s.timers with beaconWatch := none })) := by
  obtain ⟨up, search⟩ := h
  unfold beaconExpiry
  split
  case h_1 hs =>
    have down : LinkConsistent ((s.setTimers { s.timers with beaconWatch := none }).setLink
        { s.link with state := .down }) := by
      simp_all [LinkConsistent]
    exact linkConsistent_of_same (by simp [same_self]) (by simp [same_self]) down
  all_goals simp_all [LinkConsistent]

/-- R156: a part whose volatile state is lost is in SEARCH, without an address, its timers stopped. -/
theorem linkConsistent_clearVolatile (s : State) : LinkConsistent (clearVolatile s) := by
  simp [LinkConsistent, clearVolatile, Link.reset, State.reset, Timers.reset]

/-- R143: the owners' work keeps the link consistent. -/
theorem linkKept : KeptByWork (fun s t => LinkConsistent s → LinkConsistent t) where
  refl s := id
  trans h h' := h' ∘ h
  pins s x := id
  host s x := id
  radio s x := id
  arbiter s x := id
  events s x := id
  request c s := linkConsistent_of_same (by simp [same_self]) (by simp [same_self])
  command c s := by
    by_cases assign : ∃ a g i n r, c = .assign a g i n r
    · obtain ⟨a, g, i, n, r, rfl⟩ := assign
      exact linkConsistent_takeAssign _ _ _ _ s
    · by_cases release : ∃ a g, c = .release a g
      · obtain ⟨a, g, rfl⟩ := release
        exact linkConsistent_takeRelease _ s
      · have others : (∀ a g i n r, c ≠ .assign a g i n r) ∧ ∀ a g, c ≠ .release a g :=
          ⟨fun a g i n r h => assign ⟨a, g, i, n, r, h⟩, fun a g h => release ⟨a, g, h⟩⟩
        exact linkConsistent_of_same ((same_performCommand c (.inr (.inl rfl)) (.inr others)).2 rfl)
          ((same_performCommand c (.inr (.inr rfl)) (.inr others)).2 rfl)
  beacon := linkConsistent_takeBeacon
  authReply n m b s := linkConsistent_of_same (by simp [same_self]) (by simp [same_self])
  confirm n b s := linkConsistent_of_same (by simp [same_self]) (by simp [same_self])
  replyExpiry i s := by
    unfold replyExpiry
    dsimp only
    split <;> exact linkConsistent_of_same (by simp [same_self]) (by simp [same_self])
  beaconExpiry := linkConsistent_beaconExpiry
  uploadExpiry s := linkConsistent_of_same (by simp [same_self]) (by simp [same_self])
  slotExpiry s := linkConsistent_of_same ((same_slotExpiry (p := .link) nofun nofun).2 rfl)
    ((same_slotExpiry (p := .beaconWatch) nofun nofun).2 rfl)
  presenceExpiry s :=
    linkConsistent_of_same ((same_presenceExpiry (p := .link) nofun nofun).2 rfl)
      ((same_presenceExpiry (p := .beaconWatch) nofun nofun).2 rfl)
  tick s h := by
    have watch : (tickTimer s.timers.beaconWatch).isSome = s.timers.beaconWatch.isSome := by
      cases s.timers.beaconWatch <;> rfl
    simpa [LinkConsistent, Timers.tick, watch] using h
  operation s := linkConsistent_of_same (by simp [same_self]) (by simp [same_self])
  scan s _ := linkConsistent_of_same ((same_beginScan (.inr (.inl rfl))).2 rfl)
    ((same_beginScan (.inr (.inr rfl))).2 rfl) (linkConsistent_clearVolatile s)

/-- Settles O57: BEACON, ASSIGN, RELEASE, the expiry of BEACON WATCH and a reset are all that change the link or BEACON
WATCH, and each keeps the two consistent. -/
theorem everyStepKeepsTheLinkConsistent : Obligations.EveryStepKeepsTheLinkConsistent := by
  intro s t consistent h
  have complete (op limit e) (u : State) : LinkConsistent u → LinkConsistent (completeOperation op limit e u) :=
    linkConsistent_of_same
      ((same_handCompletion op _ (.inr (.inl rfl))).2 ((same_endOperation (p := .link) op limit e nofun nofun).2 rfl))
      ((same_handCompletion op _ (.inr (.inr rfl))).2
        ((same_endOperation (p := .beaconWatch) op limit e nofun nofun).2 rfl))
  rcases step_cases h with rfl | ⟨c, rest, -, h⟩
  · exact consistent
  · exact linkKept.exec_always (fun _ e s _ => linkConsistent_clearVolatile (interruptOperation e s)) complete h consistent

/-- Settles O58: the reset array is empty, and the reset link holds no address and is in SEARCH. -/
theorem resetMeetsTheInvariants : Obligations.ResetMeetsTheInvariants :=
  ⟨reset_array_wf, by simp [LinkConsistent, State.reset, Link.reset]⟩

end Sys2Proof.Proofs.Invariants
end

