-- ==== Sys2Proof/Proofs/Slots.lean ====
section
/-! PROOFS. The authorization slots: what each operation makes of them, and that only the stored record of a slot makes
it APPROVED_OFFLINE (O23). -/

namespace Sys2Proof.Proofs.Slots

open Sys2Proof.Machine Sys2Proof.Safety Sys2Proof.Laws Sys2Proof.Proofs.Bills Sys2Proof.Proofs.Steps
  Sys2Proof.Proofs.Invariants

/-! ### A slot after a change of the slots -/

/-- A slot set holds what it was set to, when it exists; every other slot is as before. -/
theorem slotAt_setSlot (s : State) (i j : Nat) (x : Option Auth) :
    slotAt (setSlot i x s) j = if j = i ∧ i < s.decision.slots.length then x else slotAt s j := by
  simp only [slotAt, setSlot, State.setDecision_decision, List.getD_eq_getElem?_getD, List.getElem?_set]
  by_cases hj : i = j
  · subst hj
    by_cases hi : i < s.decision.slots.length <;> simp [hi]
  · simp [hj, Ne.symm hj]

/-- A slot that is not FREE exists. -/
theorem lt_of_slotAt {s : State} {i : Nat} {a : Auth} (h : slotAt s i = some a) : i < s.decision.slots.length := by
  by_contra hi
  rw [slotAt, List.getD_eq_getElem?_getD, List.getElem?_eq_none (by omega)] at h
  cases h

/-- R40: what a slot that reaches DONE holds. -/
def finished (a : Auth) (result : Result) (reason : DeclineReason) (issuer : Nat) : Auth :=
  { a with state := .done, result := result, reason := reason, issuer := issuer }

/-- R22, R23: what the end of a payment does to its bill. -/
def settleBill (a : Auth) (b : Bill) : Bill :=
  match a.result.commitPath with
  | some path => b.commit a path
  | none => b.release a

/-- R40: a slot reaches DONE as a change of the slot, of the bill and of AUTH_DONE. -/
theorem settleSlot_eq (i : Nat) (a : Auth) (result : Result) (reason : DeclineReason) (issuer : Nat) (s : State) :
    settleSlot i a result reason issuer s =
      raiseAuthDone i (changeBill a.bill (settleBill (finished a result reason issuer))
        (setSlot i (some (finished a result reason issuer)) s)) := by
  cases result <;> rfl

/-- R40: the Decision Unit after a slot has reached DONE. -/
theorem settleSlot_decision (i : Nat) (a : Auth) (result : Result) (reason : DeclineReason) (issuer : Nat) (s : State) :
    (settleSlot i a result reason issuer s).decision =
      { s.decision with slots := s.decision.slots.set i (some (finished a result reason issuer)) } := by
  rw [settleSlot_eq]
  have kept (t : State) (f : Bill → Bill) : Part.decision.same t (raiseAuthDone i (changeBill a.bill f t)) := by
    simp [same_self]
  exact kept (setSlot i _ s) _

/-- R40: the slots after one has reached DONE. -/
theorem slotAt_settleSlot (s : State) (i j : Nat) (a : Auth) (result : Result) (reason : DeclineReason) (issuer : Nat) :
    slotAt (settleSlot i a result reason issuer s) j =
      if j = i ∧ i < s.decision.slots.length then some (finished a result reason issuer) else slotAt s j := by
  rw [← slotAt_setSlot, slotAt, slotAt, settleSlot_decision]
  rfl

/-! ### No new offline approval -/

/-- Every slot that is DONE with APPROVED_OFFLINE afterwards was so before, with the same payment. -/
structure NoNewApproval (s t : State) : Prop where
  before : ∀ i a, slotAt t i = some a → a.state = .done → a.result = .approvedOffline → slotAt s i = some a

theorem NoNewApproval.refl (s : State) : NoNewApproval s s := ⟨fun _ _ h _ _ => h⟩

theorem NoNewApproval.trans {s t u : State} (h : NoNewApproval s t) (h' : NoNewApproval t u) : NoNewApproval s u :=
  ⟨fun i a ha done result => h.before i a (h'.before i a ha done result) done result⟩

/-- What leaves the slots alone approves nothing. -/
theorem NoNewApproval.slots {s t u : State} (h : NoNewApproval s t) (same : u.decision.slots = t.decision.slots) :
    NoNewApproval s u := by
  refine ⟨fun i a ha => ?_⟩
  rw [slotAt, same] at ha
  exact h.before i a ha

theorem NoNewApproval.frame {s t u : State} (h : NoNewApproval s t) (same : Part.decision.same t u) :
    NoNewApproval s u := h.slots (by rw [same])

/-- A slot set to anything but an offline approval approves nothing. -/
theorem NoNewApproval.setSlot {s t : State} (h : NoNewApproval s t) (i : Nat) {x : Option Auth}
    (hx : ∀ a, x = some a → a.state = .done → a.result ≠ .approvedOffline) : NoNewApproval s (setSlot i x t) := by
  refine ⟨fun j a ha done result => ?_⟩
  rw [slotAt_setSlot] at ha
  split at ha
  · exact absurd result (hx a ha done)
  · exact h.before j a ha done result

theorem NoNewApproval.settleSlot {s t : State} (h : NoNewApproval s t) (i : Nat) (a : Auth) {result : Result}
    (other : result ≠ .approvedOffline) (reason : DeclineReason) (issuer : Nat) :
    NoNewApproval s (settleSlot i a result reason issuer t) := by
  have set : NoNewApproval s (Machine.setSlot i (some (finished a result reason issuer)) t) := by
    refine h.setSlot i (fun b hb _ => ?_)
    obtain rfl := Option.some.inj hb
    exact other
  exact set.slots (by rw [settleSlot_decision]; rfl)

/-- R53: the late list is none of the slots. -/
theorem slots_declineLate (n : Nat) (t : State) {x : Tally} :
    (declineLate n (t.setTally x)).decision.slots = t.decision.slots := rfl

/-- R49, R82, R83: a record given up declines its payment. -/
theorem NoNewApproval.recordLost {s t : State} (h : NoNewApproval s t) (e : QueuedRecord) :
    NoNewApproval s (recordLost e t) := by
  unfold Machine.recordLost
  split
  · split
    · exact NoNewApproval.settleSlot (h.slots (slots_declineLate e.record.txn _)) _ _ (result := .declined) nofun _ _
    · exact h
  · split
    · exact h.frame (by simp [same_self])
    · exact h

theorem NoNewApproval.issueRecord {s t : State} (h : NoNewApproval s t) (loc : Loc) (e : QueuedRecord) (b : Bool) :
    NoNewApproval s (issueRecord loc e b t) := h.frame (by simp [same_self])

theorem NoNewApproval.recordUnplaced {s t : State} (h : NoNewApproval s t) (e : QueuedRecord) :
    NoNewApproval s (recordUnplaced e t) :=
  (h.frame (u := raiseStoreFault .noRoom none t) (by simp [same_self])).recordLost e

theorem NoNewApproval.issueQueue {s t : State} (h : NoNewApproval s t) (q : List QueuedRecord) :
    NoNewApproval s (issueQueue q t) := by
  induction q generalizing t with
  | nil => exact h.slots rfl
  | cons e rest ih =>
    have taken : NoNewApproval s (t.setJournal { t.journal with queue := rest }) := h.slots rfl
    unfold Machine.issueQueue
    split
    · exact taken.issueRecord _ _ _
    · exact ih (taken.recordUnplaced e)

theorem NoNewApproval.issueNext {s t : State} (h : NoNewApproval s t) : NoNewApproval s (issueNext t) := by
  unfold Machine.issueNext
  split
  · exact h
  · exact h.issueQueue _

theorem NoNewApproval.appendRecord {s t : State} (h : NoNewApproval s t) (e : QueuedRecord) :
    NoNewApproval s (appendRecord e t) :=
  (h.slots rfl : NoNewApproval s (t.setJournal { t.journal with queue := t.journal.queue ++ [e] })).issueNext

theorem NoNewApproval.issueNumber {s t : State} (h : NoNewApproval s t) : NoNewApproval s (issueNumber t) := by
  refine h.slots ?_
  unfold Machine.issueNumber startUpdate stepUpdate
  repeat' split
  all_goals rfl

/-- R48: an offline approval leaves its slot STORING. -/
theorem NoNewApproval.approveOffline {s t : State} (h : NoNewApproval s t) (i : Nat) (a : Auth) (row : IrtRow)
    (standIn : Bool) : NoNewApproval s (approveOffline i a row standIn t) := by
  have storing : NoNewApproval s (Machine.setSlot i (some (a.stored row standIn)) t) := by
    refine h.setSlot i (fun b hb done => ?_)
    obtain rfl := Option.some.inj hb
    cases done
  exact NoNewApproval.appendRecord (storing.frame (by simp [same_self])) _

/-- R50: a payment that goes online leaves its slot AWAITING_REPLY. -/
theorem NoNewApproval.goOnline {s t : State} (h : NoNewApproval s t) (i : Nat) (a : Auth) :
    NoNewApproval s (goOnline i a t) := by
  have awaiting : NoNewApproval s (Machine.setSlot i (some { a with state := .awaitingReply, path := .online }) t) := by
    refine h.setSlot i (fun b hb done => ?_)
    obtain rfl := Option.some.inj hb
    cases done
  exact awaiting.slots rfl

/-- R43 to R45: AUTHORIZE approves no payment by itself. -/
theorem NoNewApproval.serveAuthorize {s t : State} (h : NoNewApproval s t) (tag : BitVec 16) (bill share pfx : Nat)
    (token : BitVec 32) (base tip : Nat) : NoNewApproval s (serveAuthorize tag bill share pfx token base tip t) := by
  have answered (body) {u : State} (hu : NoNewApproval s u) : NoNewApproval s (answerRequest 0x01 tag body u) :=
    hu.slots rfl
  have accepted (i : Nat) : NoNewApproval s (accept i bill share pfx token base tip t) := by
    have fresh : NoNewApproval s (Machine.setSlot i
        (some (newAuth (nextNumber t) bill share pfx token base tip (lookup t pfx))) (Machine.issueNumber t)) := by
      refine h.issueNumber.setSlot i (fun b hb done => ?_)
      obtain rfl := Option.some.inj hb
      cases done
    have taken : NoNewApproval s (updateBill bill (fun b => b.reserve base share (nextNumber t)) (Machine.setSlot i
        (some (newAuth (nextNumber t) bill share pfx token base tip (lookup t pfx))) (Machine.issueNumber t))) :=
      fresh.frame (by simp [same_self])
    unfold accept takeDecision
    dsimp only
    split
    · exact taken.goOnline i _
    · exact taken.approveOffline i _ _ _
    · exact taken.settleSlot i _ (by decide) _ _
  unfold Machine.serveAuthorize
  repeat' split
  · exact answered _ h
  · exact answered _ h
  · exact answered _ (accepted _)

/-- R33 to R35: VOID touches no slot but those of the queued records that its reversal leaves unplaced. -/
theorem NoNewApproval.serveVoid {s t : State} (h : NoNewApproval s t) (tag : BitVec 16) (bill txn : Nat) :
    NoNewApproval s (serveVoid tag bill txn t) := by
  unfold Machine.serveVoid
  repeat' split
  · exact h.slots rfl
  · exact h.slots rfl
  · exact h.slots rfl
  · exact h.frame (by simp [same_self])
  · exact h.slots rfl
  · exact NoNewApproval.appendRecord (h.issueNumber.frame (by simp [same_self])) _

theorem NoNewApproval.serveReadResult {s t : State} (h : NoNewApproval s t) (tag : BitVec 16) (i : Nat) :
    NoNewApproval s (serveReadResult tag i t) := by
  unfold Machine.serveReadResult
  repeat' split
  · exact h.slots rfl
  · exact h.slots rfl
  · exact h.slots rfl
  · exact h.slots rfl
  · exact (h.setSlot i (x := none) nofun).slots rfl

/-- No request approves a payment offline by itself. -/
theorem noNewApproval_serveRequest (c : Instr) (s : State) : NoNewApproval s (serveRequest c s) := by
  have h := NoNewApproval.refl s
  cases c
  case authorize => exact h.serveAuthorize _ _ _ _ _ _ _
  case readResult => exact h.serveReadResult _ _
  case void => exact h.serveVoid _ _ _
  all_goals exact h.frame (by simp [serveRequest, same_self])

/-- R52, R54: stand-in approves no payment by itself. -/
theorem NoNewApproval.standIn {s t : State} (h : NoNewApproval s t) (i : Nat) : NoNewApproval s (standIn i t) := by
  unfold Machine.standIn
  dsimp only
  split
  · exact h
  · split
    · refine NoNewApproval.approveOffline (h.slots ?_) i _ _ _
      rfl
    · refine NoNewApproval.settleSlot (h.slots ?_) i _ (by decide) _ _
      rfl

/-- A list of changes of slots that each approve nothing approves nothing. -/
theorem NoNewApproval.foldl {f : State → Nat → State} (hf : ∀ {s t i}, NoNewApproval s t → NoNewApproval s (f t i))
    (l : List Nat) {s t : State} (h : NoNewApproval s t) : NoNewApproval s (l.foldl f t) := by
  induction l generalizing t with
  | nil => exact h
  | cons i rest ih => exact ih (hf h)

theorem NoNewApproval.linkLeavesUp {s t : State} (h : NoNewApproval s t) : NoNewApproval s (linkLeavesUp t) := by
  have resolved : NoNewApproval s (standInAll t) := NoNewApproval.foldl (fun h => h.standIn _) (awaitingByTxn t) h
  exact resolved.frame (by simp [Machine.linkLeavesUp, same_self])

/-- R55: LINK RESET declines what awaits a reply. -/
theorem NoNewApproval.declineAll {s t : State} (h : NoNewApproval s t) : NoNewApproval s (declineAll t) := by
  refine NoNewApproval.foldl (fun {s t i} h => ?_) (awaitingSlots t) h
  unfold declineReset
  split
  · exact h
  · exact NoNewApproval.settleSlot (h.frame (by simp [same_self])) i _ (by decide) _ _

theorem NoNewApproval.takeAuthReply {s t : State} (h : NoNewApproval s t) (txn issuer : Nat) (approve : Bool) :
    NoNewApproval s (takeAuthReply txn issuer approve t) := by
  unfold Machine.takeAuthReply
  split
  · unfold judgeLate
    repeat' split
    all_goals exact h.slots rfl
  · split
    · exact h
    · exact NoNewApproval.settleSlot (h.frame (by simp [same_self])) _ _ (by cases approve <;> decide) _ _

/-- No management command approves a payment offline by itself. -/
theorem noNewApproval_performCommand (c : Instr) (s : State) : NoNewApproval s (performCommand c s) := by
  have h := NoNewApproval.refl s
  have bills {act : State → State × Reply} (work : Part.decision.same s (act s).1 ↔ Part.decision.same s s) :
      NoNewApproval s (takeBillCommand c act s) := h.frame ((same_takeBillCommand c (by decide) work).2 rfl)
  cases c
  case release addr tag =>
    simp only [performCommand, takeRelease, releaseTraffic]
    split
    · exact h
    · exact h.linkLeavesUp.frame (by simp [same_self])
  case linkReset addr tag =>
    simp only [performCommand, takeLinkReset]
    split
    · exact h
    · exact h.declineAll.frame (by simp [same_self])
  case billPush => exact bills (same_takeBillPush _ _ _ _ _ _ (by decide) (by decide))
  case billAmend => exact bills (same_takeBillAmend _ _ (by decide) (by decide))
  case billDrop => exact bills (same_takeBillDrop _ (by decide) (by decide))
  all_goals exact h.frame (by simp [performCommand, same_self])

/-- R57: after the loss of the volatile state every slot is FREE. -/
theorem slotAt_clearVolatile (s : State) (i : Nat) : slotAt (clearVolatile s) i = none := by
  match i with
  | 0 => rfl
  | 1 => rfl
  | 2 => rfl
  | 3 => rfl
  | _ + 4 => rfl

/-- The scan takes no slot. -/
theorem noNewApproval_beginScan (s : State) : NoNewApproval s (beginScan s) := by
  have recovered (u : State) : (recoverEpoch u).decision.slots = u.decision.slots := by
    have ended (v : State) : (endScan v).decision = v.decision :=
      (same_endScan (p := .decision) (by decide) (by decide) (by decide) (by decide)).2 rfl
    have fault (k n) (v : State) : (raiseStoreFault k n v).decision = v.decision := rfl
    have update (e b) (v : State) : (startUpdate e b v).decision = v.decision :=
      (same_startUpdate (p := .decision) e b (by decide)).2 rfl
    unfold recoverEpoch
    repeat' split
    · rw [ended, fault]; rfl
    · rw [ended]; rfl
    · rw [update]
  have warned (u : State) : Part.decision.same u (warnAtScan u) := by
    unfold warnAtScan
    split <;> rfl
  have found : NoNewApproval s (clearVolatile s) := by
    refine ⟨fun i a ha => ?_⟩
    rw [slotAt_clearVolatile] at ha
    cases ha
  have derived (u : State) : Part.decision.same u (deriveProfile (deriveIrt (warnAtScan u))) := by
    simp [warned u]
  have scanning : NoNewApproval s ((clearVolatile s).setPins { s.pins with phase := .scan }) := found.slots rfl
  refine NoNewApproval.slots (scanning.frame (derived _)) ((recovered _).trans ?_)
  rfl

/-- The owners' work approves no payment offline by itself. -/
theorem approvalsKept : KeptByWork NoNewApproval where
  refl := NoNewApproval.refl
  trans := NoNewApproval.trans
  pins s x := (NoNewApproval.refl s).slots rfl
  host s x := (NoNewApproval.refl s).slots rfl
  radio s x := (NoNewApproval.refl s).slots rfl
  arbiter s x := (NoNewApproval.refl s).slots rfl
  events s x := (NoNewApproval.refl s).slots rfl
  request := noNewApproval_serveRequest
  command := noNewApproval_performCommand
  beacon n m s := (NoNewApproval.refl s).frame (by simp [same_self])
  authReply n m b s := (NoNewApproval.refl s).takeAuthReply n m b
  confirm n b s := by
    unfold takeConfirm
    repeat' split
    · exact (NoNewApproval.refl s).frame (by simp [same_self])
    · exact (NoNewApproval.refl s).slots rfl
    · exact (NoNewApproval.refl s).slots rfl
  replyExpiry i s := by
    unfold replyExpiry
    dsimp only
    split
    · exact ((NoNewApproval.refl s).slots (u := setReplyTimer i none s) rfl).standIn i
    · exact (NoNewApproval.refl s).slots rfl
  beaconExpiry s := by
    unfold beaconExpiry
    split
    · have down : NoNewApproval s ((s.setTimers { s.timers with beaconWatch := none }).setLink
          { s.link with state := .down }) := (NoNewApproval.refl s).slots rfl
      exact down.linkLeavesUp.frame (by simp [same_self])
    · exact (NoNewApproval.refl s).slots rfl
    · exact (NoNewApproval.refl s).slots rfl
  uploadExpiry s := (NoNewApproval.refl s).frame (by simp [same_self])
  slotExpiry s := (NoNewApproval.refl s).frame ((same_slotExpiry (p := .decision) (by decide) (by decide)).2 rfl)
  presenceExpiry s :=
    (NoNewApproval.refl s).frame ((same_presenceExpiry (p := .decision) (by decide) (by decide)).2 rfl)
  tick s := (NoNewApproval.refl s).slots rfl
  operation s := (NoNewApproval.refl s).frame (by simp [same_self])
  scan := noNewApproval_beginScan

/-! ### Completions -/

/-- R49, R81: a stored record approves the payment of the slot that asked for it, and no other. -/
theorem slotAt_recordStored {e : QueuedRecord} {s : State} {i : Nat} {a : Auth}
    (h : slotAt (recordStored e s) i = some a) :
    slotAt s i = some a ∨ e.requester = .slot i ∧ ∃ before, slotAt s i = some before
      ∧ a = finished before .approvedOffline .none before.issuer := by
  unfold recordStored at h
  split at h
  · split at h
    · rename_i before found
      rw [slotAt_settleSlot] at h
      split at h
      · rename_i here
        obtain ⟨rfl, -⟩ := here
        exact .inr ⟨‹_›, before, found, (Option.some.inj h).symm⟩
      · exact .inl h
    · exact .inl h
  · split at h
    · rename_i job _
      have kept : Part.decision.same s
          (endVoid job (.voided e.record.txn) (voidTender job.bill job.tender (clearVoidPending job.bill s))) := by
        simp [same_self]
      rw [slotAt, kept] at h
      exact .inl h
    · exact .inl h

theorem NoNewApproval.reclaim {s t : State} (h : NoNewApproval s t) : NoNewApproval s (reclaim t) :=
  h.frame (by simp [same_self])

/-- R82: the failure of a record program approves no payment. -/
theorem NoNewApproval.recordFailed {s t : State} (h : NoNewApproval s t) (ip : InProgram) :
    NoNewApproval s (recordFailed ip t) := by
  have bad : NoNewApproval s (raiseStoreFault .recordProgram none ((setRecordState ip.loc .bad t).setJournal
      { (setRecordState ip.loc .bad t).journal with inProgram := none })) := h.slots rfl
  unfold Machine.recordFailed
  dsimp only
  refine (NoNewApproval.issueNext ?_).reclaim
  split
  · exact bad.recordLost ip.entry
  · unfold issueRetry
    split
    · exact bad.issueRecord _ _ _
    · exact bad.recordUnplaced ip.entry

/-- A completion that is not the success of a record program approves no payment offline. -/
theorem noNewApproval_handCompletion (op : StoreOp) {r : OpResult} (s : State)
    (other : r ≠ .success ∨ op.kind ≠ .recordProgram) : NoNewApproval s (handCompletion op r s) := by
  have h := NoNewApproval.refl s
  have ended {t : State} (ht : NoNewApproval s t) : NoNewApproval s (endScan t) := ht.frame (by simp [same_self])
  have stepped (e) {t : State} (ht : NoNewApproval s t) : NoNewApproval s (stepUpdate e t) :=
    ht.frame (by simp [same_self])
  have failed (u) : NoNewApproval s (updateFailed u s) := by
    unfold updateFailed
    dsimp only
    split
    · exact ended (h.slots rfl)
    · exact h.slots rfl
  cases op with
  | recordProgram loc bytes =>
    have lost (ip : InProgram) : NoNewApproval s (recordFailed ip (handRecordResult r s)) :=
      (h.slots (u := handRecordResult r s) rfl).recordFailed ip
    cases r with
    | success => exact absurd rfl (other.resolve_left (by simp))
    | fail =>
      simp only [handCompletion, takeRecordResult]
      split
      · exact h.slots rfl
      · exact lost _
    | timeLimit =>
      simp only [handCompletion, takeRecordResult]
      split
      · exact h.slots rfl
      · exact lost _
  | mark q => exact h.frame (by simp [handCompletion, same_self])
  | epochProgram w epoch =>
    simp only [handCompletion, takeEpochResult, updateSucceeded]
    repeat' split
    · exact h
    · exact ended (h.slots rfl)
    · exact h.slots rfl
    · exact failed _
    · exact stepped _ (h.slots rfl)
  | pageProgram q => exact h.frame (by simp [handCompletion, same_self])
  | blockErase q =>
    simp only [handCompletion]
    split
    · exact h.frame (by simp [same_self])
    · unfold takeEpochErase
      repeat' split
      · exact h
      · exact stepped _ (h.slots rfl)
      · exact failed _
    · exact h.frame (by simp [same_self])

/-- R49, R81: the success of a record program approves the payment of the slot that asked for the record. -/
theorem slotAt_recordSucceeded {ip : InProgram} {s : State} {i : Nat} {a : Auth}
    (h : slotAt (recordSucceeded ip s) i = some a) (done : a.state = .done) (result : a.result = .approvedOffline) :
    slotAt s i = some a ∨ ip.entry.requester = .slot i ∧ ∃ before, slotAt s i = some before
      ∧ a = finished before .approvedOffline .none before.issuer := by
  have after : NoNewApproval (recordStored ip.entry ((setRecordState ip.loc .live s).setJournal
      { (setRecordState ip.loc .live s).journal with inProgram := none })) (recordSucceeded ip s) :=
    (NoNewApproval.refl _).issueNext.frame (by simp [recordSucceeded, same_self])
  have stored := slotAt_recordStored (after.before i a h done result)
  exact stored

/-- A store operation's end approves a payment offline only when it is the success of the program of its record. -/
theorem slotAt_completeOperation {op : StoreOp} {limit : Bool} {e : ArrayEnd} {s : State} {i : Nat} {a : Auth}
    (h : slotAt (completeOperation op limit e s) i = some a) (done : a.state = .done)
    (result : a.result = .approvedOffline) :
    slotAt s i = some a ∨ limit = false ∧ ∃ loc bytes ip before, op = .recordProgram loc bytes
      ∧ (s.array.program loc.addr bytes e).2 = true ∧ s.journal.inProgram = some ip
      ∧ ip.entry.requester = .slot i ∧ slotAt s i = some before
      ∧ a = finished before .approvedOffline .none before.issuer := by
  have ended : Part.decision.same s (endOperation op limit e s) := by simp [same_self]
  by_cases other : completionOf limit (op.apply s.array e).2 ≠ .success ∨ op.kind ≠ .recordProgram
  · have kept := (noNewApproval_handCompletion op (endOperation op limit e s) other).before i a h done result
    rw [slotAt, ended] at kept
    exact .inl kept
  · push Not at other
    obtain ⟨success, record⟩ := other
    have inTime : limit = false ∧ (op.apply s.array e).2 = true := by
      cases limit <;> cases hr : (op.apply s.array e).2 <;> simp_all [completionOf]
    cases op with
    | recordProgram loc bytes =>
      rw [completeOperation, success] at h
      simp only [handCompletion, takeRecordResult] at h
      split at h
      · exact .inl h
      · rename_i ip found
        rcases slotAt_recordSucceeded h done result with kept | ⟨requester, before, held, eq⟩
        · exact .inl kept
        · exact .inr ⟨inTime.1, loc, bytes, ip, before, rfl, inTime.2, found, requester, held, eq⟩
    | mark q => cases record
    | epochProgram w epoch => cases record
    | pageProgram q => cases record
    | blockErase q => cases record

/-- Settles O23: a slot reaches APPROVED_OFFLINE only in the completion of a record program whose read-back matches. -/
theorem offlineApprovalNeedsAStoredRecord : Obligations.OfflineApprovalNeedsAStoredRecord := by
  intro c s t i a h ha done result
  have completed {kind : OpKind} {e : ArrayEnd} (other : kind ≠ .recordProgram)
      (ends : endRunning (some kind) false e s = .next t) : slotAt s i = some a := by
    rcases endRunning_cases ends with rfl | ⟨op, -, isKind, rfl⟩
    · exact ha
    · rcases slotAt_completeOperation ha done result with kept | ⟨-, loc, bytes, _, _, rfl, -⟩
      · exact kept
      · exact absurd (Option.some.inj (isKind.resolve_left nofun)) other
  have stopped (phase e) (u : State) : NoNewApproval u (stopPart phase e u) := by
    refine ⟨fun j b hb => ?_⟩
    have free := slotAt_clearVolatile (interruptOperation e u) j
    cases free.symm.trans hb
  cases c
  case recordProgramComplete e =>
    rcases endRunning_cases h with rfl | ⟨op, running, -, rfl⟩
    · exact .inl ha
    · rcases slotAt_completeOperation ha done result with
        kept | ⟨-, loc, bytes, ip, before, rfl, ok, found, requester, held, eq⟩
      · exact .inl kept
      · exact .inr ⟨e, loc, bytes, ip, before, rfl, running, ok, found, requester, held, eq⟩
  case markComplete e => exact .inl (completed (by decide) h)
  case epochProgramComplete e => exact .inl (completed (by decide) h)
  case pageProgramComplete e => exact .inl (completed (by decide) h)
  case blockEraseComplete e => exact .inl (completed (by decide) h)
  case operationTimeLimit e =>
    rcases endRunning_cases h with rfl | ⟨op, -, -, rfl⟩
    · exact .inl ha
    · rcases slotAt_completeOperation ha done result with kept | ⟨limit, -⟩
      · exact .inl kept
      · cases limit
  case powerOn e => exact .inl (approvalsKept.exec_of_supply stopped h ⟨e, .inl rfl⟩ |>.before i a ha done result)
  case resetnAssert e => exact .inl (approvalsKept.exec_of_supply stopped h ⟨e, .inr (.inl rfl)⟩ |>.before i a ha done result)
  case lossOfPower e => exact .inl (approvalsKept.exec_of_supply stopped h ⟨e, .inr (.inr rfl)⟩ |>.before i a ha done result)
  all_goals exact .inl ((approvalsKept.exec h rfl).before i a ha done result)

end Sys2Proof.Proofs.Slots
end

