-- ==== Sys2Proof/Proofs/Raw.lean ====
section
/-! PROOFS. Raw payloads: what the request or the command that their bytes spell has of the frame they came in. -/

namespace Sys2Proof.Proofs.Raw

open Sys2Proof.Machine Sys2Proof.Safety Sys2Proof.Laws

/-! ### The code byte -/

/-- R184: the code of a payload is its first byte, 0 in a payload of no bytes (log 12). -/
theorem field_code (p : List Byte) : field p 0 1 = (p.headD 0).toNat := by
  cases p <;> simp [field, unbe]

/-- R184: a payload's code, from its number. -/
theorem code_of_field {p : List Byte} {k : Nat} (h : field p 0 1 = k) : p.headD 0 = BitVec.ofNat 8 k := by
  rw [field_code] at h
  rw [← h, BitVec.ofNat_toNat, BitVec.setWidth_eq]

/-! ### Requests -/

/-- What a request that the bytes of a payload spell has of its frame: its code, its tag and the LOADLOCK level. -/
structure SpellsRequest (tag : BitVec 16) (lock : Line) (p : List Byte) (c : Instr) : Prop where
  frame : isHostFrame c = true
  notData : ∀ t d, c ≠ .hostData t d
  code : requestCode c = p.headD 0
  tagged : hostTag c = tag
  lock : ∀ s : State, s.pins.loadlock = lock → statusLock c s = s

theorem spellsRequest_raw (tag : BitVec 16) (lock : Line) (p : List Byte) :
    SpellsRequest tag lock p (.unknownRequest tag p) :=
  ⟨rfl, by simp, rfl, rfl, fun _ _ => rfl⟩

/-- A request of the payload's code and tag, other than STATUS. -/
theorem spellsRequest_of {tag : BitVec 16} {lock : Line} {p : List Byte} {c : Instr} {k : Nat} (h : field p 0 1 = k)
    (request : isRequest c = true) (code : requestCode c = BitVec.ofNat 8 k) (tagged : hostTag c = tag)
    (notStatus : ∀ s, statusLock c s = s) : SpellsRequest tag lock p c := by
  refine ⟨?_, ?_, code.trans (code_of_field h).symm, tagged, fun s _ => notStatus s⟩
  · cases c <;> first | rfl | cases request
  · rintro t d rfl
    cases request

/-- A choice by length between two requests that the payload spells. -/
theorem SpellsRequest.ite {tag : BitVec 16} {lock : Line} {p : List Byte} {c d : Instr} {P : Prop} [Decidable P]
    (hc : SpellsRequest tag lock p c) (hd : SpellsRequest tag lock p d) :
    SpellsRequest tag lock p (if P then c else d) := by
  split
  · exact hc
  · exact hd

/-- R184: every payload spells a request of its own code and tag, or stays raw. -/
theorem spellsRequest_requestOf (tag : BitVec 16) (lock : Line) (p : List Byte) :
    SpellsRequest tag lock p (requestOf tag lock p) := by
  have raw := spellsRequest_raw tag lock p
  have status : field p 0 1 = 0x0D → SpellsRequest tag lock p (.status tag lock) := fun h =>
    ⟨rfl, by simp, (code_of_field h).symm, rfl, fun s hs => by subst hs; rfl⟩
  unfold requestOf
  dsimp only
  split
  case h_4 h =>
    have query := spellsRequest_of (lock := lock) (c := .queryBill tag (bitField p 1 2 16) (bitField p 3 1 8)
      (bitField p 4 2 16)) h rfl rfl rfl (fun _ => rfl)
    exact (query.ite raw).ite ((query.ite raw).ite (query.ite raw))
  case h_7 h =>
    have read (n : Nat) := spellsRequest_of (lock := lock) (c := .readRange tag (bitField p 1 1 8) (bitField p 2 n 32))
      h rfl rfl rfl (fun _ => rfl)
    exact ((read 2).ite raw).ite (((read 4).ite raw).ite ((read 4).ite raw))
  case h_13 h => exact (status h).ite raw
  case h_14 => exact raw
  all_goals
    refine SpellsRequest.ite ?_ raw
    exact spellsRequest_of ‹_› rfl rfl rfl (fun _ => rfl)

/-! ### Commands -/

/-- What a command that the bytes of a payload spell has of its frame. -/
structure SpellsCommand (addr : BitVec 8) (tag : BitVec 16) (lock : Line) (p : List Byte) (c : Instr) : Prop where
  frame : downstreamArrives c = commandArrives c
  address : radioAddr c = addr
  code : commandCode c = p.headD 0
  tagged : mgmtTag c = tag
  lock : ∀ s : State, s.pins.loadlock = lock → lockOf c s = s

theorem spellsCommand_raw (addr : BitVec 8) (tag : BitVec 16) (lock : Line) (p : List Byte) :
    SpellsCommand addr tag lock p (.unknownCommand addr tag p) :=
  ⟨rfl, rfl, rfl, rfl, fun _ _ => rfl⟩

/-- A command of the payload's code, address and tag, other than LOAD OPEN. -/
theorem spellsCommand_of {addr : BitVec 8} {tag : BitVec 16} {lock : Line} {p : List Byte} {c : Instr} {k : Nat}
    (h : field p 0 1 = k) (frame : downstreamArrives c = commandArrives c) (address : radioAddr c = addr)
    (code : commandCode c = BitVec.ofNat 8 k) (tagged : mgmtTag c = tag) (notOpen : ∀ s, lockOf c s = s) :
    SpellsCommand addr tag lock p c :=
  ⟨frame, address, code.trans (code_of_field h).symm, tagged, fun s _ => notOpen s⟩

theorem SpellsCommand.ite {addr : BitVec 8} {tag : BitVec 16} {lock : Line} {p : List Byte} {c d : Instr} {P : Prop}
    [Decidable P] (hc : SpellsCommand addr tag lock p c) (hd : SpellsCommand addr tag lock p d) :
    SpellsCommand addr tag lock p (if P then c else d) := by
  split
  · exact hc
  · exact hd

/-- R184, R185: every payload spells a command of its own code, address and tag, or stays raw. -/
theorem spellsCommand_commandOf (addr : BitVec 8) (tag : BitVec 16) (lock : Line) (p : List Byte) :
    SpellsCommand addr tag lock p (commandOf addr tag lock p) := by
  have raw := spellsCommand_raw addr tag lock p
  unfold commandOf
  dsimp only
  split
  case h_8 h =>
    have loadOpen : SpellsCommand addr tag lock p
        (.loadOpen addr tag (bitField p 1 1 8) (bitField p 2 2 16) (bitField p 4 2 16) lock) :=
      ⟨rfl, rfl, (code_of_field h).symm, rfl, fun s hs => by subst hs; rfl⟩
    exact loadOpen.ite raw
  case h_13 => exact raw
  all_goals
    refine SpellsCommand.ite ?_ raw
    exact spellsCommand_of ‹_› rfl rfl rfl rfl (fun _ => rfl)

end Sys2Proof.Proofs.Raw
end

