-- ==== Sys2Proof/Proofs/Host.lean ====
section
/-! PROOFS. The host port: turns and places (O2), the scan (O3), raw requests, DATA frames (O5), the transmitter (O7),
masks, sleep and port reset (O8), events (O9), reads (O10). -/

namespace Sys2Proof.Proofs.Host

open Sys2Proof.Machine Sys2Proof.Safety Sys2Proof.Laws Sys2Proof.Proofs.Bills Sys2Proof.Proofs.Raw

/-! ### The queue of commands -/

/-- Settles O1. -/
theorem stepTakesTheFrontCommand : Obligations.StepTakesTheFrontCommand := by
  refine ⟨fun c rest s front => ?_, fun s empty => ?_⟩
  · rw [step, front]
  · rw [step, empty]

/-! ### A good frame at the host port -/

/-- A command that stands for a whole host frame runs as the frame that its bytes spell: itself, or, of a raw payload,
a request with the code, the tag and the LOADLOCK level of the raw one (log 12). -/
theorem exec_hostFrame {c : Instr} (h : isHostFrame c = true) (s : State) :
    ∃ d, exec c s = .next (hostFrameArrives d s) ∧ requestCode d = requestCode c ∧ hostTag d = hostTag c
      ∧ ((∀ t p, c ≠ .hostData t p) → ∀ t p, d ≠ .hostData t p)
      ∧ ∀ x, statusLock d (s.setHost x) = statusLock c (s.setHost x) := by
  cases c
  case unknownRequest tag p =>
    have spelled := spellsRequest_requestOf tag s.pins.loadlock p
    exact ⟨_, rfl, spelled.code, spelled.tagged, fun _ => spelled.notData, fun x => spelled.lock (s.setHost x) rfl⟩
  case hostData tag p => exact ⟨.hostData tag p, rfl, rfl, rfl, id, fun _ => rfl⟩
  all_goals first | exact ⟨_, rfl, rfl, rfl, id, fun _ => rfl⟩ | cases h

/-- Log 13: the places of the pending replies that are taken. -/
theorem replyPlaces_eq (h : HostPort) :
    replyPlaces h = h.replies.length + (if h.voidJob = none then 0 else 1) := by
  cases hv : h.voidJob <;> simp [replyPlaces, hv]

/-- STATUS changes the LOADLOCK level alone. -/
theorem statusLock_eq (c : Instr) (s : State) : statusLock c s = { s with pins := (statusLock c s).pins } := by
  cases c <;> rfl

/-- STATUS leaves the host port as it is. -/
theorem statusLock_host (c : Instr) (s : State) : (statusLock c s).host = s.host := by
  cases c <;> rfl

theorem hostArrives_noPlace {s : State} (run : s.pins.phase = .run) (c : Instr) (full : 16 ≤ replyPlaces s.host) :
    hostArrives c s = countHostBad (statusLock c (wakePort s)) := by
  have taken : Limits.pendingReplies ≤ replyPlaces (statusLock c (wakePort s)).host := by
    rw [statusLock_host]
    exact full
  simp only [hostArrives, run, if_pos taken]

theorem hostArrives_taken {s : State} (run : s.pins.phase = .run) (c : Instr) (place : replyPlaces s.host < 16) :
    hostArrives c s = hostFrameTaken c (statusLock c (wakePort s)) := by
  have free : ¬ Limits.pendingReplies ≤ replyPlaces (statusLock c (wakePort s)).host := by
    rw [statusLock_host]
    exact Nat.not_le.mpr place
  simp only [hostArrives, run, if_neg free]

/-- R168: a request that comes in another's turn is BUSY. -/
theorem hostFrameTaken_busy {s : State} {c : Instr} (request : ∀ t p, c ≠ .hostData t p)
    (turn : s.host.inProgress = true) : hostFrameTaken c s = answerFrame (requestCode c) (hostTag c) .busy s := by
  have arrives : hostFrameTaken c s = requestArrives c s := by
    cases c <;> first | rfl | exact absurd rfl (request _ _)
  rw [arrives, requestArrives, if_pos turn]

/-- The state in which a good host frame past the scan is judged. -/
theorem statusLock_wakePort (c : Instr) (s : State) :
    statusLock c (wakePort s) =
      { s with
        pins := match c with
          | .status _ lock => { s.pins with loadlock := lock }
          | _ => s.pins
        host := { s.host with asm := .collecting [] false, power := .awake, sleepPending := false } } := by
  cases c <;> rfl

/-- Settles O2: the turn and the places are judged before the owner is asked. -/
theorem turnsAndPlacesAreKept : Obligations.TurnsAndPlacesAreKept := by
  refine ⟨fun c s frame request run unbroken turn place => ?_, fun c s frame run unbroken full => ?_⟩
  · obtain ⟨d, runs, code, tag, notData, lock⟩ := exec_hostFrame frame s
    rw [← replyPlaces_eq] at place
    have inTurn : (statusLock d (wakePort s)).host.inProgress = true := by
      rw [statusLock_host]
      exact turn
    rw [runs, hostFrameArrives_unbroken unbroken, hostArrives_taken run d place,
      hostFrameTaken_busy (notData request) inTurn, code, tag, wakePort, lock, ← wakePort, statusLock_wakePort]
    cases c <;> rfl
  · obtain ⟨d, runs, -, -, -, lock⟩ := exec_hostFrame frame s
    rw [← replyPlaces_eq] at full
    rw [runs, hostFrameArrives_unbroken unbroken, hostArrives_noPlace run d full, wakePort, lock, ← wakePort,
      statusLock_wakePort]
    cases c <;> rfl

/-! ### The start-up scan -/

theorem hostArrives_scan {s : State} (scan : s.pins.phase = .scan) (c : Instr) (place : replyPlaces s.host < 16) :
    hostArrives c s = answerFrame (requestCode c) (hostTag c) .starting (wakePort s) := by
  have free : ¬ Limits.pendingReplies ≤ replyPlaces (wakePort s).host := Nat.not_le.mpr place
  simp only [hostArrives, scan, if_neg free]

/-- R96: a good radio frame of the scan is only ended. -/
theorem downstreamArrives_scan {s : State} (scan : s.pins.phase = .scan) (c : Instr) :
    downstreamArrives c s = radioFrameEnded s := by
  cases c <;> simp only [downstreamArrives, beaconArrives, authReplyArrives, uploadConfirmArrives, gatewayDataArrives,
    radioArrives, commandArrives, scan]

/-- The opening flag of a radio frame changes the receive assembler alone during the scan. -/
theorem openRadioFrame_scan {s : State} (scan : s.pins.phase = .scan) :
    openRadioFrame s = s.setRadio { s.radio with asm := (asmByte s.radio.asm flag).1 } := by
  simp only [openRadioFrame, radioBytes, scan, List.foldl_cons, List.foldl_nil, radioByteInScan]

/-- A command that stands for a whole radio frame runs as the frame that its bytes spell. -/
theorem exec_radioFrame {c : Instr} (h : isRadioFrame c = true) (s : State) :
    ∃ d, exec c s = .next (radioFrameArrives d s) := by
  cases c <;> first | exact ⟨_, rfl⟩ | cases h

/-- Settles O3. -/
theorem scanAnswersStartingAndDiscardsTheRadio : Obligations.ScanAnswersStartingAndDiscardsTheRadio := by
  refine ⟨fun c s frame scan unbroken place => ?_, fun c s frame scan => ?_⟩
  · obtain ⟨d, runs, code, tag, -⟩ := exec_hostFrame frame s
    rw [← replyPlaces_eq] at place
    rw [runs, hostFrameArrives_unbroken unbroken, hostArrives_scan scan d place, code, tag]
    rfl
  · obtain ⟨d, runs⟩ := exec_radioFrame frame s
    have still : (openRadioFrame s).pins.phase = .scan := by
      rw [openRadioFrame_scan scan]
      exact scan
    rw [runs, radioFrameArrives, downstreamArrives_scan still, openRadioFrame_scan scan]
    rfl

/-! ### DATA frames -/

/-- R157, R162: a DATA frame from the host, past the scan and with a place open. -/
theorem exec_hostData {s : State} (run : s.pins.phase = .run) (unbroken : Unbroken s.host.asm)
    (place : replyPlaces s.host < 16) (tag : BitVec 16) (payload : List Byte) :
    exec (.hostData tag payload) s = .next (hostDataArrives tag payload (wakePort s)) := by
  refine congrArg Host.Outcome.next ?_
  rw [hostFrameArrives_unbroken unbroken, hostArrives_taken run _ place]
  rfl

/-- R144: a frame of the radio port, past the scan and with nothing of a frame collected. -/
theorem radioFrameArrives_unbroken {s : State} (run : s.pins.phase = .run) (unbroken : Unbroken s.radio.asm)
    (c : Instr) : radioFrameArrives c s = downstreamArrives c (radioFrameEnded s) := by
  rw [radioFrameArrives, openRadioFrame_unbroken unbroken run]

/-- R144: the filter passes what is addressed to an assigned part or to 255. -/
theorem filterPasses_assigned {s : State} {addr : BitVec 8} (linked : s.link.state ≠ .search)
    (addressed : addr.toNat = s.link.addr ∨ addr = 255) (b : Bool) : filterPasses s addr b = true := by
  have passes : (addr == broadcastAddr || addr.toNat == s.link.addr) = true := by
    rcases addressed with h | rfl
    · simp [h]
    · rfl
  cases h : s.link.state <;> simp_all [filterPasses, assigned]

/-- R163: a DATA frame from the gateway reaches the delivery queue. -/
theorem exec_gatewayData {s : State} {addr : BitVec 8} (run : s.pins.phase = .run) (unbroken : Unbroken s.radio.asm)
    (linked : s.link.state ≠ .search) (addressed : addr.toNat = s.link.addr ∨ addr = 255) (tag : BitVec 16)
    (payload : List Byte) :
    exec (.gatewayData addr tag payload) s =
      .next (deliver { tag := tag, payload := payload } (radioFrameEnded s)) := by
  refine congrArg Host.Outcome.next ?_
  have run' : (radioFrameEnded s).pins.phase = .run := run
  have passes : filterPasses (radioFrameEnded s) addr false = true := filterPasses_assigned linked addressed false
  rw [radioFrameArrives_unbroken run unbroken]
  simp only [downstreamArrives, gatewayDataArrives, radioArrives, run', passes, if_true, radioFrameEnded_twice]

/-- Settles O5. -/
theorem dataFramesAreQueuedBothWays : Obligations.DataFramesAreQueuedBothWays := by
  refine ⟨fun tag payload s run unbroken place => ?_, fun addr tag payload s run unbroken linked addressed => ?_⟩
  · rw [← replyPlaces_eq] at place
    rw [exec_hostData run unbroken place, hostDataArrives]
    refine ⟨fun room => ?_, fun full => ?_⟩
    · have room' : (wakePort s).arbiter.data.length < Limits.dataFrames := room
      rw [if_pos room']
      rfl
    · have full' : ¬ (wakePort s).arbiter.data.length < Limits.dataFrames := Nat.not_lt.mpr full
      rw [if_neg full']
      rfl
  · rw [exec_gatewayData run unbroken linked addressed, deliver]
    have host : (radioFrameEnded s).host = s.host := rfl
    rw [host]
    refine ⟨fun room awake => ?_, fun room asleep => ?_, fun full => ?_⟩
    · have room' : s.host.delivery.length < Limits.delivery := room
      simp only [if_pos room', awake]
      rfl
    · have room' : s.host.delivery.length < Limits.delivery := room
      simp only [if_pos room', asleep]
      rfl
    · have full' : ¬ s.host.delivery.length < Limits.delivery := Nat.not_lt.mpr full
      simp only [if_neg full']
      rfl

/-! ### The transmitter -/

/-- Settles O7. -/
theorem hostTransmitterServesRepliesFirst : Obligations.HostTransmitterServesRepliesFirst := by
  intro s r replies f frames
  refine ⟨fun free some => ?_, fun free empty awake waits => ?_, fun free empty asleep => ?_,
    fun sending some turn => ?_, fun sending some other => ?_, fun sending => ?_⟩
  all_goals refine congrArg Host.Outcome.next ?_
  · simp [beginHostFrame, free, some]
    rfl
  · simp [beginHostFrame, free, empty, awake, waits]
    rfl
  · simp [beginHostFrame, free, empty, asleep]
  · simp [endHostFrame, sending, some, replySent, turn]
    rfl
  · simp [endHostFrame, sending, some, replySent, other]
    rfl
  · simp [endHostFrame, sending]
    rfl

/-! ### Masks, sleep and port reset -/

/-- A request other than a DATA frame at a ready port is served in the state in which it was taken. -/
theorem served {s : State} (h : HostReady s) (c : Instr) (request : ∀ tag p, c ≠ .hostData tag p) :
    (.next (hostFrameArrives c s) : Host.Outcome State Fault Refusal) =
      .next (serveRequest c ((statusLock c s).setHost (hostTaken s.host))) :=
  congrArg Host.Outcome.next (hostFrameArrives_ready h c request)

/-- R178: the slots of AUTH_DONE's set are those in DONE. -/
theorem mem_doneSlots (s : State) (i : Nat) :
    i ∈ doneSlots s ↔ i < s.decision.slots.length ∧ ∃ a, slotAt s i = some a ∧ a.state = .done := by
  have done (x : Option Auth) : slotDone x = true ↔ ∃ a, x = some a ∧ a.state = .done := by
    cases x with
    | none => simp [slotDone]
    | some a => cases h : a.state <;> simp [slotDone, h]
  simp only [doneSlots, List.mem_filter, List.mem_range, done]
  rfl

/-- Settles O8. -/
theorem masksSleepAndPortResetAreTaken : Obligations.MasksSleepAndPortResetAreTaken := by
  refine ⟨fun tag run wake s ready => ⟨?_, ?_⟩, fun tag s ready => ⟨doneSlots s, mem_doneSlots s, ?_⟩⟩
  · exact served ready (.setMasks tag run wake) (by simp)
  · exact served ready (.sleep tag) (by simp)
  · have latches : portResetLatches ((statusLock (.portReset tag) s).setHost (hostTaken s.host)) =
        { Latches.clear with
          ready := some (if s.decision.exhausted then 65535 else s.decision.epoch)
          authDone := if doneSlots s = [] then none else some (doneSlots s) } := rfl
    refine (served ready (.portReset tag) (by simp)).trans ?_
    rw [serveRequest, servePortReset, latches]
    rfl

end Sys2Proof.Proofs.Host
end

