-- ==== Sys2Proof/Proofs/Reads.lean ====
section
/-! PROOFS. The requests that read: NEXT EVENT and ATTN (O9), STATUS, QUERY BILL, READ RANGE and READ EXPOSURE (O10). -/

namespace Sys2Proof.Proofs.Reads

open Sys2Proof.Machine Sys2Proof.Safety Sys2Proof.Laws Sys2Proof.Proofs.Host

/-! ### Events -/

/-- R171: every source stands in the order. -/
theorem mem_eventOrder (e : Event) : e ∈ eventOrder := by cases e <;> decide

/-- R171: a source stands in the order at its priority. -/
theorem eventOrder_priority (e : Event) : eventOrder[e.priority]? = some e := by cases e <;> rfl

theorem priority_eventOrder : ∀ k (h : k < eventOrder.length), eventOrder[k].priority = k := by decide

/-- R176: the first latch is a pending and enabled one that no other pending and enabled one precedes. -/
theorem first_of_highest {l : Latches} {m : BitVec 10} {e : Event} (pending : l.pending e = true)
    (enabled : m.getLsbD e.priority = true)
    (highest : ∀ e', e'.priority < e.priority → l.pending e' = false ∨ m.getLsbD e'.priority = false) :
    l.first m = some e := by
  obtain ⟨inside, here⟩ := List.getElem?_eq_some_iff.mp (eventOrder_priority e)
  refine List.find?_eq_some_iff_getElem.mpr ⟨by simp [maskEnables, pending, enabled], e.priority, inside, here, ?_⟩
  intro k before
  have lower := highest eventOrder[k] (by rw [priority_eventOrder]; exact before)
  rcases lower with h | h <;> simp [maskEnables, h]

/-- R176: no latch comes first when none is pending and enabled. -/
theorem first_of_none {l : Latches} {m : BitVec 10}
    (off : ∀ e, l.pending e = false ∨ m.getLsbD e.priority = false) : l.first m = none := by
  refine List.find?_eq_none.mpr (fun e _ => ?_)
  rcases off e with h | h <;> simp [maskEnables, h]

/-- R177: some latch comes first exactly when one is pending and enabled. -/
theorem first_isSome (l : Latches) (m : BitVec 10) :
    (l.first m).isSome = true ↔ ∃ e, l.pending e = true ∧ m.getLsbD e.priority = true := by
  simp [Latches.first, List.find?_isSome, mem_eventOrder, maskEnables]

/-- R176: the latch that comes first is pending, so it has a detail. -/
theorem detail_of_first {l : Latches} {m : BitVec 10} {e : Event} (h : l.first m = some e) :
    ∃ d, l.detail e = some d := by
  have found := List.find?_some h
  rw [Bool.and_eq_true] at found
  exact Option.isSome_iff_exists.mp found.1

/-- R176: NEXT EVENT with a latch to return. -/
theorem exec_nextEvent_some {s : State} (ready : HostReady s) {e : Event} {d : EventDetail} (tag : BitVec 16)
    (first : s.events.latches.first s.events.run = some e) (detail : s.events.latches.detail e = some d) :
    exec (.nextEvent tag) s = .next
      { s with
        host := hostAnswered s.host 0x09 tag (.event d (s.events.latches.drop e).pendingSet)
        events := { s.events with latches := s.events.latches.drop e } } := by
  refine (served ready (.nextEvent tag) (by simp)).trans ?_
  have events : ((statusLock (.nextEvent tag) s).setHost (hostTaken s.host)).events = s.events := rfl
  rw [serveRequest, serveNextEvent, events, first]
  simp only [detail]
  rfl

/-- R176: NEXT EVENT with none. -/
theorem exec_nextEvent_none {s : State} (ready : HostReady s) (tag : BitVec 16)
    (first : s.events.latches.first s.events.run = none) :
    exec (.nextEvent tag) s = .next
      { s with host := hostAnswered s.host 0x09 tag (.noEvent s.events.latches.pendingSet) } := by
  refine (served ready (.nextEvent tag) (by simp)).trans ?_
  have events : ((statusLock (.nextEvent tag) s).setHost (hostTaken s.host)).events = s.events := rfl
  rw [serveRequest, serveNextEvent, events, first]
  rfl

/-- R177: ATTN is asserted exactly when a latch enabled in the mask of the host power state is pending. -/
theorem attn_iff (s : State) :
    attn s = true ↔ ∃ e, s.events.latches.pending e = true ∧
      (match s.host.power with | .awake => s.events.run | .asleep => s.events.wake).getLsbD e.priority = true :=
  first_isSome _ _

/-- Settles O9. -/
theorem nextEventAndAttnAgree : Obligations.NextEventAndAttnAgree := by
  refine ⟨fun tag s ready => ⟨fun e pending enabled highest => ?_, fun off => ?_⟩,
    fun s => ⟨attn_iff s, fun tag t awake ready runs => ?_⟩⟩
  · have first := first_of_highest pending enabled highest
    obtain ⟨d, detail⟩ := detail_of_first first
    exact ⟨d, detail, exec_nextEvent_some ready tag first detail⟩
  · exact exec_nextEvent_none ready tag (first_of_none off)
  · have line : attn s = (s.events.latches.first s.events.run).isSome := by rw [attn, awake]
    rw [line]
    cases first : s.events.latches.first s.events.run with
    | none =>
      rw [exec_nextEvent_none ready tag first] at runs
      cases runs
      simp [hostAnswered]
    | some e =>
      obtain ⟨d, detail⟩ := detail_of_first first
      rw [exec_nextEvent_some ready tag first detail] at runs
      cases runs
      simp [hostAnswered]

/-! ### The report of STATUS and QUERY STATUS -/

/-- Pairs with their places, filtered by the entry alone, are as many as the entries. -/
theorem length_filter_zip_range {α : Type} (l : List α) (p : α → Bool) :
    (((List.range l.length).zip l).filter (fun x => p x.2)).length = (l.filter p).length := by
  have entries : ((List.range l.length).zip l).map Prod.snd = l := List.map_snd_zip (by simp)
  conv_rhs => rw [← entries, List.filter_map, List.length_map]
  rfl

/-- R153: the LIVE and OUTSTANDING records, block by block. -/
theorem liveCount_eq (s : State) :
    liveCount s = ((List.range 4).map (fun b =>
      ((blockAt s b).slots.filter (fun r => r.state == .live || r.state == .outstanding)).length)).sum := by
  have state (st : RecordState) : st.unfinishedRecord = (st == .live || st == .outstanding) := by cases st <;> rfl
  have block (b : Nat) : ((blockSlots s b).filter (fun p => p.2.state.unfinishedRecord)).length =
      ((blockAt s b).slots.filter (fun r => r.state == .live || r.state == .outstanding)).length := by
    rw [blockSlots, List.filter_map, List.length_map]
    simp only [state]
    exact length_filter_zip_range (blockAt s b).slots (fun r => r.state == .live || r.state == .outstanding)
  rw [liveCount, everySlot, List.filter_flatMap, List.length_flatMap]
  simp only [block]
  rfl

theorem isSome_eq_ne_none {α : Type} [DecidableEq (Option α)] (o : Option α) : o.isSome = decide (o ≠ none) := by
  cases o <;> simp

/-- R153: what is reported is read from the state, group by group. -/
theorem statusReport_eq (s : State) : statusReport s = reportOf s := by
  have held : s.link.base.isSome = decide (s.link.base ≠ none) := isSome_eq_ne_none _
  have busy : s.store.running.isSome = decide (s.store.running ≠ none) := isSome_eq_ne_none _
  have phase : s.uploader.phase = (reportOf s).journal.upload := by
    unfold reportOf
    cases s.uploader <;> rfl
  have txn : s.uploader.txn = (reportOf s).journal.txn := by
    unfold reportOf
    cases s.uploader <;> rfl
  have attempts : s.uploader.attempts = (reportOf s).journal.attempts := by
    unfold reportOf
    cases s.uploader <;> rfl
  have rows : reportedRows s .irt = (reportOf s).tables.irtRows := by
    unfold reportOf reportedRows
    cases s.irt.state <;> rfl
  have op : s.store.running.map StoreOp.kind = (reportOf s).store.op := by
    unfold reportOf
    rcases s.store.running with - | (_ | _ | _ | _ | _) <;> rfl
  unfold statusReport
  rw [held, busy, liveCount_eq, phase, txn, attempts, rows, op]
  rfl

/-! ### STATUS -/

/-- R179: STATUS at a ready port. -/
theorem exec_status_ready {s : State} (ready : HostReady s) (tag : BitVec 16) (lock : Line) :
    exec (.status tag lock) s = .next
      { s with
        pins := { s.pins with loadlock := lock }
        host := hostAnswered s.host 0x0D tag
          (.hostStatus (reportOf s)
            { power := .awake, sleepPending := false, delivery := s.host.delivery.length,
              slots := s.decision.slots.map (fun a => a.map (fun a => (a.state, a.txn))),
              pending := s.events.latches.pendingSet, run := s.events.run, wake := s.events.wake,
              attn := (s.events.latches.first s.events.run).isSome, pwrwarn := s.pins.pwrwarn, loadlock := lock }) } := by
  refine (served ready (.status tag lock) (by simp)).trans ?_
  have slot (x : Option Auth) : slotReport x = x.map (fun a => (a.state, a.txn)) := by cases x <;> rfl
  rw [serveRequest, serveStatus, statusReport_eq, hostReport, funext slot]
  rfl

/-! ### QUERY BILL -/

/-- A request that its owner answers with one body and no other change. -/
theorem answered_ready {s : State} (ready : HostReady s) {c : Instr} {code : BitVec 8} {tag : BitVec 16} {body : Reply}
    (request : ∀ t p, c ≠ .hostData t p) (lock : statusLock c s = s)
    (owner : serveRequest c (s.setHost (hostTaken s.host)) =
      answerRequest code tag body (s.setHost (hostTaken s.host))) :
    (.next (hostFrameArrives c s) : Host.Outcome State Fault Refusal) =
      .next { s with host := hostAnswered s.host code tag body } := by
  rw [served ready c request, lock, owner, answer_taken]

theorem eq_of_toNat {w : Nat} {x : BitVec w} {n : Nat} (h : x.toNat = n) : x = BitVec.ofNat w n := by
  rw [← h, BitVec.ofNat_toNat, BitVec.setWidth_eq]

/-- A selector that is neither value of its byte. -/
theorem toNat_other {sel : BitVec 8} (other : sel ≠ 1) (other' : sel ≠ 2) : sel.toNat ≠ 1 ∧ sel.toNat ≠ 2 :=
  ⟨fun h => other (eq_of_toNat h), fun h => other' (eq_of_toNat h)⟩

/-- R31: QUERY BILL is answered by the entry and the selector. -/
theorem exec_queryBill_ready {s : State} (ready : HostReady s) (tag bill : BitVec 16) (sel : BitVec 8)
    (first : BitVec 16) :
    let answered (body : Reply) : State := { s with host := hostAnswered s.host 0x04 tag body }
    (findBill s bill.toNat = none → exec (.queryBill tag bill sel first) s = .next (answered (.plain .noBill)))
    ∧ ∀ b, findBill s bill.toNat = some b →
      (sel = 1 → exec (.queryBill tag bill sel first) s = .next (answered (.summary b)))
      ∧ (sel = 2 →
        exec (.queryBill tag bill sel first) s = .next (answered (.tenders ((b.tenders.drop first.toNat).take 8))))
      ∧ (sel ≠ 1 → sel ≠ 2 →
        exec (.queryBill tag bill sel first) s = .next (answered (.plain .badSelector))) := by
  have found : findBill (s.setHost (hostTaken s.host)) bill.toNat = findBill s bill.toNat := rfl
  refine ⟨fun none => ?_, fun b some => ⟨fun summary => ?_, fun tenders => ?_, fun other other' => ?_⟩⟩ <;>
    refine answered_ready ready (by simp) rfl ?_
  · simp only [serveRequest, serveQueryBill, found, none]
  · simp [serveRequest, serveQueryBill, found, some, summary]
  · simp [serveRequest, serveQueryBill, found, some, tenders, Limits.replyEntries]
  · simp [serveRequest, serveQueryBill, found, some, toNat_other other other']

/-! ### READ RANGE -/

/-- The first entry that satisfies a test stands at the first place where one does. -/
theorem find?_eq_of_findIdx? {α : Type} {l : List α} {p : α → Bool} {i : Nat} (h : l.findIdx? p = some i) :
    ∃ a, l[i]? = some a ∧ l.find? p = some a := by
  obtain ⟨inside, here, before⟩ := List.findIdx?_eq_some_iff_getElem.mp h
  refine ⟨l[i], List.getElem?_eq_getElem inside, List.find?_eq_some_iff_getElem.mpr ⟨here, i, inside, rfl, ?_⟩⟩
  intro j hj
  simpa using before j hj

/-- R11: leading digits that no row contains have no row to answer with. -/
theorem rangeRow_of_lookup_none {s : State} {value : Nat} (valid : s.irt.state = .valid) (h : lookup s value = none) :
    rangeRow s 2 value = none := by
  simp only [lookup, valid] at h
  have index : s.irt.mirror.findIdx? (fun r => r.contains value) = none :=
    List.findIdx?_eq_none_iff.mpr (fun r mem => by simpa using List.find?_eq_none.mp h r mem)
  simp [rangeRow, index]

/-- R11: the row that contains the leading digits is answered with its index. -/
theorem rangeRow_of_lookup_some {s : State} {value : Nat} {row : IrtRow} (valid : s.irt.state = .valid)
    (h : lookup s value = some row) : ∃ i, s.irt.mirror[i]? = some row ∧ rangeRow s 2 value = some (i, row) := by
  simp only [lookup, valid] at h
  cases index : s.irt.mirror.findIdx? (fun r => r.contains value) with
  | none =>
    have nowhere := List.findIdx?_eq_none_iff.mp index row (List.mem_of_find?_eq_some h)
    have here := List.find?_some h
    simp_all
  | some i =>
    obtain ⟨a, at_i, first⟩ := find?_eq_of_findIdx? index
    obtain rfl : a = row := Option.some.inj (first.symm.trans h)
    exact ⟨i, at_i, by simp [rangeRow, index, at_i]⟩

/-- R11: READ RANGE of a readable table, by what it finds. -/
theorem serveReadRange_readable {s : State} (valid : s.irt.state = .valid) (readable : s.irt.readable = true)
    {sel : Nat} (known : sel = 1 ∨ sel = 2) (tag : BitVec 16) (value : Nat) :
    serveReadRange tag sel value s = answerRequest 0x07 tag
      (((rangeRow s sel value).map (fun p => Reply.range s.irt.generation s.irt.mirror.length p.1 p.2)).getD
        (.plain .noRow)) s := by
  have selector : ¬ (sel ≠ 1 ∧ sel ≠ 2) := by omega
  simp only [serveReadRange, valid, readable, selector, ne_eq, not_true, or_self, if_false]
  cases rangeRow s sel value <;> rfl

/-- R11: READ RANGE at a ready port is answered by what the owner finds. -/
theorem exec_readRange_ready {s : State} (ready : HostReady s) {body : Reply} (tag : BitVec 16) (sel : BitVec 8)
    (value : BitVec 32)
    (owner : serveReadRange tag sel.toNat value.toNat (s.setHost (hostTaken s.host)) =
      answerRequest 0x07 tag body (s.setHost (hostTaken s.host))) :
    exec (.readRange tag sel value) s = .next { s with host := hostAnswered s.host 0x07 tag body } :=
  answered_ready (c := .readRange tag sel value) ready (by simp) rfl owner

/-- R11: READ RANGE with a known selector. -/
theorem exec_readRange_known {s : State} (ready : HostReady s) (valid : s.irt.state = .valid)
    (readable : s.irt.readable = true) {sel : BitVec 8} (known : sel = 1 ∨ sel = 2) (tag : BitVec 16)
    (value : BitVec 32) {found : Option (Nat × IrtRow)} (h : rangeRow s sel.toNat value.toNat = found) :
    exec (.readRange tag sel value) s = .next
      { s with
        host := hostAnswered s.host 0x07 tag
          ((found.map (fun p => Reply.range s.irt.generation s.irt.mirror.length p.1 p.2)).getD (.plain .noRow)) } := by
  subst h
  have known' : sel.toNat = 1 ∨ sel.toNat = 2 := by
    rcases known with rfl | rfl <;> decide
  exact exec_readRange_ready ready tag sel value
    (serveReadRange_readable (s := s.setHost (hostTaken s.host)) valid readable known' tag value.toNat)

/-! ### READ EXPOSURE -/

/-- R71: READ EXPOSURE at a ready port is answered by what the owner finds. -/
theorem exec_readExposure_ready {s : State} (ready : HostReady s) {body : Reply} (tag : BitVec 16) (sel : BitVec 8)
    (first : BitVec 16)
    (owner : serveReadExposure tag sel.toNat first.toNat (s.setHost (hostTaken s.host)) =
      answerRequest 0x08 tag body (s.setHost (hostTaken s.host))) :
    exec (.readExposure tag sel first) s = .next { s with host := hostAnswered s.host 0x08 tag body } :=
  answered_ready (c := .readExposure tag sel first) ready (by simp) rfl owner

/-- Settles O10: each request is answered from the state in which it was taken, which differs in the port alone. -/
theorem hostReadsAreAnsweredAtOnce : Obligations.HostReadsAreAnsweredAtOnce := by
  refine ⟨fun tag lock s ready => exec_status_ready ready tag lock,
    fun tag bill sel first s ready => exec_queryBill_ready ready tag bill sel first,
    fun tag sel value first s ready => ⟨fun hidden => ?_, fun valid readable other other' => ?_,
      fun valid readable one outside => ?_, fun valid readable two nowhere => ?_,
      fun row valid readable one here => ?_, fun row valid readable two here => ?_,
      fun one => ?_, fun two => ?_, fun other other' => ?_⟩⟩
  · refine exec_readRange_ready ready tag sel value (if_pos ?_)
    simpa using hidden
  · refine exec_readRange_ready ready tag sel value ((if_neg ?_).trans (if_pos (toNat_other other other')))
    simp [valid, readable]
  · refine exec_readRange_known ready valid readable (.inl one) tag value (found := none) ?_
    simp [rangeRow, one, List.getElem?_eq_none outside]
  · subst two
    exact exec_readRange_known ready valid readable (.inr rfl) tag value (rangeRow_of_lookup_none valid nowhere)
  · refine exec_readRange_known ready valid readable (.inl one) tag value (found := some (value.toNat, row)) ?_
    simp [rangeRow, one, here]
  · subst two
    obtain ⟨i, at_i, found⟩ := rangeRow_of_lookup_some valid here
    exact ⟨i, at_i, exec_readRange_known ready valid readable (.inr rfl) tag value found⟩
  · subst one
    exact exec_readExposure_ready ready tag _ first rfl
  · subst two
    exact exec_readExposure_ready ready tag _ first rfl
  · obtain ⟨not1, not2⟩ := toNat_other other other'
    exact exec_readExposure_ready ready tag _ first ((if_neg not1).trans (if_neg not2))

end Sys2Proof.Proofs.Reads
end

