-- ==== Sys2Proof/Proofs/RawFrames.lean ====
section
/-! PROOFS. Raw frames (O4). -/

namespace Sys2Proof.Proofs.RawFrames

open Sys2Proof.Machine Sys2Proof.Safety Sys2Proof.Laws Sys2Proof.Proofs.Host Sys2Proof.Proofs.Raw

/-! ### What stays raw -/

/-- R169: a request code that names none leaves the payload raw. -/
theorem requestOf_unknown {p : List Byte} (tag : BitVec 16) (lock : Line)
    (h : p.headD 0 = 0 ∨ 13 < (p.headD 0).toNat) : requestOf tag lock p = .unknownRequest tag p := by
  have code : field p 0 1 = 0 ∨ 13 < field p 0 1 := by
    rw [field_code]
    exact h.imp_left (fun h => by rw [h]; rfl)
  unfold requestOf
  split <;> first | rfl | omega

/-- R184: a length that the request code does not allow leaves the payload raw. -/
theorem requestOf_badLength {p : List Byte} {n : Nat} (tag : BitVec 16) (lock : Line)
    (h : ((p.headD 0).toNat, n) ∈ requestLengths) (length : p.length ≠ n) :
    requestOf tag lock p = .unknownRequest tag p := by
  rw [← field_code] at h
  simp only [requestLengths, List.mem_cons, Prod.mk.injEq, List.not_mem_nil, or_false] at h
  unfold requestOf
  rcases h with ⟨h, rfl⟩ | ⟨h, rfl⟩ | ⟨h, rfl⟩ | ⟨h, rfl⟩ | ⟨h, rfl⟩ | ⟨h, rfl⟩ | ⟨h, rfl⟩ | ⟨h, rfl⟩ | ⟨h, rfl⟩ |
    ⟨h, rfl⟩ | ⟨h, rfl⟩ <;>
  simp only [h, if_neg length]

/-- Log 20: QUERY BILL and READ RANGE of neither length stay raw. -/
theorem requestOf_badSelectorLength {p : List Byte} (tag : BitVec 16) (lock : Line)
    (h : (p.headD 0).toNat = 4 ∨ (p.headD 0).toNat = 7) (not4 : p.length ≠ 4) (not6 : p.length ≠ 6) :
    requestOf tag lock p = .unknownRequest tag p := by
  rw [← field_code] at h
  have neither : ¬ (p.length = 4 ∨ p.length = 6) := by omega
  unfold requestOf
  rcases h with h | h <;> simp only [h, if_neg not4, if_neg not6, if_neg neither, ite_self]

/-- R183: a command code that names none leaves the payload raw. -/
theorem commandOf_unknown {p : List Byte} (addr : BitVec 8) (tag : BitVec 16) (lock : Line)
    (h : (p.headD 0).toNat ∉ [1, 2, 3, 4, 16, 17, 18, 32, 33, 34, 35, 36]) :
    commandOf addr tag lock p = .unknownCommand addr tag p := by
  rw [← field_code] at h
  unfold commandOf
  split <;> first | rfl | simp_all

/-- R184: a length that the command code does not allow leaves the payload raw. -/
theorem commandOf_badLength {p : List Byte} {n : Nat} (addr : BitVec 8) (tag : BitVec 16) (lock : Line)
    (h : ((p.headD 0).toNat, n) ∈ commandLengths) (length : p.length ≠ n) :
    commandOf addr tag lock p = .unknownCommand addr tag p := by
  rw [← field_code] at h
  simp only [commandLengths, List.mem_cons, Prod.mk.injEq, List.not_mem_nil, or_false] at h
  unfold commandOf
  rcases h with ⟨h, rfl⟩ | ⟨h, rfl⟩ | ⟨h, rfl⟩ | ⟨h, rfl⟩ | ⟨h, rfl⟩ | ⟨h, rfl⟩ | ⟨h, rfl⟩ | ⟨h, rfl⟩ | ⟨h, rfl⟩ |
    ⟨h, rfl⟩ <;>
  simp only [h, if_neg length]

/-! ### What is answered -/

/-- R169: a raw request at a ready port is refused by whether its code names a request. -/
theorem exec_unknownRequest_raw {s : State} (ready : HostReady s) {tag : BitVec 16} {p : List Byte}
    (raw : requestOf tag s.pins.loadlock p = .unknownRequest tag p) {b : Bool}
    (known : requestCodeKnown (p.headD 0) = b) :
    exec (.unknownRequest tag p) s = .next
      { s with
        host := hostAnswered s.host (p.headD 0) tag
          (.plain (if b then .badLength else .unknownRequest)) } := by
  have runs : exec (.unknownRequest tag p) s = .next (hostFrameArrives (.unknownRequest tag p) s) :=
    congrArg (fun c => Host.Outcome.next (hostFrameArrives c s)) raw
  rw [runs, served ready _ (by simp)]
  simp only [serveRequest, serveUnknown, requestCode, known]
  cases b <;> rfl

/-- R183: a raw command at a ready gate is refused by whether its code names a command. -/
theorem exec_unknownCommand_raw {s : State} {addr : BitVec 8} (ready : GateReady addr s) {tag : BitVec 16}
    {p : List Byte} (raw : commandOf addr tag s.pins.loadlock p = .unknownCommand addr tag p) {b : Bool}
    (known : commandCodeKnown (p.headD 0) = b) :
    exec (.unknownCommand addr tag p) s = .next
      { s with
        radio := radioHeard s.radio
        arbiter := mgmtAnswered s.arbiter s.link.addr (p.headD 0) tag
          (.plain (if b then .badLength else .badField)) } := by
  have runs : exec (.unknownCommand addr tag p) s = .next (radioFrameArrives (.unknownCommand addr tag p) s) :=
    congrArg (fun c => Host.Outcome.next (radioFrameArrives c s)) raw
  have alone : addr ≠ broadcastAddr := ready.2.2.2.1
  rw [runs, radioFrameArrives_ready ready rfl]
  simp only [performCommand, takeUnknownCommand, commandCode, known]
  have answer (body : Reply) := answerCommand_unicast (s := lockOf (.unknownCommand addr tag p) (radioFrameEnded s))
    (c := .unknownCommand addr tag p) alone body
  rw [if_neg (by simp [unicast, radioAddr, alone]), answer, answer]
  cases b <;> rfl

/-- Settles O4. -/
theorem rawFramesAreAnswered : Obligations.RawFramesAreAnswered := by
  refine ⟨fun tag payload s ready => ⟨fun unknown => ?_, fun length => ?_⟩,
    fun addr tag payload s ready => ⟨fun unknown => ?_, fun ⟨n, code, length⟩ => ?_⟩⟩
  · have code : requestCodeKnown (payload.headD 0) = false := by
      rcases unknown with h | h
      · rw [h]; rfl
      · rw [requestCodeKnown, Bool.and_eq_false_iff]
        exact .inr (decide_eq_false (Nat.not_le.mpr h))
    exact exec_unknownRequest_raw ready (requestOf_unknown tag _ unknown) code
  · have raw : requestOf tag s.pins.loadlock payload = .unknownRequest tag payload := by
      rcases length with ⟨n, code, length⟩ | ⟨code, not4, not6⟩
      · exact requestOf_badLength tag _ code length
      · exact requestOf_badSelectorLength tag _ code not4 not6
    have code : requestCodeKnown (payload.headD 0) = true := by
      have listed : ∀ c ∈ requestLengths, 1 ≤ c.1 ∧ c.1 ≤ 13 := by decide
      have inside : 1 ≤ (payload.headD 0).toNat ∧ (payload.headD 0).toNat ≤ 13 := by
        rcases length with ⟨n, code, -⟩ | ⟨code, -⟩
        · exact listed _ code
        · omega
      rw [requestCodeKnown, Bool.and_eq_true]
      exact ⟨decide_eq_true inside.1, decide_eq_true inside.2⟩
    exact exec_unknownRequest_raw ready raw code
  · have code : commandCodeKnown (payload.headD 0) = false := by simpa [commandCodeKnown, -List.headD_eq_head?_getD] using unknown
    exact exec_unknownCommand_raw ready (commandOf_unknown addr tag _ unknown) code
  · have listed : ∀ c ∈ commandLengths, c.1 ∈ [1, 2, 3, 4, 16, 17, 18, 32, 33, 34, 35, 36] := by decide
    have known : commandCodeKnown (payload.headD 0) = true := by
      simpa [commandCodeKnown, -List.headD_eq_head?_getD] using listed _ code
    exact exec_unknownCommand_raw ready (commandOf_badLength addr tag _ code length) known

end Sys2Proof.Proofs.RawFrames
end

