-- ==== Sys2Proof/Proofs/Gate.lean ====
section
/-! PROOFS. The address filter (O24), the management gate (O25, O26) and LOAD OPEN (O33). -/

namespace Sys2Proof.Proofs.Gate

open Sys2Proof.Machine Sys2Proof.Safety Sys2Proof.Laws Sys2Proof.Proofs.Bills Sys2Proof.Proofs.Invariants
  Sys2Proof.Proofs.Host Sys2Proof.Proofs.Raw

/-! ### A good frame at the radio port -/

/-- The frame that a command stands for: of raw bytes, the command that they spell (log 12). -/
def spelled (s : State) : Instr → Instr
  | .unknownCommand addr tag payload => commandOf addr tag s.pins.loadlock payload
  | c => c

/-- A command that stands for a whole radio frame runs as that frame. -/
theorem exec_spelled {c : Instr} (h : isRadioFrame c = true) (s : State) :
    exec c s = .next (radioFrameArrives (spelled s c) s) := by
  cases c <;> first | rfl | cases h

theorem radioAddr_spelled (s : State) (c : Instr) : radioAddr (spelled s c) = radioAddr c := by
  cases c
  case unknownCommand addr tag p => exact (spellsCommand_commandOf addr tag s.pins.loadlock p).address
  all_goals rfl

/-- R144: whether a frame is of a kind that a part in SEARCH listens for. -/
def listened : Instr → Bool
  | .beacon .. => true
  | c => isAssign c

/-- Log 12: bytes spell an ASSIGN only by its code and its length. -/
theorem commandOf_isAssign {p : List Byte} {addr : BitVec 8} {tag : BitVec 16} {lock : Line}
    (h : listened (commandOf addr tag lock p) = true) : p.length = 9 ∧ p.headD 0 = 1 := by
  unfold commandOf at h
  dsimp only at h
  split at h
  case h_1 code =>
    split_ifs at h with length
    · exact ⟨length, code_of_field code⟩
    · cases h
  all_goals
    first
    | cases h
    | split_ifs at h <;> cases h

theorem listened_spelled {s : State} {c : Instr} (h : heardUnassigned c = false) : listened (spelled s c) = false := by
  cases c
  case unknownCommand addr tag p =>
    by_contra other
    obtain ⟨length, code⟩ := commandOf_isAssign (Bool.eq_true_of_not_eq_false other)
    have unheard : (p.length == 9 && p.headD 0 == 1) = false := h
    rw [length, code] at unheard
    cases unheard
  all_goals first | rfl | cases h

/-- R144: a frame that the filter does not pass is only ended. -/
theorem downstreamArrives_filtered {s : State} (run : s.pins.phase = .run) {c : Instr}
    (filtered : filterPasses s (radioAddr c) (listened c) = false) : downstreamArrives c s = radioFrameEnded s := by
  cases c <;> simp only [downstreamArrives, beaconArrives, authReplyArrives, uploadConfirmArrives, gatewayDataArrives,
    radioArrives, commandArrives, run] <;> exact if_neg (Bool.eq_false_iff.mp filtered)

/-- Settles O24. -/
theorem filteredFramesAreDiscarded : Obligations.FilteredFramesAreDiscarded := by
  intro c s frame run unbroken unheard
  have filtered : filterPasses s (radioAddr (spelled s c)) (listened (spelled s c)) = false := by
    rw [radioAddr_spelled]
    rcases unheard with ⟨search, other⟩ | ⟨linked, notAll, notHere⟩
    · have unassigned : assigned s = false := by rw [assigned, search]
      rw [filterPasses, unassigned, if_neg (by simp), Bool.and_eq_false_iff]
      exact other.imp (fun h => beq_eq_false_iff_ne.mpr h) listened_spelled
    · have assigned : assigned s = true := by
        cases h : s.link.state <;> simp_all [assigned]
      rw [filterPasses, assigned, if_pos rfl, Bool.or_eq_false_iff]
      exact ⟨beq_eq_false_iff_ne.mpr notAll, beq_eq_false_iff_ne.mpr notHere⟩
  rw [exec_spelled frame, radioFrameArrives_unbroken run unbroken,
    downstreamArrives_filtered (s := radioFrameEnded s) run filtered]
  rfl

/-! ### The gate -/

/-- R165: a management command, raw or not, that the filter passes arrives at the gate. -/
theorem exec_atGate {c : Instr} {s : State}
    (managing : isCommand c = true ∨ ∃ addr tag payload, c = .unknownCommand addr tag payload)
    (run : s.pins.phase = .run) (unbroken : Unbroken s.radio.asm) (linked : s.link.state ≠ .search)
    (addressed : (radioAddr c).toNat = s.link.addr ∨ radioAddr c = 255) :
    exec c s = .next (commandAtGate (spelled s c) (lockOf c (radioFrameEnded s)))
      ∧ commandCode (spelled s c) = commandCode c ∧ mgmtTag (spelled s c) = mgmtTag c := by
  have facts : isRadioFrame c = true ∧ downstreamArrives (spelled s c) = commandArrives (spelled s c)
      ∧ lockOf (spelled s c) (radioFrameEnded s) = lockOf c (radioFrameEnded s)
      ∧ commandCode (spelled s c) = commandCode c ∧ mgmtTag (spelled s c) = mgmtTag c := by
    rcases managing with command | ⟨addr, tag, payload, rfl⟩
    · cases c <;> first | exact ⟨rfl, rfl, rfl, rfl, rfl⟩ | cases command
    · have raw := spellsCommand_commandOf addr tag s.pins.loadlock payload
      exact ⟨rfl, raw.frame, raw.lock (radioFrameEnded s) rfl, raw.code, raw.tagged⟩
  obtain ⟨frame, command, lock, code, tag⟩ := facts
  refine ⟨?_, code, tag⟩
  have run' : (radioFrameEnded s).pins.phase = .run := run
  have passes : filterPasses (radioFrameEnded s) (radioAddr (spelled s c)) (isAssign (spelled s c)) = true := by
    rw [radioAddr_spelled]
    exact filterPasses_assigned linked addressed _
  rw [exec_spelled frame, radioFrameArrives_unbroken run unbroken, command]
  simp only [commandArrives, run', passes, if_true, radioFrameEnded_twice, lock]

/-- R165: the gate that holds a command answers another BUSY, or discards it. -/
theorem commandAtGate_taken {s : State} (taken : s.arbiter.gate ≠ .empty) (c : Instr) :
    commandAtGate c s = if unicast c ∧ 0 < openPlaces s.arbiter then
      queueMgmtReply (commandCode c) (mgmtTag c) (.plain .busy) s else s := by
  unfold commandAtGate
  cases h : s.arbiter.gate <;> first | rfl | exact absurd h taken

/-- The state in which a management command is judged. -/
theorem lockOf_radioFrameEnded (c : Instr) (s : State) :
    lockOf c (radioFrameEnded s) =
      { s with radio := radioHeard s.radio, pins := (lockOf c s).pins } := by
  cases c <;> rfl

theorem unicast_iff (c : Instr) : unicast c = true ↔ radioAddr c ≠ 255 := by
  rw [unicast, bne_iff_ne]
  rfl

/-- Settles O25. -/
theorem gateHoldsOneCommand : Obligations.GateHoldsOneCommand := by
  refine ⟨fun c s command run unbroken linked taken => ⟨fun here alone place => ?_, fun here alone full => ?_,
    fun all => ?_⟩, fun c s command run unbroken linked here alone empty full => ?_⟩
  · obtain ⟨runs, code, tag⟩ := exec_atGate command run unbroken linked (.inl here)
    have unicast' : unicast (spelled s c) = true := by rwa [unicast_iff, radioAddr_spelled]
    have busy := commandAtGate_taken (s := lockOf c (radioFrameEnded s)) (by cases c <;> exact taken) (spelled s c)
    rw [runs, busy, lockOf_radioFrameEnded, if_pos ⟨unicast', place⟩, code, tag]
    cases c <;> rfl
  · obtain ⟨runs, -, -⟩ := exec_atGate command run unbroken linked (.inl here)
    have busy := commandAtGate_taken (s := lockOf c (radioFrameEnded s)) (by cases c <;> exact taken) (spelled s c)
    rw [runs, busy, lockOf_radioFrameEnded, if_neg (fun h => absurd h.2 (by simp [full]))]
    cases c <;> rfl
  · obtain ⟨runs, -, -⟩ := exec_atGate command run unbroken linked (.inr all)
    have notUnicast : ¬ unicast (spelled s c) = true := by
      rw [unicast_iff, radioAddr_spelled]
      exact fun h => h all
    have busy := commandAtGate_taken (s := lockOf c (radioFrameEnded s)) (by cases c <;> exact taken) (spelled s c)
    rw [runs, busy, lockOf_radioFrameEnded, if_neg (fun h => notUnicast h.1)]
    cases c <;> rfl
  · obtain ⟨runs, -, -⟩ := exec_atGate command run unbroken linked (.inl here)
    have unicast' : unicast (spelled s c) = true := by rwa [unicast_iff, radioAddr_spelled]
    have noPlace : openPlaces s.arbiter = 0 := by
      simp only [openPlaces, placesForVerify, unreserved, empty, Gate.reserved, Gate.waiting, Limits.mgmtReplies]
      omega
    have held : commandAtGate (spelled s c) (lockOf c (radioFrameEnded s)) =
        setGate (.held (spelled s c)) (lockOf c (radioFrameEnded s)) := by
      rw [lockOf_radioFrameEnded]
      simp only [commandAtGate, empty, expectsReply, unicast', noPlace, Bool.true_or, and_self, if_true]
    rw [runs, held, lockOf_radioFrameEnded]
    cases c <;> rfl

end Sys2Proof.Proofs.Gate
end

