-- ==== Sys2Proof/Proofs/LoadOpen.lean ====
section
/-! PROOFS. LOAD OPEN (O33), and the held command (O26). -/

namespace Sys2Proof.Proofs.LoadOpen

open Sys2Proof.Machine Sys2Proof.Safety Sys2Proof.Laws Sys2Proof.Proofs.Bills Sys2Proof.Proofs.Invariants
  Sys2Proof.Proofs.Host Sys2Proof.Proofs.Raw Sys2Proof.Proofs.Gate Sys2Proof.Proofs.Reads

/-! ### A command at a ready gate -/

/-- R165: a command for the part alone at a ready gate is performed on the state in which its frame has ended. -/
theorem gated {s : State} {c : Instr} (ready : GateReady (radioAddr c) s)
    (command : downstreamArrives c = commandArrives c) :
    (.next (radioFrameArrives c s) : Host.Outcome State Fault Refusal) =
      .next (performCommand c (lockOf c (radioFrameEnded s))) :=
  congrArg Host.Outcome.next (radioFrameArrives_ready ready command)

/-- R157: a command for the part alone is answered in the MGMT_REPLY queue. -/
theorem answerCommand_alone {c : Instr} (alone : radioAddr c ≠ broadcastAddr) (body : Reply) (s : State) :
    answerCommand c body s =
      { s with arbiter := mgmtAnswered s.arbiter s.link.addr (commandCode c) (mgmtTag c) body } :=
  answerCommand_unicast alone body

/-! ### LOAD OPEN -/

/-- R130: the checks of LOAD OPEN for a table that its code names. -/
theorem openChecks_of_table {table : BitVec 8} {t : TableName} (h : tableOf table = some t) (s : State)
    (generation rows : Nat) (lock : Line) :
    openChecks s table.toNat generation rows lock =
      [ (generation == 0 || !expectedOk t rows, .badField),
        (lock == .asserted, .locked),
        (s.loader.phase != .idle, .busy) ] := by
  unfold tableOf at h
  split at h
  case h_1 code =>
    cases h
    have field : (rows == 0 || decide (192 < rows)) = !expectedOk .irt rows := by
      rw [Bool.eq_iff_iff]
      simp only [expectedOk, Bool.or_eq_true, beq_iff_eq, decide_eq_true_eq, Bool.not_eq_true',
        Bool.and_eq_false_iff, decide_eq_false_iff_not]
      have limit : Limits.irtRows = 192 := rfl
      omega
    simp [openChecks, code, field]
  case h_2 code =>
    cases h
    have field : (rows != 1) = !expectedOk .profile rows := rfl
    simp [openChecks, code, field]
  case h_3 => cases h

/-- R130: a table code that names none fails the first check. -/
theorem openChecks_of_none {table : BitVec 8} (h : tableOf table = none) (s : State) (generation rows : Nat)
    (lock : Line) : firstRefusal (openChecks s table.toNat generation rows lock) = some .badField := by
  unfold tableOf at h
  split at h
  case h_1 => cases h
  case h_2 => cases h
  case h_3 not1 not2 =>
    have code : (table.toNat != 1 && table.toNat != 2) = true := by
      rw [Bool.and_eq_true]
      exact ⟨bne_iff_ne.mpr not1, bne_iff_ne.mpr not2⟩
    rw [openChecks, code]
    rfl

/-- R130: LOAD OPEN accepted. -/
def sessionOpened (c : Instr) (t : TableName) (generation rows : Nat) (s : State) : State :=
  setGate (.inProgress c)
    (requestErase { target := .table t, second := false }
      (loadingTable t generation
        (s.setLoader { s.loader with phase := .opening, session := some (newSession t generation rows) })))

/-- R130: LOAD OPEN is refused by the first check that fails. -/
theorem takeLoadOpen_refused {s : State} {table : BitVec 8} {generation rows : Nat} {lock : Line} {a : Answer}
    (h : firstRefusal (openChecks s table.toNat generation rows lock) = some a) (c : Instr) :
    takeLoadOpen c table generation rows lock s = answerCommand c (.plain a) s := by
  unfold takeLoadOpen
  cases ht : tableOf table with
  | none =>
    rw [openChecks_of_none ht] at h
    cases h
    rfl
  | some t =>
    rw [openChecks_of_table ht] at h
    simp only [firstRefusal_cons, firstRefusal_nil, Bool.or_eq_true, Bool.not_eq_true', beq_iff_eq, bne_iff_ne] at h
    simp only [Bool.not_eq_true]
    split_ifs at h ⊢ <;> cases h <;> rfl

/-- R130: LOAD OPEN opens a session when no check fails. -/
theorem takeLoadOpen_passed {s : State} {table : BitVec 8} {generation rows : Nat} {lock : Line}
    (h : firstRefusal (openChecks s table.toNat generation rows lock) = none) (c : Instr) :
    ∃ t, tableOf table = some t ∧ takeLoadOpen c table generation rows lock s = sessionOpened c t generation rows s := by
  cases ht : tableOf table with
  | none =>
    rw [openChecks_of_none ht] at h
    cases h
  | some t =>
    refine ⟨t, rfl, ?_⟩
    rw [openChecks_of_table ht] at h
    simp only [firstRefusal_cons, firstRefusal_nil, Bool.or_eq_true, Bool.not_eq_true', beq_iff_eq, bne_iff_ne] at h
    simp only [takeLoadOpen, ht, Bool.not_eq_true]
    split_ifs at h ⊢
    rfl

/-- R86: the evaluation of the low flag changes the journal's flag and JOURNAL_LOW alone. -/
theorem evaluateLow_eq (s : State) :
    evaluateLow s = { s with journal := (evaluateLow s).journal, events := (evaluateLow s).events } := by
  unfold evaluateLow
  split
  · split <;> rfl
  · rfl

/-- R4, R136: a table in LOADING, field by field. -/
theorem loadingTable_eq (t : TableName) (generation : Nat) (s : State) :
    loadingTable t generation s = { s with
      irt := (loadingTable t generation s).irt, profile := (loadingTable t generation s).profile,
      journal := (loadingTable t generation s).journal, events := (loadingTable t generation s).events } := by
  cases t with
  | irt => rfl
  | profile =>
    rw [loadingTable, evaluateLow_eq]
    rfl

theorem loadingTable_irt (generation : Nat) (s : State) :
    loadingTable .irt generation s =
      s.setIrt { state := .loading, generation := generation, readable := false, mirror := [] } := rfl

theorem loadingTable_profile_irt (generation : Nat) (s : State) : (loadingTable .profile generation s).irt = s.irt := by
  rw [loadingTable, evaluateLow_eq]
  rfl

theorem loadingTable_profile_profile (generation : Nat) (s : State) :
    (loadingTable .profile generation s).profile =
      { state := .loading, generation := generation, values := .defaults } := by
  rw [loadingTable, evaluateLow_eq]
  rfl

/-- R130: what a session opened leaves as it was. -/
theorem sessionOpened_changedOnly (c : Instr) (t : TableName) (generation rows : Nat) (s : State) :
    ChangedOnly [.arbiter, .loader, .irt, .profile, .store, .journal, .events] s
      (sessionOpened c t generation rows s) := by
  intro p other
  simp only [List.mem_cons, List.not_mem_nil, or_false, not_or] at other
  obtain ⟨arbiter, loader, irt, profile, store, journal, events⟩ := other
  rw [sessionOpened, same_setGate _ arbiter, same_requestErase _ store,
    same_loadingTable _ _ irt profile journal events, same_setLoader _ loader]
  exact same_self p s

/-- R4, R130, R136: the loader, the table and the requests of a session opened. -/
theorem sessionOpened_fields (c : Instr) (t : TableName) (generation rows : Nat) (s : State) :
    let u := sessionOpened c t generation rows s
    u.arbiter = { s.arbiter with gate := .inProgress c }
    ∧ u.loader = { s.loader with
        phase := .opening
        session := some
          { table := t, generation := generation, expected := rows, received := 0, broken := .no, breakIndex := 0,
            buffer := [], bufferBusy := false, check := 0xFFFF } }
    ∧ tableState u t = .loading ∧ tableGeneration u t = generation ∧ reportedRows u t = 0
    ∧ u.store = { s.store with erases := s.store.erases ++ [{ target := .table t, second := false }] }
    ∧ (t = .irt → u.irt.mirror = [] ∧ u.irt.readable = false ∧ u.profile = s.profile ∧ u.journal = s.journal
        ∧ u.events = s.events)
    ∧ (t = .profile → u.irt = s.irt ∧ params u = ProfileRecord.defaults) := by
  cases t with
  | irt => exact ⟨rfl, rfl, rfl, rfl, rfl, rfl, fun _ => ⟨rfl, rfl, rfl, rfl, rfl⟩, nofun⟩
  | profile =>
    rw [sessionOpened, loadingTable, evaluateLow_eq]
    exact ⟨rfl, rfl, rfl, rfl, rfl, rfl, nofun, fun _ => ⟨rfl, rfl⟩⟩

/-- Settles O33. -/
theorem loadOpenOpensASession : Obligations.LoadOpenOpensASession := by
  intro addr tag table generation rows lock s ready
  have alone : radioAddr (.loadOpen addr tag table generation rows lock) ≠ broadcastAddr := ready.2.2.2.1
  have performed := gated (c := .loadOpen addr tag table generation rows lock) ready rfl
  refine ⟨fun a refused => performed.trans (congrArg Host.Outcome.next ?_), fun passed => ?_⟩
  · have refused' : firstRefusal (openChecks (lockOf (.loadOpen addr tag table generation rows lock)
        (radioFrameEnded s)) table.toNat generation.toNat rows.toNat lock) = some a := refused
    exact (takeLoadOpen_refused refused' _).trans (answerCommand_alone alone _ _)
  · have passed' : firstRefusal (openChecks (lockOf (.loadOpen addr tag table generation rows lock)
        (radioFrameEnded s)) table.toNat generation.toNat rows.toNat lock) = none := passed
    obtain ⟨t, named, opened⟩ := takeLoadOpen_passed passed' (.loadOpen addr tag table generation rows lock)
    obtain ⟨arbiter, loader, state, gen, reported, store, irt, profile⟩ := sessionOpened_fields
      (.loadOpen addr tag table generation rows lock) t generation.toNat rows.toNat
      (lockOf (.loadOpen addr tag table generation rows lock) (radioFrameEnded s))
    have kept := sessionOpened_changedOnly (.loadOpen addr tag table generation rows lock) t generation.toNat
      rows.toNat (lockOf (.loadOpen addr tag table generation rows lock) (radioFrameEnded s))
    refine ⟨_, t, performed.trans (congrArg Host.Outcome.next opened), ?_, named, kept .pins (by decide), arbiter,
      loader, state, gen, reported, store, irt, profile⟩
    intro p other
    simp only [List.mem_cons, List.not_mem_nil, or_false, not_or] at other
    obtain ⟨pins, radio, others⟩ := other
    have inner := kept p (by simpa using others)
    cases p <;> first | exact inner | exact absurd rfl pins | exact absurd rfl radio

/-! ### The held command -/

/-- R166: with the gate holding a command and no verify reply waiting, a place is free when the queue has one. -/
theorem placesForVerify_pos {a : Arbiter} (waiting : a.waitingVerify = []) (notReserved : a.gate.reserved = 0)
    (room : a.mgmt.length < 4) : 0 < placesForVerify a := by
  simp only [placesForVerify, unreserved, waiting, notReserved, Limits.mgmtReplies, List.length_nil]
  omega

/-- R166: the state in which the held command is judged, with the LOADLOCK level found. -/
def lockFound (lock : Line) (s : State) : State :=
  { s with pins := { s.pins with loadlock := lock }, arbiter := { s.arbiter with gate := .empty } }

/-- R166: the held command, other than a LOAD OPEN, is performed. -/
theorem takeHeld_performed {s : State} {c : Instr} (lock : Line) (held : s.arbiter.gate = .held c)
    (waiting : s.arbiter.waitingVerify = []) (room : s.arbiter.mgmt.length < 4)
    (other : ∀ a g t n k l, c ≠ .loadOpen a g t n k l) :
    takeHeld lock s = performCommand c
      (lockFound lock s) := by
  have place : 0 < placesForVerify s.arbiter := placesForVerify_pos waiting (by rw [held]; rfl) room
  have takes : 0 < placesForVerify s.arbiter ∧ s.arbiter.waitingVerify = [] := ⟨place, waiting⟩
  simp only [takeHeld, held, if_pos takes]
  cases c
  case loadOpen => exact absurd rfl (other _ _ _ _ _ _)
  all_goals rfl

/-- R130, R166: a held LOAD OPEN is performed with the level that its taking finds. -/
theorem takeHeld_loadOpen {s : State} {addr : BitVec 8} {tag : BitVec 16} {table : BitVec 8}
    {generation rows : BitVec 16} {old : Line} (lock : Line)
    (held : s.arbiter.gate = .held (.loadOpen addr tag table generation rows old))
    (waiting : s.arbiter.waitingVerify = []) (room : s.arbiter.mgmt.length < 4) :
    takeHeld lock s = performCommand (.loadOpen addr tag table generation rows lock)
      (lockFound lock s) := by
  have place : 0 < placesForVerify s.arbiter := placesForVerify_pos waiting (by rw [held]; rfl) room
  have takes : 0 < placesForVerify s.arbiter ∧ s.arbiter.waitingVerify = [] := ⟨place, waiting⟩
  simp only [takeHeld, held, if_pos takes]
  rfl

/-- Settles O26. -/
theorem freedPlacesServeTheWaiters : Obligations.FreedPlacesServeTheWaiters := by
  intro s lock
  refine ⟨fun tag r rest waiting empty room => ?_, fun addr tag held alone waiting room => ?_,
    fun c held waiting room other => congrArg Host.Outcome.next (takeHeld_performed lock held waiting room other),
    fun addr tag table generation rows old held waiting room alone => ?_, fun c held full => ?_⟩
  · have place : 0 < unreserved s.arbiter := by
      simp only [unreserved, empty, Gate.reserved, Limits.mgmtReplies]
      omega
    refine congrArg Host.Outcome.next ?_
    simp only [placeWaitingVerify, waiting, if_pos place]
    rfl
  · refine congrArg Host.Outcome.next ?_
    rw [takeHeld_performed lock held waiting room (by simp)]
    have unicast' : unicast (.queryStatus addr tag) = true := (unicast_iff _).mpr alone
    simp only [performCommand, takeQueryStatus, unicast', statusReport_eq]
    exact answerCommand_alone (c := .queryStatus addr tag) alone _ _
  · have taken := takeHeld_loadOpen lock held waiting room
    refine ⟨congrArg Host.Outcome.next taken, fun a refused => congrArg Host.Outcome.next ?_, fun passed => ?_⟩
    · have refused' : firstRefusal (openChecks (lockFound lock s) table.toNat generation.toNat rows.toNat lock) = some a := refused
      exact taken.trans ((takeLoadOpen_refused refused' _).trans
        (answerCommand_alone (c := .loadOpen addr tag table generation rows lock) alone _ _))
    · have passed' : firstRefusal (openChecks (lockFound lock s) table.toNat generation.toNat rows.toNat lock) = none := passed
      obtain ⟨t, -, opened⟩ := takeLoadOpen_passed passed' (.loadOpen addr tag table generation rows lock)
      obtain ⟨arbiter, loader, -⟩ := sessionOpened_fields (.loadOpen addr tag table generation rows lock) t
        generation.toNat rows.toNat
        (lockFound lock s)
      have kept := sessionOpened_changedOnly (.loadOpen addr tag table generation rows lock) t generation.toNat
        rows.toNat (lockFound lock s)
      exact ⟨_, congrArg Host.Outcome.next (taken.trans opened), kept .pins (by decide), by rw [loader], arbiter⟩
  · refine congrArg Host.Outcome.next ?_
    have none : ¬ (0 < placesForVerify s.arbiter ∧ s.arbiter.waitingVerify = []) := by
      rintro ⟨place, waiting⟩
      rcases full with other | full
      · exact other waiting
      · simp only [placesForVerify, unreserved, Limits.mgmtReplies] at place
        omega
    simp only [takeHeld, held, if_neg none]

end Sys2Proof.Proofs.LoadOpen
end

