-- ==== Sys2Proof/Proofs/Reading.lean ====
section
/-! PROOFS. QUERY STATUS, LOAD VERIFY and DUMP ROW (O30). -/

namespace Sys2Proof.Proofs.Reading

open Sys2Proof.Machine Sys2Proof.Safety Sys2Proof.Laws Sys2Proof.Proofs.Host Sys2Proof.Proofs.Gate
  Sys2Proof.Proofs.Reads Sys2Proof.Proofs.LoadOpen

/-! ### Table codes -/

/-- R184: a code other than the two tables' names none. -/
theorem tableOf_other {table : BitVec 8} (not1 : table ≠ 1) (not2 : table ≠ 2) : tableOf table = none := by
  obtain ⟨code1, code2⟩ := toNat_other not1 not2
  unfold tableOf
  split
  · exact absurd ‹_› code1
  · exact absurd ‹_› code2
  · rfl

/-! ### Commands that are answered and change no more -/

/-- R157: the part once a command has been heard and answered. -/
def commandAnswered (s : State) (code : BitVec 8) (tag : BitVec 16) (body : Reply) : State :=
  { s with radio := radioHeard s.radio, arbiter := mgmtAnswered s.arbiter s.link.addr code tag body }

/-- A command whose owner answers with one body and changes nothing. -/
theorem answered_gate {s : State} {c : Instr} {body : Reply} (ready : GateReady (radioAddr c) s)
    (command : downstreamArrives c = commandArrives c) (lock : lockOf c (radioFrameEnded s) = radioFrameEnded s)
    (owner : performCommand c (radioFrameEnded s) = answerCommand c body (radioFrameEnded s)) :
    (.next (radioFrameArrives c s) : Host.Outcome State Fault Refusal) =
      .next (commandAnswered s (commandCode c) (mgmtTag c) body) := by
  rw [gated ready command, lock, owner, answerCommand_alone ready.2.2.2.1]
  rfl

/-- R153: QUERY STATUS. -/
theorem exec_queryStatus_ready {s : State} {addr : BitVec 8} (ready : GateReady addr s) (tag : BitVec 16) :
    exec (.queryStatus addr tag) s = .next (commandAnswered s 0x04 tag (.status (reportOf s))) := by
  have alone : unicast (.queryStatus addr tag) = true := (unicast_iff _).mpr ready.2.2.2.1
  refine answered_gate (c := .queryStatus addr tag) ready rfl rfl ?_
  simp only [performCommand, takeQueryStatus, alone, statusReport_eq]
  rfl

/-- R138: a LOAD VERIFY for the part alone, of a table. -/
theorem exec_loadVerify_table {s : State} {addr : BitVec 8} (ready : GateReady addr s) (tag : BitVec 16)
    {table : BitVec 8} {t : TableName} (named : tableOf table = some t) :
    exec (.loadVerify addr tag table) s = .next (commandAnswered s 0x23 tag (.verify (verifyReport s t))) := by
  have alone : unicast (.loadVerify addr tag table) = true := (unicast_iff _).mpr ready.2.2.2.1
  refine answered_gate (c := .loadVerify addr tag table) ready rfl rfl ?_
  simp only [performCommand, takeLoadVerify, named, alone, if_true]
  rfl

/-- R138: a LOAD VERIFY of no table. -/
theorem exec_loadVerify_other {s : State} {addr : BitVec 8} (ready : GateReady addr s) (tag : BitVec 16)
    {table : BitVec 8} (other : tableOf table = none) :
    exec (.loadVerify addr tag table) s = .next (commandAnswered s 0x23 tag (.plain .badField)) := by
  refine answered_gate (c := .loadVerify addr tag table) ready rfl rfl ?_
  simp only [performCommand, takeLoadVerify, other]

/-- R140: what DUMP ROW answers. -/
def dumpReply (s : State) (table : BitVec 8) (index : Nat) : Reply :=
  match tableOf table with
  | none => .plain .badField
  | some t =>
    if (sessionOf s t).isSome ∨ s.loader.phase = .draining t then .plain .busy
    else
      match storedRow s.array t index with
      | some bytes => .dumped index (tableState s t) (tableGeneration s t) bytes
      | none => .plain .noRow

/-- R140: DUMP ROW for the part alone. -/
theorem exec_dumpRow_ready {s : State} {addr : BitVec 8} (ready : GateReady addr s) (tag : BitVec 16)
    (table : BitVec 8) (index : BitVec 16) {body : Reply} (h : dumpReply s table index.toNat = body) :
    exec (.dumpRow addr tag table index) s = .next (commandAnswered s 0x24 tag body) := by
  subst h
  have alone : unicast (.dumpRow addr tag table index) = true := (unicast_iff _).mpr ready.2.2.2.1
  refine answered_gate (c := .dumpRow addr tag table index) ready rfl rfl ?_
  simp only [performCommand, takeDumpRow, alone, Bool.not_true, Bool.false_eq_true, if_false]
  have same : dumpReply s table index.toNat = dumpReply (radioFrameEnded s) table index.toNat := rfl
  rw [same, dumpReply]
  cases tableOf table with
  | none => rfl
  | some t =>
    dsimp only
    split
    · rfl
    · cases storedRow (radioFrameEnded s).array t index.toNat <;> rfl

/-- R140: a table in use is busy. -/
theorem dumpReply_busy {s : State} {table : BitVec 8} {t : TableName} (named : tableOf table = some t)
    (inUse : sessionOf s t ≠ none ∨ s.loader.phase = .draining t) (index : Nat) :
    dumpReply s table index = .plain .busy := by
  simp only [dumpReply, named]
  exact if_pos (inUse.imp_left Option.isSome_iff_ne_none.mpr)

/-- R140: a table not in use is read. -/
theorem dumpReply_stored {s : State} {table : BitVec 8} {t : TableName} (named : tableOf table = some t)
    (closed : sessionOf s t = none) (drained : s.loader.phase ≠ .draining t) (index : Nat) :
    dumpReply s table index = ((storedRow s.array t index).map
      (fun bytes => Reply.dumped index (tableState s t) (tableGeneration s t) bytes)).getD (.plain .noRow) := by
  have free : ¬ ((sessionOf s t).isSome ∨ s.loader.phase = .draining t) := by
    rw [closed]
    exact fun h => h.elim nofun drained
  simp only [dumpReply, named, if_neg free]
  cases storedRow s.array t index <;> rfl

/-! ### Broadcast commands -/

/-- R129, R165: a broadcast command that expects no reply is performed at an empty gate, whatever the places. -/
theorem exec_broadcast {s : State} {c : Instr} (command : isCommand c = true) (all : radioAddr c = 255)
    (run : s.pins.phase = .run) (unbroken : Unbroken s.radio.asm) (linked : s.link.state ≠ .search)
    (empty : s.arbiter.gate = .empty) (silent : expectsReply (radioFrameEnded s) c = false)
    (lock : lockOf c (radioFrameEnded s) = radioFrameEnded s) :
    exec c s = .next (performCommand c (radioFrameEnded s)) := by
  obtain ⟨runs, -, -⟩ := exec_atGate (.inl command) run unbroken linked (.inr all)
  have itself : spelled s c = c := by cases c <;> first | rfl | cases command
  have empty' : (radioFrameEnded s).arbiter.gate = .empty := empty
  rw [runs, itself, lock, commandAtGate]
  simp only [empty', silent, Bool.false_eq_true, false_and, if_false]

/-- R139: a broadcast LOAD VERIFY of a table. -/
theorem exec_loadVerify_broadcast {s : State} (run : s.pins.phase = .run) (unbroken : Unbroken s.radio.asm)
    (linked : s.link.state ≠ .search) (empty : s.arbiter.gate = .empty) (tag : BitVec 16) {table : BitVec 8}
    {t : TableName} (named : tableOf table = some t) :
    exec (.loadVerify 255 tag table) s = .next (takeBroadcastVerify tag t (radioFrameEnded s)) := by
  rw [exec_broadcast (c := .loadVerify 255 tag table) rfl rfl run unbroken linked empty rfl rfl]
  simp only [performCommand, takeLoadVerify, named]
  rfl

/-- R166: places for a verify reply at an empty gate. -/
theorem placesForVerify_empty {a : Arbiter} (empty : a.gate = .empty) :
    placesForVerify a = 4 - a.mgmt.length - a.waitingVerify.length := by
  simp only [placesForVerify, unreserved, empty, Gate.reserved, Limits.mgmtReplies, Nat.add_zero]

/-- R139: a verify reply takes a free place. -/
theorem placeVerify_place {s : State} (empty : s.arbiter.gate = .empty)
    (room : s.arbiter.mgmt.length + s.arbiter.waitingVerify.length < 4) (tag : BitVec 16) (r : VerifyReport) :
    placeVerify tag r s = queueMgmtReply 0x23 tag (.verify r) s := by
  rw [placeVerify, if_pos (by rw [placesForVerify_empty empty]; omega)]

/-- R139, R166: with no place free it waits, or is dropped when four wait. -/
theorem placeVerify_noPlace {s : State} (empty : s.arbiter.gate = .empty) (full : 4 ≤ s.arbiter.mgmt.length)
    (tag : BitVec 16) (r : VerifyReport) :
    placeVerify tag r s =
      if s.arbiter.waitingVerify.length < 4 then
        s.setArbiter { s.arbiter with waitingVerify := s.arbiter.waitingVerify ++ [(tag, r)] }
      else s := by
  rw [placeVerify, if_neg (by rw [placesForVerify_empty empty]; omega)]
  rfl

/-- R139: a pending verify at the expiry of the SLOT timer. -/
theorem exec_slotTimerExpiry_pending {s : State} {g : BitVec 16} {x : TableName} (expired : s.timers.slot = some 0)
    (pending : s.loader.pendingVerify = some (x, g)) :
    exec .slotTimerExpiry s = .next (placeVerify g (verifyReport s x) (endPendingVerify s)) := by
  refine congrArg Host.Outcome.next ?_
  have pending' : (s.setTimers { s.timers with slot := none }).loader.pendingVerify = some (x, g) := pending
  rw [if_pos expired, slotExpiry]
  simp only [pending']
  rfl

/-! ### O30 -/

/-- R140, R153, R138: the commands for the part alone. -/
theorem readingCommands_alone (addr : BitVec 8) (tag : BitVec 16) (table : BitVec 8) (s : State)
    (ready : GateReady addr s) :
    exec (.queryStatus addr tag) s = .next (commandAnswered s 0x04 tag (.status (reportOf s)))
    ∧ (table ≠ 1 → table ≠ 2 →
      exec (.loadVerify addr tag table) s = .next (commandAnswered s 0x23 tag (.plain .badField)))
    ∧ (table = 1 →
      exec (.loadVerify addr tag table) s = .next (commandAnswered s 0x23 tag (.verify (verifyReport s .irt))))
    ∧ (table = 2 →
      exec (.loadVerify addr tag table) s = .next (commandAnswered s 0x23 tag (.verify (verifyReport s .profile)))) :=
  ⟨exec_queryStatus_ready ready tag,
    fun not1 not2 => exec_loadVerify_other ready tag (tableOf_other not1 not2),
    fun one => exec_loadVerify_table ready tag (by rw [one]; rfl),
    fun two => exec_loadVerify_table ready tag (by rw [two]; rfl)⟩

/-- Settles O30. -/
theorem readingCommandsAreAnswered : Obligations.ReadingCommandsAreAnswered := by
  refine ⟨fun addr tag table index s ready => ?_, fun tag table index s run unbroken linked empty => ⟨?_, ?_⟩,
    fun tag s t code named => ⟨fun run unbroken linked empty slot => ?_, fun run unbroken linked empty slot room => ?_,
      fun g x expired pending empty => ⟨fun room => ?_, fun full waits => ?_, fun full dropped => ?_⟩⟩⟩
  · obtain ⟨status, other, irt, profile⟩ := readingCommands_alone addr tag table s ready
    have dump (body : Reply) (h : dumpReply s table index.toNat = body) := exec_dumpRow_ready ready tag table index h
    refine ⟨status, other, irt, profile, fun one inUse => ?_, fun one closed drained inside => ?_,
      fun one closed drained outside => ?_, fun two closed drained other => ?_, fun not1 not2 => ?_,
      fun two inUse => ?_, fun two closed drained zero => ?_⟩
    · exact dump _ (dumpReply_busy (by rw [one]; rfl) inUse _)
    · refine dump _ ((dumpReply_stored (t := .irt) (by rw [one]; rfl) closed drained _).trans ?_)
      rw [storedRow, if_pos inside]
      rfl
    · refine dump _ ((dumpReply_stored (t := .irt) (by rw [one]; rfl) closed drained _).trans ?_)
      rw [storedRow, if_neg (Nat.not_lt.mpr outside)]
      rfl
    · have away : index.toNat ≠ 0 := fun h => other (eq_of_toNat h)
      refine dump _ ((dumpReply_stored (t := .profile) (by rw [two]; rfl) closed drained _).trans ?_)
      rw [storedRow, if_neg (fun h => away h.1)]
      rfl
    · refine dump _ ?_
      rw [dumpReply, tableOf_other not1 not2]
    · exact dump _ (dumpReply_busy (by rw [two]; rfl) inUse _)
    · subst zero
      refine dump _ ((dumpReply_stored (t := .profile) (by rw [two]; rfl) closed drained _).trans ?_)
      rw [storedRow]
      cases h : s.array.erasedRange profileRecordAddr 21
      · simp [Limits.profileBytes, h, profileRecordBytes, tableState, tableGeneration]
      · simp [Limits.profileBytes, h]
  · rw [exec_broadcast (c := .dumpRow 255 tag table index) rfl rfl run unbroken linked empty rfl rfl]
    rfl
  · intro not1 not2
    rw [exec_broadcast (c := .loadVerify 255 tag table) rfl rfl run unbroken linked empty rfl rfl]
    simp only [performCommand, takeLoadVerify, tableOf_other not1 not2]
    rfl
  · rw [exec_loadVerify_broadcast run unbroken linked empty tag named, takeBroadcastVerify]
    exact congrArg Host.Outcome.next (if_neg slot)
  · rw [exec_loadVerify_broadcast run unbroken linked empty tag named, takeBroadcastVerify]
    exact congrArg Host.Outcome.next ((if_pos slot).trans
      (placeVerify_place (s := endPendingVerify (radioFrameEnded s)) empty room tag _))
  · rw [exec_slotTimerExpiry_pending expired pending]
    exact congrArg Host.Outcome.next (placeVerify_place (s := endPendingVerify s) empty room g _)
  · rw [exec_slotTimerExpiry_pending expired pending]
    exact congrArg Host.Outcome.next ((placeVerify_noPlace (s := endPendingVerify s) empty full g _).trans (if_pos waits))
  · rw [exec_slotTimerExpiry_pending expired pending]
    exact congrArg Host.Outcome.next ((placeVerify_noPlace (s := endPendingVerify s) empty full g _).trans (if_neg (Nat.not_lt.mpr dropped)))

end Sys2Proof.Proofs.Reading
end

