-- ==== Sys2Proof/Proofs/LoadRows.lean ====
section
/-! PROOFS. LOAD ROW (O34) and LOAD CLOSE (O35). -/

namespace Sys2Proof.Proofs.LoadRows

open Sys2Proof.Machine Sys2Proof.Safety Sys2Proof.Laws Sys2Proof.Proofs.Gate Sys2Proof.Proofs.LoadOpen
  Sys2Proof.Proofs.Reading

/-! ### LOAD ROW -/

/-- R128: the session in ROWS of a table. -/
theorem rowsSession_some {s : State} {se : Session} {t : TableName} (rows : s.loader.phase = .rows)
    (session : s.loader.session = some se) (table : se.table = t) : rowsSession s t = some se := by
  simp [rowsSession, rows, session, table]

/-- R132: a row that the session refuses, other than by its order, changes nothing. -/
theorem takeLoadRow_refused {s : State} {table : BitVec 8} {t : TableName} {se : Session} {row : List Byte} {a : Answer}
    {index : Nat} (named : tableOf table = some t) (length : row.length = t.rowLength)
    (session : rowsSession s t = some se) (refused : rowRefusal se index = some a) (other : a ≠ .sequence) (c : Instr) :
    takeLoadRow c table index row s = answerCommand c (.plain a) s := by
  simp only [takeLoadRow, named, length, session, refused, ne_eq, not_true, if_false]

/-- R132: a row out of sequence breaks the session. -/
theorem takeLoadRow_sequence {s : State} {table : BitVec 8} {t : TableName} {se : Session} {row : List Byte}
    {index : Nat} (named : tableOf table = some t) (length : row.length = t.rowLength)
    (session : rowsSession s t = some se) (refused : rowRefusal se index = some .sequence) (c : Instr) :
    takeLoadRow c table index row s = answerCommand c (.plain .sequence) (setSession se.break s) := by
  simp only [takeLoadRow, named, length, session, refused, ne_eq, not_true, if_false]

/-- R132: a row that passes is taken. -/
theorem takeLoadRow_taken {s : State} {table : BitVec 8} {t : TableName} {se : Session} {row : List Byte}
    {index : Nat} (named : tableOf table = some t) (length : row.length = t.rowLength)
    (session : rowsSession s t = some se) (passed : rowRefusal se index = none) (c : Instr) :
    takeLoadRow c table index row s = answerCommand c (.rowTaken index) (takeRow se row s) := by
  simp only [takeLoadRow, named, length, session, passed, ne_eq, not_true, if_false]

/-- R132: the checks of a row of a session that is not busy and not broken. -/
theorem rowRefusal_sound {se : Session} (free : se.bufferBusy = false) (sound : se.broken = .no) (index : Nat) :
    rowRefusal se index = if index ≠ se.received ∨ se.expected ≤ index then some .sequence else none := by
  simp [rowRefusal, free, sound]

/-- A LOAD ROW at a ready gate is its owner's work. -/
theorem exec_loadRow_ready {s : State} {addr : BitVec 8} (ready : GateReady addr s) (tag : BitVec 16)
    (table : BitVec 8) (index : BitVec 16) (row : List Byte) {body : Reply} {t : State}
    (owner : takeLoadRow (.loadRow addr tag table index row) table index.toNat row (radioFrameEnded s) =
      answerCommand (.loadRow addr tag table index row) body t) :
    exec (.loadRow addr tag table index row) s =
      .next { t with arbiter := mgmtAnswered t.arbiter t.link.addr 0x21 tag body } := by
  refine (gated (c := .loadRow addr tag table index row) ready rfl).trans (congrArg Host.Outcome.next ?_)
  exact owner.trans (answerCommand_alone (c := .loadRow addr tag table index row) ready.2.2.2.1 body t)

/-- R132, R133: LOAD ROW of the IRT, by the state of its session. -/
theorem loadRow_irt (addr : BitVec 8) (tag : BitVec 16) (index : BitVec 16) (row : List Byte) (s : State) (se : Session)
    (ready : GateReady addr s) (rows : s.loader.phase = .rows) (session : s.loader.session = some se)
    (irt : se.table = .irt) (length : row.length = 24) :
    let c : Instr := .loadRow addr tag 1 index row
    let arrived (body : Reply) : State := commandAnswered s 0x21 tag body
    let taken : Session := { se with buffer := se.buffer ++ [row], received := se.received + 1 }
    (se.bufferBusy = true → exec c s = .next (arrived (.plain .busy)))
    ∧ (se.bufferBusy = false → se.broken = .storeFault → exec c s = .next (arrived (.plain .storeFault)))
    ∧ (se.bufferBusy = false → se.broken = .no → index.toNat ≠ se.received ∨ se.expected ≤ index.toNat →
      exec c s = .next
        { arrived (.plain .sequence) with
          loader := { s.loader with session := some { se with broken := .sequence, breakIndex := se.received } } })
    ∧ (se.bufferBusy = false → se.broken = .no → index.toNat = se.received → index.toNat < se.expected →
      se.buffer.length ≠ 9 →
      exec c s = .next
        { arrived (.rowTaken index.toNat) with loader := { s.loader with session := some taken } })
    ∧ (se.bufferBusy = false → se.broken = .no → index.toNat = se.received → index.toNat < se.expected →
      se.buffer.length = 9 →
      exec c s = .next
        { arrived (.rowTaken index.toNat) with
          loader := { s.loader with session := some { taken with bufferBusy := true } }
          store := { s.store with
            pagePlace := some
              { table := .irt, page := 1 + (se.received - 9) / 10, bytes := (se.buffer ++ [row]).flatten } } }) := by
  intro c arrived taken
  have found : rowsSession (radioFrameEnded s) .irt = some se := rowsSession_some rows session irt
  have took : se.take row = taken := by simp [Session.take, irt, taken]
  have passes (free : se.bufferBusy = false) (sound : se.broken = .no) (next : index.toNat = se.received)
      (inside : index.toNat < se.expected) : rowRefusal se index.toNat = none := by
    rw [rowRefusal_sound free sound, if_neg]
    omega
  refine ⟨fun busy => ?_, fun free fault => ?_, fun free sound wrong => ?_, fun free sound next inside more => ?_,
    fun free sound next inside last => ?_⟩
  · have refused : rowRefusal se index.toNat = some .busy := by simp [rowRefusal, busy]
    exact exec_loadRow_ready ready tag 1 index row (takeLoadRow_refused rfl length found refused (by simp) c)
  · have refused : rowRefusal se index.toNat = some .storeFault := by simp [rowRefusal, free, fault]
    exact exec_loadRow_ready ready tag 1 index row (takeLoadRow_refused rfl length found refused (by simp) c)
  · have refused : rowRefusal se index.toNat = some .sequence := by rw [rowRefusal_sound free sound, if_pos wrong]
    have broken : se.break = { se with broken := .sequence, breakIndex := se.received } := by
      simp [Session.break, sound]
    have owner := takeLoadRow_sequence (table := 1) rfl length found refused c
    rw [broken] at owner
    exact exec_loadRow_ready ready tag 1 index row owner
  · have partly : (se.take row).full = false := by
      rw [took]
      simp [Session.full, taken, irt, Limits.pageRows, more]
    have owner := takeLoadRow_taken (table := 1) rfl length found (passes free sound next inside) c
    rw [takeRow, partly, took] at owner
    exact exec_loadRow_ready ready tag 1 index row owner
  · have full : (se.take row).full = true := by
      rw [took]
      simp [Session.full, taken, irt, Limits.pageRows, last]
    have page : taken.pageRequest =
        { table := .irt, page := 1 + (se.received - 9) / 10, bytes := (se.buffer ++ [row]).flatten } := by
      simp [Session.pageRequest, Session.page, taken, irt, Limits.pageRows, last]
    have owner := takeLoadRow_taken (table := 1) rfl length found (passes free sound next inside) c
    rw [takeRow, full, took, if_pos rfl, programBuffer, page] at owner
    exact exec_loadRow_ready ready tag 1 index row owner

theorem clamp_bounds {lo hi : Nat} (h : lo ≤ hi) (v : Nat) : lo ≤ clamp lo hi v ∧ clamp lo hi v ≤ hi := by
  unfold clamp
  split_ifs <;> omega

/-- Settles O34. -/
theorem loadRowTakesTheNextRow : Obligations.LoadRowTakesTheNextRow := by
  refine ⟨loadRow_irt, fun addr tag row s se ready rows session profile length free sound first one empty => ?_⟩
  intro p
  have found : rowsSession (radioFrameEnded s) .profile = some se := rowsSession_some rows session profile
  have passes : rowRefusal se 0 = none := by
    rw [rowRefusal_sound free sound, if_neg]
    omega
  have took : se.take row = { se with buffer := [encodeProfile p], received := 1, check := checkValue row } := by
    simp [Session.take, profile, first, empty, p]
  have full : (se.take row).full = true := by
    rw [took]
    simp [Session.full, profile]
  have page : (se.take row).pageRequest = { table := .profile, page := 1, bytes := encodeProfile p } := by
    rw [took]
    simp [Session.pageRequest, Session.page, profile]
  refine ⟨?_, ?_⟩
  · have owner := takeLoadRow_taken (table := 2) rfl length found passes (.loadRow addr tag 2 0 row)
    rw [takeRow, full, if_pos rfl, programBuffer, page, took] at owner
    exact exec_loadRow_ready ready tag 2 0 row owner
  · simp only [p, clampProfile]
    have bounds := @clamp_bounds
    exact ⟨(bounds (by decide) _).1, (bounds (by decide) _).2, (bounds (by decide) _).1, (bounds (by decide) _).2,
      (bounds (by decide) _).1, (bounds (by decide) _).2, (bounds (by decide) _).1, (bounds (by decide) _).2,
      (bounds (by decide) _).1, (bounds (by decide) _).2, (bounds (by decide) _).1, (bounds (by decide) _).2,
      (bounds (by decide) _).1, (bounds (by decide) _).2, (bounds (by decide) _).2, (bounds (by decide) _).1,
      (bounds (by decide) _).2, (bounds (by decide) _).2, (bounds (by decide) _).1, (bounds (by decide) _).2,
      (bounds (by decide) _).2, (bounds (by decide) _).2, (bounds (by decide) _).2, (bounds (by decide) _).2⟩

/-! ### LOAD CLOSE -/

/-- The gate in the form that its opening leaves. -/
theorem gate_of_empty {a : Arbiter} (empty : a.gate = .empty) : { a with gate := .empty } = a := by
  cases a
  cases empty
  rfl

/-- R165: the end of a command in progress for the part alone. -/
theorem openGate_alone {s : State} {c : Instr} (gate : s.arbiter.gate = .inProgress c)
    (alone : radioAddr c ≠ broadcastAddr) (body : Reply) :
    openGate body s =
      { s with arbiter := mgmtAnswered { s.arbiter with gate := .empty } s.link.addr (commandCode c) (mgmtTag c) body } := by
  simp only [openGate, gate]
  exact answerCommand_alone alone body (setGate .empty s)

/-- R134: LOAD CLOSE of a session in ROWS. -/
theorem takeLoadClose_session {s : State} {table : BitVec 8} {t : TableName} {se : Session}
    (named : tableOf table = some t) (session : rowsSession s t = some se) (c : Instr) (rows : Nat) (check : BitVec 16)
    (readable : Bool) :
    takeLoadClose c table rows check readable s =
      if se.bufferBusy then
        setClose { rows := rows, check := check, readable := readable, step := .awaitingBuffer }
          (setGate (.inProgress c) s)
      else closeContinue se { rows := rows, check := check, readable := readable, step := .awaitingBuffer }
        (setClose { rows := rows, check := check, readable := readable, step := .awaitingBuffer }
          (setGate (.inProgress c) s)) := by
  simp only [takeLoadClose, named, session]

/-- R134: the condition of a broken session. -/
theorem condition_of_broken {b : Broken} (broken : b ≠ .no) :
    b.condition = if b = .sequence then .sequence else .storeFault := by
  cases b
  · exact absurd rfl broken
  · rfl
  · rfl

/-- A LOAD CLOSE at a ready gate is its owner's work. -/
theorem exec_loadClose_ready {s : State} {addr : BitVec 8} (ready : GateReady addr s) (tag : BitVec 16)
    (table : BitVec 8) (rows check : BitVec 16) (readable : BitVec 8) {t : State}
    (owner : takeLoadClose (.loadClose addr tag table rows check readable) table rows.toNat check (flagRead readable)
      (radioFrameEnded s) = t) :
    exec (.loadClose addr tag table rows check readable) s = .next t :=
  (gated (c := .loadClose addr tag table rows check readable) ready rfl).trans (congrArg Host.Outcome.next owner)

/-- R134: the part once a LOAD CLOSE has been taken. -/
def closeTaken (c : Instr) (job : CloseJob) (s : State) : State := setClose job (setGate (.inProgress c) (radioFrameEnded s))

/-- R134: the end of a close whose command is for the part alone, by an INVALID table. -/
theorem closeInvalid_alone {s : State} {c : Instr} (empty : s.arbiter.gate = .empty) (alone : radioAddr c ≠ broadcastAddr)
    (job : CloseJob) (se : Session) (k : Condition) (index : Nat) :
    closeInvalid se k index (closeTaken c job s) =
      { invalidTable se.table se.generation (endSession (radioFrameEnded s)) with
        arbiter := mgmtAnswered s.arbiter s.link.addr (commandCode c) (mgmtTag c)
          (.closed false k index se.generation) } := by
  rw [closeInvalid]
  have gate : (invalidTable se.table se.generation (endSession (closeTaken c job s))).arbiter.gate = .inProgress c := by
    cases se.table <;> rfl
  rw [openGate_alone gate alone]
  have arbiter := gate_of_empty empty
  cases se.table
  · have opened : { (invalidTable .irt se.generation (endSession (closeTaken c job s))).arbiter with gate := .empty } =
        s.arbiter := arbiter
    rw [opened]
    rfl
  · have opened : { (invalidTable .profile se.generation (endSession (closeTaken c job s))).arbiter with
        gate := .empty } = s.arbiter := arbiter
    rw [opened]
    rfl

/-- R134: a LOAD CLOSE at a ready gate, of a session in ROWS. -/
theorem exec_loadClose_session {s : State} {addr : BitVec 8} (ready : GateReady addr s) {t : TableName} {se : Session}
    {table : BitVec 8} (named : tableOf table = some t) (rows : s.loader.phase = .rows)
    (session : s.loader.session = some se) (ofTable : se.table = t) (tag count check : BitVec 16)
    (readable : BitVec 8) :
    let c : Instr := .loadClose addr tag table count check readable
    let job : CloseJob :=
      { rows := count.toNat, check := check, readable := flagRead readable, step := .awaitingBuffer }
    exec c s = .next (if se.bufferBusy then closeTaken c job s else closeContinue se job (closeTaken c job s)) := by
  have found : rowsSession (radioFrameEnded s) t = some se := rowsSession_some rows session ofTable
  exact exec_loadClose_ready ready tag table count check readable
    (takeLoadClose_session named found _ count.toNat check (flagRead readable))

/-- A loader whose session is known. -/
theorem loader_of_session {l : Loader} {se : Session} (session : l.session = some se) (phase : LoaderPhase)
    (close : Option CloseJob) :
    { l with phase := phase, session := some se, close := close } = { l with phase := phase, close := close } := by
  rw [← session]

/-- Settles O35: the close continues with what the session holds. -/
theorem loadCloseProceedsInSteps : Obligations.LoadCloseProceedsInSteps := by
  refine ⟨fun addr tag rows check readable s se ready inRows session irt => ?_,
    fun addr tag rows check readable s se ready inRows session profile => ?_⟩
  · have alone : radioAddr (.loadClose addr tag 1 rows check readable) ≠ broadcastAddr := ready.2.2.2.1
    have runs := exec_loadClose_session ready (table := 1) rfl inRows session irt tag rows check readable
    have loader := loader_of_session session
    refine ⟨fun busy => ?_, fun free broken => ?_, fun free sound waits => ?_, fun free sound empty => ?_⟩
    · rw [runs, if_pos busy]
      beta_reduce
      rw [loader]
      rfl
    · rw [runs, if_neg (by simp [free]), closeContinue, if_pos broken, closeInvalid_alone ready.2.2.2.2.1 alone,
        condition_of_broken broken, irt]
      rfl
    · rw [runs, if_neg (by simp [free]), closeContinue, if_neg (by simp [sound]), if_pos waits, programBuffer,
        Session.pageRequest, Session.page, irt]
      rfl
    · rw [runs, if_neg (by simp [free]), closeContinue, if_neg (by simp [sound]), if_neg (by simp [empty]), closeHeader]
      simp only [preHeader, headerOf, irt, loader]
      rfl
  · have alone : radioAddr (.loadClose addr tag 2 rows check readable) ≠ broadcastAddr := ready.2.2.2.1
    have runs := exec_loadClose_session ready (table := 2) rfl inRows session profile tag rows check readable
    have ended (job : CloseJob) (k : Condition) (index : Nat) := closeInvalid_alone ready.2.2.2.2.1 alone job se k index
    rw [profile] at ended
    refine ⟨fun busy => ?_, fun free broken => ?_, fun free sound empty => ⟨fun count => ?_, fun one first wrong => ?_,
      fun one first right => ?_⟩⟩
    · rw [runs, if_pos busy]
      rfl
    · rw [runs, if_neg (by simp [free]), closeContinue, if_pos broken, ended, condition_of_broken broken]
      rfl
    all_goals rw [runs, if_neg (by simp [free]), closeContinue, if_neg (by simp [sound]), if_neg (by simp [empty]),
      closeHeader]
    · simp only [preHeader, profile, if_pos count]
      exact congrArg Host.Outcome.next (ended _ _ _)
    · simp only [preHeader, profile, one, first, ne_eq, not_true, or_self, if_false, if_pos wrong]
      exact congrArg Host.Outcome.next (ended _ _ _)
    · simp only [preHeader, headerOf, profile, one, first, right, ne_eq, not_true, or_self, if_false]
      rfl

end Sys2Proof.Proofs.LoadRows
end

