-- ==== Sys2Proof/Proofs/Link.lean ====
section
/-! PROOFS. The link: beacons (O36), ASSIGN (O27), ticks and PRESENCE (O41), the UPLOAD timer (O44). -/

namespace Sys2Proof.Proofs.Link

open Sys2Proof.Machine Sys2Proof.Safety Sys2Proof.Laws Sys2Proof.Proofs.Bills Sys2Proof.Proofs.Host
  Sys2Proof.Proofs.Reads Sys2Proof.Proofs.Gate Sys2Proof.Proofs.LoadOpen Sys2Proof.Proofs.Reading

/-! ### The Uploader's selection -/

theorem selectRecord_none {s : State} (h : firstLive s = none) : selectRecord s = s.setUploader .idle := by
  rw [selectRecord, h]

theorem selectRecord_some {s : State} {loc : Loc} (h : firstLive s = some loc) : selectRecord s = selectAt loc s := by
  rw [selectRecord, h]

/-- R100, R101: a record taken for upload. -/
theorem selectAt_eq (loc : Loc) (s : State) :
    selectAt loc s =
      { s with
        uploader := .awaitingConfirm loc (field (s.array.readBytes loc.addr 30) 0 4) 1
        timers := { s.timers with upload := some (params s).uploadRetry }
        journal := s.journal.onSlot loc (fun x => { x with state := .outstanding })
        arbiter := { s.arbiter with upload := s.arbiter.upload ++
          [{ tag := BitVec.ofNat 16 (field (s.array.readBytes loc.addr 30) 0 4), addr := s.link.addr,
             payload := .upload (field (s.array.readBytes loc.addr 30) 0 4) (s.array.readBytes loc.addr 30) 1 }] } } :=
  rfl

/-- R99: the Uploader leaves OFF. -/
theorem uploaderUp_off {s : State} (off : s.uploader = .off) : uploaderUp s = selectRecord (s.setUploader .idle) := by
  rw [uploaderUp, off]

theorem uploaderUp_running {s : State} (running : s.uploader ≠ .off) : uploaderUp s = s := by
  unfold uploaderUp
  cases h : s.uploader <;> first | rfl | exact absurd h running

/-! ### The UPLOAD timer -/

/-- R102 to R104: the UPLOAD timer at its expiry. -/
theorem exec_uploadTimerExpiry {s : State} (expired : s.timers.upload = some 0) :
    exec .uploadTimerExpiry s = .next (uploadExpiry (setUploadTimer none s)) :=
  congrArg Host.Outcome.next (if_pos expired)

theorem uploadExpiry_awaiting {s : State} {loc : Loc} {txn attempts : Nat}
    (h : s.uploader = .awaitingConfirm loc txn attempts) :
    uploadExpiry s = if attempts < (params s).uploadAttempts then newAttempt loc txn attempts s else giveUp loc s := by
  rw [uploadExpiry, h]

theorem uploadExpiry_holdoff {s : State} (h : s.uploader = .holdoff) : uploadExpiry s = selectRecord s := by
  rw [uploadExpiry, h]

/-- Settles O44. -/
theorem uploadExpiryRetriesThenHoldsOff : Obligations.UploadExpiryRetriesThenHoldsOff := by
  intro s loc txn attempts expired
  have runs := exec_uploadTimerExpiry expired
  refine ⟨fun flight left withdrawn => ?_, fun f n record k flight left queued payload => ?_, fun flight spent => ?_,
    fun holdoff noRecord => ?_, fun holdoff record => ?_⟩
  · have left' : attempts < (params (setUploadTimer none s)).uploadAttempts := left
    have withdrawn' : (setUploadTimer none s).arbiter.upload = [] := withdrawn
    rw [runs, uploadExpiry_awaiting (s := setUploadTimer none s) flight, if_pos left', newAttempt, if_pos withdrawn',
      queueUpload]
    have queue : (setUploadTimer (some (params (setUploadTimer none s)).uploadRetry)
        ((setUploadTimer none s).setUploader (.awaitingConfirm loc txn (attempts + 1)))).arbiter.upload = [] := withdrawn
    rw [queue]
    rfl
  · have left' : attempts < (params (setUploadTimer none s)).uploadAttempts := left
    have queued' : (setUploadTimer none s).arbiter.upload = [f] := queued
    have raised : raiseAttempt (attempts + 1) f = { f with payload := .upload n record (attempts + 1) } := by
      rw [raiseAttempt, payload]
    rw [runs, uploadExpiry_awaiting (s := setUploadTimer none s) flight, if_pos left', newAttempt,
      if_neg (by simp [queued']), queued', List.map_singleton, raised]
    rfl
  · have spent' : ¬ attempts < (params (setUploadTimer none s)).uploadAttempts := Nat.not_lt.mpr spent
    rw [runs, uploadExpiry_awaiting (s := setUploadTimer none s) flight, if_neg spent']
    rfl
  · rw [runs, uploadExpiry_holdoff (s := setUploadTimer none s) holdoff,
      selectRecord_none (s := setUploadTimer none s) noRecord]
    rfl
  · rw [runs, uploadExpiry_holdoff (s := setUploadTimer none s) holdoff,
      selectRecord_some (s := setUploadTimer none s) record]
    rfl

/-! ### Ticks and PRESENCE -/

/-- Settles O41. -/
theorem tickAndPresencePaceThePart : Obligations.TickAndPresencePaceThePart := by
  refine ⟨fun s run => ?_, fun s expired search => ⟨fun watched => ?_, fun unwatched => ?_⟩⟩
  · have timer (t : Timer) : tickTimer t = t.map (fun n => n - 1) := by cases t <;> rfl
    refine congrArg Host.Outcome.next ?_
    simp only [run, Timers.tick, funext timer]
    rfl
  · have announces : (s.setTimers { s.timers with presence := none }).link.state = .search ∧
        (s.setTimers { s.timers with presence := none }).timers.beaconWatch.isSome = true :=
      ⟨search, Option.isSome_iff_ne_none.mpr watched⟩
    refine congrArg Host.Outcome.next ((if_pos expired).trans ?_)
    rw [presenceExpiry, if_pos announces]
    rfl
  · have silent : ¬ ((s.setTimers { s.timers with presence := none }).link.state = .search ∧
        (s.setTimers { s.timers with presence := none }).timers.beaconWatch.isSome = true) := by
      rintro ⟨-, watched⟩
      rw [show (s.setTimers { s.timers with presence := none }).timers.beaconWatch = none from unwatched] at watched
      cases watched
    refine congrArg Host.Outcome.next ((if_pos expired).trans ?_)
    rw [presenceExpiry, if_neg silent]
    rfl

/-! ### Beacons -/

/-- R148: LINK_CHANGE raised, a pending old cell kept. -/
def linkRaised (s : State) (st : LinkState) (cell : Nat) : Events :=
  { s.events with latches := { s.events.latches with
    linkChange := some
      { state := st
        oldCell := (s.events.latches.linkChange.map LinkChangeDetail.oldCell).getD (s.link.cell.getD 0)
        newCell := cell } } }

/-- R148: the raise of LINK_CHANGE as an assignment of the latch. -/
theorem raiseLinkChange_eq (st : LinkState) (old new : Nat) (s : State) :
    raiseLinkChange st old new s =
      { s with events := { s.events with latches := { s.events.latches with
        linkChange := some
          { state := st, oldCell := (s.events.latches.linkChange.map LinkChangeDetail.oldCell).getD old,
            newCell := new } } } } := by
  rw [raiseLinkChange]
  cases s.events.latches.linkChange <;> rfl

/-- R144: a broadcast BEACON reaches its owner in every link state. -/
theorem exec_beacon {s : State} (run : s.pins.phase = .run) (unbroken : Unbroken s.radio.asm) (cell : BitVec 16)
    (seconds : BitVec 24) :
    exec (.beacon 255 cell seconds) s = .next (beaconPassed cell.toNat seconds.toNat (radioFrameEnded s)) := by
  refine congrArg Host.Outcome.next ?_
  have passes : filterPasses (radioFrameEnded s) 255 true = true := by
    unfold filterPasses
    split <;> rfl
  have run' : (radioFrameEnded s).pins.phase = .run := run
  rw [radioFrameArrives_unbroken run unbroken]
  simp only [downstreamArrives, beaconArrives, radioArrives, run', passes, if_true, radioFrameEnded_twice]
  exact if_pos rfl

/-- R144: a beacon with a field out of range is a bad radio frame. -/
theorem exec_beacon_bad {s : State} (run : s.pins.phase = .run) (unbroken : Unbroken s.radio.asm) {cell : BitVec 16}
    {seconds : BitVec 24} (bad : ¬ (cell ≠ 0 ∧ seconds.toNat ≤ 86399)) :
    exec (.beacon 255 cell seconds) s = .next
      { s with radio := { asm := .collecting [] false, framesBad := min (s.radio.framesBad + 1) 65535 } } := by
  have outside : cell.toNat = 0 ∨ Limits.secondsMax < seconds.toNat := by
    by_contra h
    obtain ⟨cell0, late⟩ := not_or.mp h
    exact bad ⟨fun zero => cell0 (by rw [zero]; rfl), Nat.not_lt.mp late⟩
  rw [exec_beacon run unbroken, beaconPassed, if_pos outside]
  rfl

/-- R145: a beacon with its fields in range is taken. -/
theorem exec_beacon_good {s : State} (run : s.pins.phase = .run) (unbroken : Unbroken s.radio.asm) {cell : BitVec 16}
    {seconds : BitVec 24} (good : cell ≠ 0 ∧ seconds.toNat ≤ 86399) :
    exec (.beacon 255 cell seconds) s = .next (takeBeacon cell.toNat seconds.toNat (radioFrameEnded s)) := by
  have inside : ¬ (cell.toNat = 0 ∨ Limits.secondsMax < seconds.toNat) :=
    not_or.mpr ⟨fun zero => good.1 (eq_of_toNat zero), Nat.not_lt.mpr good.2⟩
  rw [exec_beacon run unbroken, beaconPassed, if_neg inside]

/-- R148: a beacon changes the cell held when it names another one. -/
theorem cellChanges_iff (held : Option Nat) (cell : Nat) :
    cellChanges held cell = true ↔ ¬ (held = none ∨ held = some cell) := by
  cases held <;> simp [cellChanges]

/-- R145: a beacon that changes no cell of a part that is not DOWN. -/
theorem takeBeacon_same {s : State} {cell : Nat} (notDown : s.link.state ≠ .down)
    (same : s.link.cell = none ∨ s.link.cell = some cell) (seconds : Nat) :
    takeBeacon cell seconds s = beaconByState s.link.state (beaconTaken cell seconds s) := by
  have quiet : ¬ (s.link.state = .down ∨ cellChanges s.link.cell cell = true) := by
    rw [cellChanges_iff]
    exact fun h => h.elim notDown (fun h => h same)
  exact if_neg quiet

/-- R145, R148: a beacon that changes the cell, or that a part finds that is DOWN. -/
theorem takeBeacon_changed {s : State} {cell : Nat}
    (changed : s.link.state = .down ∨ ¬ (s.link.cell = none ∨ s.link.cell = some cell)) (seconds : Nat) :
    takeBeacon cell seconds s =
      raiseLinkChange (beaconByState s.link.state (beaconTaken cell seconds s)).link.state (cellCode s.link.cell) cell
        (beaconByState s.link.state (beaconTaken cell seconds s)) := by
  rw [← cellChanges_iff] at changed
  exact if_pos changed

/-- R149: in SEARCH a beacon announces a part whose PRESENCE timer is stopped. -/
theorem beaconByState_search {s : State} (stopped : s.timers.presence = none) :
    beaconByState .search s = startPresence (queuePresence s) :=
  if_pos stopped

theorem beaconByState_search_running {s : State} (running : s.timers.presence ≠ none) :
    beaconByState .search s = s :=
  if_neg running

/-- A beacon leaves the link state as it is. -/
theorem beaconTaken_state (cell seconds : Nat) (s : State) :
    (beaconTaken cell seconds (radioFrameEnded s)).link.state = s.link.state := rfl

/-- R145: the part once it has taken a beacon. -/
theorem beaconTaken_eq (cell seconds : Nat) (s : State) :
    beaconTaken cell seconds (radioFrameEnded s) =
      { s with
        radio := radioHeard s.radio
        link := { s.link with cell := some cell, base := some { s := seconds, t := 0 } }
        timers := { s.timers with beaconWatch := some (params s).beaconLoss } } :=
  rfl

/-- R145, R149: the part once a beacon has announced it. -/
theorem announced_eq (cell seconds : Nat) (s : State) :
    startPresence (queuePresence (beaconTaken cell seconds (radioFrameEnded s))) =
      { s with
        radio := radioHeard s.radio
        link := { s.link with cell := some cell, base := some { s := seconds, t := 0 } }
        timers := { s.timers with
          beaconWatch := some (params s).beaconLoss, presence := some (params s).presenceInterval }
        arbiter := { s.arbiter with presence := [{ tag := 0, addr := 0, payload := .presence s.link.identity }] } } := by
  rw [beaconTaken_eq]
  rfl

/-- R99: the Uploader leaves OFF with no record LIVE. -/
theorem uploaderUp_none {s : State} (off : s.uploader = .off) (noRecord : firstLive s = none) :
    uploaderUp s = s.setUploader .idle :=
  (uploaderUp_off off).trans (selectRecord_none (s := s.setUploader .idle) noRecord)

/-- R99, R100: the Uploader leaves OFF with a record LIVE. -/
theorem uploaderUp_some {s : State} {loc : Loc} (off : s.uploader = .off) (live : firstLive s = some loc) :
    uploaderUp s = selectAt loc s :=
  (uploaderUp_off off).trans (selectRecord_some (s := s.setUploader .idle) live)

/-- R145, R99: a beacon makes a part UP that has no record to upload. -/
theorem upByBeacon_none {s : State} (off : s.uploader = .off) (noRecord : firstLive s = none) (cell seconds : Nat) :
    beaconByState .down (beaconTaken cell seconds (radioFrameEnded s)) =
      { s with
        radio := radioHeard s.radio
        link := { s.link with state := .up, cell := some cell, base := some { s := seconds, t := 0 } }
        timers := { s.timers with beaconWatch := some (params s).beaconLoss }
        uploader := .idle } := by
  rw [beaconTaken_eq, beaconByState]
  exact uploaderUp_none off noRecord

/-- R145, R100: a beacon makes a part UP that has a record to upload. -/
theorem upByBeacon_some {s : State} {loc : Loc} (off : s.uploader = .off) (live : firstLive s = some loc)
    (cell seconds : Nat) :
    beaconByState .down (beaconTaken cell seconds (radioFrameEnded s)) =
      selectAt loc { s with
        radio := radioHeard s.radio
        link := { s.link with state := .up, cell := some cell, base := some { s := seconds, t := 0 } }
        timers := { s.timers with beaconWatch := some (params s).beaconLoss } } := by
  rw [beaconTaken_eq, beaconByState]
  exact uploaderUp_some off live

/-- Settles O36. -/
theorem beaconKeepsTheLinkUp : Obligations.BeaconKeepsTheLinkUp := by
  intro cell seconds s run unbroken
  have linked : (radioFrameEnded s).link.state = s.link.state := rfl
  have announced (u : State) : (startPresence (queuePresence u)).link.state = u.link.state := rfl
  refine ⟨fun bad => exec_beacon_bad run unbroken bad, fun good up same => ?_, fun good up other => ?_,
    fun good search same stopped => ?_, fun good search same running => ?_, fun good search other stopped => ?_,
    fun good search other running => ?_, fun good down off noRecord => ?_, fun loc good down off live => ?_⟩
  all_goals rw [exec_beacon_good run unbroken good]
  · rw [takeBeacon_same (s := radioFrameEnded s) (fun h => nomatch up.symm.trans h) same, linked, up]
    rfl
  · rw [takeBeacon_changed (s := radioFrameEnded s) (.inr other), linked, up, beaconByState, beaconTaken_state, up,
      raiseLinkChange_eq]
    rfl
  · rw [takeBeacon_same (s := radioFrameEnded s) (fun h => nomatch search.symm.trans h) same, linked, search,
      beaconByState_search (s := beaconTaken cell.toNat seconds.toNat (radioFrameEnded s)) stopped]
    rfl
  · rw [takeBeacon_same (s := radioFrameEnded s) (fun h => nomatch search.symm.trans h) same, linked, search,
      beaconByState_search_running (s := beaconTaken cell.toNat seconds.toNat (radioFrameEnded s)) running]
    rfl
  · rw [takeBeacon_changed (s := radioFrameEnded s) (.inr other), linked, search,
      beaconByState_search (s := beaconTaken cell.toNat seconds.toNat (radioFrameEnded s)) stopped, announced,
      beaconTaken_state, search, announced_eq, raiseLinkChange_eq]
    rfl
  · rw [takeBeacon_changed (s := radioFrameEnded s) (.inr other), linked, search,
      beaconByState_search_running (s := beaconTaken cell.toNat seconds.toNat (radioFrameEnded s)) running,
      beaconTaken_state, search, raiseLinkChange_eq]
    rfl
  · rw [takeBeacon_changed (s := radioFrameEnded s) (.inl down), linked, down, upByBeacon_none off noRecord,
      raiseLinkChange_eq]
    rfl
  · rw [takeBeacon_changed (s := radioFrameEnded s) (.inl down), linked, down, upByBeacon_some off live, selectAt_eq,
      raiseLinkChange_eq]
    rfl

end Sys2Proof.Proofs.Link
end

