-- ==== Sys2Proof/Proofs/Assign.lean ====
section
/-! PROOFS. ASSIGN (O27). -/

namespace Sys2Proof.Proofs.Assign

open Sys2Proof.Machine Sys2Proof.Safety Sys2Proof.Laws Sys2Proof.Proofs.Bills Sys2Proof.Proofs.Host
  Sys2Proof.Proofs.Reads Sys2Proof.Proofs.Gate Sys2Proof.Proofs.LoadOpen Sys2Proof.Proofs.Reading
  Sys2Proof.Proofs.Link

/-! ### ASSIGN at the gate -/

/-- R150, R165: a broadcast ASSIGN that finds the gate empty and a place free reaches its owner in every link state. -/
theorem exec_assign_broadcast {s : State} (run : s.pins.phase = .run) (unbroken : Unbroken s.radio.asm)
    (empty : s.arbiter.gate = .empty) (room : s.arbiter.mgmt.length + s.arbiter.waitingVerify.length < 4)
    (tag : BitVec 16) (identity : BitVec 48) (newAddr slot : BitVec 8) :
    exec (.assign 255 tag identity newAddr slot) s =
      .next (takeAssign (.assign 255 tag identity newAddr slot) identity newAddr.toNat slot.toNat
        (radioFrameEnded s)) := by
  have passes : filterPasses (radioFrameEnded s) 255 true = true := by
    unfold filterPasses
    split <;> rfl
  have run' : (radioFrameEnded s).pins.phase = .run := run
  have empty' : (radioFrameEnded s).arbiter.gate = .empty := empty
  have place : openPlaces (radioFrameEnded s).arbiter ≠ 0 := by
    have mgmt : (radioFrameEnded s).arbiter = s.arbiter := rfl
    simp only [openPlaces, placesForVerify, unreserved, mgmt, empty, Gate.reserved, Gate.waiting, Limits.mgmtReplies]
    omega
  have lock : lockOf (.assign 255 tag identity newAddr slot) (radioFrameEnded s) = radioFrameEnded s := rfl
  refine congrArg Host.Outcome.next ?_
  rw [radioFrameArrives_unbroken run unbroken]
  simp only [downstreamArrives, commandArrives, run', radioAddr, isAssign, passes, if_true, radioFrameEnded_twice,
    lock, commandAtGate, empty', place, and_false, if_false]
  rfl

/-- R150: an ASSIGN that names the part with an address and a slot in range is taken and answered with what is then
held. -/
theorem takeAssign_taken {s : State} {newAddr slot : Nat} (addr0 : newAddr ≠ 0) (addr255 : newAddr ≠ 255)
    (slots : slot ≤ 63) (tag : BitVec 16) (a b : BitVec 8) (kept : (assignTaken newAddr slot s).link.identity = s.link.identity) :
    takeAssign (.assign 255 tag s.link.identity a b) s.link.identity newAddr slot s =
      queueMgmtReply 0x01 tag (assignReply (assignTaken newAddr slot s)) (assignTaken newAddr slot s) := by
  have inRange : ¬ (newAddr = 0 ∨ newAddr = 255 ∨ 63 < slot) := by omega
  have broadcast : ¬ unicast (.assign 255 tag s.link.identity a b) = true := by
    rw [unicast_iff]
    exact fun h => h rfl
  have answered : expectsReply (assignTaken newAddr slot s) (.assign 255 tag s.link.identity a b) = true := by
    simp [expectsReply, matchesIdentity, kept]
  rw [takeAssign, if_neg broadcast, if_neg (not_not.mpr rfl), if_neg inRange]
  exact if_pos answered

/-! ### Leaving SEARCH -/

/-- R149, R150, R157: the part in its new link state, before its Uploader is told. -/
def placed (newAddr slot : Nat) (st : LinkState) (s : State) : State :=
  { s with
    radio := radioHeard s.radio
    link := { s.link with state := st, addr := newAddr, replySlot := slot }
    timers := { s.timers with presence := none }
    arbiter := { s.arbiter with
      presence := [], data := s.arbiter.data.map (fun f => if f.addr = 0 then { f with addr := newAddr } else f) } }

/-- R150: an ASSIGN of a part in SEARCH without beacons. -/
theorem assignTaken_down {s : State} (search : s.link.state = .search) (unwatched : s.timers.beaconWatch = none)
    (newAddr slot : Nat) :
    assignTaken newAddr slot (radioFrameEnded s) =
      raiseLinkChange .down (s.link.cell.getD 0) (s.link.cell.getD 0) (placed newAddr slot .down s) := by
  have free : assigned (radioFrameEnded s) = false := by
    rw [assigned, show (radioFrameEnded s).link.state = .search from search]
  have down : assignedState (radioFrameEnded s) = .down := by
    rw [assignedState, show (radioFrameEnded s).timers.beaconWatch = none from unwatched]
    rfl
  rw [assignTaken, free, if_neg (by simp), assignFromSearch, down]
  rfl

/-- R150, R99: an ASSIGN of a part in SEARCH that hears beacons. -/
theorem assignTaken_up {s : State} (search : s.link.state = .search) (watched : s.timers.beaconWatch ≠ none)
    (newAddr slot : Nat) :
    assignTaken newAddr slot (radioFrameEnded s) =
      raiseLinkChange (uploaderUp (placed newAddr slot .up s)).link.state (s.link.cell.getD 0) (s.link.cell.getD 0)
        (uploaderUp (placed newAddr slot .up s)) := by
  have free : assigned (radioFrameEnded s) = false := by
    rw [assigned, show (radioFrameEnded s).link.state = .search from search]
  have up : assignedState (radioFrameEnded s) = .up := by
    rw [assignedState, if_pos]
    exact Option.isSome_iff_ne_none.mpr watched
  rw [assignTaken, free, if_neg (by simp), assignFromSearch, up]
  rfl

/-- R99: what the Uploader's leaving OFF leaves as it was. -/
theorem uploaderUp_changedOnly (s : State) :
    ChangedOnly [.uploader, .journal, .uploadTimer, .arbiter] s (uploaderUp s) := by
  intro p other
  simp only [List.mem_cons, List.not_mem_nil, or_false, not_or] at other
  obtain ⟨uploader, journal, timer, arbiter⟩ := other
  simp [*, same_self]

/-- The MGMT_REPLY frame of an ASSIGN that is taken (log 16). -/
def assignFrame (tag : BitVec 16) (newAddr slot : Nat) (st : LinkState) : Frame :=
  { tag := tag, addr := newAddr, payload := .mgmtReply 0x01 (.assigned newAddr slot st) }

/-- R148, R150: the Uploader told, LINK_CHANGE is raised and the reply joins its queue. -/
def assignEnded (tag : BitVec 16) (newAddr slot cell : Nat) (s : State) : State :=
  queueMgmtReply 0x01 tag (.assigned newAddr slot .up) (raiseLinkChange .up cell cell s)

/-- R150: the reply of an ASSIGN that makes the part UP, with the address and slot then held. -/
theorem assignUp_eq (tag : BitVec 16) (newAddr slot : Nat) {s : State} (search : s.link.state = .search)
    (watched : s.timers.beaconWatch ≠ none) :
    queueMgmtReply 0x01 tag (assignReply (assignTaken newAddr slot (radioFrameEnded s)))
      (assignTaken newAddr slot (radioFrameEnded s)) =
    assignEnded tag newAddr slot (s.link.cell.getD 0) (uploaderUp (placed newAddr slot .up s)) := by
  have link : (uploaderUp (placed newAddr slot .up s)).link =
      { s.link with state := .up, addr := newAddr, replySlot := slot } :=
    uploaderUp_changedOnly (placed newAddr slot .up s) .link (by decide)
  have reply (u : State) (st : LinkState) (c : Nat) :
      assignReply (raiseLinkChange st c c u) = .assigned u.link.addr u.link.replySlot u.link.state := rfl
  rw [assignTaken_up search watched, reply, link]
  rfl

/-- R150: what an ASSIGN that makes the part UP changes. -/
theorem assignEnded_changedOnly (tag : BitVec 16) (newAddr slot cell : Nat) (s : State) {parts : List Part}
    (kept : ChangedOnly parts (placed newAddr slot .up s) (uploaderUp (placed newAddr slot .up s))) :
    ChangedOnly (.radio :: .link :: .presenceTimer :: .arbiter :: .events :: parts) s
      (assignEnded tag newAddr slot cell (uploaderUp (placed newAddr slot .up s))) := by
  intro p other
  simp only [List.mem_cons, not_or] at other
  obtain ⟨radio, link, presence, arbiter, events, others⟩ := other
  have inner := kept p others
  cases p <;> first | exact absurd rfl ‹_› | exact inner

/-- R99, R150: an ASSIGN that makes the part UP, whose Uploader runs already. -/
theorem assignEnded_running {s : State} (running : s.uploader ≠ .off) (newAddr slot : Nat) :
    uploaderUp (placed newAddr slot .up s) = placed newAddr slot .up s :=
  uploaderUp_running (s := placed newAddr slot .up s) running

/-- R99: one whose Uploader leaves OFF with no record LIVE. -/
theorem assignEnded_none {s : State} (off : s.uploader = .off) (noRecord : firstLive s = none) (newAddr slot : Nat) :
    uploaderUp (placed newAddr slot .up s) = (placed newAddr slot .up s).setUploader .idle :=
  uploaderUp_none (s := placed newAddr slot .up s) off noRecord

/-- R100: one whose Uploader takes a LIVE record. -/
theorem assignEnded_some {s : State} {loc : Loc} (off : s.uploader = .off) (live : firstLive s = some loc)
    (newAddr slot : Nat) :
    uploaderUp (placed newAddr slot .up s) = selectAt loc (placed newAddr slot .up s) :=
  uploaderUp_some (s := placed newAddr slot .up s) off live

/-- Settles O27. -/
theorem assignGivesAnAddress : Obligations.AssignGivesAnAddress := by
  refine ⟨fun tag newAddr slot s run unbroken empty room addr0 addr255 slots => ?_,
    fun addr tag identity newAddr slot s run unbroken empty room => ⟨fun all other => ?_, fun all here bad => ?_,
      fun ready => ?_⟩⟩
  · have away (n : Nat) (small : n < 256) (h : newAddr ≠ BitVec.ofNat 8 n) : newAddr.toNat ≠ n :=
      fun eq => h (eq_of_toNat eq)
    have taken (kept : (assignTaken newAddr.toNat slot.toNat (radioFrameEnded s)).link.identity = s.link.identity) :=
      (exec_assign_broadcast run unbroken empty room tag s.link.identity newAddr slot).trans (congrArg Host.Outcome.next
        (takeAssign_taken (s := radioFrameEnded s) (away 0 (by decide) addr0) (away 255 (by decide) addr255) slots tag
          newAddr slot kept))
    refine ⟨fun linked => ?_, fun search unwatched => ?_, fun search watched => ?_⟩
    · have assigned' : assigned (radioFrameEnded s) = true := by
        have link : (radioFrameEnded s).link = s.link := rfl
        rw [assigned, link]
        cases h : s.link.state <;> first | rfl | exact absurd h linked
      have same : assignTaken newAddr.toNat slot.toNat (radioFrameEnded s) =
          (radioFrameEnded s).setLink { s.link with addr := newAddr.toNat, replySlot := slot.toNat } :=
        if_pos assigned'
      rw [taken (by rw [same]; rfl), same]
      rfl
    · have down := assignTaken_down search unwatched newAddr.toNat slot.toNat
      rw [taken (by rw [down]; rfl), down]
      rfl
    · have link : (assignTaken newAddr.toNat slot.toNat (radioFrameEnded s)).link.identity = s.link.identity := by
        rw [assignTaken_up search watched]
        have same : (uploaderUp (placed newAddr.toNat slot.toNat .up s)).link = _ :=
          uploaderUp_changedOnly (placed newAddr.toNat slot.toNat .up s) .link (by decide)
        exact congrArg (fun l => l.identity) same
      have runs := taken link
      rw [assignUp_eq tag newAddr.toNat slot.toNat search watched] at runs
      have kept := uploaderUp_changedOnly (placed newAddr.toNat slot.toNat .up s)
      have events : (uploaderUp (placed newAddr.toNat slot.toNat .up s)).events = s.events := kept .events (by decide)
      refine ⟨_, runs, fun p others => ?_, kept .link (by decide), kept .presenceTimer (by decide), ?_,
        fun running => ?_, fun off noRecord => ?_, fun quiet => ?_, fun loc off live => ?_⟩
      · refine assignEnded_changedOnly tag newAddr.toNat slot.toNat _ s kept p (fun mem => others ?_)
        simp only [List.mem_cons, List.not_mem_nil, or_false] at mem ⊢
        tauto
      · exact congrArg (fun e => (raiseLinkChange .up (s.link.cell.getD 0) (s.link.cell.getD 0) (s.setEvents e)).events)
          events
      · refine assignEnded_changedOnly tag newAddr.toNat slot.toNat _ s (parts := []) (fun p _ => ?_)
        rw [assignEnded_running running]
        exact same_self p _
      · rw [assignEnded_none off noRecord]
        rfl
      · by_cases off : s.uploader = .off
        · rw [assignEnded_none off (quiet.resolve_left (not_not.mpr off))]
          exact ⟨rfl, rfl, rfl⟩
        · rw [assignEnded_running off]
          exact ⟨rfl, rfl, rfl⟩
      · rw [assignEnded_some off live, selectAt_eq]
        exact ⟨rfl, rfl, rfl, rfl⟩
  · subst all
    rw [exec_assign_broadcast run unbroken empty room, takeAssign, if_neg (by simp [unicast, radioAddr, broadcastAddr])]
    exact congrArg Host.Outcome.next (if_pos other)
  · subst all
    subst here
    have refused : newAddr.toNat = 0 ∨ newAddr.toNat = 255 ∨ 63 < slot.toNat :=
      bad.imp (fun h => by rw [h]; rfl) (Or.imp_left (fun h => by rw [h]; rfl))
    have answered : expectsReply (radioFrameEnded s) (.assign 255 tag s.link.identity newAddr slot) = true := by
      have link : (radioFrameEnded s).link = s.link := rfl
      simp [expectsReply, matchesIdentity, link]
    rw [exec_assign_broadcast run unbroken empty room, takeAssign, if_neg (by simp [unicast, radioAddr, broadcastAddr])]
    refine congrArg Host.Outcome.next ((if_neg (not_not.mpr rfl)).trans ((if_pos refused).trans ?_))
    exact if_pos answered
  · refine answered_gate (c := .assign addr tag identity newAddr slot) ready rfl rfl ?_
    exact if_pos ((unicast_iff (.assign addr tag identity newAddr slot)).mpr ready.2.2.2.1)

end Sys2Proof.Proofs.Assign
end

