-- ==== Sys2Proof/Proofs/Payments.lean ====
section
/-! PROOFS. The end of a payment: what it makes of the slot, the bill and the events; READ RESULT (O22), AUTH REPLY (O37),
late replies and stray confirms (O38). -/

namespace Sys2Proof.Proofs.Payments

open Sys2Proof.Machine Sys2Proof.Safety Sys2Proof.Laws Sys2Proof.Proofs.Bills Sys2Proof.Proofs.Host
  Sys2Proof.Proofs.Reads Sys2Proof.Proofs.Slots Sys2Proof.Proofs.Invariants

/-! ### READ RESULT -/

/-- R173: a slot freed leaves AUTH_DONE's set, and an empty set clears the latch. -/
theorem dropAuthDone_eq (i : Nat) (s : State) :
    dropAuthDone i s = s.setLatches { s.events.latches with
      authDone := s.events.latches.authDone.bind (fun set =>
        if set.filter (fun k => k ≠ i) = [] then none else some (set.filter (fun k => k ≠ i))) } := by
  rw [dropAuthDone]
  cases s.events.latches.authDone with
  | none => rfl
  | some set => simp [List.isEmpty_iff]

/-- Settles O22. -/
theorem readResultAnswersBySlotState : Obligations.ReadResultAnswersBySlotState := by
  intro tag slot s ready
  have slots : slotAt (s.setHost (hostTaken s.host)) slot.toNat = slotAt s slot.toNat := rfl
  refine ⟨fun outside => ?_, fun inside free => ?_, fun a inside held pending => ?_, fun a inside held done => ?_⟩
  · refine answered_ready (c := .readResult tag slot) ready (by simp) rfl ?_
    simp only [serveRequest, serveReadResult, if_pos outside]
  · refine answered_ready (c := .readResult tag slot) ready (by simp) rfl ?_
    simp only [serveRequest, serveReadResult, if_neg (Nat.not_lt.mpr inside), slots, free]
  · refine answered_ready (c := .readResult tag slot) ready (by simp) rfl ?_
    simp only [serveRequest, serveReadResult, if_neg (Nat.not_lt.mpr inside), slots, held]
    cases h : a.state <;> first | rfl | exact absurd h pending
  · have runs := served ready (.readResult tag slot) (by simp)
    refine runs.trans (congrArg Host.Outcome.next ?_)
    have slots' : slotAt ((statusLock (.readResult tag slot) s).setHost (hostTaken s.host)) slot.toNat = some a := held
    simp only [serveRequest, serveReadResult, if_neg (Nat.not_lt.mpr inside), slots', done]
    rw [dropAuthDone_eq]
    rfl

/-! ### The bill of a settled payment -/

theorem settleBill_number (a : Auth) (b : Bill) : (settleBill a b).number = b.number := by
  unfold settleBill
  split <;> rfl

/-- R22: a payment approved commits. -/
theorem settleBill_commit {a : Auth} {path : Path} (h : a.result.commitPath = some path) :
    settleBill a = fun b => b.commit a path := by
  funext b
  rw [settleBill, h]

/-- R23: a payment declined is released. -/
theorem settleBill_release {a : Auth} (h : a.result.commitPath = none) : settleBill a = fun b => b.release a := by
  funext b
  rw [settleBill, h]

/-- R20, R22, R23: the entry of a settled payment's bill. -/
theorem findBill_settleSlot {s : State} {a : Auth} {b : Bill} (h : findBill s a.bill = some b) (i : Nat)
    (result : Result) (reason : DeclineReason) (issuer : Nat) :
    let b' := settleBill (finished a result reason issuer) b
    findBill (settleSlot i a result reason issuer s) a.bill = some { b' with state := b'.stateNow } := by
  rw [settleSlot_eq]
  have entry := findBill_changeBill (setSlot i (some (finished a result reason issuer)) s) a.bill a.bill
    (settleBill (finished a result reason issuer)) (settleBill_number _)
  have found : findBill (setSlot i (some (finished a result reason issuer)) s) a.bill = some b := h
  rw [if_pos rfl, found] at entry
  exact entry

/-! ### AUTH_DONE -/

/-- R173: AUTH_DONE once a slot in DONE has been raised. -/
theorem raiseAuthDone_events {s : State} {i : Nat} (done : i ∈ doneSlots s) :
    ∃ set, (raiseAuthDone i s).events = { s.events with latches := { s.events.latches with authDone := some set } }
      ∧ i ∈ set := by
  refine ⟨_, rfl, ?_⟩
  cases s.events.latches.authDone with
  | none => exact done
  | some set =>
    dsimp only
    split
    · exact List.contains_iff_mem.mp ‹_›
    · simp

/-- R40: a settled slot is in DONE. -/
theorem settled_mem_doneSlots {s t : State} {i : Nat} {a : Auth} (h : i < s.decision.slots.length)
    (done : a.state = .done) (slots : t.decision.slots = s.decision.slots.set i (some a)) : i ∈ doneSlots t := by
  have inside : i < t.decision.slots.length := by rwa [slots, List.length_set]
  refine (mem_doneSlots t i).mpr ⟨inside, a, ?_, done⟩
  rw [slotAt, slots, List.getD_eq_getElem?_getD, List.getElem?_set_self h]
  rfl

/-- R173, R174: the events of a settled payment: BILL_CHANGE names its bill and AUTH_DONE its slot. -/
theorem settleSlot_events {s : State} {i : Nat} (h : i < s.decision.slots.length) (a : Auth) (result : Result)
    (reason : DeclineReason) (issuer : Nat) :
    ∃ set, (settleSlot i a result reason issuer s).events = { s.events with latches := { s.events.latches with
        billChange := some (listDetail 32 a.bill s.events.latches.billChange), authDone := some set } }
      ∧ i ∈ set := by
  rw [settleSlot_eq]
  have events := changeBill_events (setSlot i (some (finished a result reason issuer)) s) a.bill
    (settleBill (finished a result reason issuer))
  have decision (u : State) (f : Bill → Bill) : Part.decision.same u (changeBill a.bill f u) := by simp [same_self]
  obtain ⟨set, raised, mem⟩ := raiseAuthDone_events (settled_mem_doneSlots
    (t := changeBill a.bill (settleBill (finished a result reason issuer))
      (setSlot i (some (finished a result reason issuer)) s)) h rfl (congrArg Decision.slots (decision _ _)))
  refine ⟨set, ?_, mem⟩
  rw [raised, events]
  rfl

/-- R173: what a settled payment changes. -/
theorem settleSlot_changedOnly (i : Nat) (a : Auth) (result : Result) (reason : DeclineReason) (issuer : Nat)
    (s : State) : ChangedOnly [.decision, .bills, .events] s (settleSlot i a result reason issuer s) := by
  intro p other
  simp only [List.mem_cons, List.not_mem_nil, or_false, not_or] at other
  obtain ⟨decision, bills, events⟩ := other
  simp [*, same_self]

/-! ### AUTH REPLY -/

/-- R51: a frame for the part alone, not a command, reaches its owner. -/
theorem exec_authReply {s : State} {addr : BitVec 8} (ready : Addressed addr s) (txn : BitVec 32)
    {disposition : BitVec 8} (known : disposition = 1 ∨ disposition = 2) (reason : BitVec 8) :
    exec (.authReply addr txn disposition reason) s =
      .next (takeAuthReply txn.toNat reason.toNat (disposition == 1) (radioFrameEnded s)) := by
  obtain ⟨run, linked, here, alone, unbroken⟩ := ready
  refine congrArg Host.Outcome.next ?_
  rw [radioFrameArrives_unbroken run unbroken]
  have arrives := radioArrives_addressed (s := radioFrameEnded s) ⟨run, linked, here, alone, .inr rfl⟩ false
    (authReplyPassed addr txn.toNat disposition.toNat reason.toNat)
  refine arrives.trans ?_
  rw [authReplyPassed, if_neg alone]
  rcases known with rfl | rfl <;> rfl

/-- R51: a slot found awaiting a number awaits it. -/
theorem awaitingSlot_some {s : State} {txn i : Nat} {a : Auth} (h : awaitingSlot s txn = some i)
    (held : slotAt s i = some a) : i < s.decision.slots.length ∧ a.state = .awaitingReply ∧ a.txn = txn := by
  obtain ⟨inside, here, -⟩ := List.findIdx?_eq_some_iff_getElem.mp h
  have slot : s.decision.slots[i] = some a := by
    rw [slotAt, List.getD_eq_getElem?_getD, List.getElem?_eq_getElem inside] at held
    exact held
  rw [slot] at here
  refine ⟨inside, ?_⟩
  simpa [awaiting] using here

/-- R51: the state in which the payment of an AUTH REPLY ends. -/
def replyHeard (i txn : Nat) (s : State) : State := withdrawAuth txn (setReplyTimer i none (radioFrameEnded s))

/-- Settles O37. -/
theorem authReplyEndsThePayment : Obligations.AuthReplyEndsThePayment := by
  intro addr txn disposition reason s i a b ready found held entry known approve
  obtain ⟨inside, awaits, number⟩ := awaitingSlot_some found held
  have runs : exec (.authReply addr txn disposition reason) s = .next (settleSlot i a
      (if approve then .approvedOnline else .declinedIssuer) .none reason.toNat (replyHeard i txn.toNat s)) := by
    have found' : awaitingSlot (radioFrameEnded s) txn.toNat = some i := found
    have held' : slotAt (radioFrameEnded s) i = some a := held
    rw [exec_authReply ready txn known, takeAuthReply, found']
    simp only [held']
    rfl
  have entry' := findBill_settleSlot (s := replyHeard i txn.toNat s) entry i
    (if approve then .approvedOnline else .declinedIssuer) .none reason.toNat
  obtain ⟨set, events, mem⟩ := settleSlot_events (s := replyHeard i txn.toNat s) inside a
    (if approve then .approvedOnline else .declinedIssuer) .none reason.toNat
  have kept := settleSlot_changedOnly i a (if approve then .approvedOnline else .declinedIssuer) .none reason.toNat
    (replyHeard i txn.toNat s)
  have slots := settleSlot_decision i a (if approve then .approvedOnline else .declinedIssuer) .none reason.toNat
    (replyHeard i txn.toNat s)
  refine ⟨_, _, set, runs, fun p other => ?_, awaits, number, slots, kept .replyTimers (by decide),
    kept .arbiter (by decide), entry', ?_, ?_, ?_, ?_, ?_, events, mem⟩
  · simp only [List.mem_cons, List.not_mem_nil, or_false, not_or] at other
    obtain ⟨radio, decision, bills, events, timers, arbiter⟩ := other
    have inner := kept p (by simp [*])
    cases p <;> first | exact absurd rfl ‹_› | exact inner
  all_goals
    rw [settleBill]
    cases approve <;> rfl

/-! ### Late replies and stray confirms -/

/-- R53: a reply whose number the late list does not hold is counted. -/
theorem judgeLate_none {s : State} {txn : Nat} (h : s.decision.late.find? (fun e => e.txn == txn) = none)
    (decline : Bool) : judgeLate txn decline s = countLate s := by
  rw [judgeLate, h]

/-- R53: a DECLINE of a stand-in approval is told. -/
theorem judgeLate_told {s : State} {txn : Nat}
    (h : (s.decision.late.find? (fun e => e.txn == txn)).map LateEntry.outcome = some .stoodIn) :
    judgeLate txn true s = dropLate txn (raiseLateDecline txn s) := by
  obtain ⟨e, found, outcome⟩ := Option.map_eq_some_iff.mp h
  simp only [judgeLate, found, outcome]

/-- R53: every other reply of the late list is counted. -/
theorem judgeLate_counted {s : State} {txn : Nat} {decline : Bool}
    (h : (s.decision.late.find? (fun e => e.txn == txn)).map LateEntry.outcome = some .stoodIn ∧ decline = false
      ∨ (s.decision.late.find? (fun e => e.txn == txn)).map LateEntry.outcome = some .declined) :
    judgeLate txn decline s = dropLate txn (countLate s) := by
  rcases h with ⟨h, rfl⟩ | h
  · obtain ⟨e, found, outcome⟩ := Option.map_eq_some_iff.mp h
    simp only [judgeLate, found, outcome]
  · obtain ⟨e, found, outcome⟩ := Option.map_eq_some_iff.mp h
    cases decline <;> simp only [judgeLate, found, outcome]

/-- R53: an AUTH REPLY that no slot awaits is judged by the late list. -/
theorem exec_authReply_late {s : State} {addr : BitVec 8} (ready : Addressed addr s) {txn : BitVec 32}
    (noSlot : awaitingSlot s txn.toNat = none) {disposition : BitVec 8} (known : disposition = 1 ∨ disposition = 2)
    (reason : BitVec 8) :
    exec (.authReply addr txn disposition reason) s =
      .next (judgeLate txn.toNat (!(disposition == 1)) (radioFrameEnded s)) := by
  have noSlot' : awaitingSlot (radioFrameEnded s) txn.toNat = none := noSlot
  rw [exec_authReply ready txn known, takeAuthReply, noSlot']

/-- R105: an UPLOAD CONFIRM for the part alone reaches the Uploader. -/
theorem exec_uploadConfirm {s : State} {addr : BitVec 8} (ready : Addressed addr s) (txn : BitVec 32)
    {disposition : BitVec 8} (known : disposition = 1 ∨ disposition = 2) :
    exec (.uploadConfirm addr txn disposition) s =
      .next (takeConfirm txn.toNat (disposition == 2) (radioFrameEnded s)) := by
  obtain ⟨run, linked, here, alone, unbroken⟩ := ready
  refine congrArg Host.Outcome.next ?_
  rw [radioFrameArrives_unbroken run unbroken]
  have arrives := radioArrives_addressed (s := radioFrameEnded s) ⟨run, linked, here, alone, .inr rfl⟩ false
    (uploadConfirmPassed addr txn.toNat disposition.toNat)
  refine arrives.trans ?_
  rw [uploadConfirmPassed, if_neg alone]
  rcases known with rfl | rfl <;> rfl

/-- Settles O38. -/
theorem lateRepliesAndStrayConfirmsAreJudged : Obligations.LateRepliesAndStrayConfirmsAreJudged := by
  refine ⟨fun addr txn disposition reason s ready noSlot known => ⟨fun stoodIn decline => ?_, fun counted => ?_,
    fun unknown => ?_⟩, fun addr txn disposition s ready known finished => ?_⟩
  · subst decline
    rw [exec_authReply_late ready noSlot known]
    exact congrArg Host.Outcome.next (judgeLate_told (s := radioFrameEnded s) stoodIn)
  · rw [exec_authReply_late ready noSlot known]
    refine congrArg Host.Outcome.next (judgeLate_counted (s := radioFrameEnded s) ?_)
    exact counted.imp_left (fun ⟨stoodIn, approve⟩ => ⟨stoodIn, by rw [approve]; rfl⟩)
  · rw [exec_authReply_late ready noSlot known]
    exact congrArg Host.Outcome.next (judgeLate_none (s := radioFrameEnded s) unknown _)
  · rw [exec_uploadConfirm ready txn known]
    refine congrArg Host.Outcome.next ?_
    have record : findRecord (radioFrameEnded s) txn.toNat = findRecord s txn.toNat := rfl
    rw [takeConfirm, record]
    cases h : findRecord s txn.toNat with
    | none => rfl
    | some found =>
      obtain ⟨loc, st⟩ := found
      obtain ⟨notLive, notOutstanding⟩ := finished loc st h
      have done : st.unfinishedRecord = false := by
        cases st <;> first | rfl | exact absurd rfl notLive | exact absurd rfl notOutstanding
      simp only [done, Bool.false_eq_true, if_false]
      rfl

end Sys2Proof.Proofs.Payments
end

