-- ==== Sys2Proof/Proofs/Confirm.lean ====
section
/-! PROOFS. UPLOAD CONFIRM (O39) and the grant (O40). -/

namespace Sys2Proof.Proofs.Confirm

open Sys2Proof.Machine Sys2Proof.Safety Sys2Proof.Laws Sys2Proof.Proofs.Bills Sys2Proof.Proofs.Host
  Sys2Proof.Proofs.Link Sys2Proof.Proofs.Payments

/-! ### The record of a confirm -/

/-- R89: the record found for a number has that number. -/
theorem recordAt_of_findRecord {s : State} {txn : Nat} {loc : Loc} {st : RecordState}
    (h : findRecord s txn = some (loc, st)) : ∃ r, recordAt s loc = some r ∧ r.txn = txn := by
  obtain ⟨p, found, pair⟩ := Option.map_eq_some_iff.mp h
  have holds := List.find?_some found
  simp only [holdsNumber, Bool.and_eq_true, beq_iff_eq] at holds
  obtain ⟨r, record, number⟩ := Option.map_eq_some_iff.mp holds.2
  obtain ⟨rfl, -⟩ := Prod.mk.inj pair
  exact ⟨r, record, number⟩

/-- R65, R88, R107: the part once a record has been finished by a confirm, before the Uploader is told. -/
def confirmed (loc : Loc) (txn : Nat) (refused : Bool) (r : JRecord) (s : State) : State :=
  { s with
    radio := radioHeard s.radio
    tally := uncountRecord r s.tally
    journal := s.journal.onSlot loc (fun _ => { state := .done, markPending := true })
    store := { s.store with marks := s.store.marks ++ [{ loc := loc, kind := .uploaded, second := false }] }
    events := if r.kind = .approval ∧ refused = true then
      { s.events with latches := { s.events.latches with
        lateDecline := some (listDetail 8 txn s.events.latches.lateDecline) } } else s.events }

/-- R106: a confirm that finishes a record. -/
theorem finishRecord_eq {s : State} {loc : Loc} {r : JRecord} (h : recordAt s loc = some r) (txn : Nat)
    (refused : Bool) :
    finishRecord loc txn refused (radioFrameEnded s) = confirmUploader loc (confirmed loc txn refused r s) := by
  have record : recordAt (radioFrameEnded s) loc = some r := h
  rw [finishRecord, record, confirmed]
  cases hk : r.kind <;> cases refused <;> simp only [hk] <;> rfl

/-- R108: a confirm of another record than the one in flight leaves the Uploader alone. -/
theorem confirmUploader_other {s : State} {loc : Loc} (other : ∀ n k, s.uploader ≠ .awaitingConfirm loc n k) :
    confirmUploader loc s = s := by
  unfold confirmUploader
  cases h : s.uploader with
  | awaitingConfirm out n k =>
    have away : out ≠ loc := fun same => other n k (by rw [h, same])
    exact if_neg away
  | off => rfl
  | idle => rfl
  | holdoff => rfl

/-- R108: a confirm of the record in flight moves the Uploader on. -/
theorem confirmUploader_inFlight {s : State} {loc : Loc} {n k : Nat} (h : s.uploader = .awaitingConfirm loc n k) :
    confirmUploader loc s = selectRecord ((setUploadTimer none (withdrawUpload s)).setUploader .idle) := by
  rw [confirmUploader, h]
  exact if_pos rfl

/-- R108: what the Uploader's going on leaves as it was. -/
theorem confirmUploader_changedOnly (loc : Loc) (s : State) :
    ChangedOnly [.uploader, .journal, .uploadTimer, .arbiter] s (confirmUploader loc s) := by
  intro p other
  simp only [List.mem_cons, List.not_mem_nil, or_false, not_or] at other
  obtain ⟨uploader, journal, timer, arbiter⟩ := other
  simp [*, same_self]

/-- Settles O39. -/
theorem uploadConfirmFinishesTheRecord : Obligations.UploadConfirmFinishesTheRecord := by
  intro addr txn disposition s loc st ready known found unfinished
  obtain ⟨r, record, number⟩ := recordAt_of_findRecord found
  have found' : findRecord (radioFrameEnded s) txn.toNat = some (loc, st) := found
  have unfinished' : st.unfinishedRecord = true := by rcases unfinished with rfl | rfl <;> rfl
  have runs : exec (.uploadConfirm addr txn disposition) s =
      .next (confirmUploader loc (confirmed loc txn.toNat (disposition == 2) r s)) := by
    rw [exec_uploadConfirm ready txn known, takeConfirm, found']
    simp only [unfinished', if_true]
    rw [finishRecord_eq record]
  have kept := confirmUploader_changedOnly loc (confirmed loc txn.toNat (disposition == 2) r s)
  have events : _ = (confirmed loc txn.toNat (disposition == 2) r s).events := kept .events (by decide)
  refine ⟨_, r, runs, fun p other => ?_, record, number, kept .store (by decide), fun approval => ?_, fun reversal => ?_,
    fun approval refused => ?_, fun quiet => ?_, fun other => ?_, fun n k inFlight => ⟨fun noRecord => ?_,
      fun next live => ?_⟩⟩
  · simp only [List.mem_cons, List.not_mem_nil, or_false, not_or] at other
    obtain ⟨radio, journal, store, tally, events, uploader, timer, arbiter⟩ := other
    have inner := kept p (by simp [*])
    cases p <;> first | exact absurd rfl ‹_› | exact inner
  · refine (kept .tally (by decide)).trans ?_
    simp [confirmed, uncountRecord, approval, JRecord.total]
  · refine (kept .tally (by decide)).trans ?_
    simp [confirmed, uncountRecord, reversal]
  · rw [events, confirmed, if_pos ⟨approval, by rw [refused]; rfl⟩]
  · rw [events, confirmed, if_neg]
    rintro ⟨approval, refused⟩
    rcases quiet with reversal | rfl
    · exact nomatch approval.symm.trans reversal
    · exact absurd refused (by decide)
  · rw [confirmUploader_other (s := confirmed loc txn.toNat (disposition == 2) r s) other]
    exact ⟨rfl, rfl, rfl, rfl⟩
  · rw [confirmUploader_inFlight (s := confirmed loc txn.toNat (disposition == 2) r s) inFlight,
      selectRecord_none (s := State.setUploader (setUploadTimer none (withdrawUpload
        (confirmed loc txn.toNat (disposition == 2) r s))) .idle) noRecord]
    exact ⟨rfl, rfl, rfl, rfl⟩
  · rw [confirmUploader_inFlight (s := confirmed loc txn.toNat (disposition == 2) r s) inFlight,
      selectRecord_some (s := State.setUploader (setUploadTimer none (withdrawUpload
        (confirmed loc txn.toNat (disposition == 2) r s))) .idle) live, selectAt_eq]
    exact ⟨rfl, ⟨_, rfl⟩, rfl, rfl⟩

/-! ### The grant -/

/-- R158: whether a class holds a frame that may be granted. -/
theorem eligible_iff (s : State) (c : TxClass) :
    eligible s c = true ↔ s.arbiter.queue c ≠ [] ∧ 0 < (params s).level c ∧ linkAllows s.link.state c = true := by
  simp [eligible, and_assoc]

/-- R158: a class ranks below another: at a lower level, or later in the fixed order at the same level. -/
def RanksBelow (s : State) (d c : TxClass) : Prop :=
  (params s).level d < (params s).level c ∨
    (params s).level d = (params s).level c ∧ classOrder.idxOf c < classOrder.idxOf d

/-- R158: the class that a grant takes from is an eligible one of those asked about. -/
theorem bestClass_mem {s : State} {l : List TxClass} {d : TxClass} (h : bestClass s l = some d) :
    d ∈ l ∧ eligible s d = true := by
  induction l generalizing d with
  | nil => cases h
  | cons x rest ih =>
    unfold bestClass at h
    split at h
    case isTrue here =>
      cases hb : bestClass s rest with
      | none =>
        rw [hb] at h
        cases h
        exact ⟨List.mem_cons_self, here⟩
      | some e =>
        rw [hb] at h
        simp only [betterClass, Option.some.injEq] at h
        split at h
        · subst h
          exact ⟨List.mem_cons_self, here⟩
        · subst h
          exact ⟨List.mem_cons_of_mem _ (ih hb).1, (ih hb).2⟩
    case isFalse =>
      exact ⟨List.mem_cons_of_mem _ (ih h).1, (ih h).2⟩

/-- R158: with no class eligible there is none to grant. -/
theorem bestClass_none {s : State} {l : List TxClass} (h : ∀ d ∈ l, eligible s d = false) : bestClass s l = none := by
  induction l with
  | nil => rfl
  | cons x rest ih =>
    simp only [bestClass, h x List.mem_cons_self, Bool.false_eq_true, if_false]
    exact ih (fun d mem => h d (List.mem_cons_of_mem _ mem))

/-- R158: of classes in the fixed order, the eligible one that every other eligible one ranks below is taken. -/
theorem bestClass_of_highest {s : State} {l : List TxClass} {c : TxClass}
    (order : l.Pairwise (fun a b => classOrder.idxOf a < classOrder.idxOf b)) (mem : c ∈ l)
    (here : eligible s c = true) (highest : ∀ d ∈ l, eligible s d = true → d ≠ c → RanksBelow s d c) :
    bestClass s l = some c := by
  induction l with
  | nil => cases mem
  | cons x rest ih =>
    obtain ⟨first, order'⟩ := List.pairwise_cons.mp order
    by_cases same : x = c
    · subst same
      simp only [bestClass, here, if_true]
      cases hb : bestClass s rest with
      | none => rfl
      | some d =>
        obtain ⟨later, eligible'⟩ := bestClass_mem hb
        have away : d ≠ x := by
          rintro rfl
          exact Nat.lt_irrefl _ (first d later)
        have below : (params s).level d ≤ (params s).level x :=
          (highest d (List.mem_cons_of_mem _ later) eligible' away).elim Nat.le_of_lt (fun h => Nat.le_of_eq h.1)
        simp only [betterClass, if_pos below]
    · have later : c ∈ rest := (List.mem_cons.mp mem).resolve_left (Ne.symm same)
      have best := ih order' later (fun d mem => highest d (List.mem_cons_of_mem _ mem))
      rw [bestClass, best]
      split
      case isTrue eligible' =>
        have higher : ¬ (params s).level c ≤ (params s).level x := by
          rcases highest x List.mem_cons_self eligible' same with lower | ⟨-, behind⟩
          · exact Nat.not_le.mpr lower
          · exact absurd (first c later) (Nat.lt_asymm behind)
        simp only [betterClass, if_neg higher]
      case isFalse => rfl

theorem mem_classOrder (c : TxClass) : c ∈ classOrder := by cases c <;> decide

/-- Settles O40. -/
theorem grantTakesTheHighestLevel : Obligations.GrantTakesTheHighestLevel := by
  intro s
  refine ⟨fun c f rest free queue level link highest => ?_, fun none => ?_, fun sending => ?_, rfl⟩
  all_goals refine congrArg Host.Outcome.next ?_
  · have here : eligible s c = true := (eligible_iff s c).mpr ⟨by simp [queue], level, link⟩
    have best : bestClass s classOrder = some c := by
      refine bestClass_of_highest (by decide) (mem_classOrder c) here (fun d _ eligible' away => ?_)
      obtain ⟨waits, level', link'⟩ := (eligible_iff s d).mp eligible'
      exact highest d waits level' link' away
    simp only [grantFrame, free, best, queue]
    rfl
  · have nothing : bestClass s classOrder = Option.none := by
      refine bestClass_none (fun d _ => Bool.eq_false_iff.mpr (fun eligible' => ?_))
      obtain ⟨waits, level, link⟩ := (eligible_iff s d).mp eligible'
      rcases none d with empty | silent | shut
      · exact waits empty
      · omega
      · exact nomatch link.symm.trans shut
    rw [grantFrame, nothing]
    split <;> rfl
  · rw [grantFrame]
    split
    · rfl
    · exact absurd ‹_› sending

end Sys2Proof.Proofs.Confirm
end

