-- ==== Sys2Proof/Proofs/Frames.lean ====
section
/-! PROOFS. What two changes in a row leave as it was. -/

namespace Sys2Proof.Proofs.Frames

open Sys2Proof.Machine Sys2Proof.Safety Sys2Proof.Laws

theorem same_trans {p : Part} {s t u : State} (h : p.same s t) (h' : p.same t u) : p.same s u := by
  cases p <;> exact Eq.trans h' h

/-- Two changes in a row leave what both leave. -/
theorem changedOnly_trans {a b c : List Part} {s t u : State} (h : ChangedOnly a s t) (h' : ChangedOnly b t u)
    (sub : a ++ b ⊆ c) : ChangedOnly c s u :=
  fun p other => same_trans (h p (fun mem => other (sub (List.mem_append_left b mem))))
    (h' p (fun mem => other (sub (List.mem_append_right a mem))))

/-- A change that leaves fewer parts may be told of more. -/
theorem changedOnly_mono {a c : List Part} {s t : State} (h : ChangedOnly a s t) (sub : a ⊆ c) : ChangedOnly c s t :=
  fun p other => h p (fun mem => other (sub mem))

end Sys2Proof.Proofs.Frames
end

