-- ==== Sys2Proof/Proofs/StandIn.lean ====
section
/-! PROOFS. The expiry of a reply timer and stand-in (O42). -/

namespace Sys2Proof.Proofs.StandIn

open Sys2Proof.Machine Sys2Proof.Safety Sys2Proof.Laws Sys2Proof.Proofs.Bills Sys2Proof.Proofs.Host
  Sys2Proof.Proofs.Slots Sys2Proof.Proofs.Payments Sys2Proof.Proofs.Frames

/-! ### The row of a stand-in -/

/-- R52: a stand-in is refused by the Profile, the lookup, the mode, the tip or the offline test. -/
theorem standInRow_refused {s : State} {a : Auth}
    (h : (params s).standIn = 0 ∨ lookup s a.pfx = none
      ∨ ∃ row, lookup s a.pfx = some row ∧
        (row.mode = 1 ∨ a.base * (params s).tipCapPercent / 100 < a.tip
          ∨ offlineTest s row (a.base + a.tip) a.token ≠ none)) : standInRow s a = none := by
  rw [standInRow]
  cases found : lookup s a.pfx with
  | none => rfl
  | some row =>
    refine if_neg ?_
    rintro ⟨allowed, mode, tip, test⟩
    rcases h with refused | unknown | ⟨row', found', failing⟩
    · exact allowed refused
    · exact nomatch found.symm.trans unknown
    · obtain rfl : row = row' := Option.some.inj (found.symm.trans found')
      rcases failing with online | tooMuch | failed
      · rw [standInMode, online] at mode
        cases mode
      · exact tip (decide_eq_true tooMuch)
      · exact failed test

/-- R52: a stand-in is approved under the row in force. -/
theorem standInRow_approved {s : State} {a : Auth} {row : IrtRow} (allowed : (params s).standIn ≠ 0)
    (found : lookup s a.pfx = some row) (mode : row.mode = 2 ∨ row.mode = 3)
    (tip : a.tip ≤ a.base * (params s).tipCapPercent / 100)
    (test : offlineTest s row (a.base + a.tip) a.token = none) : standInRow s a = some row := by
  have mode' : standInMode row = true := by
    rcases mode with h | h <;> rw [standInMode, h] <;> rfl
  have tip' : ¬ tipOver s a.base a.tip = true := by
    rw [tipOver, decide_eq_true_eq, Nat.not_lt]
    exact tip
  rw [standInRow, found]
  exact if_pos ⟨allowed, mode', tip', test⟩

/-! ### The expiry -/

/-- R52: the part once a slot's timer has stopped and its AUTH REQUEST is withdrawn. -/
def unanswered (i txn : Nat) (s : State) : State := withdrawAuth txn (setReplyTimer i none s)

/-- R52, R53: the part once a stand-in is refused, its number in the late list. -/
def refusedStandIn (i txn : Nat) (s : State) : State :=
  joinLate txn .declined (unanswered i txn (setReplyTimer i none s))

theorem refusedStandIn_changedOnly (i txn : Nat) (s : State) :
    ChangedOnly [.replyTimers, .arbiter, .decision] s (refusedStandIn i txn s) := by
  intro p other
  cases p <;> first | exact absurd (by decide) other | rfl

/-- R52: the expiry of the timer of a slot that awaits its reply. -/
theorem exec_replyTimerExpiry {i : Fin 4} {s : State} {a : Auth} (expired : s.timers.reply[i.val]? = some (some 0))
    (held : slotAt s i.val = some a) (awaits : a.state = .awaitingReply) :
    exec (.replyTimerExpiry i) s = .next (standIn i.val (setReplyTimer i.val none s)) := by
  have due : s.timers.reply.getD i.val none = some 0 := by rw [List.getD_eq_getElem?_getD, expired]; rfl
  have awaiting' : awaiting (slotAt (setReplyTimer i.val none s) i.val) = true := by
    have same : slotAt (setReplyTimer i.val none s) i.val = some a := held
    rw [same, awaiting, awaits]
    rfl
  refine congrArg Host.Outcome.next ((if_pos due).trans ?_)
  rw [replyExpiry]
  exact if_pos awaiting'

/-- R52, R53: a stand-in refused. -/
theorem standIn_refused {s : State} {i : Nat} {a : Auth} (held : slotAt s i = some a)
    (refused : standInRow (unanswered i a.txn s) a = none) :
    standIn i s = settleSlot i a .declined .noReply a.issuer (joinLate a.txn .declined (unanswered i a.txn s)) := by
  unfold unanswered at refused
  simp only [standIn, held, refused]
  rfl

/-- R52, R53: a stand-in approved. -/
theorem standIn_approved {s : State} {i : Nat} {a : Auth} {row : IrtRow} (held : slotAt s i = some a)
    (approved : standInRow (unanswered i a.txn s) a = some row) :
    standIn i s = approveOffline i a row true (joinLate a.txn .stoodIn (unanswered i a.txn s)) := by
  unfold unanswered at approved
  simp only [standIn, held, approved]
  rfl

/-- R80: a record that joins the queue waits behind one in program. -/
theorem appendRecord_behind {s : State} {ip : InProgram} (h : s.journal.inProgram = some ip) (e : QueuedRecord) :
    appendRecord e s = s.setJournal { s.journal with queue := s.journal.queue ++ [e] } := by
  have busy : (s.setJournal { s.journal with queue := s.journal.queue ++ [e] }).journal.inProgram = some ip := h
  rw [appendRecord, issueNext, busy]

/-- R48, R80: an offline approval whose record waits behind one in program. -/
theorem approveOffline_behind {s : State} {ip : InProgram} (h : s.journal.inProgram = some ip) (i : Nat) (a : Auth)
    (row : IrtRow) (standIn : Bool) :
    approveOffline i a row standIn s =
      { s with
        decision := { s.decision with slots := s.decision.slots.set i (some (a.stored row standIn)) }
        tally := countRecord (approvalRecord s (a.stored row standIn)) s.tally
        journal := { s.journal with
          queue := s.journal.queue ++
            [{ record := approvalRecord s (a.stored row standIn), requester := .slot i }] } } := by
  rw [approveOffline, appendRecord_behind (ip := ip) (by exact h)]
  rfl

/-- R52, R53: the part once a stand-in is approved, its number in the late list. -/
theorem joinLate_unanswered (i txn : Nat) (o : LateOutcome) (s : State) :
    joinLate txn o (unanswered i txn (setReplyTimer i none s)) =
      { s with
        timers := { s.timers with reply := s.timers.reply.set i none }
        arbiter := { s.arbiter with auth := s.arbiter.auth.filter (fun f => !f.isAuthOf txn) }
        decision := { s.decision with
          late := (if s.decision.late.length < 8 then s.decision.late else s.decision.late.drop 1)
            ++ [{ txn := txn, outcome := o }] } } := by
  simp only [unanswered, setReplyTimer, withdrawAuth, State.setTimers, State.setArbiter, List.set_set]
  rfl

/-- R48, R52, R53: a stand-in approved behind a record in program. -/
theorem standIn_behind {i : Nat} {s : State} {a : Auth} {row : IrtRow} {ip : InProgram} (held : slotAt s i = some a)
    (busy : s.journal.inProgram = some ip) (approved : standInRow s a = some row) :
    standIn i (setReplyTimer i none s) =
      { s with
        timers := { s.timers with reply := s.timers.reply.set i none }
        arbiter := { s.arbiter with auth := s.arbiter.auth.filter (fun f => !f.isAuthOf a.txn) }
        decision := { s.decision with
          slots := s.decision.slots.set i (some (a.stored row true))
          late := (if s.decision.late.length < 8 then s.decision.late else s.decision.late.drop 1)
            ++ [{ txn := a.txn, outcome := .stoodIn }] }
        tally := countRecord (approvalRecord s (a.stored row true)) s.tally
        journal := { s.journal with
          queue := s.journal.queue ++ [{ record := approvalRecord s (a.stored row true), requester := .slot i }] } } := by
  rw [standIn_approved (s := setReplyTimer i none s) held approved, joinLate_unanswered]
  exact approveOffline_behind (ip := ip) (by exact busy) i a row true

/-- Settles O42. -/
theorem replyExpiryResolvesByStandIn : Obligations.ReplyExpiryResolvesByStandIn := by
  refine ⟨fun i s a b expired held awaits entry refused => ?_,
    fun i s a row ip expired held awaits busy allowed found mode tip test => ?_⟩
  · have inside : i.val < s.decision.slots.length := lt_of_slotAt held
    have runs : exec (.replyTimerExpiry i) s =
        .next (settleSlot i.val a .declined .noReply a.issuer (refusedStandIn i.val a.txn s)) :=
      (exec_replyTimerExpiry expired held awaits).trans (congrArg Host.Outcome.next
        (standIn_refused (s := setReplyTimer i.val none s) held (standInRow_refused refused)))
    have slots := settleSlot_decision i.val a .declined .noReply a.issuer (refusedStandIn i.val a.txn s)
    have kept := settleSlot_changedOnly i.val a .declined .noReply a.issuer (refusedStandIn i.val a.txn s)
    have entry' := findBill_settleSlot (s := refusedStandIn i.val a.txn s) entry i.val .declined .noReply a.issuer
    obtain ⟨set, events, mem⟩ := settleSlot_events (s := refusedStandIn i.val a.txn s) inside a .declined .noReply
      a.issuer
    rw [settleBill_release rfl] at entry'
    refine ⟨_, _, runs, changedOnly_trans (refusedStandIn_changedOnly i.val a.txn s) kept (by decide), ?_, ?_, ?_, ?_,
      entry', rfl, rfl, rfl, set, ?_, mem⟩
    · exact (slotAt_settleSlot (refusedStandIn i.val a.txn s) ..).trans (if_pos ⟨rfl, inside⟩)
    · exact (kept .replyTimers (by decide)).trans (List.set_set ..)
    · exact kept .arbiter (by decide)
    · exact congrArg Decision.late slots
    · exact congrArg (fun e => e.latches.authDone) events
  · exact (exec_replyTimerExpiry expired held awaits).trans (congrArg Host.Outcome.next
      (standIn_behind (ip := ip) held busy (standInRow_approved allowed found mode tip test)))

end Sys2Proof.Proofs.StandIn
end

