-- ==== Sys2Proof/Proofs/LinkLoss.lean ====
section
/-! PROOFS. What leaving the link does to the payments, the queues and the Uploader: the loss of beacons (O43), RELEASE
(O28), LINK RESET (O29). -/

namespace Sys2Proof.Proofs.LinkLoss

open Sys2Proof.Machine Sys2Proof.Safety Sys2Proof.Laws Sys2Proof.Proofs.Bills Sys2Proof.Proofs.Host
  Sys2Proof.Proofs.Slots Sys2Proof.Proofs.Payments Sys2Proof.Proofs.LoadOpen Sys2Proof.Proofs.Link
  Sys2Proof.Proofs.StandIn Sys2Proof.Proofs.Gate

/-! ### No slot comes to await a reply -/

/-- No slot awaits a reply that did not before, and LINK_CHANGE is as it was. -/
structure Resolves (s t : State) : Prop where
  before : ∀ i, awaiting (slotAt t i) = true → awaiting (slotAt s i) = true
  linkChange : t.events.latches.linkChange = s.events.latches.linkChange

theorem Resolves.refl (s : State) : Resolves s s := ⟨fun _ h => h, rfl⟩

theorem Resolves.trans {s t u : State} (h : Resolves s t) (h' : Resolves t u) : Resolves s u :=
  ⟨fun i hi => h.before i (h'.before i hi), h'.linkChange.trans h.linkChange⟩

/-- What leaves the slots and LINK_CHANGE alone. -/
theorem Resolves.frame {s t u : State} (h : Resolves s t) (slots : u.decision.slots = t.decision.slots)
    (linkChange : u.events.latches.linkChange = t.events.latches.linkChange) : Resolves s u := by
  refine ⟨fun i hi => h.before i ?_, linkChange.trans h.linkChange⟩
  rwa [slotAt, slots] at hi

/-- A slot set to what does not await a reply. -/
theorem Resolves.setSlot {s t : State} (h : Resolves s t) (i : Nat) {x : Option Auth} (resolved : awaiting x = false) :
    Resolves s (setSlot i x t) := by
  refine ⟨fun j hj => ?_, h.linkChange⟩
  rw [slotAt_setSlot] at hj
  split at hj
  · rw [resolved] at hj
    cases hj
  · exact h.before j hj

theorem settleSlot_linkChange (i : Nat) (a : Auth) (result : Result) (reason : DeclineReason) (issuer : Nat) (s : State) :
    (settleSlot i a result reason issuer s).events.latches.linkChange = s.events.latches.linkChange := by
  rw [settleSlot_eq]
  refine (congrArg (fun e => e.latches.linkChange) (changeBill_events _ a.bill _)).trans ?_
  rfl

theorem Resolves.settleSlot {s t : State} (h : Resolves s t) (i : Nat) (a : Auth) (result : Result)
    (reason : DeclineReason) (issuer : Nat) : Resolves s (settleSlot i a result reason issuer t) := by
  have set : Resolves s (Machine.setSlot i (some (finished a result reason issuer)) t) := h.setSlot i rfl
  refine set.frame ?_ (settleSlot_linkChange ..)
  rw [settleSlot_decision]
  rfl

/-- R49, R82, R83: a record given up declines its payment. -/
theorem Resolves.recordLost {s t : State} (h : Resolves s t) (e : QueuedRecord) : Resolves s (recordLost e t) := by
  unfold Machine.recordLost
  split
  · split
    · have judged : Resolves s (declineLate e.record.txn (t.setTally (uncountRecord e.record t.tally))) :=
        h.frame rfl rfl
      exact judged.settleSlot ..
    · exact h
  · split
    · rename_i job _
      have decision : Part.decision.same t (endVoid job (.plain .storeFault) (clearVoidPending job.bill t)) := by
        simp [same_self]
      have events : Part.events.same t (endVoid job (.plain .storeFault) (clearVoidPending job.bill t)) := by
        simp [same_self]
      exact h.frame (congrArg Decision.slots decision) (congrArg (fun e => e.latches.linkChange) events)
    · exact h

/-- R86: the low flag tells JOURNAL_LOW alone. -/
theorem evaluateLow_linkChange (s : State) :
    (evaluateLow s).events.latches.linkChange = s.events.latches.linkChange := by
  unfold evaluateLow
  split
  · split <;> rfl
  · rfl

theorem Resolves.issueRecord {s t : State} (h : Resolves s t) (loc : Loc) (e : QueuedRecord) (retry : Bool) :
    Resolves s (issueRecord loc e retry t) := by
  have decision : Part.decision.same t (Machine.issueRecord loc e retry t) := by simp [same_self]
  exact h.frame (congrArg Decision.slots decision) (evaluateLow_linkChange _)

theorem Resolves.issueQueue {s t : State} (h : Resolves s t) (q : List QueuedRecord) : Resolves s (issueQueue q t) := by
  induction q generalizing t with
  | nil => exact h.frame rfl rfl
  | cons e rest ih =>
    have taken : Resolves s (t.setJournal { t.journal with queue := rest }) := h.frame rfl rfl
    unfold Machine.issueQueue
    split
    · exact taken.issueRecord _ _ _
    · have told : Resolves s (raiseStoreFault .noRoom none (t.setJournal { t.journal with queue := rest })) :=
        taken.frame rfl rfl
      exact ih (told.recordLost e)

/-- R79, R80: a record that joins the queue leaves no slot awaiting a reply anew. -/
theorem Resolves.appendRecord {s t : State} (h : Resolves s t) (e : QueuedRecord) : Resolves s (appendRecord e t) := by
  have joined : Resolves s (t.setJournal { t.journal with queue := t.journal.queue ++ [e] }) := h.frame rfl rfl
  unfold Machine.appendRecord issueNext
  split
  · exact joined
  · exact joined.issueQueue _

/-! ### Stand-in -/

/-- R48: an offline approval changes the slot to STORING, and its record leaves no slot awaiting a reply anew. -/
theorem approveOffline_resolves (i : Nat) (a : Auth) (row : IrtRow) (standIn : Bool) (s : State) :
    Resolves (setSlot i (some (a.stored row standIn)) s) (approveOffline i a row standIn s) := by
  have counted : Resolves (setSlot i (some (a.stored row standIn)) s)
      ((setSlot i (some (a.stored row standIn)) s).setTally (countRecord (approvalRecord s (a.stored row standIn))
        s.tally)) := (Resolves.refl _).frame rfl rfl
  exact counted.appendRecord _

/-- R52, R53: the slot of a payment resolved by stand-in awaits no reply. -/
theorem standIn_resolves (i : Nat) (s : State) :
    Resolves s (standIn i s) ∧ awaiting (slotAt (standIn i s) i) = false := by
  cases held : slotAt s i with
  | none =>
    have kept : standIn i s = s := by rw [standIn, held]
    rw [kept, held]
    exact ⟨Resolves.refl s, rfl⟩
  | some a =>
    have inside := lt_of_slotAt held
    have joined (o : LateOutcome) : Resolves s (joinLate a.txn o (unanswered i a.txn s)) :=
      (Resolves.refl s).frame rfl rfl
    cases row : standInRow (unanswered i a.txn s) a with
    | none =>
      rw [standIn_refused held row]
      refine ⟨(joined .declined).settleSlot .., ?_⟩
      rw [slotAt_settleSlot, if_pos ⟨rfl, inside⟩]
      rfl
    | some r =>
      rw [standIn_approved held row]
      have after := approveOffline_resolves i a r true (joinLate a.txn .stoodIn (unanswered i a.txn s))
      refine ⟨((joined .stoodIn).setSlot i rfl).trans after, Bool.eq_false_iff.mpr (fun waits => ?_)⟩
      have before := after.before i waits
      rw [slotAt_setSlot, if_pos (by exact ⟨rfl, inside⟩)] at before
      cases before

/-- Changes that each resolve their slot leave of the slots awaiting a reply those that they are not told of. -/
theorem resolves_foldl {f : State → Nat → State}
    (hf : ∀ s i, Resolves s (f s i) ∧ awaiting (slotAt (f s i) i) = false) (l : List Nat) (s : State) :
    Resolves s (l.foldl f s) ∧ ∀ i ∈ l, awaiting (slotAt (l.foldl f s) i) = false := by
  induction l generalizing s with
  | nil => exact ⟨Resolves.refl s, nofun⟩
  | cons k rest ih =>
    obtain ⟨step, resolved⟩ := hf s k
    obtain ⟨others, all⟩ := ih (f s k)
    refine ⟨step.trans others, fun i mem => ?_⟩
    rcases List.mem_cons.mp mem with rfl | later
    · refine Bool.eq_false_iff.mpr (fun waits => ?_)
      rw [others.before i waits] at resolved
      cases resolved
    · exact all i later

theorem mem_awaitingSlots {s : State} {i : Nat} : i ∈ awaitingSlots s ↔ awaiting (slotAt s i) = true := by
  rw [awaitingSlots, List.mem_filter, List.mem_range, and_iff_right_iff_imp]
  intro waits
  cases held : slotAt s i with
  | none => rw [held] at waits; cases waits
  | some a => exact lt_of_slotAt held

theorem mem_insertByTxn (s : State) (i j : Nat) (l : List Nat) : j ∈ insertByTxn s i l ↔ j = i ∨ j ∈ l := by
  induction l with
  | nil => simp [insertByTxn]
  | cons k rest ih =>
    rw [insertByTxn]
    split
    · simp
    · simp only [List.mem_cons, ih]
      exact or_left_comm

theorem mem_awaitingByTxn {s : State} {i : Nat} : i ∈ awaitingByTxn s ↔ awaiting (slotAt s i) = true := by
  rw [← mem_awaitingSlots, awaitingByTxn]
  induction awaitingSlots s with
  | nil => rfl
  | cons k rest ih => rw [List.foldr_cons, mem_insertByTxn, ih, List.mem_cons]

/-- R54: after the stand-ins no slot awaits a reply, and LINK_CHANGE is as it was. -/
theorem standInAll_resolves (s : State) :
    (∀ i, awaiting (slotAt (standInAll s) i) = false)
      ∧ (standInAll s).events.latches.linkChange = s.events.latches.linkChange := by
  obtain ⟨kept, resolved⟩ := resolves_foldl (fun s i => standIn_resolves i s) (awaitingByTxn s) s
  refine ⟨fun i => Bool.eq_false_iff.mpr (fun waits => ?_), kept.linkChange⟩
  have all := resolved i (mem_awaitingByTxn.mpr (kept.before i waits))
  exact absurd (all.symm.trans waits) (by decide)

/-! ### The frames that stand-in withdraws -/

/-- The AUTH REQUESTs apart, the uplink queues are as they were. -/
def AuthOnly (s t : State) : Prop := ∃ auth, t.arbiter = { s.arbiter with auth := auth }

/-- R52, R161: a stand-in withdraws AUTH REQUESTs alone. -/
theorem standIn_authOnly (i : Nat) (s : State) : AuthOnly s (standIn i s) := by
  cases held : slotAt s i with
  | none => exact ⟨s.arbiter.auth, by rw [standIn, held]⟩
  | some a =>
    refine ⟨s.arbiter.auth.filter (fun f => !f.isAuthOf a.txn), ?_⟩
    cases row : standInRow (unanswered i a.txn s) a with
    | none =>
      rw [standIn_refused held row]
      exact settleSlot_changedOnly i a .declined .noReply a.issuer _ .arbiter (by decide)
    | some r =>
      rw [standIn_approved held row]
      exact ((same_approveOffline (p := .arbiter) i a r true (by decide) (by decide) (by decide) (by decide) (by decide)
        (by decide) (by decide)).mpr (same_self .arbiter _) :
          Part.arbiter.same (joinLate a.txn .stoodIn (unanswered i a.txn s)) _)

theorem standInAll_authOnly (s : State) : AuthOnly s (standInAll s) := by
  unfold standInAll
  generalize awaitingByTxn s = l
  induction l generalizing s with
  | nil => exact ⟨s.arbiter.auth, rfl⟩
  | cons i rest ih =>
    obtain ⟨auth, step⟩ := standIn_authOnly i s
    obtain ⟨auth', later⟩ := ih (standIn i s)
    exact ⟨auth', later.trans (by rw [step])⟩

/-! ### The link leaves UP -/

/-- R111: the outstanding record returns to LIVE in the journal. -/
theorem returnOutstanding_eq (s : State) :
    returnOutstanding s = { s with journal := (returnOutstanding s).journal } := by
  unfold returnOutstanding
  split <;> rfl

/-- R111: the Uploader and the UPLOAD queue of a link that leaves UP. -/
theorem uploaderOff_eq (u : State) :
    uploaderOff (withdrawAllAuth u) = { u with
      journal := (returnOutstanding (withdrawAllAuth u)).journal
      arbiter := { u.arbiter with auth := [], upload := [] }
      uploader := .off
      timers := { u.timers with upload := none } } := by
  rw [uploaderOff, returnOutstanding_eq]
  rfl

/-- R54, R111, R161: what the link leaving UP changes. -/
theorem linkLeavesUp_changedOnly (s : State) :
    ChangedOnly [.replyTimers, .uploadTimer, .arbiter, .decision, .bills, .tally, .journal, .store, .host, .uploader,
      .events] s (linkLeavesUp s) := by
  intro p other
  simp only [List.mem_cons, List.not_mem_nil, or_false, not_or] at other
  obtain ⟨reply, upload, arbiter, decision, bills, tally, journal, store, host, uploader, events⟩ := other
  simp [linkLeavesUp, *, same_self]

/-- R54, R111, R161: the payments, the queues and the Uploader once the link has left UP. -/
theorem linkLeavesUp_effects (s : State) :
    (∀ i, awaiting (slotAt (linkLeavesUp s) i) = false)
      ∧ (linkLeavesUp s).events.latches.linkChange = s.events.latches.linkChange
      ∧ (linkLeavesUp s).arbiter = { s.arbiter with auth := [], upload := [] }
      ∧ (linkLeavesUp s).uploader = .off ∧ (linkLeavesUp s).timers.upload = none := by
  obtain ⟨resolved, linkChange⟩ := standInAll_resolves s
  obtain ⟨auth, queues⟩ := standInAll_authOnly s
  rw [linkLeavesUp]
  generalize standInAll s = u at *
  rw [uploaderOff_eq]
  refine ⟨resolved, linkChange, ?_, rfl, rfl⟩
  rw [queues]

/-- R146: the part whose BEACON WATCH has expired, its link DOWN. -/
def linkLost (s : State) : State :=
  { s with link := { s.link with state := .down }, timers := { s.timers with beaconWatch := none } }

/-- Settles O43. -/
theorem beaconLossTakesTheLinkDown : Obligations.BeaconLossTakesTheLinkDown := by
  intro s expired
  have runs : exec .beaconWatchExpiry s = .next (beaconExpiry (s.setTimers { s.timers with beaconWatch := none })) :=
    congrArg Host.Outcome.next (if_pos expired)
  refine ⟨fun search => ?_, fun up => ?_⟩
  · refine runs.trans (congrArg Host.Outcome.next ?_)
    have search' : (s.setTimers { s.timers with beaconWatch := none }).link.state = .search := search
    rw [beaconExpiry, search']
    rfl
  · have runs' : exec .beaconWatchExpiry s =
        .next (raiseLinkChange .down (s.link.cell.getD 0) (s.link.cell.getD 0) (linkLeavesUp (linkLost s))) := by
      have up' : (s.setTimers { s.timers with beaconWatch := none }).link.state = .up := up
      rw [runs, beaconExpiry, up']
      rfl
    have kept := linkLeavesUp_changedOnly (linkLost s)
    obtain ⟨resolved, linkChange, queues, uploader, timer⟩ := linkLeavesUp_effects (linkLost s)
    rw [raiseLinkChange_eq, linkChange] at runs'
    refine ⟨_, runs', fun p other => ?_, kept .link (by decide), kept .beaconWatch (by decide), resolved, queues,
      uploader, timer, rfl⟩
    simp only [List.mem_cons, List.not_mem_nil, or_false, not_or] at other
    obtain ⟨link, reply, watch, upload, arbiter, decision, bills, tally, journal, store, host, off, events⟩ := other
    have inner := kept p (by simp [*])
    cases p <;> first | exact absurd rfl ‹_› | exact inner

/-! ### The session and the pending verify -/

/-- R141: an abort changes the loader and the tables alone. -/
theorem abortSession_eq (s : State) :
    abortSession s = { s with
      loader := (abortSession s).loader, irt := (abortSession s).irt, profile := (abortSession s).profile } := by
  unfold abortSession
  split
  · rename_i se _ _
    cases se.table <;> rfl
  · rfl

/-- R141: a session in ROWS is aborted, its table INVALID. -/
theorem abortSession_rows {s : State} {se : Session} (rows : s.loader.phase = .rows)
    (session : s.loader.session = some se) :
    abortSession s = invalidTable se.table se.generation
      (s.setLoader { s.loader with
        phase := if se.bufferBusy then .draining se.table else .idle, session := none, close := none }) := by
  rw [abortSession, rows, session]

/-- R141: outside ROWS there is nothing to abort. -/
theorem abortSession_other {s : State} (other : s.loader.phase ≠ .rows) : abortSession s = s := by
  unfold abortSession
  split
  · exact absurd ‹_› other
  · rfl

/-- R141: the loader and the tables of a part `t` that RELEASE or LINK RESET has taken from `s`. -/
structure Aborted (s t : State) : Prop where
  verify : t.loader.pendingVerify = none
  rows : ∀ se, s.loader.phase = .rows → s.loader.session = some se →
    t.loader.session = none ∧ tableState t se.table = .invalid ∧ tableGeneration t se.table = se.generation
      ∧ t.loader.phase = if se.bufferBusy then .draining se.table else .idle
  other : s.loader.phase ≠ .rows →
    t.loader = { s.loader with pendingVerify := none } ∧ t.irt = s.irt ∧ t.profile = s.profile

theorem aborted (s : State) : Aborted s (endPendingVerify (abortSession s)) := by
  refine ⟨rfl, fun se rows session => ?_, fun other => ?_⟩
  · rw [abortSession_rows rows session]
    obtain ⟨table, _⟩ := se
    cases table <;> exact ⟨rfl, rfl, rfl, rfl⟩
  · rw [abortSession_other other]
    exact ⟨rfl, rfl, rfl⟩

/-- The abort reads the loader and leaves the tables of a part that agrees with another on them. -/
theorem Aborted.congr {s s' t t' : State} (h : Aborted s t)
    (before : s'.loader = s.loader ∧ s'.irt = s.irt ∧ s'.profile = s.profile)
    (after : t'.loader = t.loader ∧ t'.irt = t.irt ∧ t'.profile = t.profile) : Aborted s' t' := by
  obtain ⟨loader, irt, profile⟩ := before
  obtain ⟨loader', irt', profile'⟩ := after
  have state (n : TableName) : tableState t' n = tableState t n := by cases n <;> simp [tableState, irt', profile']
  have generation (n : TableName) : tableGeneration t' n = tableGeneration t n := by
    cases n <;> simp [tableGeneration, irt', profile']
  refine ⟨by rw [loader']; exact h.verify, fun se rows session => ?_, fun other => ?_⟩
  · rw [loader'] at *
    rw [state, generation]
    exact h.rows se (by rwa [loader] at rows) (by rwa [loader] at session)
  · rw [loader] at other
    rw [loader', irt', profile', loader, irt, profile]
    exact h.other other

/-! ### RELEASE -/

/-- R151: the part that a RELEASE has taken off the floor, its link having left UP in `w`, before LINK_CHANGE is
raised. -/
def released (tag : BitVec 16) (link : Link) (w : State) : State :=
  { w with
    loader := { (abortSession w).loader with pendingVerify := none }
    irt := (abortSession w).irt
    profile := (abortSession w).profile
    arbiter := mgmtAnswered w.arbiter link.addr 0x02 tag (.released link.addr)
    timers := { w.timers with beaconWatch := none, presence := none, slot := none }
    link := { link with state := .search, addr := 0, replySlot := 0, cell := none, base := none } }

/-- R141, R151: a part that has left UP, its session aborted and its pending verify ended. -/
theorem endPendingVerify_abortSession (w : State) :
    endPendingVerify (abortSession w) = { w with
      loader := { (abortSession w).loader with pendingVerify := none }
      irt := (abortSession w).irt
      profile := (abortSession w).profile
      timers := { w.timers with slot := none } } :=
  (congrArg endPendingVerify (abortSession_eq w)).trans rfl

/-- R151 steps 3 to 6. -/
theorem releaseLink_eq {addr : BitVec 8} (alone : addr ≠ broadcastAddr) (tag : BitVec 16) (w : State) :
    releaseLink (answerCommand (.release addr tag) (.released w.link.addr) (endPendingVerify (abortSession w))) =
      raiseLinkChange .search (w.link.cell.getD 0) 0 (released tag w.link w) := by
  rw [answerCommand_alone (by exact alone), endPendingVerify_abortSession]
  rfl

/-- R151: what a RELEASE makes of the part. -/
theorem takeRelease_eq {addr : BitVec 8} (alone : addr ≠ broadcastAddr) (tag : BitVec 16) (s : State) :
    takeRelease (.release addr tag) s =
      raiseLinkChange .search (s.link.cell.getD 0) 0 (released tag s.link (linkLeavesUp s)) := by
  have single : unicast (.release addr tag) = true := (unicast_iff _).mpr alone
  have link : (linkLeavesUp s).link = s.link := linkLeavesUp_changedOnly s .link (by decide)
  have taken : takeRelease (.release addr tag) s =
      releaseLink (answerCommand (.release addr tag) (.released s.link.addr) (releaseTraffic s)) := by
    rw [takeRelease, single]
    rfl
  rw [taken, ← link]
  exact releaseLink_eq alone tag (linkLeavesUp s)

/-- Settles O28. -/
theorem releaseReturnsToSearch : Obligations.ReleaseReturnsToSearch := by
  intro addr tag s ready
  have runs : exec (.release addr tag) s = .next (takeRelease (.release addr tag) (radioFrameEnded s)) :=
    gated (c := .release addr tag) ready rfl
  rw [takeRelease_eq ready.2.2.2.1] at runs
  have kept := linkLeavesUp_changedOnly (radioFrameEnded s)
  obtain ⟨resolved, linkChange, queues, uploader, timer⟩ := linkLeavesUp_effects (radioFrameEnded s)
  generalize linkLeavesUp (radioFrameEnded s) = w at *
  have tables := (aborted w).congr (s' := s) (t' := released tag s.link w)
    ⟨(kept .loader (by decide)).symm, (kept .irt (by decide)).symm, (kept .profile (by decide)).symm⟩ ⟨rfl, rfl, rfl⟩
  have change : (released tag s.link w).events.latches.linkChange = s.events.latches.linkChange := linkChange
  have auth : w.arbiter.auth = [] := congrArg Arbiter.auth queues
  have upload : w.arbiter.upload = [] := congrArg Arbiter.upload queues
  have data : w.arbiter.data = s.arbiter.data := by rw [queues]; rfl
  have mgmt : w.arbiter.mgmt = s.arbiter.mgmt := by rw [queues]; rfl
  have raised := raiseLinkChange_eq .search (s.link.cell.getD 0) 0 (released tag s.link w)
  rw [change] at raised
  have replied : (released tag s.link w).arbiter.mgmt = s.arbiter.mgmt ++
      [{ tag := tag, addr := s.link.addr, payload := .mgmtReply 0x02 (.released s.link.addr) }] := by
    rw [← mgmt]
    rfl
  refine ⟨_, runs.trans (congrArg Host.Outcome.next raised), fun p other => ?_, rfl, rfl, rfl, rfl, timer, uploader,
    auth, upload, data, replied, resolved, tables.verify, tables.rows, tables.other, rfl⟩
  simp only [List.mem_cons, List.not_mem_nil, or_false, not_or] at other
  obtain ⟨radio, link, reply, watch, upload, slot, presence, arbiter, decision, bills, tally, journal, store, host, off,
    loader, irt, profile, events⟩ := other
  have inner := kept p (by simp [*])
  cases p <;> first | exact absurd rfl ‹_› | exact inner

/-! ### LINK RESET: the payments -/

/-- R55: a payment that LINK RESET declines. -/
def declinedByReset (a : Auth) : Auth := finished a .declined .linkReset a.issuer

/-- R55: what LINK RESET keeps of the Decision Unit, and LINK_CHANGE. -/
structure Declines (s t : State) : Prop where
  decision : t.decision = { s.decision with slots := t.decision.slots }
  linkChange : t.events.latches.linkChange = s.events.latches.linkChange

theorem declineReset_declines (i : Nat) (s : State) : Declines s (declineReset i s) := by
  unfold declineReset
  split
  · exact ⟨rfl, rfl⟩
  · refine ⟨?_, settleSlot_linkChange ..⟩
    rw [settleSlot_decision]
    rfl

theorem slotAt_declineReset (i j : Nat) (s : State) :
    slotAt (declineReset i s) j = if j = i then (slotAt s i).map declinedByReset else slotAt s j := by
  unfold declineReset
  split
  · rename_i free
    split
    · rename_i here
      rw [here, free]
      rfl
    · rfl
  · rename_i a held
    rw [slotAt_settleSlot, held]
    by_cases here : j = i
    · rw [if_pos ⟨here, lt_of_slotAt held⟩, if_pos here]
      rfl
    · rw [if_neg (fun h => here h.1), if_neg here]
      rfl

/-- R55: the payments declined are those awaiting a reply. -/
theorem slotAt_declineEach (l : List Nat) (s : State) (j : Nat) :
    slotAt (l.foldl (fun s i => declineReset i s) s) j =
      if j ∈ l then (slotAt s j).map declinedByReset else slotAt s j := by
  induction l generalizing s with
  | nil => rfl
  | cons i rest ih =>
    rw [List.foldl_cons, ih, slotAt_declineReset]
    by_cases here : j = i
    · subst here
      cases slotAt s j <;> simp [declinedByReset, finished]
    · simp [here]

theorem slotAt_declineAll (s : State) (i : Nat) :
    slotAt (declineAll s) i =
      if awaiting (slotAt s i) = true then (slotAt s i).map declinedByReset else slotAt s i := by
  rw [declineAll, slotAt_declineEach]
  exact if_congr mem_awaitingSlots rfl rfl

theorem declineAll_declines (s : State) : Declines s (declineAll s) := by
  unfold declineAll
  generalize awaitingSlots s = l
  induction l generalizing s with
  | nil => exact ⟨rfl, rfl⟩
  | cons i rest ih =>
    have step := declineReset_declines i s
    have later := ih (declineReset i s)
    refine ⟨later.decision.trans ?_, later.linkChange.trans step.linkChange⟩
    rw [step.decision]
    rfl

/-- R55: what LINK RESET changes for the payments. -/
theorem declineAll_changedOnly (s : State) :
    ChangedOnly [.replyTimers, .decision, .bills, .events] s (declineAll s) := by
  intro p other
  simp only [List.mem_cons, List.not_mem_nil, or_false, not_or] at other
  obtain ⟨reply, decision, bills, events⟩ := other
  simp [*, same_self]

/-! ### LINK RESET: the Uploader -/

/-- R112: the part with nothing in upload, from which LINK RESET starts the Uploader afresh. -/
def uploadCleared (u : State) : State :=
  { u with
    journal := (returnOutstanding u).journal
    arbiter := { u.arbiter with upload := [] }
    timers := { u.timers with upload := none } }

theorem uploaderRestart_eq (u : State) :
    uploaderRestart u =
      if u.link.state = .up then selectRecord ((uploadCleared u).setUploader .idle)
      else (uploadCleared u).setUploader .off := by
  rw [uploaderRestart, returnOutstanding_eq]
  rfl

/-- The first LIVE record is the journal's. -/
theorem firstLive_congr {s t : State} (h : s.journal = t.journal) : firstLive s = firstLive t := by
  have journal (u : State) : firstLive { s with journal := u.journal } = firstLive u := rfl
  rw [← journal s, h, journal]

/-- R111: the journal with the outstanding record LIVE again is the Uploader's and the journal's. -/
theorem returnOutstanding_congr {s t : State} (uploader : s.uploader = t.uploader) (journal : s.journal = t.journal) :
    (returnOutstanding s).journal = (returnOutstanding t).journal := by
  rw [returnOutstanding, returnOutstanding, uploader]
  cases t.uploader <;> first | exact journal | exact congrArg (fun j => Journal.onSlot j _ _) journal

/-- R112: the Uploader that LINK RESET has started afresh, from a part whose Uploader, link, journal and array are those
of `s`. -/
theorem uploaderRestart_cases {s u : State} (uploader : u.uploader = s.uploader) (link : u.link = s.link)
    (journal : u.journal = s.journal) (array : u.array = s.array) :
    (s.link.state ≠ .up →
      (uploaderRestart u).uploader = .off ∧ (uploaderRestart u).journal = (returnOutstanding s).journal
        ∧ (uploaderRestart u).arbiter.upload = [] ∧ (uploaderRestart u).timers.upload = none)
    ∧ (s.link.state = .up → firstLive (returnOutstanding s) = none →
      (uploaderRestart u).uploader = .idle ∧ (uploaderRestart u).journal = (returnOutstanding s).journal
        ∧ (uploaderRestart u).arbiter.upload = [] ∧ (uploaderRestart u).timers.upload = none)
    ∧ (∀ loc, s.link.state = .up → firstLive (returnOutstanding s) = some loc →
      (uploaderRestart u).uploader = .awaitingConfirm loc (field (s.array.readBytes loc.addr 30) 0 4) 1
        ∧ (uploaderRestart u).journal =
            (returnOutstanding s).journal.onSlot loc (fun x => { x with state := .outstanding })
        ∧ (uploaderRestart u).timers.upload = some (params (uploaderRestart u)).uploadRetry
        ∧ (uploaderRestart u).arbiter.upload =
            [{ tag := BitVec.ofNat 16 (field (s.array.readBytes loc.addr 30) 0 4), addr := s.link.addr,
               payload := .upload (field (s.array.readBytes loc.addr 30) 0 4) (s.array.readBytes loc.addr 30) 1 }]) := by
  have journal' : (returnOutstanding u).journal = (returnOutstanding s).journal :=
    returnOutstanding_congr uploader journal
  have live : firstLive ((uploadCleared u).setUploader .idle) = firstLive (returnOutstanding s) :=
    firstLive_congr (t := returnOutstanding s) journal'
  rw [uploaderRestart_eq, link]
  refine ⟨fun down => ?_, fun up noRecord => ?_, fun loc up record => ?_⟩
  · rw [if_neg down]
    exact ⟨rfl, journal', rfl, rfl⟩
  · rw [if_pos up, selectRecord_none (live.trans noRecord)]
    exact ⟨rfl, journal', rfl, rfl⟩
  · rw [if_pos up, selectRecord_some (live.trans record), selectAt_eq]
    have array' : ((uploadCleared u).setUploader .idle).array = s.array := array
    have link' : ((uploadCleared u).setUploader .idle).link = s.link := link
    have journal'' : ((uploadCleared u).setUploader .idle).journal = (returnOutstanding s).journal := journal'
    rw [array', link', journal'']
    exact ⟨rfl, rfl, rfl, rfl⟩

/-! ### LINK RESET -/

/-- R152: the part before LINK RESET starts the Uploader afresh, its payments declined in `d`. -/
def resetCleared (tag : BitVec 16) (addr : Nat) (d : State) : State :=
  { d with
    loader := { (abortSession d).loader with pendingVerify := none }
    irt := (abortSession d).irt
    profile := (abortSession d).profile
    timers := { d.timers with slot := none }
    arbiter := { d.arbiter with
      mgmt := [{ tag := tag, addr := addr, payload := .mgmtReply 0x03 (.plain .ok) }]
      auth := [], upload := [], data := [], presence := [], waitingVerify := [] } }

/-- R152 steps 2 to 4. -/
theorem resetCleared_eq {addr : BitVec 8} (alone : addr ≠ broadcastAddr) (tag : BitVec 16) (d : State) :
    answerCommand (.linkReset addr tag) (.plain .ok) (emptyQueues (endPendingVerify (abortSession d))) =
      resetCleared tag d.link.addr d := by
  rw [answerCommand_alone (by exact alone), endPendingVerify_abortSession]
  rfl

theorem takeLinkReset_eq {addr : BitVec 8} (alone : addr ≠ broadcastAddr) (tag : BitVec 16) (s : State) :
    takeLinkReset (.linkReset addr tag) s = uploaderRestart (resetCleared tag s.link.addr (declineAll s)) := by
  have single : unicast (.linkReset addr tag) = true := (unicast_iff _).mpr alone
  have link : (declineAll s).link = s.link := declineAll_changedOnly s .link (by decide)
  have taken : takeLinkReset (.linkReset addr tag) s = uploaderRestart (answerCommand (.linkReset addr tag) (.plain .ok)
      (emptyQueues (endPendingVerify (abortSession (declineAll s))))) := by
    rw [takeLinkReset, single]
    rfl
  rw [taken, resetCleared_eq alone, link]

/-- R112: the uplink queues but that of UPLOAD frames are as LINK RESET left them. -/
theorem uploaderRestart_arbiter (u : State) :
    (uploaderRestart u).arbiter = { u.arbiter with upload := (uploaderRestart u).arbiter.upload } := by
  rw [uploaderRestart_eq, selectRecord]
  split
  · split <;> rfl
  · rfl

/-- R112: what starting the Uploader afresh changes. -/
theorem uploaderRestart_changedOnly (u : State) :
    ChangedOnly [.journal, .uploader, .uploadTimer, .arbiter] u (uploaderRestart u) := by
  intro p other
  simp only [List.mem_cons, List.not_mem_nil, or_false, not_or] at other
  obtain ⟨journal, uploader, upload, arbiter⟩ := other
  simp [*, same_self]

/-- Settles O29. -/
theorem linkResetClearsTheTraffic : Obligations.LinkResetClearsTheTraffic := by
  intro addr tag s ready
  have runs : exec (.linkReset addr tag) s = .next (takeLinkReset (.linkReset addr tag) (radioFrameEnded s)) :=
    gated (c := .linkReset addr tag) ready rfl
  rw [takeLinkReset_eq ready.2.2.2.1, show (radioFrameEnded s).link = s.link from rfl] at runs
  have declined := declineAll_changedOnly (radioFrameEnded s)
  have decides := declineAll_declines (radioFrameEnded s)
  have slots := slotAt_declineAll (radioFrameEnded s)
  generalize declineAll (radioFrameEnded s) = d at *
  have restarted := uploaderRestart_changedOnly (resetCleared tag s.link.addr d)
  have queues := uploaderRestart_arbiter (resetCleared tag s.link.addr d)
  have uploads := uploaderRestart_cases (s := s) (u := resetCleared tag s.link.addr d)
    (declined .uploader (by decide)) (declined .link (by decide)) (declined .journal (by decide))
    (declined .array (by decide))
  have tables := (aborted d).congr (s' := s) (t' := uploaderRestart (resetCleared tag s.link.addr d))
    ⟨(declined .loader (by decide)).symm, (declined .irt (by decide)).symm, (declined .profile (by decide)).symm⟩
    ⟨restarted .loader (by decide), restarted .irt (by decide), restarted .profile (by decide)⟩
  have decision : (uploaderRestart (resetCleared tag s.link.addr d)).decision = d.decision :=
    restarted .decision (by decide)
  have events : (uploaderRestart (resetCleared tag s.link.addr d)).events = d.events := restarted .events (by decide)
  have slotTimer := restarted .slotTimer (by decide)
  have reached (i : Nat) : slotAt (uploaderRestart (resetCleared tag s.link.addr d)) i =
      if awaiting (slotAt s i) = true then (slotAt s i).map declinedByReset else slotAt s i := by
    rw [slotAt, decision]
    exact slots i
  have sending : d.arbiter.sending = s.arbiter.sending := congrArg Arbiter.sending (declined .arbiter (by decide))
  refine ⟨_, runs, fun p other => ?_, fun i a held awaits => ?_, fun i quiet => ?_, ?_, ?_, ?_, ?_, ?_, ?_, ?_, ?_, ?_,
    slotTimer, tables.verify, ?_, tables.rows, tables.other, ?_⟩
  · simp only [List.mem_cons, List.not_mem_nil, or_false, not_or] at other
    obtain ⟨radio, reply, upload, slot, arbiter, decision, bills, journal, uploader, loader, irt, profile, events⟩ :=
      other
    have inner := declined p (by simp [*])
    have outer := restarted p (by simp [*])
    cases p <;> first | exact absurd rfl ‹_› | exact outer.trans inner
  · rw [reached, held, awaiting, awaits]
    rfl
  · rw [reached, quiet]
    rfl
  iterate 3
    · rw [decision, decides.decision]
      rfl
  iterate 5
    · rw [queues]
      rfl
  · rw [queues]
    exact sending
  · rw [events]
    exact decides.linkChange
  · intro back
    have returned : back = returnOutstanding s := by
      simp only [back, returnOutstanding]
      cases s.uploader <;> rfl
    rw [returned]
    exact uploads

end Sys2Proof.Proofs.LinkLoss
end

