-- ==== Sys2Proof/Proofs/Choice.lean ====
section
/-! PROOFS. Small machines read off case by case: the Store Engine's choice (O45), the transaction numbers (O21), the
balance of a bill (O14). -/

namespace Sys2Proof.Proofs.Choice

open Sys2Proof.Machine Sys2Proof.Safety Sys2Proof.Laws Sys2Proof.Proofs.Bills

/-! ### The Store Engine's choice -/

/-- R119: an idle engine starts what it chooses. -/
theorem exec_start {s : State} (idle : s.store.running = none) {op : StoreOp} {st : Store}
    (chosen : s.store.choose (s.pins.pwrwarn == .deasserted) = some (op, st)) :
    exec .storeOperationStart s = .next { s with store := { st with running := some op } } := by
  refine congrArg Host.Outcome.next ?_
  rw [startOperation, idle]
  simp only [chosen]
  rfl

/-- R119: an idle engine with nothing that may start. -/
theorem exec_start_none {s : State} (idle : s.store.running = none)
    (nothing : s.store.choose (s.pins.pwrwarn == .deasserted) = none) : exec .storeOperationStart s = .next s := by
  refine congrArg Host.Outcome.next ?_
  rw [startOperation, idle]
  simp only [nothing]

/-- R119: with no record program, mark, epoch program or page program waiting, an erase is next. -/
theorem choose_erase {st : Store} (record : st.recordPlace = none) (marks : st.marks = []) (epoch : st.epochPlace = none)
    (page : st.pagePlace = none) :
    st.choose true = (nextErase st.erases).map (fun r => (.blockErase r, { st with erases := st.erases.erase r })) := by
  simp only [Store.choose, record, marks, epoch, page, if_true]
  cases nextErase st.erases <;> rfl

/-- R119: the oldest journal erase comes first. -/
theorem nextErase_journal {before after : List EraseRequest} {r : EraseRequest} (journal : r.isJournal = true)
    (others : ∀ q ∈ before, q.isJournal = false) : nextErase (before ++ r :: after) = some r := by
  have first : (before ++ r :: after).find? EraseRequest.isJournal = some r := by
    rw [List.find?_append, List.find?_eq_none.mpr (by simpa using others), List.find?_cons_of_pos journal]
    rfl
  rw [nextErase, first]

/-- R119: then the epoch block. -/
theorem nextErase_epoch {before after : List EraseRequest} {r : EraseRequest} (epoch : r.target = .epoch)
    (noJournal : ∀ q ∈ before ++ r :: after, q.isJournal = false) (others : ∀ q ∈ before, q.target ≠ .epoch) :
    nextErase (before ++ r :: after) = some r := by
  have none' : (before ++ r :: after).find? EraseRequest.isJournal = none :=
    List.find?_eq_none.mpr (by simpa using noJournal)
  have first : (before ++ r :: after).find? (fun q => q.target == .epoch) = some r := by
    rw [List.find?_append, List.find?_eq_none.mpr (by simpa using others),
      List.find?_cons_of_pos (by simp [epoch])]
    rfl
  rw [nextErase, none', first]

/-- R119: last the table's block. -/
theorem nextErase_table {rest : List EraseRequest} {r : EraseRequest} {t : TableName} (table : r.target = .table t)
    (others : ∀ q ∈ rest, q.isJournal = false ∧ q.target ≠ .epoch) : nextErase (r :: rest) = some r := by
  have here : r.isJournal = false := by rw [EraseRequest.isJournal, table]
  have noJournal : (r :: rest).find? EraseRequest.isJournal = none :=
    List.find?_eq_none.mpr (by simpa [here] using fun q hq => (others q hq).1)
  have noEpoch : (r :: rest).find? (fun q => q.target == .epoch) = none :=
    List.find?_eq_none.mpr (by simpa [table] using fun q hq => (others q hq).2)
  rw [nextErase, noJournal, noEpoch]
  rfl

/-- An entry that none before it equals is the one erased. -/
theorem erase_first {before after : List EraseRequest} {r : EraseRequest} (others : r ∉ before) :
    (before ++ r :: after).erase r = before ++ after := by
  rw [List.erase_append_right _ others, List.erase_cons_head]

/-- Settles O45. -/
theorem storeEngineChoosesInOrder : Obligations.StoreEngineChoosesInOrder := by
  intro s started
  refine ⟨fun busy => ?_, fun idle => ⟨fun loc bytes record => ?_, fun record => ⟨fun r rest marks => ?_,
    fun marks warned => ?_, fun marks powered => ⟨fun w e epoch => ?_, fun epoch => ⟨fun r page => ?_,
      fun page => ⟨fun r before after erases journal others => ?_, fun r before after erases target noJournal others => ?_,
        fun r rest t erases target others => ?_, fun erases => ?_⟩⟩⟩⟩⟩⟩
  · refine congrArg Host.Outcome.next ?_
    obtain ⟨op, running⟩ := Option.ne_none_iff_exists'.mp busy
    rw [startOperation, running]
  · exact exec_start idle (by simp only [Store.choose, record])
  · exact exec_start idle (by simp only [Store.choose, record, marks])
  · exact exec_start_none idle (by simp [Store.choose, record, marks, warned])
  · exact exec_start idle (by simp [Store.choose, record, marks, powered, epoch])
  · exact exec_start idle (by simp [Store.choose, record, marks, powered, epoch, page])
  · refine exec_start idle ?_
    rw [powered, beq_self_eq_true, choose_erase record marks epoch page, erases, nextErase_journal journal others]
    rw [Option.map_some, erase_first (fun mem => by simp [others r mem] at journal)]
  · refine exec_start idle ?_
    rw [powered, beq_self_eq_true, choose_erase record marks epoch page, erases,
      nextErase_epoch target (by rwa [← erases]) others]
    rw [Option.map_some, erase_first (fun mem => others r mem target)]
  · refine exec_start idle ?_
    rw [powered, beq_self_eq_true, choose_erase record marks epoch page, erases, nextErase_table target others]
    rw [Option.map_some, List.erase_cons_head]
  · refine exec_start_none idle ?_
    rw [powered, beq_self_eq_true, choose_erase record marks epoch page, erases]
    rfl

/-! ### Transaction numbers -/

/-- R122: an epoch update that begins, with a word left and with none. -/
theorem startUpdate_decision (epoch : Nat) (startUp : Bool) (s : State) :
    (startUpdate epoch startUp s).decision = s.decision ∧
      (startUpdate epoch startUp s).store.update = some { epoch := epoch, retry := false, startUp := startUp } := by
  unfold startUpdate stepUpdate
  split <;> exact ⟨rfl, rfl⟩

/-- Settles O21. -/
theorem transactionNumbersRise : Obligations.TransactionNumbersRise := by
  intro s room
  have kept : ChangedOnly [.decision, .store] s (issueNumber s) := by
    intro p other
    simp only [List.mem_cons, List.not_mem_nil, or_false, not_or] at other
    obtain ⟨decision, store⟩ := other
    simp [*, same_self]
  by_cases inside : s.decision.seq + 1 < 65535
  · have next : issueNumber s = s.setDecision { s.decision with seq := s.decision.seq + 1 } := if_pos inside
    refine ⟨rfl, ?_, fun _ => next, fun wrap => absurd inside (by omega), fun wrap => absurd inside (by omega), kept⟩
    rw [next]
    exact Nat.lt_succ_self _
  · by_cases epochs : s.decision.epoch < 65535
    · have next : issueNumber s = startUpdate (s.decision.epoch + 1) false
          (s.setDecision { s.decision with epoch := s.decision.epoch + 1, seq := 0, exhausted := true }) :=
        (if_neg inside).trans (if_pos epochs)
      obtain ⟨decision, update⟩ := startUpdate_decision (s.decision.epoch + 1) false
        (s.setDecision { s.decision with epoch := s.decision.epoch + 1, seq := 0, exhausted := true })
      rw [← next] at decision update
      refine ⟨rfl, ?_, fun h => absurd h inside,
        fun _ _ => ⟨decision, update, fun words => ?_, fun full => ?_⟩, fun _ h => absurd epochs (by omega), kept⟩
      · rw [nextNumber, nextNumber, decision]
        have later : s.decision.epoch * 65536 + (s.decision.seq + 1) < (s.decision.epoch + 1) * 65536 + (0 + 1) := by
          omega
        exact later
      · have word : stepUpdate (s.decision.epoch + 1)
            ((s.setDecision { s.decision with epoch := s.decision.epoch + 1, seq := 0, exhausted := true }).setStore
              { s.store with update := some { epoch := s.decision.epoch + 1, retry := false, startUp := false } }) = _ :=
          if_pos words
        rw [next, startUpdate]
        exact word ▸ ⟨rfl, rfl⟩
      · rw [next, startUpdate]
        have noWord : stepUpdate (s.decision.epoch + 1)
            ((s.setDecision { s.decision with epoch := s.decision.epoch + 1, seq := 0, exhausted := true }).setStore
              { s.store with update := some { epoch := s.decision.epoch + 1, retry := false, startUp := false } }) = _ :=
          if_neg (Nat.not_lt.mpr full)
        exact congrArg (fun u : State => u.store.erases) noWord
    · have next : issueNumber s = s.setDecision { s.decision with seq := s.decision.seq + 1, exhausted := true } :=
        (if_neg inside).trans (if_neg epochs)
      refine ⟨rfl, ?_, fun h => absurd h inside, fun _ h => absurd h epochs, fun wrap _ => ?_, kept⟩
      · rw [next]
        exact Nat.lt_succ_self _
      · rw [next, wrap]
        exact ⟨rfl, rfl⟩

/-! ### The balance of a bill -/

/-- R22: the bases of the APPROVED tenders. -/
def approvedBases (ts : List Tender) : Nat := ((ts.filter (fun u => u.state == .approved)).map Tender.base).sum

theorem approvedBases_cons (t : Tender) (ts : List Tender) :
    approvedBases (t :: ts) = (if t.state = .approved then t.base else 0) + approvedBases ts := by
  unfold approvedBases
  by_cases approved : t.state = .approved
  · simp [approved]
  · simp [approved]

/-- R22: a committed tender adds its base. -/
theorem approvedBases_append (ts : List Tender) (a : Auth) (p : Path) :
    approvedBases (ts ++ [a.tender p]) = approvedBases ts + a.base := by
  induction ts with
  | nil => simp [approvedBases, Auth.tender]
  | cons t rest ih => rw [List.cons_append, approvedBases_cons, approvedBases_cons, ih, Nat.add_assoc]

/-- Tenders that keep state and base keep the sum. -/
theorem approvedBases_map {f : Tender → Tender} (state : ∀ t, (f t).state = t.state) (base : ∀ t, (f t).base = t.base)
    (ts : List Tender) : approvedBases (ts.map f) = approvedBases ts := by
  induction ts with
  | nil => rfl
  | cons t rest ih => rw [List.map_cons, approvedBases_cons, approvedBases_cons, ih, state, base]

/-- R27, R30: tenders that follow their shares keep state and base. -/
theorem approvedBases_followShares (plan : List Share) (ts : List Tender) :
    approvedBases (followShares plan ts) = approvedBases ts := by
  refine approvedBases_map (fun t => ?_) (fun t => ?_) ts <;> split <;> rfl

/-- R36: the tenders of a bill with one of them voided. -/
def voidIn (txn : Nat) (ts : List Tender) : List Tender :=
  ts.map (fun u => if u.txn = txn then { u with state := .voided, share := 0 } else u)

theorem voidIn_absent {txn : Nat} {ts : List Tender} (absent : txn ∉ ts.map Tender.txn) : voidIn txn ts = ts := by
  refine (List.map_congr_left (fun u mem => ?_)).trans (List.map_id ts)
  exact if_neg (fun h => absent (List.mem_map.mpr ⟨u, mem, h⟩))

/-- R36: voiding the APPROVED tender of a number takes its base away. -/
theorem approvedBases_void {txn : Nat} {ts : List Tender} (distinct : (ts.map Tender.txn).Nodup)
    {u : Tender} (mem : u ∈ ts) (number : u.txn = txn) (approved : u.state = .approved) :
    ts.find? (fun t => t.txn == txn) = some u ∧ approvedBases ts = approvedBases (voidIn txn ts) + u.base := by
  induction ts with
  | nil => cases mem
  | cons t rest ih =>
    obtain ⟨fresh, distinct'⟩ := List.nodup_cons.mp distinct
    rcases List.mem_cons.mp mem with rfl | later
    · subst number
      refine ⟨List.find?_cons_of_pos (by simp), ?_⟩
      have head : voidIn u.txn (u :: rest) = { u with state := .voided, share := 0 } :: voidIn u.txn rest := by
        rw [voidIn, List.map_cons, if_pos rfl]
        rfl
      rw [head, approvedBases_cons, approvedBases_cons, voidIn_absent fresh, if_pos approved, if_neg (by simp)]
      omega
    · have other : t.txn ≠ txn := fun h => fresh (List.mem_map.mpr ⟨u, later, number.trans h.symm⟩)
      obtain ⟨found, sum⟩ := ih distinct' later
      have head : voidIn txn (t :: rest) = t :: voidIn txn rest := by
        rw [voidIn, List.map_cons, if_neg other]
        rfl
      refine ⟨(List.find?_cons_of_neg (by simpa using other)).trans found, ?_⟩
      rw [head, approvedBases_cons, approvedBases_cons, sum, Nat.add_assoc]

/-- Settles O14. -/
theorem billChangesKeepPaidBalanced : Obligations.BillChangesKeepPaidBalanced := by
  intro b a p base share txn n due balanced held
  have held' : b.paid = b.priorPaid + approvedBases b.tenders := held
  refine ⟨held, ?_, held, ?_, ?_, fun distinct approved => ?_⟩
  · have sum : b.paid + a.base = b.priorPaid + approvedBases (b.tenders ++ [a.tender p]) := by
      rw [approvedBases_append]
      omega
    exact sum
  · exact held'.trans (congrArg _ (approvedBases_followShares (b.plan.getD []) b.tenders).symm)
  · exact held'.trans (congrArg _ (approvedBases_followShares (b.plan.getD []) b.tenders).symm)
  · obtain ⟨u, mem, number, state⟩ := approved
    obtain ⟨found, sum⟩ := approvedBases_void distinct mem number state
    have voided : b.applyVoid txn =
        { b with tenders := voidIn txn b.tenders, paid := b.paid - u.base,
                 plan := b.plan.map (setShare u.share .opened 0) } := by
      rw [Bill.applyVoid, Bill.tenderOf, found]
      rfl
    rw [voided]
    have after : b.paid - u.base = b.priorPaid + approvedBases (voidIn txn b.tenders) := by omega
    exact ⟨after, List.length_map _⟩

end Sys2Proof.Proofs.Choice
end

