-- ==== Sys2Proof/Proofs/Refusals.lean ====
section
/-! PROOFS. The checks of AUTHORIZE and VOID, in order (O15). -/

namespace Sys2Proof.Proofs.Refusals

open Sys2Proof.Machine Sys2Proof.Safety Sys2Proof.Laws Sys2Proof.Proofs.Bills Sys2Proof.Proofs.Host
  Sys2Proof.Proofs.Reads

/-! ### AUTHORIZE -/

/-- R43 checks 8 to 11: what they say of the share that a payment names. -/
def shareChecks (b : Bill) (share base : Nat) : List (Bool × Answer) :=
  [ (b.planOpen && share == 0, .shareRequired),
    (share != 0 && (!b.planOpen || (b.plan.getD []).length < share), .noShare),
    (share != 0 && (b.plan.getD [])[share - 1]?.any (fun sh => sh.state != .opened), .shareTaken),
    (share != 0 && (b.plan.getD [])[share - 1]?.any (fun sh => base != sh.amount), .shareMismatch) ]

/-- R43: the checks on the share in order are those of the share's owner. -/
theorem shareChecks_eq (b : Bill) (share base : Nat) (rest : List (Bool × Answer)) :
    firstRefusal (shareChecks b share base ++ rest) = (shareRefusal b share base).or (firstRefusal rest) := by
  unfold shareRefusal
  by_cases unnamed : share = 0
  · cases plan : b.planOpen <;> simp [shareChecks, unnamed, plan]
  · by_cases opened : b.planOpen = true
    · obtain ⟨plan, held⟩ : ∃ plan, b.plan = some plan := by
        cases held : b.plan with
        | none => simp [Bill.planOpen, held] at opened
        | some plan => exact ⟨plan, rfl⟩
      cases entry : plan[share - 1]? with
      | none =>
        have beyond : plan.length < share := by
          have := List.getElem?_eq_none_iff.mp entry
          omega
        simp [shareChecks, unnamed, opened, held, beyond, Bill.shareAt, entry]
      | some sh =>
        have inside : ¬ plan.length < share := by
          have := (List.getElem?_eq_some_iff.mp entry).1
          omega
        by_cases taken : sh.state = .opened <;> by_cases amount : base = sh.amount <;>
          simp [shareChecks, unnamed, opened, held, inside, Bill.shareAt, entry, taken, amount]
    · simp [shareChecks, unnamed, opened]

/-- R43: no slot is FREE when every slot is taken. -/
theorem freeSlot_eq_none (s : State) : freeSlot s = none ↔ s.decision.slots.all Option.isSome = true := by
  rw [freeSlot, List.findIdx?_eq_none_iff, List.all_eq_true]
  refine forall_congr' (fun x => imp_congr_right (fun _ => ?_))
  cases x <;> simp

/-- R43: with an entry, the checks in order. -/
theorem authorizeChecks_of_bill {s : State} {bill : Nat} {b : Bill} (h : findBill s bill = some b)
    (share base tip : Nat) :
    authorizeChecks s bill share base tip =
      [ (s.pins.pwrwarn == .asserted, .powerLow), (base == 0, .zeroAmount),
        (9999999 < base || 9999999 < tip, .amountRange), (s.decision.slots.all Option.isSome, .slotsFull),
        (false, .noBill), (b.state == .settled, .settled),
        (decide (12 ≤ b.tenders.length + unresolvedSlots s b.number), .tendersFull) ] ++
      (shareChecks b share base ++
        [ (decide (b.due - b.paid - b.reserved < base), .overTender), (s.decision.exhausted, .numbersExhausted) ]) := by
  simp only [authorizeChecks, h]
  rfl

/-- R43: the checks of AUTHORIZE in order are those that the Decision Unit applies. -/
theorem authorizeChecks_eq (s : State) (bill share base tip : Nat) :
    firstRefusal (authorizeChecks s bill share base tip) = authorizeRefusal s bill share base tip := by
  cases h : findBill s bill with
  | none => simp [authorizeChecks, authorizeRefusal, h, freeSlot_eq_none, Limits.amountMax]
  | some b =>
    rw [authorizeChecks_of_bill h]
    simp only [List.cons_append, List.nil_append, firstRefusal_cons, shareChecks_eq]
    simp only [authorizeRefusal, h, freeSlot_eq_none, claimedPlaces, Bill.available]
    cases full : s.decision.slots.all Option.isSome <;> cases shareRefusal b share base <;>
      simp [Limits.amountMax, Limits.tenders] <;> rfl

/-- R43: an AUTHORIZE that a check refuses only makes its refusal ready. -/
theorem serveAuthorize_refused {s : State} {bill share base tip : Nat} {a : Answer}
    (refused : firstRefusal (authorizeChecks s bill share base tip) = some a) (tag : BitVec 16) (pfx : Nat)
    (token : BitVec 32) : serveAuthorize tag bill share pfx token base tip s = answerRequest 0x01 tag (.plain a) s := by
  rw [authorizeChecks_eq] at refused
  rw [serveAuthorize, refused]

/-! ### VOID -/

/-- R33: the checks of VOID in order are those that the Bill Table applies. -/
theorem voidChecks_eq (s : State) (bill txn : Nat) : firstRefusal (voidChecks s bill txn) = voidRefusal s bill txn := by
  have unresolved : (fun a : Option Auth => a.any (fun a => a.bill == bill && a.state != .done)) = unresolvedOn bill := by
    funext a
    cases a <;> rfl
  cases h : findBill s bill with
  | none => simp [voidChecks, voidRefusal, h]
  | some b =>
    cases held : b.tenderOf txn with
    | none =>
      have none' : b.tenders.all (fun t => t.txn != txn) = true := by
        simpa [Bill.tenderOf] using held
      simp [voidChecks, voidRefusal, h, held, none']
    | some t =>
      have some' : b.tenders.all (fun t => t.txn != txn) = false := by
        have mem := List.mem_of_find?_eq_some held
        have number := List.find?_some held
        simp only [beq_iff_eq] at number
        simpa using ⟨t, mem, number⟩
      have found : b.tenders.find? (fun t => t.txn == txn) = some t := held
      simp only [voidChecks, voidRefusal, h, held, unresolved]
      simp [some', found]

/-- R33: a VOID that a check refuses only makes its refusal ready. -/
theorem serveVoid_refused {s : State} {bill txn : Nat} {a : Answer}
    (refused : firstRefusal (voidChecks s bill txn) = some a) (tag : BitVec 16) :
    serveVoid tag bill txn s = answerRequest 0x06 tag (.plain a) s := by
  rw [voidChecks_eq] at refused
  rw [serveVoid, refused]

/-- R33, R35: a tender that is not OFFLINE with a LIVE record is voided by a reversal. -/
theorem voidMark_none {s : State} {u : Tender} (h : u.path = .online ∨ ∀ loc, findRecord s u.txn ≠ some (loc, .live)) :
    voidMark s u = none := by
  unfold voidMark
  split
  · rfl
  · rename_i offline
    split
    · rename_i loc record
      exact absurd record (h.resolve_left (by simp [offline]) loc)
    · rfl

/-- R35: a VOID that passes its checks and needs a reversal is refused by what refuses the reversal. -/
theorem serveVoid_unreversed {s : State} {bill txn : Nat} {b : Bill} {u : Tender} {a : Answer}
    (passed : firstRefusal (voidChecks s bill txn) = none) (entry : findBill s bill = some b)
    (tender : b.tenderOf txn = some u) (noMark : u.path = .online ∨ ∀ loc, findRecord s txn ≠ some (loc, .live))
    (refused : reversalRefusal s = some a) (tag : BitVec 16) :
    serveVoid tag bill txn s = answerRequest 0x06 tag (.plain a) s := by
  have number : u.txn = txn := by simpa using List.find?_some tender
  rw [voidChecks_eq] at passed
  rw [serveVoid, passed]
  simp only [entry, tender, voidMark_none (number ▸ noMark), refused]

/-- R35: a VOID that passes its checks and needs a reversal begins one. -/
theorem serveVoid_reversed {s : State} {bill txn : Nat} {b : Bill} {u : Tender}
    (passed : firstRefusal (voidChecks s bill txn) = none) (entry : findBill s bill = some b)
    (tender : b.tenderOf txn = some u) (noMark : u.path = .online ∨ ∀ loc, findRecord s txn ≠ some (loc, .live))
    (room : reversalRefusal s = none) (tag : BitVec 16) : serveVoid tag bill txn s = voidByReversal tag b u s := by
  have number : u.txn = txn := by simpa using List.find?_some tender
  rw [voidChecks_eq] at passed
  rw [serveVoid, passed]
  simp only [entry, tender, voidMark_none (number ▸ noMark), room]

/-- R34: a VOID that passes its checks, of an OFFLINE tender with a LIVE record. -/
theorem serveVoid_marked {s : State} {bill txn : Nat} {b : Bill} {u : Tender} {loc : Loc}
    (passed : firstRefusal (voidChecks s bill txn) = none) (entry : findBill s bill = some b)
    (tender : b.tenderOf txn = some u) (offline : u.path = .offline) (record : findRecord s txn = some (loc, .live))
    (tag : BitVec 16) : serveVoid tag bill txn s = voidByMark tag bill u loc s := by
  have number : u.txn = txn := by simpa using List.find?_some tender
  have mark : voidMark s u = some loc := by
    rw [voidMark, offline, number]
    simp only [record]
  rw [voidChecks_eq] at passed
  rw [serveVoid, passed]
  simp only [entry, tender, mark]

/-- Settles O15. -/
theorem authorizeAndVoidAreRefusedInOrder : Obligations.AuthorizeAndVoidAreRefusedInOrder := by
  refine ⟨fun tag bill share pfx token base tip s a ready refused => ?_, fun tag bill txn s ready =>
    ⟨fun a refused => ?_, fun b u passed entry tender noMark => ⟨fun full => ?_, fun room exhausted => ?_⟩⟩⟩
  · exact answered_ready (c := .authorize tag bill share pfx token base tip) ready (by simp) rfl
      (serveAuthorize_refused (s := s.setHost (hostTaken s.host)) refused _ _ _)
  · exact answered_ready (c := .void tag bill txn) ready (by simp) rfl
      (serveVoid_refused (s := s.setHost (hostTaken s.host)) refused _)
  · have refusal : reversalRefusal (s.setHost (hostTaken s.host)) = some .journalFull :=
      if_pos (Nat.sub_eq_zero_iff_le.mp full)
    exact answered_ready (c := .void tag bill txn) ready (by simp) rfl
      (serveVoid_unreversed (s := s.setHost (hostTaken s.host)) passed entry tender noMark refusal tag)
  · have refusal : reversalRefusal (s.setHost (hostTaken s.host)) = some .numbersExhausted :=
      (if_neg (fun full => room (Nat.sub_eq_zero_iff_le.mpr full))).trans (if_pos exhausted)
    exact answered_ready (c := .void tag bill txn) ready (by simp) rfl
      (serveVoid_unreversed (s := s.setHost (hostTaken s.host)) passed entry tender noMark refusal tag)

end Sys2Proof.Proofs.Refusals
end

