-- ==== Sys2Proof/Proofs/Voids.lean ====
section
/-! PROOFS. The two ways of a VOID: by a mark (O16) and by a reversal (O17). -/

namespace Sys2Proof.Proofs.Voids

open Sys2Proof.Machine Sys2Proof.Safety Sys2Proof.Laws Sys2Proof.Proofs.Bills Sys2Proof.Proofs.Host
  Sys2Proof.Proofs.LoadOpen Sys2Proof.Proofs.StandIn Sys2Proof.Proofs.Confirm Sys2Proof.Proofs.Refusals

/-! ### A record that is issued at once -/

/-- R80: what issuing a record makes of the journal's record in program and of the Store Engine. -/
theorem issueRecord_effects (loc : Loc) (e : QueuedRecord) (retry : Bool) (s : State) :
    ChangedOnly [.journal, .store, .events] s (issueRecord loc e retry s)
      ∧ (issueRecord loc e retry s).store = { s.store with recordPlace := some (loc, encodeRecord e.record) }
      ∧ (issueRecord loc e retry s).journal.inProgram = some { loc := loc, entry := e, retry := retry } := by
  refine ⟨fun p other => ?_, ?_, ?_⟩
  · simp only [List.mem_cons, List.not_mem_nil, or_false, not_or] at other
    obtain ⟨journal, store, events⟩ := other
    simp [*, same_self]
  · rw [issueRecord, evaluateLow_eq]
    rfl
  · unfold issueRecord evaluateLow
    split
    · split <;> rfl
    · rfl

/-- R80: a record that joins an empty queue with nothing in program is issued at the write position. -/
theorem appendRecord_issued {s : State} {loc : Loc} (idle : s.journal.inProgram = none) (empty : s.journal.queue = [])
    (position : s.journal.writeAt = some loc) (e : QueuedRecord) :
    appendRecord e s = issueRecord loc e false (s.setJournal { s.journal with queue := [] }) := by
  have joined : s.journal.queue ++ [e] = [e] := by rw [empty, List.nil_append]
  rw [appendRecord, joined, issueNext]
  have idle' : (s.setJournal { s.journal with queue := [e] }).journal.inProgram = none := idle
  have position' : (s.setJournal { s.journal with queue := [e] }).journal.writeAt = some loc := position
  rw [idle']
  have queue : (s.setJournal { s.journal with queue := [e] }).journal.queue = [e] := rfl
  simp only [queue, issueQueue, position']
  rfl

/-! ### A void by mark -/

/-- R34: the part before the tender of a void by mark becomes VOIDED. -/
def marked (tag : BitVec 16) (bill txn : Nat) (loc : Loc) (r : JRecord) (s : State) : State :=
  { s with
    host := { hostTaken s.host with
      voidJob := some { tag := tag, bill := bill, tender := txn, path := .mark loc } }
    journal := s.journal.onSlot loc (fun _ => { state := .voided, markPending := true })
    store := { s.store with marks := s.store.marks ++ [{ loc := loc, kind := .voided, second := false }] }
    tally := uncountRecord r s.tally }

/-- R34: a void by mark changes the tender of the part marked. -/
theorem voidByMark_eq {u : Tender} {txn : Nat} {r : JRecord} {loc : Loc} {s : State} (number : u.txn = txn)
    (stored : recordAt s loc = some r) (bill : Nat) (tag : BitVec 16) :
    voidByMark tag bill u loc (s.setHost (hostTaken s.host)) =
      changeBill bill (fun x => x.applyVoid txn) (marked tag bill txn loc r s) := by
  have stored' : recordAt (s.setHost (hostTaken s.host)) loc = some r := stored
  rw [voidByMark, voidTender, number]
  simp only [stored']
  rfl

/-- Settles O16. -/
theorem voidOfALiveRecordMarksIt : Obligations.VoidOfALiveRecordMarksIt := by
  intro tag bill txn s b u loc ready passed entry tender offline record
  obtain ⟨r, stored, number⟩ := recordAt_of_findRecord record
  have tenderNumber : u.txn = txn.toNat := by simpa using List.find?_some tender
  have runs : exec (.void tag bill txn) s =
      .next (changeBill bill.toNat (fun x => x.applyVoid txn.toNat) (marked tag bill.toNat txn.toNat loc r s)) := by
    refine (served ready (.void tag bill txn) (by simp)).trans (congrArg Host.Outcome.next ?_)
    refine (serveVoid_marked (s := s.setHost (hostTaken s.host)) passed entry tender offline record tag).trans ?_
    exact voidByMark_eq tenderNumber stored bill.toNat tag
  have kept : ChangedOnly [.bills, .events] (marked tag bill.toNat txn.toNat loc r s)
      (changeBill bill.toNat (fun x => x.applyVoid txn.toNat) (marked tag bill.toNat txn.toNat loc r s)) := by
    intro p other
    simp only [List.mem_cons, List.not_mem_nil, or_false, not_or] at other
    obtain ⟨bills, events⟩ := other
    simp [*, same_self]
  have voided : b.applyVoid txn.toNat =
      { b with
        tenders := b.tenders.map (fun x => if x.txn = txn.toNat then { x with state := .voided, share := 0 } else x)
        paid := b.paid - u.base
        plan := b.plan.map (setShare u.share .opened 0) } := by
    rw [Bill.applyVoid, tender]
  have entry' := findBill_changeBill (marked tag bill.toNat txn.toNat loc r s) bill.toNat bill.toNat
    (fun x => x.applyVoid txn.toNat) (fun x => by unfold Bill.applyVoid; split <;> rfl)
  have found : findBill (marked tag bill.toNat txn.toNat loc r s) bill.toNat = some b := entry
  rw [if_pos rfl, found, Option.map_some, voided] at entry'
  have events := changeBill_events (marked tag bill.toNat txn.toNat loc r s) bill.toNat (fun x => x.applyVoid txn.toNat)
  refine ⟨_, r, _, runs, fun p other => ?_, kept .host (by decide), kept .journal (by decide), kept .store (by decide),
    stored, number, fun approval => ?_, entry', rfl, rfl, rfl, rfl, rfl, rfl, rfl, events⟩
  · simp only [List.mem_cons, List.not_mem_nil, or_false, not_or] at other
    obtain ⟨host, journal, store, tally, bills, events⟩ := other
    have inner := kept p (by simp [*])
    cases p <;> first | exact absurd rfl ‹_› | exact inner
  · rw [kept .tally (by decide)]
    have counted : uncountRecord r s.tally = s.tally.sub r.rangeId r.token (r.base + r.tip) := by
      rw [uncountRecord, approval]
      rfl
    exact counted

/-! ### A void by reversal -/

/-- R33, R35: the part before the REVERSAL record of a VOID joins the queue. -/
def reversing (tag : BitVec 16) (bill txn : Nat) (s : State) : State :=
  { s with
    host := { hostTaken s.host with
      voidJob := some { tag := tag, bill := bill, tender := txn,
                        path := .reversal (s.decision.epoch * 65536 + (s.decision.seq + 1)) } }
    decision := { s.decision with seq := s.decision.seq + 1 }
    bills := { s.bills with entries := s.bills.entries.map (fun x =>
      if x.number = bill then { x with voidPending := txn } else x) } }

/-- R35: a void by reversal queues its record. -/
theorem voidByReversal_eq {s : State} {b : Bill} {u : Tender} {bill txn : Nat} (number : b.number = bill)
    (tender : u.txn = txn) (unwrapped : s.decision.seq + 1 < 65535) (tag : BitVec 16) :
    voidByReversal tag b u (s.setHost (hostTaken s.host)) =
      appendRecord
        { record := reversalRecord s b u (s.decision.epoch * 65536 + (s.decision.seq + 1)), requester := .void }
        (reversing tag bill txn s) := by
  have issued : issueNumber (s.setHost (hostTaken s.host)) =
      (s.setHost (hostTaken s.host)).setDecision { s.decision with seq := s.decision.seq + 1 } := if_pos unwrapped
  rw [voidByReversal, issued, number, tender]
  rfl

/-- Settles O17. -/
theorem otherVoidsQueueAReversal : Obligations.OtherVoidsQueueAReversal := by
  intro tag bill txn s b u ready passed entry tender noMark room numbers unwrapped n r taken
  have number : b.number = bill.toNat := by simpa using List.find?_some entry
  have tenderNumber : u.txn = txn.toNat := by simpa using List.find?_some tender
  have accepted : reversalRefusal (s.setHost (hostTaken s.host)) = none := by
    refine (if_neg (Nat.not_le.mpr room)).trans (if_neg ?_)
    exact Bool.eq_false_iff.mp numbers
  have runs : exec (.void tag bill txn) s =
      .next (appendRecord { record := r, requester := .void } (reversing tag bill.toNat txn.toNat s)) := by
    refine (served ready (.void tag bill txn) (by simp)).trans (congrArg Host.Outcome.next ?_)
    refine (serveVoid_reversed (s := s.setHost (hostTaken s.host)) passed entry tender noMark accepted tag).trans ?_
    exact voidByReversal_eq number tenderNumber unwrapped tag
  refine ⟨fun ip busy => ?_, fun loc idle empty position => ?_⟩
  · exact runs.trans (congrArg Host.Outcome.next
      (appendRecord_behind (s := reversing tag bill.toNat txn.toNat s) busy _))
  · obtain ⟨kept, store, inProgram⟩ := issueRecord_effects loc { record := r, requester := .void } false
      ((reversing tag bill.toNat txn.toNat s).setJournal { s.journal with queue := [] })
    rw [appendRecord_issued (s := reversing tag bill.toNat txn.toNat s) idle empty position] at runs
    refine ⟨_, runs, fun p other => ?_, store, inProgram⟩
    have inner := kept p other
    simp only [List.mem_cons, List.not_mem_nil, or_false, not_or] at other
    obtain ⟨journal, store, events⟩ := other
    cases p <;> first | exact absurd rfl ‹_› | exact inner

end Sys2Proof.Proofs.Voids
end

