-- ==== Sys2Proof/Proofs/Authorize.lean ====
section
/-! PROOFS. The three paths of an accepted payment: online (O18), approved offline (O19), declined at once (O20). -/

namespace Sys2Proof.Proofs.Authorize

open Sys2Proof.Machine Sys2Proof.Safety Sys2Proof.Laws Sys2Proof.Proofs.Bills Sys2Proof.Proofs.Host
  Sys2Proof.Proofs.Slots Sys2Proof.Proofs.Payments Sys2Proof.Proofs.StandIn Sys2Proof.Proofs.Refusals
  Sys2Proof.Proofs.Voids Sys2Proof.Proofs.Frames

/-! ### The path of a payment (R45) -/

/-- R45: with the link UP, a payment that is not approved offline goes online. -/
theorem choosePath_online {s : State} {row : Option IrtRow} {base tip : Nat} {token : BitVec 32}
    (up : s.link.state = .up)
    (h : base * (params s).tipCapPercent / 100 < tip ∨ ∀ r, row = some r →
      r.mode = 1 ∨ r.mode = 2 ∨ r.mode = 3 ∧ offlineTest s r (base + tip) token ≠ none) :
    choosePath s row base tip token = .online := by
  unfold choosePath
  simp only [up, beq_self_eq_true, if_true]
  split
  · rfl
  · rename_i within
    cases row with
    | none => rfl
    | some r =>
      have modes := h.resolve_left (fun over' => within (decide_eq_true over')) r rfl
      rcases modes with mode | mode | ⟨mode, failed⟩
      · simp only [mode, modeOf]
      · simp only [mode, modeOf]
      · obtain ⟨reason, test⟩ := Option.ne_none_iff_exists'.mp failed
        simp only [mode, modeOf, test]

/-- R45: a payment approved offline under a row. -/
theorem choosePath_offline {s : State} {row : IrtRow} {base tip : Nat} {token : BitVec 32}
    (within : tip ≤ base * (params s).tipCapPercent / 100)
    (mode : row.mode = 3 ∨ row.mode = 2 ∧ s.link.state ≠ .up ∧ (params s).standIn ≠ 0)
    (test : offlineTest s row (base + tip) token = none) : choosePath s (some row) base tip token = .offline row := by
  have notTipped : ¬ tipOver s base tip = true := by
    rw [tipOver, decide_eq_true_eq]
    exact Nat.not_lt.mpr within
  have down (h : s.link.state ≠ .up) : ¬ (s.link.state == .up) = true := by simpa using h
  unfold choosePath
  simp only [if_neg notTipped]
  rcases mode with mode | ⟨mode, notUp, standIn⟩
  · simp only [mode, modeOf, test]
  · simp only [mode, modeOf, if_neg (down notUp), if_neg standIn, test, offlineOrDecline]

/-- R45: the row of the decision table that declines a payment at once with the link not UP. -/
def DeclinedBy (s : State) (row : Option IrtRow) (base tip : Nat) (token : BitVec 32) (reason : DeclineReason) : Prop :=
  let tipped := base * (params s).tipCapPercent / 100 < tip
  let test := row.bind (fun x => offlineTest s x (base + tip) token)
  tipped ∧ reason = .tipOverCap
    ∨ ¬ tipped ∧ row = none ∧ reason = .unlisted
    ∨ ¬ tipped ∧ row.map IrtRow.mode = some 1 ∧ reason = .onlineOnly
    ∨ ¬ tipped ∧ row.map IrtRow.mode = some 2 ∧ (params s).standIn = 0 ∧ reason = .noStandIn
    ∨ ¬ tipped ∧ row.map IrtRow.mode = some 2 ∧ (params s).standIn ≠ 0 ∧ test = some reason
    ∨ ¬ tipped ∧ row.map IrtRow.mode = some 3 ∧ test = some reason

theorem choosePath_declined {s : State} {row : Option IrtRow} {base tip : Nat} {token : BitVec 32}
    {reason : DeclineReason} (notUp : s.link.state ≠ .up) (h : DeclinedBy s row base tip token reason) :
    choosePath s row base tip token = .declined reason := by
  have down : ¬ (s.link.state == .up) = true := by simpa using notUp
  have over' (h : base * (params s).tipCapPercent / 100 < tip) : tipOver s base tip = true := decide_eq_true h
  have within (h : ¬ base * (params s).tipCapPercent / 100 < tip) : ¬ tipOver s base tip = true := by
    rw [tipOver, decide_eq_true_eq]
    exact h
  unfold choosePath
  rcases h with ⟨tipped, rfl⟩ | ⟨tip', rfl, rfl⟩ | ⟨tip', mode, rfl⟩ | ⟨tip', mode, refused, rfl⟩
    | ⟨tip', mode, allowed, test⟩ | ⟨tip', mode, test⟩
  · simp only [if_pos (over' tipped), if_neg down]
  · simp only [if_neg (within tip'), if_neg down]
  all_goals
    obtain ⟨r, rfl, number⟩ := Option.map_eq_some_iff.mp mode
    simp only [if_neg (within tip'), number, modeOf, if_neg down]
  · simp only [if_pos refused]
  · rw [Option.bind_some] at test
    simp only [if_neg allowed, test, offlineOrDecline]
  · rw [Option.bind_some] at test
    simp only [test]

/-! ### An accepted payment -/

/-- R44: the number of the next payment. -/
def nextTxn (s : State) : Nat := s.decision.epoch * 65536 + (s.decision.seq + 1)

/-- R44: the slot of an accepted payment before its path is chosen. -/
def opened (bill share pfx : Nat) (token : BitVec 32) (base tip : Nat) (s : State) : Auth :=
  newAuth (nextTxn s) bill share pfx token base tip (lookup s pfx)

/-- R44: the part with a payment's number and slot taken and its base reserved. -/
def reservedFor (i : Nat) (a : Auth) (s : State) : State :=
  { s with
    host := hostTaken s.host
    decision := { s.decision with seq := s.decision.seq + 1, slots := s.decision.slots.set i (some a) }
    bills := { s.bills with entries := s.bills.entries.map (fun x =>
      if x.number = a.bill then x.reserve a.base a.share a.txn else x) } }

/-- R43, R44: an AUTHORIZE that passes its checks takes the lowest-numbered FREE slot. -/
theorem exec_authorize {s : State} {tag bill : BitVec 16} {share : BitVec 8} {pfx token base tip : BitVec 32} {i : Nat}
    (ready : HostReady s)
    (passed : firstRefusal (authorizeChecks s bill.toNat share.toNat base.toNat tip.toNat) = none)
    (free : s.decision.slots[i]? = some none ∧ ∀ j < i, slotAt s j ≠ none) (unwrapped : s.decision.seq + 1 < 65535) :
    exec (.authorize tag bill share pfx token base tip) s =
      .next (answerRequest 0x01 tag (.accepted i (nextTxn s))
        (takeDecision i (opened bill.toNat share.toNat pfx.toNat token base.toNat tip.toNat s) (lookup s pfx.toNat)
          (reservedFor i (opened bill.toNat share.toNat pfx.toNat token base.toNat tip.toNat s) s))) := by
  refine (served ready (.authorize tag bill share pfx token base tip) (by simp)).trans (congrArg Host.Outcome.next ?_)
  have passed' : authorizeRefusal (s.setHost (hostTaken s.host)) bill.toNat share.toNat base.toNat tip.toNat = none :=
    (authorizeChecks_eq ..).symm.trans passed
  have slot : freeSlot (s.setHost (hostTaken s.host)) = some i := by
    obtain ⟨here, lower⟩ := free
    obtain ⟨inside, empty⟩ := List.getElem?_eq_some_iff.mp here
    refine List.findIdx?_eq_some_iff_getElem.mpr ⟨inside, congrArg Option.isNone empty, fun j less => ?_⟩
    have taken := lower j less
    rw [slotAt, List.getD_eq_getElem?_getD, List.getElem?_eq_getElem (Nat.lt_trans less inside)] at taken
    simpa using taken
  have issued : issueNumber (s.setHost (hostTaken s.host)) =
      (s.setHost (hostTaken s.host)).setDecision { s.decision with seq := s.decision.seq + 1 } := if_pos unwrapped
  refine (?_ : serveAuthorize tag bill.toNat share.toNat pfx.toNat token base.toNat tip.toNat
    (s.setHost (hostTaken s.host)) = _)
  rw [serveAuthorize, passed']
  simp only [slot]
  rw [accept, issued]
  rfl

/-- R21: the entry of the bill whose base is reserved. -/
theorem findBill_reservedFor {s : State} {a : Auth} {b : Bill} (h : findBill s a.bill = some b) (i : Nat) :
    findBill (reservedFor i a s) a.bill = some (b.reserve a.base a.share a.txn) := by
  have entry := findBill_updateBill s a.bill a.bill (fun x => x.reserve a.base a.share a.txn) (fun _ => rfl)
  rw [if_pos rfl, h] at entry
  exact entry

/-- R48: the place of the bill whose base is reserved. -/
theorem placeOf_reservedFor {s : State} {a : Auth} {b : Bill} (h : findBill s a.bill = some b) (i : Nat) :
    placeOf (reservedFor i a s) a.bill = b.place := by
  rw [placeOf, findBill_reservedFor h]
  rfl

/-- R45: the path is chosen on what the payment's own number, slot and reservation do not touch. -/
theorem choosePath_reservedFor (i : Nat) (a : Auth) (s : State) :
    choosePath (reservedFor i a s) = choosePath s := rfl

theorem takeDecision_online {a : Auth} {row : Option IrtRow} {u : State}
    (h : choosePath u row a.base a.tip a.token = .online) (i : Nat) : takeDecision i a row u = goOnline i a u := by
  rw [takeDecision, h]

theorem takeDecision_offline {a : Auth} {row : Option IrtRow} {r : IrtRow} {u : State}
    (h : choosePath u row a.base a.tip a.token = .offline r) (i : Nat) :
    takeDecision i a row u = approveOffline i a r false u := by
  rw [takeDecision, h]

theorem takeDecision_declined {a : Auth} {row : Option IrtRow} {reason : DeclineReason} {u : State}
    (h : choosePath u row a.base a.tip a.token = .declined reason) (i : Nat) :
    takeDecision i a row u = settleSlot i a .declined reason 0 u := by
  rw [takeDecision, h]

/-- R44: the host port of an accepted payment. -/
theorem answered_host {h : HostPort} {u : State} (host : u.host = hostTaken h) (n i : Nat) (tag : BitVec 16) :
    (answerRequest 0x01 tag (.accepted i n) u).host = hostAnswered h 0x01 tag (.accepted i n) := by
  rw [answerRequest, queueReply, host]
  rfl

theorem answerRequest_changedOnly (code : BitVec 8) (tag : BitVec 16) (body : Reply) (u : State) :
    ChangedOnly [.host] u (answerRequest code tag body u) := by
  intro p other
  simp only [List.mem_cons, List.not_mem_nil, or_false] at other
  simp [*, same_self]

theorem reservedFor_changedOnly (i : Nat) (a : Auth) (s : State) :
    ChangedOnly [.host, .decision, .bills] s (reservedFor i a s) := by
  intro p other
  cases p <;> first | exact absurd (by decide) other | rfl

/-! ### Online -/

/-- R50: a payment that goes online. -/
theorem goOnline_reservedFor {s : State} {a : Auth} {b : Bill} (entry : findBill s a.bill = some b) (i : Nat) :
    goOnline i a (reservedFor i a s) =
      { reservedFor i a s with
        decision := { s.decision with
          seq := s.decision.seq + 1
          slots := s.decision.slots.set i (some { a with state := .awaitingReply, path := .online }) }
        timers := { s.timers with reply := s.timers.reply.set i (some (params s).replyTimeout) }
        arbiter := { s.arbiter with
          auth := s.arbiter.auth ++ [
            { tag := BitVec.ofNat 16 a.txn, addr := s.link.addr,
              payload := .authRequest
                { txn := a.txn, rangeId := a.rangeId, route := a.route, pfx := a.pfx, token := a.token, base := a.base,
                  tip := a.tip, bill := a.bill, place := b.place } }] } } := by
  rw [goOnline, authFrame, placeOf_reservedFor entry]
  simp only [setSlot, reservedFor, State.setDecision, List.set_set]
  rfl

/-- Settles O18. -/
theorem authorizeGoesOnline : Obligations.AuthorizeGoesOnline := by
  intro tag bill share pfx token base tip s i b ready passed free entry up unwrapped path n range route
  have runs := exec_authorize (tag := tag) (pfx := pfx) (token := token) ready passed free unwrapped
  have online : choosePath s (lookup s pfx.toNat) base.toNat tip.toNat token = .online := choosePath_online up path
  rw [takeDecision_online (by exact online), goOnline_reservedFor (b := b) entry] at runs
  exact runs

/-! ### Approved offline -/

/-- R62, R63: entries found by a key, one of them counted again or added. -/
theorem find?_counted {α κ : Type} [DecidableEq κ] (key : α → κ) (again : α → α) (new : α)
    (kept : ∀ e, key (again e) = key e) (es : List α) (k : κ) :
    (if es.any (fun e => key e == key new) then es.map (fun e => if key e = key new then again e else e)
      else es ++ [new]).find? (fun e => key e == k) =
    if k = key new then some ((es.find? (fun e => key e == key new)).elim new again)
    else es.find? (fun e => key e == k) := by
  have found {e : α} {k : κ} (h : es.find? (fun e => key e == k) = some e) : key e = k := by
    simpa using List.find?_some h
  split
  · rename_i listed
    have same : ((fun e => key e == k) ∘ fun e => if key e = key new then again e else e) = fun e => key e == k := by
      funext e
      by_cases h : key e = key new <;> simp [h, kept]
    rw [List.find?_map, same]
    split
    · rename_i here
      subst here
      cases h : es.find? (fun e => key e == key new) with
      | none =>
        obtain ⟨e, mem, eq⟩ := List.any_eq_true.mp listed
        exact absurd eq (List.find?_eq_none.mp h e mem)
      | some e => simp [found h]
    · rename_i other
      cases h : es.find? (fun e => key e == k) with
      | none => rfl
      | some e => simp [found h, other]
  · rename_i absent
    have none' : es.find? (fun e => key e == key new) = none := by simpa using absent
    rw [List.find?_append]
    split
    · rename_i here
      rw [here, none']
      simp
    · rename_i other
      cases es.find? (fun e => key e == k) <;> simp [Ne.symm other]

/-- R62, R63: the tally of a range id once an approval is added. -/
theorem entryOf_add (t : Tally) (rangeId : Nat) (token : BitVec 32) (total k : Nat) :
    (t.add rangeId token total).entryOf k =
      if k = rangeId then some ((t.entryOf rangeId).elim { rangeId := rangeId, count := 1, sum := total }
        (fun e => { e with count := e.count + 1, sum := e.sum + total }))
      else t.entryOf k :=
  find?_counted TallyEntry.rangeId (fun e => { e with count := e.count + 1, sum := e.sum + total })
    { rangeId := rangeId, count := 1, sum := total } (fun _ => rfl) t.table k

/-- R62, R63: the repeat entry of a token once an approval is added. -/
theorem repeatOf_add (t : Tally) (rangeId : Nat) (token : BitVec 32) (total : Nat) (k : BitVec 32) :
    (t.add rangeId token total).repeatOf k =
      if k = token then some ((t.repeatOf token).elim { token := token, count := 1 }
        (fun e => { e with count := e.count + 1 }))
      else t.repeatOf k :=
  find?_counted RepeatEntry.token (fun e => { e with count := e.count + 1 }) { token := token, count := 1 }
    (fun _ => rfl) t.repeats k

/-- R62, R63: the sum and the count that an approval adds to. -/
theorem add_counts (t : Tally) (rangeId : Nat) (token : BitVec 32) (total : Nat) :
    (t.add rangeId token total).sumOf rangeId = t.sumOf rangeId + total
      ∧ (t.add rangeId token total).countOf token = t.countOf token + 1 := by
  refine ⟨?_, ?_⟩
  · rw [Tally.sumOf, entryOf_add, if_pos rfl, Tally.sumOf]
    cases t.entryOf rangeId <;> simp
  · rw [Tally.countOf, repeatOf_add, if_pos rfl, Tally.countOf]
    cases t.repeatOf token <;> simp

/-- R47: a payment that passes the offline test stays within the cap and the repeat limit. -/
theorem offlineTest_none {s : State} {row : IrtRow} {total : Nat} {token : BitVec 32}
    (h : offlineTest s row total token = none) :
    s.tally.sumOf row.rangeId + total ≤ row.cap ∧ s.tally.countOf token + 1 ≤ row.perCard := by
  unfold offlineTest at h
  split_ifs at h with floor cap repeats
  exact ⟨Nat.not_lt.mp cap, Nat.lt_of_not_le repeats⟩

/-- R80: a record that joins the queue behind one in program, or that is issued at once. -/
theorem appendRecord_effects {s : State} (placed : s.journal.inProgram ≠ none ∨ s.journal.queue = [] ∧ s.journal.writeAt ≠ none)
    (e : QueuedRecord) :
    ChangedOnly [.journal, .store, .events] s (appendRecord e s)
      ∧ (∀ ip, s.journal.inProgram = some ip →
          (appendRecord e s).journal = { s.journal with queue := s.journal.queue ++ [e] }
            ∧ (appendRecord e s).store = s.store ∧ (appendRecord e s).events = s.events)
      ∧ (∀ loc, s.journal.inProgram = none → s.journal.writeAt = some loc →
          (appendRecord e s).store = { s.store with recordPlace := some (loc, encodeRecord e.record) }
            ∧ (appendRecord e s).journal.inProgram = some { loc := loc, entry := e, retry := false }) := by
  cases busy : s.journal.inProgram with
  | some ip =>
    rw [appendRecord_behind busy]
    refine ⟨fun p other => ?_, fun _ _ => ⟨rfl, rfl, rfl⟩, nofun⟩
    cases p <;> first | exact absurd (by decide) other | rfl
  | none =>
    obtain ⟨empty, position⟩ := placed.resolve_left (fun h => h busy)
    obtain ⟨loc, at'⟩ := Option.ne_none_iff_exists'.mp position
    rw [appendRecord_issued busy empty at']
    obtain ⟨kept, store, inProgram⟩ := issueRecord_effects loc e false (s.setJournal { s.journal with queue := [] })
    refine ⟨fun p other => ?_, nofun, fun loc' _ here => ?_⟩
    · have inner := kept p other
      cases p <;> first | exact absurd (by decide) other | exact inner
    · obtain rfl := Option.some.inj (at'.symm.trans here)
      exact ⟨store, inProgram⟩

/-- R48: the part with an approval counted before its record joins the queue. -/
def approvedFor (i : Nat) (a : Auth) (row : IrtRow) (s : State) : State :=
  { reservedFor i a s with
    decision := { s.decision with
      seq := s.decision.seq + 1, slots := s.decision.slots.set i (some (a.stored row false)) }
    tally := s.tally.add row.rangeId a.token (a.base + a.tip) }

theorem approvedFor_changedOnly (i : Nat) (a : Auth) (row : IrtRow) (s : State) :
    ChangedOnly [.host, .decision, .bills, .tally] s (approvedFor i a row s) := by
  intro p other
  cases p <;> first | exact absurd (by decide) other | rfl

/-- R48: the APPROVAL record of an accepted payment. -/
def approvalOf (a : Auth) (row : IrtRow) (place : Nat) (link : Link) : JRecord :=
  { txn := a.txn, kind := .approval, rangeId := row.rangeId, route := row.route, token := a.token, base := a.base,
    tip := a.tip, bill := a.bill, place := place, time := (recordTime link).1, standIn := false,
    timeUnknown := (recordTime link).2, original := 0 }

/-- R48: an accepted payment approved offline. -/
theorem approveOffline_reservedFor {s : State} {a : Auth} {b : Bill} (entry : findBill s a.bill = some b) (i : Nat)
    (row : IrtRow) :
    approveOffline i a row false (reservedFor i a s) =
      appendRecord { record := approvalOf a row b.place s.link, requester := .slot i } (approvedFor i a row s) := by
  have record : approvalRecord (reservedFor i a s) (a.stored row false) = approvalOf a row b.place s.link := by
    rw [approvalRecord]
    refine congrArg (fun n => stampTime (reservedFor i a s)
      { txn := a.txn, kind := .approval, rangeId := row.rangeId, route := row.route, token := a.token, base := a.base,
        tip := a.tip, bill := a.bill, place := n, time := 0, standIn := false, timeUnknown := false, original := 0 })
      (placeOf_reservedFor entry i)
  have slots : setSlot i (some (a.stored row false)) (reservedFor i a s) =
      (reservedFor i a s).setDecision { s.decision with
        seq := s.decision.seq + 1, slots := s.decision.slots.set i (some (a.stored row false)) } := by
    rw [setSlot]
    refine congrArg (fun l => (reservedFor i a s).setDecision { s.decision with seq := s.decision.seq + 1, slots := l }) ?_
    exact List.set_set ..
  rw [approveOffline, record, slots]
  rfl

/-- Settles O19. -/
theorem authorizeApprovesOffline : Obligations.AuthorizeApprovesOffline := by
  intro tag bill share pfx token base tip s i b row ready passed free entry unwrapped within found mode test placed n r
  have runs := exec_authorize (tag := tag) (pfx := pfx) (token := token) ready passed free unwrapped
  have offline : choosePath s (lookup s pfx.toNat) base.toNat tip.toNat token = .offline row := by
    rw [found]
    exact choosePath_offline within mode test
  rw [takeDecision_offline (by exact offline), approveOffline_reservedFor (b := b) entry] at runs
  obtain ⟨kept, behind, issued⟩ := appendRecord_effects (s := approvedFor i
    (opened bill.toNat share.toNat pfx.toNat token base.toNat tip.toNat s) row s) placed
    { record := r, requester := .slot i }
  obtain ⟨cap, perCard⟩ := offlineTest_none test
  obtain ⟨sum, count⟩ := add_counts s.tally row.rangeId token (base.toNat + tip.toNat)
  have same : approvalOf (opened bill.toNat share.toNat pfx.toNat token base.toNat tip.toNat s) row b.place s.link = r :=
    rfl
  rw [same] at runs
  generalize appendRecord { record := r, requester := .slot i } (approvedFor i
    (opened bill.toNat share.toNat pfx.toNat token base.toNat tip.toNat s) row s) = u at *
  have tally : u.tally = s.tally.add row.rangeId token (base.toNat + tip.toNat) := kept .tally (by decide)
  have host : u.host = hostTaken s.host := kept .host (by decide)
  have tally' : (answerRequest 0x01 tag (.accepted i (nextTxn s)) u).tally =
      s.tally.add row.rangeId token (base.toNat + tip.toNat) := tally
  refine ⟨answerRequest 0x01 tag (.accepted i (nextTxn s)) u, runs,
    changedOnly_trans (changedOnly_trans (approvedFor_changedOnly _ _ _ _) kept (List.Subset.refl _))
      (answerRequest_changedOnly _ _ _ _) (by decide), ?_, kept .decision (by decide),
    kept .bills (by decide), ?_⟩
  · exact answered_host host (nextTxn s) i tag
  · rw [tally', sum, count]
    refine ⟨rfl, cap, rfl, perCard, fun k other => ?_, fun k other => ?_, behind, issued⟩
    · rw [entryOf_add, if_neg other]
    · rw [repeatOf_add, if_neg other]

/-! ### Declined at once -/

/-- Settles O20. -/
theorem authorizeDeclinesAtOnce : Obligations.AuthorizeDeclinesAtOnce := by
  refine ⟨fun s row total token => ?_, fun tag bill share pfx token base tip s i b reason ready passed free entry
    unwrapped notUp path => ?_⟩
  · have sum : ((s.tally.table.find? (fun e => e.rangeId == row.rangeId)).map TallyEntry.sum).getD 0 =
        s.tally.sumOf row.rangeId := rfl
    have count : ((s.tally.repeats.find? (fun e => e.token == token)).map RepeatEntry.count).getD 0 =
        s.tally.countOf token := rfl
    have room (m n : Nat) : (!decide (m < n)) = decide (n ≤ m) := by
      rw [Bool.eq_iff_iff]
      simp
    have noRange : ((s.tally.table.find? (fun e => e.rangeId == row.rangeId)).isNone && decide (96 ≤ s.tally.table.length))
        = !s.tally.roomForRange row.rangeId := by
      rw [Tally.roomForRange, Bool.not_or, Option.not_isSome, room]
      rfl
    have noToken : ((s.tally.repeats.find? (fun e => e.token == token)).isNone && decide (64 ≤ s.tally.repeats.length))
        = !s.tally.roomForToken token := by
      rw [Tally.roomForToken, Bool.not_or, Option.not_isSome, room]
      rfl
    have free : freeSlots s = s.journal.freeSpace := rfl
    simp only [offlineChecks, firstRefusal_cons, firstRefusal_nil, sum, count, noRange, noToken, free, offlineTest,
      decide_eq_true_eq]
    rfl
  · intro n
    have runs := exec_authorize (tag := tag) (pfx := pfx) (token := token) ready passed free unwrapped
    have declined : choosePath s (lookup s pfx.toNat) base.toNat tip.toNat token = .declined reason :=
      choosePath_declined notUp path
    rw [takeDecision_declined (by exact declined)] at runs
    have inside : i < (reservedFor i (opened bill.toNat share.toNat pfx.toNat token base.toNat tip.toNat s)
        s).decision.slots.length := by
      have free' := (List.getElem?_eq_some_iff.mp free.1).1
      exact (List.length_set ..).symm ▸ free'
    have reserved := findBill_reservedFor (a := opened bill.toNat share.toNat pfx.toNat token base.toNat tip.toNat s)
      entry i
    have entry' := findBill_settleSlot reserved i .declined reason 0
    obtain ⟨set, events, mem⟩ := settleSlot_events inside
      (opened bill.toNat share.toNat pfx.toNat token base.toNat tip.toNat s) .declined reason 0
    have kept := settleSlot_changedOnly i (opened bill.toNat share.toNat pfx.toNat token base.toNat tip.toNat s) .declined
      reason 0 (reservedFor i (opened bill.toNat share.toNat pfx.toNat token base.toNat tip.toNat s) s)
    have slots := settleSlot_decision i (opened bill.toNat share.toNat pfx.toNat token base.toNat tip.toNat s) .declined
      reason 0 (reservedFor i (opened bill.toNat share.toNat pfx.toNat token base.toNat tip.toNat s) s)
    rw [settleBill_release rfl] at entry'
    generalize settleSlot i (opened bill.toNat share.toNat pfx.toNat token base.toNat tip.toNat s) .declined reason 0
      (reservedFor i (opened bill.toNat share.toNat pfx.toNat token base.toNat tip.toNat s) s) = u at *
    have host : u.host = hostTaken s.host := kept .host (by decide)
    refine ⟨answerRequest 0x01 tag (.accepted i (nextTxn s)) u,
      finished (opened bill.toNat share.toNat pfx.toNat token base.toNat tip.toNat s) .declined reason 0, _, set, runs,
      changedOnly_trans (changedOnly_trans (reservedFor_changedOnly _ _ _) kept (List.Subset.refl _))
        (answerRequest_changedOnly _ _ _ _) (by decide), ?_, ?_, rfl, rfl, rfl, rfl, rfl, rfl, rfl, rfl, rfl, entry', Nat.add_sub_cancel .., rfl, rfl, rfl,
      events, mem⟩
    · exact answered_host host (nextTxn s) i tag
    · exact slots.trans (congrArg (fun l => { s.decision with seq := s.decision.seq + 1, slots := l }) (List.set_set ..))

end Sys2Proof.Proofs.Authorize
end

