-- ==== Sys2Proof/Proofs/Ends.lean ====
section
/-! PROOFS. The ends of the Store Engine's operations, the journal's record slots, and what reclaim, the low flag and the
writer leave as it was: the layer under the completions. -/

namespace Sys2Proof.Proofs.Ends

open Sys2Proof.Machine Sys2Proof.Safety Sys2Proof.Laws Sys2Proof.Proofs.Bills Sys2Proof.Proofs.LoadOpen
  Sys2Proof.Proofs.Frames

/-! ### The end of the running operation -/

/-- R116: the end of the operation that runs. -/
theorem endRunning_running {s : State} {op : StoreOp} (running : s.store.running = some op) {kind : Option OpKind}
    (ofKind : kind = none ∨ kind = some op.kind) (target : op.targetExists = true) (limit : Bool) (e : ArrayEnd) :
    endRunning kind limit e s = .next (completeOperation op limit e s) := by
  unfold endRunning
  rw [running]
  simp only [if_pos ofKind, target, if_true]

/-- R116, R117: the part after an operation whose read-back matched. -/
def ended (s : State) (array : Mem) : State := { s with array := array, store := { s.store with running := none } }

/-- R116, R117: the part after an operation that failed, counted with the failed programs. -/
def failed (s : State) (array : Mem) : State :=
  { s with
    array := array
    store := { s.store with running := none, programFailures := min (s.store.programFailures + 1) 65535 } }

theorem ended_changedOnly (s : State) (array : Mem) : ChangedOnly [.array, .store] s (ended s array) := by
  intro p other
  cases p <;> first | exact absurd (by decide) other | rfl

theorem failed_changedOnly (s : State) (array : Mem) : ChangedOnly [.array, .store] s (failed s array) := by
  intro p other
  cases p <;> first | exact absurd (by decide) other | rfl

/-- R126, R172: what STORE_FAULT changes. -/
theorem raiseStoreFault_changedOnly (kind : FaultKind) (torn : Option Nat) (s : State) :
    ChangedOnly [.store, .events] s (raiseStoreFault kind torn s) := by
  intro p other
  cases p <;> first | exact absurd (by decide) other | rfl

theorem endOperation_success {op : StoreOp} {e : ArrayEnd} {s : State} (ok : (op.apply s.array e).2 = true) :
    completionOf false (op.apply s.array e).2 = .success
      ∧ endOperation op false e s = ended s (op.apply s.array e).1 := by
  have success : completionOf false (op.apply s.array e).2 = .success := by rw [ok]; rfl
  refine ⟨success, ?_⟩
  have left : op.leaves s.array e .success = (op.apply s.array e).1 := by
    cases op with
    | mark q => exact if_neg (by simp)
    | _ => rfl
  rw [endOperation, success, left]
  rfl

theorem endOperation_fail {op : StoreOp} {e : ArrayEnd} {s : State} (bad : (op.apply s.array e).2 = false)
    (kind : op.kind ≠ .blockErase) :
    completionOf false (op.apply s.array e).2 = .fail
      ∧ endOperation op false e s = failed s (op.leaves s.array e .fail) := by
  have fail : completionOf false (op.apply s.array e).2 = .fail := by rw [bad]; rfl
  refine ⟨fail, ?_⟩
  rw [endOperation, fail]
  cases op <;> first | rfl | exact absurd rfl kind

/-! ### Record slots -/

/-- R76: a record slot of a journal. -/
def slotOf (j : Journal) (loc : Loc) : RecordSlot := (j.blocks.getD loc.block .erased).slots.getD loc.slot .fresh

theorem recordSlotAt_eq (s : State) (loc : Loc) : recordSlotAt s loc = slotOf s.journal loc := rfl

/-- A block that takes a state keeps its record slots. -/
theorem slotOf_onBlock (j : Journal) (b : Nat) (st : BlockState) (loc : Loc) :
    slotOf (j.onBlock b (fun blk => { blk with state := st })) loc = slotOf j loc := by
  simp only [slotOf, Journal.onBlock, List.getD_eq_getElem?_getD, List.getElem?_modify]
  split
  · cases j.blocks[loc.block]? <;> rfl
  · simp

/-- A change of a record slot is of that slot, when the journal has it, and of no other. -/
theorem slotOf_onSlot (j : Journal) (loc x : Loc) (f : RecordSlot → RecordSlot) :
    slotOf (j.onSlot loc f) x =
      if x = loc ∧ loc.block < j.blocks.length ∧ loc.slot < (j.blocks.getD loc.block .erased).slots.length then
        f (slotOf j loc)
      else slotOf j x := by
  obtain ⟨b, n⟩ := loc
  obtain ⟨c, m⟩ := x
  simp only [slotOf, Journal.onSlot, Journal.onBlock, List.getD_eq_getElem?_getD, List.getElem?_modify, Loc.mk.injEq]
  by_cases block : b = c
  · subst block
    cases blocks : j.blocks[b]? with
    | none =>
      have beyond : ¬ b < j.blocks.length := Nat.not_lt.mpr (List.getElem?_eq_none_iff.mp blocks)
      simp [beyond]
    | some blk =>
      have inside : b < j.blocks.length := (List.getElem?_eq_some_iff.mp blocks).1
      by_cases slot : n = m
      · subst slot
        cases slots : blk.slots[n]? with
        | none =>
          have beyond : ¬ n < blk.slots.length := Nat.not_lt.mpr (List.getElem?_eq_none_iff.mp slots)
          simp [beyond]
        | some r =>
          have inside' : n < blk.slots.length := (List.getElem?_eq_some_iff.mp slots).1
          simp [inside, inside']
      · simp [slot, Ne.symm slot]
  · simp [block, Ne.symm block]

/-- A record slot that the journal does not have reads as a fresh one. -/
theorem slotOf_absent {j : Journal} {loc : Loc}
    (absent : ¬ (loc.block < j.blocks.length ∧ loc.slot < (j.blocks.getD loc.block .erased).slots.length)) :
    slotOf j loc = .fresh := by
  rw [slotOf, List.getD_eq_getElem?_getD]
  by_cases block : loc.block < j.blocks.length
  · rw [List.getElem?_eq_none (Nat.not_lt.mp (fun slot => absent ⟨block, slot⟩))]
    rfl
  · have erased : j.blocks.getD loc.block .erased = .erased := by
      rw [List.getD_eq_getElem?_getD, List.getElem?_eq_none (Nat.not_lt.mp block)]
      rfl
    rw [erased, JBlock.erased, List.getElem?_replicate]
    split <;> rfl

/-! ### The low flag -/

/-- R86: the evaluation of the low flag changes the flag, and JOURNAL_LOW. -/
theorem evaluateLow_fields (s : State) : ∃ flag low,
    evaluateLow s = { s with
      journal := { s.journal with lowFlag := flag }
      events := { s.events with latches := { s.events.latches with journalLow := low } } } := by
  unfold evaluateLow
  split
  · split
    · exact ⟨s.journal.lowFlag, s.events.latches.journalLow, rfl⟩
    · exact ⟨true, some s.journal.freeSpace, rfl⟩
  · exact ⟨false, s.events.latches.journalLow, rfl⟩

/-! ### Reclaim -/

/-- R90: what reclaim may change: block states, the block order and the erases asked for. -/
structure Reclaimed (s t : State) : Prop where
  state : ∃ blocks order erases, t = { s with
    journal := { s.journal with blocks := blocks, order := order }, store := { s.store with erases := erases } }
  slots : ∀ loc, slotOf t.journal loc = slotOf s.journal loc

theorem Reclaimed.refl (s : State) : Reclaimed s s := ⟨⟨_, _, _, rfl⟩, fun _ => rfl⟩

theorem reclaim_reclaimed (s : State) : Reclaimed s (reclaim s) := by
  unfold reclaim
  generalize s.journal.order = order
  induction order generalizing s with
  | nil => exact Reclaimed.refl s
  | cons b rest ih =>
    rw [reclaimFrom]
    split
    · obtain ⟨⟨blocks, order, erases, state⟩, slots⟩ := ih (requestErase { target := .journal b, second := false }
        (s.setJournal { s.journal.onBlock b (fun blk => { blk with state := .erasing }) with order := rest }))
      refine ⟨⟨blocks, order, erases, state⟩, fun loc => (slots loc).trans ?_⟩
      exact slotOf_onBlock s.journal b .erasing loc
    · exact Reclaimed.refl s

theorem reclaim_changedOnly (s : State) : ChangedOnly [.journal, .store] s (reclaim s) := by
  intro p other
  simp only [List.mem_cons, List.not_mem_nil, or_false, not_or] at other
  obtain ⟨journal, store⟩ := other
  simp [*, same_self]

/-! ### The writer -/

theorem slotOf_openBlock (j : Journal) (b : Nat) (loc : Loc) : slotOf (j.openBlock b) loc = slotOf j loc :=
  slotOf_onBlock j b .filling loc

/-- R80: the write position moves on: what it keeps. -/
theorem advance_kept (j : Journal) (loc : Loc) :
    (∀ x, slotOf (j.advance loc) x = slotOf j x) ∧ (j.advance loc).queue = j.queue := by
  unfold Journal.advance
  split
  · exact ⟨fun _ => rfl, rfl⟩
  · dsimp only
    split
    · refine ⟨fun x => (slotOf_openBlock _ _ x).trans ?_, rfl⟩
      exact slotOf_onBlock j loc.block .full x
    · exact ⟨fun x => slotOf_onBlock j loc.block .full x, rfl⟩

/-- R80: a record issued: the journal, the Store Engine's record place and the events after it. -/
theorem issueRecord_kept (loc : Loc) (e : QueuedRecord) (retry : Bool) (s : State) :
    (issueRecord loc e retry s).journal.queue = s.journal.queue
      ∧ (issueRecord loc e retry s).events.latches.storeFault = s.events.latches.storeFault
      ∧ ∀ x, x ≠ loc → slotOf (issueRecord loc e retry s).journal x = slotOf s.journal x := by
  obtain ⟨flag, low, state⟩ := evaluateLow_fields (requestRecord loc (encodeRecord e.record)
    (s.setJournal
      { (s.journal.onSlot loc (fun r => { r with state := .programming })).advance loc with
        inProgram := some { loc := loc, entry := e, retry := retry } }))
  obtain ⟨slots, queue⟩ := advance_kept (s.journal.onSlot loc (fun r => { r with state := .programming })) loc
  rw [issueRecord, state]
  refine ⟨queue, rfl, fun x other => (slots x).trans ?_⟩
  rw [slotOf_onSlot, if_neg (fun h => other h.1)]

/-- R80: with nothing in program and nothing queued, the writer has nothing to issue. -/
theorem issueNext_empty {s : State} (empty : s.journal.queue = []) : issueNext s = s := by
  unfold issueNext
  split
  · rfl
  · rw [empty, issueQueue, ← empty]
    rfl

/-- R80: with a record in program the writer waits. -/
theorem issueNext_busy {s : State} {ip : InProgram} (busy : s.journal.inProgram = some ip) : issueNext s = s := by
  rw [issueNext, busy]

end Sys2Proof.Proofs.Ends
end

