-- ==== Sys2Proof/Proofs/Records.lean ====
section
/-! PROOFS. The end of a record program: stored (O46), and failed, once and twice (O47). -/

namespace Sys2Proof.Proofs.Records

open Sys2Proof.Machine Sys2Proof.Safety Sys2Proof.Laws Sys2Proof.Proofs.Slots Sys2Proof.Proofs.Payments
  Sys2Proof.Proofs.Frames Sys2Proof.Proofs.Voids Sys2Proof.Proofs.Ends

/-! ### The end of a record program -/

/-- R115: a record program whose slot exists and whose bytes fill no more than it. -/
theorem recordProgram_target {loc : Loc} {bytes : List Byte} (block : loc.block < 4) (slot : loc.slot < 128)
    (room : bytes.length ≤ 32) : (StoreOp.recordProgram loc bytes).targetExists = true := by
  simp [StoreOp.targetExists, Loc.inArray, Limits.journalBlocks, Limits.blockSlots, Limits.recordBytes, block, slot, room]

/-- R125: the part once a record program has ended, its result kept for report. -/
def resultKept (r : OpResult) (s : State) : State :=
  { s with store := { s.store with prevRecord := s.store.lastRecord, lastRecord := some r } }

/-- R81: a record program whose read-back matched. -/
theorem exec_recordStored {e : ArrayEnd} {s : State} {loc : Loc} {bytes : List Byte} {ip : InProgram}
    (running : s.store.running = some (.recordProgram loc bytes)) (block : loc.block < 4) (slot : loc.slot < 128)
    (room : bytes.length ≤ 32) (ok : (s.array.program loc.addr bytes e).2 = true)
    (inProgram : s.journal.inProgram = some ip) :
    exec (.recordProgramComplete e) s =
      .next (recordSucceeded ip (resultKept .success (ended s (s.array.program loc.addr bytes e).1))) := by
  obtain ⟨success, left⟩ := endOperation_success (op := .recordProgram loc bytes) (e := e) (s := s) ok
  refine (endRunning_running running (.inr rfl) (recordProgram_target block slot room) false e).trans
    (congrArg Host.Outcome.next ?_)
  have inProgram' : (handRecordResult .success (ended s (s.array.program loc.addr bytes e).1)).journal.inProgram =
      some ip := inProgram
  rw [completeOperation, success, left]
  refine (?_ : takeRecordResult .success (ended s (s.array.program loc.addr bytes e).1) = _)
  simp only [takeRecordResult, inProgram']
  rfl

/-- R82: a record program that failed. -/
theorem exec_recordFailed {e : ArrayEnd} {s : State} {loc : Loc} {bytes : List Byte} {ip : InProgram}
    (running : s.store.running = some (.recordProgram loc bytes)) (block : loc.block < 4) (slot : loc.slot < 128)
    (room : bytes.length ≤ 32) (bad : (s.array.program loc.addr bytes e).2 = false)
    (inProgram : s.journal.inProgram = some ip) :
    exec (.recordProgramComplete e) s =
      .next (recordFailed ip (resultKept .fail (failed s (s.array.program loc.addr bytes e).1))) := by
  obtain ⟨fail, left⟩ := endOperation_fail (op := .recordProgram loc bytes) (e := e) (s := s) bad nofun
  refine (endRunning_running running (.inr rfl) (recordProgram_target block slot room) false e).trans
    (congrArg Host.Outcome.next ?_)
  have inProgram' : (handRecordResult .fail (failed s (s.array.program loc.addr bytes e).1)).journal.inProgram =
      some ip := inProgram
  rw [completeOperation, fail, left]
  refine (?_ : takeRecordResult .fail (failed s (s.array.program loc.addr bytes e).1) = _)
  simp only [takeRecordResult, inProgram']
  rfl

/-! ### A record stored -/

/-- R99: outside IDLE the Uploader selects nothing. -/
theorem selectIfIdle_busy {s : State} (busy : s.uploader ≠ .idle) : selectIfIdle s = s := by
  unfold selectIfIdle
  split
  · exact absurd ‹_› busy
  · rfl
  · rfl
  · rfl

/-- R81: the part with a record LIVE and nothing in program. -/
def recordLive (loc : Loc) (s : State) : State :=
  { s with journal := { s.journal.onSlot loc (fun x => { x with state := .live }) with inProgram := none } }

/-- R49, R81: a stored record with nothing queued behind it ends its slot's payment. -/
theorem recordSucceeded_eq {s : State} {loc : Loc} {r : JRecord} {retry : Bool} {i : Nat} {a : Auth}
    (held : slotAt s i = some a) (empty : s.journal.queue = []) (busy : s.uploader ≠ .idle) :
    recordSucceeded { loc := loc, entry := { record := r, requester := .slot i }, retry := retry } s =
      settleSlot i a .approvedOffline .none a.issuer (recordLive loc s) := by
  have held' : slotAt (recordLive loc s) i = some a := held
  have stored : recordStored { record := r, requester := .slot i } (recordLive loc s) =
      settleSlot i a .approvedOffline .none a.issuer (recordLive loc s) := by
    simp only [recordStored, held']
  have kept := settleSlot_changedOnly i a .approvedOffline .none a.issuer (recordLive loc s)
  have queue : (settleSlot i a .approvedOffline .none a.issuer (recordLive loc s)).journal.queue = [] :=
    (congrArg Journal.queue (kept .journal (by decide))).trans empty
  have uploader : (settleSlot i a .approvedOffline .none a.issuer (recordLive loc s)).uploader ≠ .idle := by
    rw [kept .uploader (by decide)]
    exact busy
  refine (?_ : selectIfIdle (issueNext (recordStored { record := r, requester := .slot i } (recordLive loc s))) = _)
  rw [stored, issueNext_empty queue, selectIfIdle_busy uploader]

/-- R81, R125: what a stored record changes before its payment ends. -/
theorem stored_changedOnly (array : Mem) (loc : Loc) (s : State) :
    ChangedOnly [.array, .store, .journal] s (recordLive loc (resultKept .success (ended s array))) := by
  intro p other
  cases p <;> first | exact absurd (by decide) other | rfl

/-- Settles O46. -/
theorem recordStoredApprovesThePayment : Obligations.RecordStoredApprovesThePayment := by
  intro e s loc bytes r retry i a b running block slot room ok inProgram empty busy held entry
  have runs := exec_recordStored running block slot room ok inProgram
  rw [recordSucceeded_eq (by exact held) (by exact empty) (by exact busy)] at runs
  have changed := stored_changedOnly (s.array.program loc.addr bytes e).1 loc s
  have held' : slotAt (recordLive loc (resultKept .success (ended s (s.array.program loc.addr bytes e).1))) i = some a :=
    held
  have entry' := findBill_settleSlot
    (s := recordLive loc (resultKept .success (ended s (s.array.program loc.addr bytes e).1))) entry i .approvedOffline
    .none a.issuer
  obtain ⟨set, events, mem⟩ := settleSlot_events (lt_of_slotAt held') a .approvedOffline .none a.issuer
  have kept := settleSlot_changedOnly i a .approvedOffline .none a.issuer
    (recordLive loc (resultKept .success (ended s (s.array.program loc.addr bytes e).1)))
  have slots := settleSlot_decision i a .approvedOffline .none a.issuer
    (recordLive loc (resultKept .success (ended s (s.array.program loc.addr bytes e).1)))
  rw [settleBill_commit rfl] at entry'
  exact ⟨_, _, set, runs, changedOnly_trans changed kept (by decide), kept .array (by decide), kept .store (by decide),
    kept .journal (by decide), slots, entry', rfl, rfl, rfl, events, mem⟩

/-! ### A record failed -/

/-- R82: the part with a record's slot BAD and nothing in program. -/
def slotBad (loc : Loc) (s : State) : State :=
  { s with journal := { s.journal.onSlot loc (fun x => { x with state := .bad }) with inProgram := none } }

/-- R82, R126: such a part with STORE_FAULT raised. -/
def recordBad (loc : Loc) (s : State) : State := raiseStoreFault .recordProgram none (slotBad loc s)

/-- R126, R172: STORE_FAULT carries the kind of the last raise. -/
theorem raiseStoreFault_kind (kind : FaultKind) (torn : Option Nat) (s : State) :
    (raiseStoreFault kind torn s).events.latches.storeFault.map StoreFaultDetail.kind = some kind := by
  refine (?_ : (some (storeFaultDetail kind torn s.events.latches.storeFault)).map StoreFaultDetail.kind = some kind)
  cases s.events.latches.storeFault <;> rfl

/-- R82, R125, R126: the Store Engine after a record that failed. -/
theorem recordBad_store (array : Mem) (loc : Loc) (s : State) :
    (recordBad loc (resultKept .fail (failed s array))).store =
      { s.store with
        running := none, lastRecord := some .fail, prevRecord := s.store.lastRecord
        programFailures := min (s.store.programFailures + 1) 65535
        storeFaults := min (s.store.storeFaults + 1) 65535 } := rfl

/-- R82, R125, R126: what a record that failed changes before it is retried or given up. -/
theorem badRecord_changedOnly (array : Mem) (loc : Loc) (s : State) :
    ChangedOnly [.array, .store, .journal, .events] s (recordBad loc (resultKept .fail (failed s array))) := by
  intro p other
  cases p <;> first | exact absurd (by decide) other | rfl

theorem recordFailed_eq (ip : InProgram) (s : State) :
    recordFailed ip s =
      reclaim (issueNext (if ip.retry then recordLost ip.entry (recordBad ip.loc s)
        else issueRetry ip.entry (recordBad ip.loc s))) := rfl

/-- R82: the first failure is retried at the write position before anything queued. -/
theorem recordFailed_first {s : State} {loc loc' : Loc} (position : s.journal.writeAt = some loc') (entry : QueuedRecord) :
    recordFailed { loc := loc, entry := entry, retry := false } s =
      reclaim (issueRecord loc' entry true (recordBad loc s)) := by
  have position' : (recordBad loc s).journal.writeAt = some loc' := position
  have issued : issueRetry entry (recordBad loc s) = issueRecord loc' entry true (recordBad loc s) := by
    rw [issueRetry, position']
  obtain ⟨-, -, inProgram⟩ := issueRecord_effects loc' entry true (recordBad loc s)
  rw [recordFailed_eq]
  refine (?_ : reclaim (issueNext (issueRetry entry (recordBad loc s))) = _)
  rw [issued, issueNext_busy inProgram]

/-- R49, R64, R82: the part before a payment whose record is given up is declined. -/
def givenUp (entry : QueuedRecord) (s : State) : State :=
  declineLate entry.record.txn (s.setTally (uncountRecord entry.record s.tally))

theorem givenUp_slots (entry : QueuedRecord) (s : State) : (givenUp entry s).decision.slots = s.decision.slots := rfl

theorem givenUp_changedOnly (entry : QueuedRecord) (s : State) :
    ChangedOnly [.decision, .tally] s (givenUp entry s) := by
  intro p other
  cases p <;> first | exact absurd (by decide) other | rfl

/-- The Bill Table alone says what entry a bill has. -/
theorem findBill_congr {s t : State} (h : t.bills = s.bills) (n : Nat) : findBill t n = findBill s n := by
  rw [findBill, findBill, h]

/-- R49, R82: the second failure, with nothing queued, declines the payment of its slot. -/
theorem recordFailed_second {s : State} {loc : Loc} {entry : QueuedRecord} {i : Nat} {a : Auth}
    (held : slotAt s i = some a) (requester : entry.requester = .slot i) (empty : s.journal.queue = []) :
    recordFailed { loc := loc, entry := entry, retry := true } s =
      reclaim (settleSlot i a .declined .storeFault a.issuer (givenUp entry (recordBad loc s))) := by
  have held' : slotAt (recordBad loc s) i = some a := held
  have lost : recordLost entry (recordBad loc s) =
      settleSlot i a .declined .storeFault a.issuer (givenUp entry (recordBad loc s)) := by
    rw [recordLost, requester]
    simp only [held']
    rfl
  have queue : (settleSlot i a .declined .storeFault a.issuer (givenUp entry (recordBad loc s))).journal.queue = [] :=
    (congrArg Journal.queue (settleSlot_changedOnly i a .declined .storeFault a.issuer (givenUp entry (recordBad loc s)) .journal
      (by decide))).trans empty
  rw [recordFailed_eq]
  refine (?_ : reclaim (issueNext (recordLost entry (recordBad loc s))) = _)
  rw [lost, issueNext_empty queue]

/-- Settles O47. -/
theorem failedRecordIsRetriedOnce : Obligations.FailedRecordIsRetriedOnce := by
  intro e s loc bytes entry running block slot room bad
  refine ⟨fun loc' inProgram position => ?_, fun i a b inProgram requester approval empty held bill => ?_⟩
  · have runs := exec_recordFailed running block slot room bad inProgram
    rw [recordFailed_first (by exact position)] at runs
    have changed := badRecord_changedOnly (s.array.program loc.addr bytes e).1 loc s
    have fault : (recordBad loc (resultKept .fail
        (failed s (s.array.program loc.addr bytes e).1))).events.latches.storeFault.map StoreFaultDetail.kind =
        some .recordProgram := raiseStoreFault_kind ..
    have stored := recordBad_store (s.array.program loc.addr bytes e).1 loc s
    have slots := fun x => slotOf_onSlot s.journal loc x (fun x => { x with state := .bad })
    have journal : (recordBad loc (resultKept .fail (failed s (s.array.program loc.addr bytes e).1))).journal =
        { s.journal.onSlot loc (fun x => { x with state := .bad }) with inProgram := none } := rfl
    generalize recordBad loc (resultKept .fail (failed s (s.array.program loc.addr bytes e).1)) = x at *
    obtain ⟨kept, store, issued⟩ := issueRecord_effects loc' entry true x
    obtain ⟨queue, storeFault, others⟩ := issueRecord_kept loc' entry true x
    generalize issueRecord loc' entry true x = u at *
    obtain ⟨⟨blocks, order, erases, state⟩, slots'⟩ := reclaim_reclaimed u
    have after : (reclaim u).store = { u.store with erases := erases } := congrArg State.store state
    have journal' : (reclaim u).journal = { u.journal with blocks := blocks, order := order } :=
      congrArg State.journal state
    refine ⟨_, runs, changedOnly_trans (changedOnly_trans changed kept (List.Subset.refl _)) (reclaim_changedOnly u)
      (by decide), ?_, ?_, ?_, ?_, ?_, ?_, ?_, ?_, fun apart => ?_, ?_⟩
    iterate 6 rw [after, store, stored]
    · rw [journal']
      exact issued
    · rw [journal', journal] at *
      exact queue
    · rw [recordSlotAt_eq, slots', others loc apart, journal]
      refine (congrArg RecordSlot.state (slots loc)).trans ?_
      by_cases present : loc.block < s.journal.blocks.length ∧ loc.slot < (blockAt s loc.block).slots.length
      · rw [if_pos present, if_pos ⟨rfl, present⟩]
      · rw [if_neg present, if_neg (fun h => present h.2), slotOf_absent present]
        rfl
    · rw [reclaim_changedOnly u .events (by decide), storeFault]
      exact fault
  · have runs := exec_recordFailed running block slot room bad inProgram
    rw [recordFailed_second (by exact held) requester (by exact empty)] at runs
    have changed := badRecord_changedOnly (s.array.program loc.addr bytes e).1 loc s
    have stored := recordBad_store (s.array.program loc.addr bytes e).1 loc s
    have inProgram' : (recordBad loc (resultKept .fail
        (failed s (s.array.program loc.addr bytes e).1))).journal.inProgram = none := rfl
    have slots : (recordBad loc (resultKept .fail (failed s (s.array.program loc.addr bytes e).1))).decision =
      s.decision := rfl
    generalize recordBad loc (resultKept .fail (failed s (s.array.program loc.addr bytes e).1)) = x at *
    have held' : slotAt (givenUp entry x) i = some a := by
      rw [slotAt, givenUp_slots, slots]
      exact held
    have bill' : findBill (givenUp entry x) a.bill = some b :=
      (findBill_congr (changed .bills (by decide)) a.bill).trans bill
    have entry' := findBill_settleSlot bill' i .declined .storeFault a.issuer
    have kept := settleSlot_changedOnly i a .declined .storeFault a.issuer (givenUp entry x)
    have after := slotAt_settleSlot (givenUp entry x) i i a .declined .storeFault a.issuer
    rw [if_pos ⟨rfl, lt_of_slotAt held'⟩] at after
    rw [settleBill_release rfl] at entry'
    generalize settleSlot i a .declined .storeFault a.issuer (givenUp entry x) = u at *
    obtain ⟨⟨blocks, order, erases, state⟩, -⟩ := reclaim_reclaimed u
    have reclaimed := reclaim_changedOnly u
    have store : (reclaim u).store = { x.store with erases := erases } := by
      rw [← show u.store = x.store from kept .store (by decide)]
      exact congrArg State.store state
    have tally : uncountRecord entry.record x.tally =
        s.tally.sub entry.record.rangeId entry.record.token (entry.record.base + entry.record.tip) := by
      rw [uncountRecord, approval, changed .tally (by decide)]
      rfl
    refine ⟨_, _, runs, changedOnly_trans (changedOnly_trans (changedOnly_trans changed (givenUp_changedOnly entry x)
      (List.Subset.refl _)) kept (List.Subset.refl _)) reclaimed (by decide), ?_, ?_,
      (findBill_congr (reclaimed .bills (by decide)) a.bill).trans entry', rfl, rfl, rfl, ?_, ?_, ?_⟩
    · rw [slotAt, reclaimed .decision (by decide)]
      exact after
    · exact ((reclaimed .tally (by decide)).trans (kept .tally (by decide))).trans tally
    · rw [state]
      exact (congrArg Journal.inProgram (kept .journal (by decide))).trans inProgram'
    · rw [store, stored]
    · rw [store, stored]

end Sys2Proof.Proofs.Records
end

