-- ==== Sys2Proof/Proofs/Stops.lean ====
section
/-! PROOFS. An operation stopped at its time limit (O52); PWRWARN, the loss of supply and RESETN (O54). -/

namespace Sys2Proof.Proofs.Stops

open Sys2Proof.Machine Sys2Proof.Safety Sys2Proof.Laws Sys2Proof.Proofs.Ends

/-! ### The time limit -/

/-- R117, R118: the array after an operation stopped at its time limit. -/
theorem leaves_timeLimit (m : Mem) (e : ArrayEnd) (op : StoreOp) :
    op.leaves m e .timeLimit =
      match op with
      | .mark { loc, kind, second := true } => (op.apply m e).1.write (markAddr loc kind) 0xFF
      | _ => (op.apply m e).1 := by
  cases op with
  | mark q =>
    obtain ⟨loc, kind, second⟩ := q
    cases second <;> rfl
  | _ => rfl

/-- R118, R126: the counters after an operation stopped at its time limit. -/
theorem count_timeLimit (st : Store) (k : OpKind) :
    st.count k .timeLimit =
      { st with
        timeLimitFailures := min (st.timeLimitFailures + 1) 65535
        programFailures :=
          if k = .blockErase then st.programFailures else min (st.programFailures + 1) 65535
        eraseFailures := if k = .blockErase then min (st.eraseFailures + 1) 65535 else st.eraseFailures } := by
  cases k <;> rfl

/-- A running operation whose target lies outside the array. -/
theorem runningInArray_false {s : State} {op : StoreOp} (running : s.store.running = some op)
    (outside : op.targetExists = false) : runningInArray s = false := by
  rw [runningInArray, running]
  exact outside

/-- Settles O52. -/
theorem timeLimitIsAFailure : Obligations.TimeLimitIsAFailure := by
  refine ⟨fun e s op running target => ?_, fun e s op running outside => ⟨?_, ?_, ?_, ?_⟩⟩
  · refine (endRunning_running running (.inl rfl) target true e).trans (congrArg Host.Outcome.next ?_)
    have limited (readBack : Bool) : completionOf true readBack = .timeLimit := rfl
    rw [completeOperation, limited, endOperation, limited, leaves_timeLimit, count_timeLimit]
    cases op with
    | mark q =>
      obtain ⟨loc, kind, second⟩ := q
      cases second <;> rfl
    | _ => rfl
  · refine (?_ : endRunning none true e s = _)
    rw [endRunning, running]
    simp [outside]
  all_goals exact if_neg (by rw [runningInArray_false running outside]; exact Bool.false_ne_true)

/-! ### PWRWARN -/

/-- R171: a change of PWRWARN of a part that has left reset. -/
theorem warnChange_running {s : State} (left : s.pins.phase = .run ∨ s.pins.phase = .scan) (level : Line) :
    warnChange level s = raisePowerWarn level s := by
  rcases left with h | h <;> rw [warnChange, h]

/-! ### The loss of the volatile state -/

/-- R124: what a part that stops keeps. -/
theorem stopPart_cleared (phase : Phase) (e : ArrayEnd) (s : State) :
    VolatileCleared s (stopPart phase e s) ∧ (stopPart phase e s).pins = { s.pins with phase := phase }
      ∧ (stopPart phase e s).array = (interruptOperation e s).array := by
  have kept : (interruptOperation e s).pins = s.pins ∧ (interruptOperation e s).link = s.link
      ∧ (interruptOperation e s).pending = s.pending := by
    unfold interruptOperation
    split <;> exact ⟨rfl, rfl, rfl⟩
  obtain ⟨pins, link, pending⟩ := kept
  refine ⟨⟨rfl, rfl, rfl, rfl, rfl, rfl, rfl, ?_, rfl, rfl, rfl, rfl, rfl, rfl, rfl, rfl, rfl, pending⟩, rfl, rfl⟩
  exact congrArg (fun l : Link => Link.reset l.identity) link

/-- R124: the array of a part that stops. -/
theorem interruptOperation_array (e : ArrayEnd) (s : State) :
    (interruptOperation e s).array =
      match s.store.running with
      | some op => op.cut s.array e
      | none => s.array := by
  unfold interruptOperation
  cases s.store.running <;> rfl

/-- What runs has its target in the array. -/
theorem runningInArray_true {s : State} (inside : ∀ op, s.store.running = some op → op.targetExists = true) :
    runningInArray s = true := by
  unfold runningInArray
  split
  · rfl
  · exact inside _ ‹_›

/-- R124, R187: RESETN asserted on a part that has left reset. -/
theorem holdPart_running {s : State} (left : s.pins.phase = .run ∨ s.pins.phase = .scan) (e : ArrayEnd) :
    holdPart e s = stopPart .held e s := by
  rcases left with h | h <;> rw [holdPart, h]

/-- Settles O54. -/
theorem resetAndPwrwarnActOnThePart : Obligations.ResetAndPwrwarnActOnThePart := by
  refine ⟨fun level s => ⟨fun other left => ?_, fun same => congrArg Host.Outcome.next (if_pos same)⟩,
    fun e s inside => ⟨?_, fun left => ?_⟩⟩
  · refine congrArg Host.Outcome.next ((if_neg other).trans ?_)
    exact (warnChange_running (s := s.setPins { s.pins with pwrwarn := level }) left level).trans rfl
  · obtain ⟨cleared, pins, array⟩ := stopPart_cleared .off e s
    exact ⟨_, if_pos (runningInArray_true inside), cleared, array.trans (interruptOperation_array e s), pins⟩
  · obtain ⟨cleared, pins, array⟩ := stopPart_cleared .held e s
    have runs : exec (.resetnAssert e) s =
        .next ((stopPart .held e s).setPins { (stopPart .held e s).pins with resetn := .asserted }) := by
      rw [← holdPart_running left]
      exact if_pos (runningInArray_true inside)
    refine ⟨_, runs, cleared, array.trans (interruptOperation_array e s), ?_⟩
    rw [pins]
    rfl

end Sys2Proof.Proofs.Stops
end

