-- ==== Sys2Proof/Proofs/Completions.lean ====
section
/-! PROOFS. The ends of marks (O48), epoch programs (O49) and block erases (O51). -/

namespace Sys2Proof.Proofs.Completions

open Sys2Proof.Machine Sys2Proof.Safety Sys2Proof.Laws Sys2Proof.Proofs.Bills Sys2Proof.Proofs.Frames
  Sys2Proof.Proofs.LoadOpen Sys2Proof.Proofs.LoadRows Sys2Proof.Proofs.Ends Sys2Proof.Proofs.Records

/-! ### Marks -/

/-- R88, R90, R34: a mark's end, the last of it. -/
def markEnded (r : MarkRequest) (s : State) : State := reclaim (endVoidByMark r (clearMarkPending r.loc s))

/-- R34: the end of a VOID that waits for a mark changes the host port alone. -/
theorem endVoidByMark_host (r : MarkRequest) (s : State) : ∃ host, endVoidByMark r s = s.setHost host := by
  unfold endVoidByMark
  split
  · exact ⟨s.host, rfl⟩
  · split
    · exact ⟨s.host, rfl⟩
    · split
      · exact ⟨_, rfl⟩
      · exact ⟨s.host, rfl⟩

theorem endVoidByMark_none {s : State} (h : s.host.voidJob = none) (r : MarkRequest) : endVoidByMark r s = s := by
  rw [endVoidByMark, h]

/-- R34: the VOID that waits for the mark is answered. -/
theorem endVoidByMark_waiting {s : State} {r : MarkRequest} {job : VoidJob} (h : s.host.voidJob = some job)
    (path : job.path = .mark r.loc) (voided : r.kind = .voided) :
    endVoidByMark r s = endVoid job (.voided 0) s := by
  rw [endVoidByMark, h]
  simp only [path, voided, and_self, if_true]

/-- R88: what the end of a mark changes, and the state of its record slot. -/
theorem markEnded_effects (r : MarkRequest) (s : State) :
    ChangedOnly [.journal, .store, .host] s (markEnded r s)
      ∧ (markEnded r s).store.marks = s.store.marks ∧ (markEnded r s).store.running = s.store.running
      ∧ recordSlotAt (markEnded r s) r.loc = { recordSlotAt s r.loc with markPending := false }
      ∧ (s.host.voidJob = none → (markEnded r s).host = s.host)
      ∧ (∀ job, s.host.voidJob = some job → job.path = .mark r.loc → r.kind = .voided →
          (markEnded r s).host = { s.host with
            voidJob := none
            replies := s.host.replies ++
              [{ code := 0x06, tag := job.tag, body := .voided 0, ofRequest := true }] }) := by
  have cleared : recordSlotAt (clearMarkPending r.loc s) r.loc = { recordSlotAt s r.loc with markPending := false } := by
    refine (slotOf_onSlot s.journal r.loc r.loc _).trans ?_
    by_cases present : r.loc.block < s.journal.blocks.length
        ∧ r.loc.slot < (s.journal.blocks.getD r.loc.block .erased).slots.length
    · exact if_pos ⟨rfl, present⟩
    · rw [if_neg (fun h => present h.2), recordSlotAt_eq, slotOf_absent present]
      rfl
  obtain ⟨host, after⟩ := endVoidByMark_host r (clearMarkPending r.loc s)
  have hosted : (reclaim (endVoidByMark r (clearMarkPending r.loc s))).host =
      (endVoidByMark r (clearMarkPending r.loc s)).host := reclaim_changedOnly _ .host (by decide)
  refine ⟨?_, ?_, ?_, ?_, fun noJob => ?_, fun job waits path voided => ?_⟩
  · intro p other
    simp only [List.mem_cons, List.not_mem_nil, or_false, not_or] at other
    obtain ⟨journal, store, host⟩ := other
    simp [markEnded, *, same_self]
  · obtain ⟨⟨blocks, order, erases, state⟩, -⟩ := reclaim_reclaimed (endVoidByMark r (clearMarkPending r.loc s))
    rw [markEnded, state, after]
    rfl
  · obtain ⟨⟨blocks, order, erases, state⟩, -⟩ := reclaim_reclaimed (endVoidByMark r (clearMarkPending r.loc s))
    rw [markEnded, state, after]
    rfl
  · obtain ⟨-, slots⟩ := reclaim_reclaimed (endVoidByMark r (clearMarkPending r.loc s))
    refine (slots r.loc).trans ?_
    rw [after]
    exact cleared
  · rw [markEnded, hosted, endVoidByMark_none (by exact noJob)]
    rfl
  · rw [markEnded, hosted, endVoidByMark_waiting (job := job) (by exact waits) path voided]
    rfl

theorem takeMarkResult_ok (r : MarkRequest) (s : State) : takeMarkResult r true s = markEnded r s := rfl

theorem takeMarkResult_second {r : MarkRequest} (second : r.second = true) (s : State) :
    takeMarkResult r false s = markEnded r (raiseStoreFault .mark none s) := by
  rw [takeMarkResult, second]
  rfl

theorem takeMarkResult_first {r : MarkRequest} (first : r.second = false) (s : State) :
    takeMarkResult r false s = requestMark { r with second := true } s := by
  rw [takeMarkResult, first]
  rfl

/-- R115: a mark whose record slot exists. -/
theorem mark_target {r : MarkRequest} (block : r.loc.block < 4) (slot : r.loc.slot < 128) :
    (StoreOp.mark r).targetExists = true := by
  simp [StoreOp.targetExists, Loc.inArray, Limits.journalBlocks, Limits.blockSlots, block, slot]

/-- Settles O48. -/
theorem markIsRetriedOnce : Obligations.MarkIsRetriedOnce := by
  intro e s r running block slot ok
  have runs := endRunning_running running (kind := some .mark) (.inr rfl) (mark_target block slot) false e
  refine ⟨fun bad first => ?_, fun finished => ?_⟩
  · obtain ⟨fail, left⟩ := endOperation_fail (op := .mark r) (e := e) (s := s) bad nofun
    refine runs.trans (congrArg Host.Outcome.next ?_)
    have leaves : (StoreOp.mark r).leaves s.array e .fail =
        (s.array.program (markAddr r.loc r.kind) [0x00] e).1 := if_neg (by simp [first])
    rw [completeOperation, fail, left, leaves]
    exact takeMarkResult_first first _
  · cases done : ok with
    | true =>
      obtain ⟨success, left⟩ := endOperation_success (op := .mark r) (e := e) (s := s) done
      have runs' : exec (.markComplete e) s =
          .next (markEnded r (ended s (s.array.program (markAddr r.loc r.kind) [0x00] e).1)) := by
        refine runs.trans (congrArg Host.Outcome.next ?_)
        rw [completeOperation, success, left]
        rfl
      obtain ⟨kept, marks, idle, slots, noJob, waiting⟩ := markEnded_effects r
        (ended s (s.array.program (markAddr r.loc r.kind) [0x00] e).1)
      refine ⟨_, runs', changedOnly_trans (ended_changedOnly s _) kept (by decide), marks, idle,
        fun _ => kept .array (by decide), nofun, slots, fun _ => kept .events (by decide), nofun, noJob, waiting⟩
    | false =>
      have second : r.second = true := finished.resolve_left (by simp [done])
      obtain ⟨fail, left⟩ := endOperation_fail (op := .mark r) (e := e) (s := s) done nofun
      have leaves : (StoreOp.mark r).leaves s.array e .fail =
          (s.array.program (markAddr r.loc r.kind) [0x00] e).1.write (markAddr r.loc r.kind) 0xFF :=
        if_pos ⟨second, nofun⟩
      have runs' : exec (.markComplete e) s = .next (markEnded r (raiseStoreFault .mark none (failed s
          ((s.array.program (markAddr r.loc r.kind) [0x00] e).1.write (markAddr r.loc r.kind) 0xFF)))) := by
        refine runs.trans (congrArg Host.Outcome.next ?_)
        rw [completeOperation, fail, left, leaves]
        exact takeMarkResult_second second _
      have before := failed_changedOnly s
        ((s.array.program (markAddr r.loc r.kind) [0x00] e).1.write (markAddr r.loc r.kind) 0xFF)
      obtain ⟨kept, marks, idle, slots, noJob, waiting⟩ := markEnded_effects r (raiseStoreFault .mark none (failed s
        ((s.array.program (markAddr r.loc r.kind) [0x00] e).1.write (markAddr r.loc r.kind) 0xFF)))
      refine ⟨_, runs', changedOnly_trans (changedOnly_trans before (raiseStoreFault_changedOnly _ _ _)
        (List.Subset.refl _)) kept (by decide), marks, idle, nofun, fun _ => kept .array (by decide), slots, nofun,
        fun _ => ?_, noJob, waiting⟩
      rw [kept .events (by decide)]
      exact raiseStoreFault_kind ..

/-! ### Epoch programs -/

/-- R94, R96: the end of the scan, part by part. -/
theorem endScan_eq (s : State) : ∃ journal erases low, endScan s = { raiseTorn s with
    pins := { (raiseTorn s).pins with phase := .run }
    journal := journal
    store := { (raiseTorn s).store with erases := erases }
    events := { (raiseTorn s).events with latches := { (raiseTorn s).events.latches with
      journalLow := low, ready := some (readyEpoch (raiseTorn s).decision) } } } := by
  rw [endScan]
  generalize raiseTorn s = w
  obtain ⟨flag, low, flagged⟩ := evaluateLow_fields w
  obtain ⟨⟨blocks, order, erases, state⟩, -⟩ := reclaim_reclaimed (evaluateLow w)
  generalize evaluateLow w = x at *
  subst flagged
  exact ⟨_, erases, low, by rw [state]; rfl⟩

theorem endScan_changedOnly (s : State) : ChangedOnly [.pins, .journal, .store, .events] s (endScan s) := by
  intro p other
  simp only [List.mem_cons, List.not_mem_nil, or_false, not_or] at other
  obtain ⟨pins, journal, store, events⟩ := other
  simp [*, same_self]

/-- R94, R96: the end of the scan: what it changes, and what READY tells. -/
theorem endScan_effects (s : State) :
    ChangedOnly [.pins, .journal, .store, .events] s (endScan s)
      ∧ (endScan s).pins = { s.pins with phase := .run }
      ∧ (endScan s).events.latches.ready = some (readyEpoch s.decision)
      ∧ (endScan s).store.update = s.store.update ∧ (endScan s).store.running = s.store.running
      ∧ (endScan s).events.latches.storeFault = (raiseTorn s).events.latches.storeFault := by
  have torn : ChangedOnly [.store, .events] s (raiseTorn s) ∧ (raiseTorn s).store.update = s.store.update
      ∧ (raiseTorn s).store.running = s.store.running := by
    unfold raiseTorn
    split
    · exact ⟨fun p _ => same_self p s, rfl, rfl⟩
    · exact ⟨raiseStoreFault_changedOnly .torn _ s, rfl, rfl⟩
  obtain ⟨kept, update, running⟩ := torn
  have decision := kept .decision (by decide)
  have pins := kept .pins (by decide)
  refine ⟨endScan_changedOnly s, ?_⟩
  obtain ⟨journal, erases, low, state⟩ := endScan_eq s
  rw [state]
  generalize raiseTorn s = w at *
  exact ⟨congrArg (fun x : Pins => { x with phase := .run }) pins, congrArg (fun d => some (readyEpoch d)) decision, update,
    running, rfl⟩

/-- R122: the end of an epoch program. -/
theorem exec_epochProgramComplete {s : State} {e : ArrayEnd} {w epoch : Nat}
    (running : s.store.running = some (.epochProgram w epoch)) (word : w < 64) :
    ((s.array.program (epochWordAddr w) (encodeEpochWord epoch) e).2 = true →
      exec (.epochProgramComplete e) s =
        .next (takeEpochResult true (ended s (s.array.program (epochWordAddr w) (encodeEpochWord epoch) e).1)))
    ∧ ((s.array.program (epochWordAddr w) (encodeEpochWord epoch) e).2 = false →
      exec (.epochProgramComplete e) s =
        .next (takeEpochResult false (failed s (s.array.program (epochWordAddr w) (encodeEpochWord epoch) e).1))) := by
  have runs := endRunning_running running (kind := some .epochProgram) (.inr rfl) (decide_eq_true word) false e
  refine ⟨fun ok => runs.trans (congrArg Host.Outcome.next ?_), fun bad => runs.trans (congrArg Host.Outcome.next ?_)⟩
  · obtain ⟨success, left⟩ := endOperation_success (op := .epochProgram w epoch) (e := e) (s := s) ok
    rw [completeOperation, success, left]
    rfl
  · obtain ⟨fail, left⟩ := endOperation_fail (op := .epochProgram w epoch) (e := e) (s := s) bad nofun
    rw [completeOperation, fail, left]
    rfl

/-- R122: the outcomes of an epoch update. -/
theorem takeEpochResult_cases {s : State} {u : EpochUpdate} (update : s.store.update = some u) :
    takeEpochResult true s = updateSucceeded u s
      ∧ (u.retry = true → takeEpochResult false s = updateFailed u s)
      ∧ (u.retry = false → takeEpochResult false s =
          stepUpdate u.epoch (s.setStore { s.store with update := some { u with retry := true } })) := by
  refine ⟨?_, fun retry => ?_, fun retry => ?_⟩
  · rw [takeEpochResult, update]
    rfl
  · rw [takeEpochResult, update]
    simp [retry]
  · rw [takeEpochResult, update]
    simp [retry]

/-- R42, R95: the part whose epoch update has succeeded. -/
def epochGiven (u : EpochUpdate) (s : State) : State :=
  (forgetUpdate s).setDecision { s.decision with epoch := u.epoch, seq := 0, exhausted := false }

theorem epochGiven_changedOnly (s : State) (array : Mem) (u : EpochUpdate) :
    ChangedOnly [.array, .store, .decision] s (epochGiven u (ended s array)) := by
  intro p other
  cases p <;> first | exact absurd (by decide) other | rfl

/-- R95, R126: the part whose start-up epoch update has failed. -/
def epochGivenUp (s : State) : State := startExhausted (raiseStoreFault .epoch none (forgetUpdate s))

theorem epochGivenUp_changedOnly (s : State) (array : Mem) :
    ChangedOnly [.array, .store, .decision, .events] s (epochGivenUp (failed s array)) := by
  intro p other
  cases p <;> first | exact absurd (by decide) other | rfl

theorem forgetUpdate_changedOnly (s : State) : ChangedOnly [.store] s (forgetUpdate s) := by
  intro p other
  cases p <;> first | exact absurd (by decide) other | rfl

/-- Settles O49. -/
theorem epochProgramEndsTheUpdate : Obligations.EpochProgramEndsTheUpdate := by
  intro e s w epoch u running word update ok array
  obtain ⟨stored, unstored⟩ := exec_epochProgramComplete (e := e) running word
  refine ⟨fun good start => ?_, fun good wrap => ?_, fun bad first space => ?_, fun bad second wrap => ?_,
    fun bad second start => ?_⟩
  · have runs : exec (.epochProgramComplete e) s = .next (endScan (epochGiven u (ended s array))) := by
      refine (stored good).trans (congrArg Host.Outcome.next ?_)
      rw [(takeEpochResult_cases (by exact update)).1, updateSucceeded, if_pos start]
      rfl
    obtain ⟨kept, pins, ready, forgotten, idle, -⟩ := endScan_effects (epochGiven u (ended s array))
    exact ⟨_, runs, changedOnly_trans (epochGiven_changedOnly s array u) kept (by decide), kept .array (by decide), pins,
      kept .decision (by decide), ready, forgotten, idle⟩
  · have runs := stored good
    rw [(takeEpochResult_cases (by exact update)).1, updateSucceeded, if_neg (by simp [wrap])] at runs
    exact runs
  · have runs := unstored bad
    rw [(takeEpochResult_cases (by exact update)).2.2 first, stepUpdate, if_pos (by exact space)] at runs
    exact runs
  · have runs := unstored bad
    rw [(takeEpochResult_cases (by exact update)).2.1 second, updateFailed, if_neg (by simp [wrap])] at runs
    exact ⟨_, runs, changedOnly_trans (changedOnly_trans (failed_changedOnly s array) (forgetUpdate_changedOnly _)
      (List.Subset.refl _)) (raiseStoreFault_changedOnly .epoch none _) (by decide), rfl, raiseStoreFault_kind ..⟩
  · have runs : exec (.epochProgramComplete e) s = .next (endScan (epochGivenUp (failed s array))) := by
      refine (unstored bad).trans (congrArg Host.Outcome.next ?_)
      rw [(takeEpochResult_cases (by exact update)).2.1 second, updateFailed, if_pos start]
      rfl
    obtain ⟨kept, pins, ready, -, -, fault⟩ := endScan_effects (epochGivenUp (failed s array))
    have torn : tornCount (epochGivenUp (failed s array)) = tornCount s := rfl
    refine ⟨_, runs, changedOnly_trans (epochGivenUp_changedOnly s array) kept (by decide), ?_, ready, pins,
      fun none' => ?_, fun some' => ?_⟩
    · rw [kept .decision (by decide)]
      rfl
    · refine (congrArg (Option.map StoreFaultDetail.kind) fault).trans ?_
      rw [raiseTorn, torn, if_pos none']
      exact raiseStoreFault_kind ..
    · refine (congrArg (Option.map StoreFaultDetail.kind) fault).trans ?_
      rw [raiseTorn, torn, if_neg (Nat.ne_of_gt some')]
      exact raiseStoreFault_kind ..

/-! ### Block erases -/

/-- R126: the part after an erase that failed. -/
def eraseFailed (s : State) (array : Mem) : State :=
  { s with
    array := array
    store := { s.store with running := none, eraseFailures := min (s.store.eraseFailures + 1) 65535 } }

theorem eraseFailed_changedOnly (s : State) (array : Mem) : ChangedOnly [.array, .store] s (eraseFailed s array) := by
  intro p other
  cases p <;> first | exact absurd (by decide) other | rfl

/-- R116: the end of a block erase. -/
theorem exec_blockEraseComplete {s : State} {e : ArrayEnd} {r : EraseRequest}
    (running : s.store.running = some (.blockErase r)) (target : (StoreOp.blockErase r).targetExists = true) :
    ((s.array.erase r.target.base r.target.bytes e).2 = true →
      exec (.blockEraseComplete e) s =
        .next (handCompletion (.blockErase r) .success (ended s (s.array.erase r.target.base r.target.bytes e).1)))
    ∧ ((s.array.erase r.target.base r.target.bytes e).2 = false →
      exec (.blockEraseComplete e) s =
        .next (handCompletion (.blockErase r) .fail
          (eraseFailed s (s.array.erase r.target.base r.target.bytes e).1))) := by
  have runs := endRunning_running running (kind := some .blockErase) (.inr rfl) target false e
  refine ⟨fun ok => runs.trans (congrArg Host.Outcome.next ?_), fun bad => runs.trans (congrArg Host.Outcome.next ?_)⟩
  · obtain ⟨success, left⟩ := endOperation_success (op := .blockErase r) (e := e) (s := s) ok
    rw [completeOperation, success, left]
    rfl
  · have fail : completionOf false ((StoreOp.blockErase r).apply s.array e).2 = .fail := by
      rw [show ((StoreOp.blockErase r).apply s.array e).2 = false from bad]
      rfl
    rw [completeOperation, endOperation, fail]
    rfl

/-- R91: the journal with a block ERASED, and filled next when none is FILLING. -/
def journalErased (b : Nat) (j : Journal) : Journal :=
  match j.writeAt with
  | some _ => j.onBlock b (fun _ => .erased)
  | none => (j.onBlock b (fun _ => .erased)).openBlock b

theorem blockErased_eq (b : Nat) (s : State) : blockErased b s = evaluateLow (s.setJournal (journalErased b s.journal)) := by
  rw [blockErased, journalErased]
  cases h : s.journal.writeAt <;> simp [Journal.onBlock, h]

/-- A block of a journal with one block changed. -/
theorem getD_modify_same {l : List JBlock} {b : Nat} (f : JBlock → JBlock) (h : b < l.length) :
    (l.modify b f).getD b .erased = f (l.getD b .erased) := by
  simp [List.getD_eq_getElem?_getD, List.getElem?_eq_getElem h]

theorem evaluateLow_changedOnly (s : State) : ChangedOnly [.journal, .events] s (evaluateLow s) := by
  intro p other
  simp only [List.mem_cons, List.not_mem_nil, or_false, not_or] at other
  obtain ⟨journal, events⟩ := other
  simp [*, same_self]

/-- R91: the journal with a block ERASED while another is FILLING. -/
theorem journalErased_some {j : Journal} {w : Loc} (position : j.writeAt = some w) (b : Nat) :
    (journalErased b j).writeAt = some w ∧ (journalErased b j).order = j.order
      ∧ (b < j.blocks.length → (journalErased b j).blocks.getD b .erased = .erased) := by
  have same : journalErased b j = j.onBlock b (fun _ => .erased) := by rw [journalErased, position]
  rw [same]
  exact ⟨position, rfl, getD_modify_same _⟩

/-- R91: the journal with a block ERASED and filled next. -/
theorem journalErased_none {j : Journal} (position : j.writeAt = none) (b : Nat) :
    (journalErased b j).writeAt = some { block := b, slot := 0 } ∧ (journalErased b j).order = j.order ++ [b]
      ∧ (b < j.blocks.length → (journalErased b j).blocks.getD b .erased = { JBlock.erased with state := .filling }) := by
  have same : journalErased b j = (j.onBlock b (fun _ => .erased)).openBlock b := by rw [journalErased, position]
  rw [same]
  refine ⟨rfl, rfl, fun inside => ?_⟩
  refine (getD_modify_same (fun blk => { blk with state := .filling })
    (Nat.lt_of_lt_of_eq inside (List.length_modify ..).symm)).trans ?_
  exact congrArg (fun blk : JBlock => { blk with state := .filling }) (getD_modify_same (fun _ => .erased) inside)

/-- R131: the erase of a session's table opens ROWS, or ends the session. -/
theorem takeTableErase_opening {s : State} {se : Session} (session : s.loader.session = some se)
    (opening : s.loader.phase = .opening) :
    takeTableErase true s =
        openGate (.loadOpened se.table se.generation) (s.setLoader { s.loader with phase := .rows })
      ∧ takeTableErase false s =
        openGate (.plain .storeFault)
          (raiseStoreFault .tableErase none (invalidTable se.table se.generation (endSession s))) := by
  simp [takeTableErase, session, opening]

theorem invalidTable_changedOnly (t : TableName) (generation : Nat) (s : State) :
    ChangedOnly [.irt, .profile] s (invalidTable t generation s) := by
  intro p other
  simp only [List.mem_cons, List.not_mem_nil, or_false, not_or] at other
  obtain ⟨irt, profile⟩ := other
  simp [*, same_self]

theorem invalidTable_table (t : TableName) (generation : Nat) (s : State) :
    tableState (invalidTable t generation s) t = .invalid ∧ tableGeneration (invalidTable t generation s) t = generation := by
  cases t <;> exact ⟨rfl, rfl⟩

/-- What a table reads is the tables' alone. -/
theorem tableState_congr {s t : State} (irt : t.irt = s.irt) (profile : t.profile = s.profile) (n : TableName) :
    tableState t n = tableState s n ∧ tableGeneration t n = tableGeneration s n := by
  cases n <;> simp [tableState, tableGeneration, irt, profile]

/-- R91, R122, R131: the end of a block erase goes to the owner of the block. -/
theorem handCompletion_blockErase (r : EraseRequest) (result : OpResult) (u : State) :
    (∀ b, r.target = .journal b → handCompletion (.blockErase r) result u = takeJournalErase b r.second result.ok u)
      ∧ (r.target = .epoch → handCompletion (.blockErase r) result u = takeEpochErase result.ok u)
      ∧ (∀ t, r.target = .table t → handCompletion (.blockErase r) result u = takeTableErase result.ok u) := by
  refine ⟨fun b target => ?_, fun target => ?_, fun t target => ?_⟩ <;> rw [handCompletion, target]

/-- Settles O51. -/
theorem blockEraseIsHandedOn : Obligations.BlockEraseIsHandedOn := by
  intro e s r running ok array failed
  have erased (target : (StoreOp.blockErase r).targetExists = true) := exec_blockEraseComplete (e := e) running target
  refine ⟨fun b target block good => ?_, fun b target block bad first => ?_, fun b target block bad second => ?_,
    fun name se cmd target opening session gate alone => ⟨fun good => ?_, fun bad => ?_⟩,
    fun u target update good => ?_⟩
  · have runs := (erased (by rw [StoreOp.targetExists, target]; exact decide_eq_true block)).1 good
    have handed : handCompletion (.blockErase r) .success (ended s array) =
        evaluateLow ((ended s array).setJournal (journalErased b s.journal)) := by
      exact ((handCompletion_blockErase r .success (ended s array)).1 b target).trans (blockErased_eq b (ended s array))
    have kept := evaluateLow_changedOnly ((ended s array).setJournal (journalErased b s.journal))
    obtain ⟨flag, low, flagged⟩ := evaluateLow_fields ((ended s array).setJournal (journalErased b s.journal))
    have before : ChangedOnly [.array, .store, .journal] s ((ended s array).setJournal (journalErased b s.journal)) := by
      intro p other
      cases p <;> first | exact absurd (by decide) other | rfl
    refine ⟨_, runs.trans (congrArg Host.Outcome.next handed), changedOnly_trans before kept (by decide),
      kept .array (by decide), kept .store (by decide), fun w position => ?_, fun position => ?_⟩
    · rw [blockAt, flagged]
      exact journalErased_some position b
    · rw [blockAt, flagged]
      exact journalErased_none position b
  · have runs := (erased (by rw [StoreOp.targetExists, target]; exact decide_eq_true block)).2 bad
    refine runs.trans (congrArg Host.Outcome.next ?_)
    refine ((handCompletion_blockErase r .fail (eraseFailed s array)).1 b target).trans ?_
    rw [takeJournalErase, first]
    rfl
  · have runs := (erased (by rw [StoreOp.targetExists, target]; exact decide_eq_true block)).2 bad
    have handed : handCompletion (.blockErase r) .fail (eraseFailed s array) =
        raiseStoreFault .blockErase none ((eraseFailed s array).setJournal
          (s.journal.onBlock b (fun blk => { blk with state := .retired }))) := by
      refine ((handCompletion_blockErase r .fail (eraseFailed s array)).1 b target).trans ?_
      rw [takeJournalErase, second]
      rfl
    have before : ChangedOnly [.array, .store, .journal] s ((eraseFailed s array).setJournal
        (s.journal.onBlock b (fun blk => { blk with state := .retired }))) := by
      intro p other
      cases p <;> first | exact absurd (by decide) other | rfl
    exact ⟨_, runs.trans (congrArg Host.Outcome.next handed),
      changedOnly_trans before (raiseStoreFault_changedOnly .blockErase none _) (by decide), rfl, raiseStoreFault_kind ..⟩
  · have runs := (erased (by rw [StoreOp.targetExists, target])).1 good
    refine runs.trans (congrArg Host.Outcome.next ?_)
    refine ((handCompletion_blockErase r .success (ended s array)).2.2 name target).trans ?_
    refine ((takeTableErase_opening (s := ended s array) session opening).1).trans ?_
    rw [openGate_alone (c := cmd) (by exact gate) alone]
    rfl
  · have runs := (erased (by rw [StoreOp.targetExists, target])).2 bad
    have handed : handCompletion (.blockErase r) .fail (eraseFailed s array) =
        openGate (.plain .storeFault) (raiseStoreFault .tableErase none
          (invalidTable se.table se.generation (endSession (eraseFailed s array)))) := by
      exact ((handCompletion_blockErase r .fail (eraseFailed s array)).2.2 name target).trans
        (takeTableErase_opening (s := eraseFailed s array) session opening).2
    have before : ChangedOnly [.array, .store, .loader] s (endSession (eraseFailed s array)) := by
      intro p other
      cases p <;> first | exact absurd (by decide) other | rfl
    have kept := invalidTable_changedOnly se.table se.generation (endSession (eraseFailed s array))
    obtain ⟨state, generation⟩ := invalidTable_table se.table se.generation (endSession (eraseFailed s array))
    have loader : (endSession (eraseFailed s array)).loader = { s.loader with phase := .idle, session := none, close := none } :=
      rfl
    generalize endSession (eraseFailed s array) = x at *
    generalize invalidTable se.table se.generation x = y at *
    have arbiter : y.arbiter = s.arbiter := (kept .arbiter (by decide)).trans (before .arbiter (by decide))
    have link : y.link = s.link := (kept .link (by decide)).trans (before .link (by decide))
    have told := raiseStoreFault_changedOnly .tableErase none y
    have fault := raiseStoreFault_kind .tableErase none y
    have tables := tableState_congr (told .irt (by decide)) (told .profile (by decide)) se.table
    generalize raiseStoreFault .tableErase none y = z at *
    have arbiter' : z.arbiter = s.arbiter := (told .arbiter (by decide)).trans arbiter
    have link' : z.link = s.link := (told .link (by decide)).trans link
    have handed' : handCompletion (.blockErase r) .fail (eraseFailed s array) =
        z.setArbiter (mgmtAnswered { s.arbiter with gate := .empty } s.link.addr (commandCode cmd) (mgmtTag cmd)
          (.plain .storeFault)) := by
      rw [handed, openGate_alone (c := cmd) (by rw [arbiter']; exact gate) alone, ← link', ← arbiter']
      rfl
    have last (a : Arbiter) : ChangedOnly [.arbiter] z (z.setArbiter a) := by
      intro p other
      cases p <;> first | exact absurd (by decide) other | rfl
    exact ⟨_, runs.trans (congrArg Host.Outcome.next handed'), changedOnly_trans (changedOnly_trans (changedOnly_trans
      before kept (List.Subset.refl _)) told (List.Subset.refl _)) (last _) (by decide),
      ((told .loader (by decide)).trans (kept .loader (by decide))).trans loader, tables.1.trans state,
      tables.2.trans generation, rfl, fault⟩
  · have runs := (erased (by rw [StoreOp.targetExists, target])).1 good
    refine runs.trans (congrArg Host.Outcome.next ?_)
    refine ((handCompletion_blockErase r .success (ended s array)).2.1 target).trans ?_
    rw [takeEpochErase, show (ended s array).store.update = some u from update]
    rfl

end Sys2Proof.Proofs.Completions
end

