-- ==== Sys2Proof/Proofs/Entries.lean ====
section
/-! PROOFS. The gateway's commands on bills: BILL PUSH (O31), BILL AMEND and BILL DROP (O32). -/

namespace Sys2Proof.Proofs.Entries

open Sys2Proof.Machine Sys2Proof.Safety Sys2Proof.Laws Sys2Proof.Proofs.Bills Sys2Proof.Proofs.LoadOpen
  Sys2Proof.Proofs.Frames Sys2Proof.Proofs.Gate Sys2Proof.Proofs.Records

/-! ### Commands on bills -/

/-- R165: a bill command for the part alone is answered with what it finds. -/
theorem exec_billCommand {s : State} {c : Instr} (ready : GateReady (radioAddr c) s)
    (command : downstreamArrives c = commandArrives c) {act : State → State × Reply}
    (runs : exec c s = .next (radioFrameArrives c s))
    (performs : performCommand c (lockOf c (radioFrameEnded s)) = takeBillCommand c act (radioFrameEnded s)) :
    exec c s = .next
      { (act (radioFrameEnded s)).1 with
        arbiter := mgmtAnswered (act (radioFrameEnded s)).1.arbiter (act (radioFrameEnded s)).1.link.addr (commandCode c)
          (mgmtTag c) (act (radioFrameEnded s)).2 } := by
  have alone : radioAddr c ≠ broadcastAddr := ready.2.2.2.1
  rw [runs, gated ready command, performs]
  have taken : takeBillCommand c act (radioFrameEnded s) =
      answerCommand c (act (radioFrameEnded s)).2 (act (radioFrameEnded s)).1 := by
    rw [takeBillCommand, (unicast_iff c).mpr alone]
    rfl
  rw [taken, answerCommand_alone alone]

theorem radioFrameEnded_changedOnly (s : State) : ChangedOnly [.radio] s (radioFrameEnded s) := by
  intro p other
  cases p <;> first | exact absurd (by decide) other | rfl

/-! ### BILL PUSH -/

/-- R26: no settled bill can be evicted when each waits for a void. -/
theorem evictable_eq_none (s : State) :
    evictable s = none ↔ s.bills.settled.all (fun k => (findBill s k).all (fun b => b.voidPending != 0)) = true := by
  rw [evictable, List.find?_eq_none, List.all_eq_true]
  refine forall_congr' (fun n => imp_congr_right (fun _ => ?_))
  cases findBill s n <;> simp

/-- R24, R25: the checks of BILL PUSH in order are those that the Bill Table applies. -/
theorem pushChecks_eq (s : State) (bill place due prior opened : Nat) (known : List Nat) :
    firstRefusal (pushChecks s bill place due prior opened known) =
      if pushBadField bill place due prior opened known = true then some .badField
      else pushRefusal s bill due prior (derivedTenders s bill known) := by
  have fields : (bill == 0 || place == 0 || decide (999 < place) || decide (9999999 < due) || decide (9999999 < prior)
      || decide (86399 < opened) || decide (12 < known.length)) = pushBadField bill place due prior opened known := rfl
  have full : (decide (32 ≤ s.bills.entries.length) && s.bills.settled.all (fun k =>
      (findBill s k).all (fun b => b.voidPending != 0))) = true ↔
      Limits.bills ≤ s.bills.entries.length ∧ evictable s = none := by
    rw [Bool.and_eq_true, evictable_eq_none, decide_eq_true_eq]
    rfl
  simp only [pushChecks, fields, firstRefusal_cons, firstRefusal_nil, pushRefusal, full, decide_eq_true_eq]
  rfl

/-- R25: a BILL PUSH that a check refuses. -/
theorem takeBillPush_refused {s : State} {bill place due prior opened : Nat} {known : List Nat} {a : Answer}
    (refused : firstRefusal (pushChecks s bill place due prior opened known) = some a) :
    takeBillPush bill place due prior opened known s = (s, .plain a) := by
  rw [pushChecks_eq] at refused
  unfold takeBillPush
  split at refused
  · rename_i bad
    rw [if_pos bad, Option.some.inj refused]
  · rename_i good
    rw [if_neg good]
    simp only [refused]

/-- R26: a BILL PUSH that passes its checks. -/
theorem takeBillPush_passed {s : State} {bill place due prior opened : Nat} {known : List Nat}
    (passed : firstRefusal (pushChecks s bill place due prior opened known) = none) :
    takeBillPush bill place due prior opened known s =
      (addBill (pushedBill bill place due prior opened (derivedTenders s bill known)) (makeRoom s),
        .pushed (derivedTenders s bill known).length
          (pushedBill bill place due prior opened (derivedTenders s bill known)).paid
          (pushedBill bill place due prior opened (derivedTenders s bill known)).state) := by
  rw [pushChecks_eq] at passed
  unfold takeBillPush
  split at passed
  · cases passed
  · rename_i good
    rw [if_neg good]
    simp only [passed]

/-- R20, R26: the state of a pushed bill. -/
theorem pushedBill_eq (bill place due prior opened : Nat) (ts : List Tender) :
    pushedBill bill place due prior opened ts =
      { number := bill, place := place, due := due, priorPaid := prior, paid := prior + (ts.map Tender.base).sum,
        reserved := 0, state := if prior + (ts.map Tender.base).sum = due then .settled else .opened, opened := opened,
        tenders := ts, plan := none, voidPending := 0 } := by
  have state : Bill.stateNow
      { number := bill, place := place, due := due, priorPaid := prior, paid := prior + (ts.map Tender.base).sum,
        reserved := 0, state := .opened, opened := opened, tenders := ts, plan := none, voidPending := 0 } =
      if prior + (ts.map Tender.base).sum = due then .settled else .opened := by
    simp [Bill.stateNow]
  rw [← state]
  rfl

theorem settledAfter_opened (n : Nat) (st : BillState) (settled : List Nat) :
    settledAfter n .opened st settled = if st = .settled then settled ++ [n] else settled := by
  cases st <;> rfl

/-- R26: an entry that joins. -/
theorem addBill_eq (b : Bill) (s : State) :
    addBill b s = { s with
      bills := { entries := s.bills.entries ++ [b],
                 settled := if b.state = .settled then s.bills.settled ++ [b.number] else s.bills.settled }
      events := { s.events with latches := { s.events.latches with
        billChange := some (listDetail 32 b.number s.events.latches.billChange) } } } := by
  rw [addBill, settledAfter_opened]
  rfl

/-- Settles O31. -/
theorem billPushCreatesAnEntry : Obligations.BillPushCreatesAnEntry := by
  intro addr tag bill place due prior opened known s ready checks ts paid st entry arrived c
  have runs := exec_billCommand (c := .billPush addr tag bill place due prior opened known)
    (act := takeBillPush bill.toNat place.toNat due.toNat prior.toNat opened.toNat (known.map BitVec.toNat)) ready rfl rfl rfl
  have pushed : pushedBill bill.toNat place.toNat due.toNat prior.toNat opened.toNat ts = entry := pushedBill_eq ..
  refine ⟨fun a refused => ?_, fun passed room => ?_, fun n passed full evicted => ?_⟩
  · rw [takeBillPush_refused (s := radioFrameEnded s) refused] at runs
    exact runs
  · have roomy : makeRoom (radioFrameEnded s) = radioFrameEnded s := if_neg (Nat.not_le.mpr room)
    rw [takeBillPush_passed (s := radioFrameEnded s) passed, roomy, addBill_eq] at runs
    have same : pushedBill bill.toNat place.toNat due.toNat prior.toNat opened.toNat
      (derivedTenders (radioFrameEnded s) bill.toNat (known.map BitVec.toNat)) = entry := pushed
    rw [same] at runs
    exact runs
  · have roomy : makeRoom (radioFrameEnded s) = removeBill n (radioFrameEnded s) := by
      have evicted' : evictable (radioFrameEnded s) = some n := evicted
      rw [makeRoom, if_pos (by exact full), evicted']
    rw [takeBillPush_passed (s := radioFrameEnded s) passed, roomy, addBill_eq] at runs
    have same : pushedBill bill.toNat place.toNat due.toNat prior.toNat opened.toNat
      (derivedTenders (radioFrameEnded s) bill.toNat (known.map BitVec.toNat)) = entry := pushed
    rw [same] at runs
    exact runs

/-! ### BILL AMEND -/

/-- R27: without an entry, or with a field out of range. -/
theorem amendChecks_of_noBill {s : State} {bill : Nat} (h : findBill s bill = none) (due : Nat) :
    firstRefusal (amendChecks s bill due) =
      if Limits.amountMax < due ∨ bill = 0 then some .badField else some .noBill := by
  simp [amendChecks, h, Limits.amountMax]
  rfl

/-- R27: with an entry, the checks in order are those that the Bill Table applies to it. -/
theorem amendChecks_of_bill {s : State} {bill : Nat} {b : Bill} (h : findBill s bill = some b) (due : Nat) :
    firstRefusal (amendChecks s bill due) =
      if Limits.amountMax < due ∨ bill = 0 then some .badField else amendRefusal b due := by
  simp [amendChecks, amendRefusal, h, Limits.amountMax]

theorem takeBillAmend_refused {s : State} {bill due : Nat} {a : Answer}
    (refused : firstRefusal (amendChecks s bill due) = some a) : takeBillAmend bill due s = (s, .plain a) := by
  unfold takeBillAmend
  cases h : findBill s bill with
  | none =>
    rw [amendChecks_of_noBill h] at refused
    split at refused
    · rw [if_pos ‹_›, Option.some.inj refused]
    · rw [if_neg ‹_›, ← Option.some.inj refused]
  | some b =>
    rw [amendChecks_of_bill h] at refused
    split at refused
    · rw [if_pos ‹_›, Option.some.inj refused]
    · rw [if_neg ‹_›]
      simp only [refused]

theorem takeBillAmend_passed {s : State} {bill due : Nat} {b : Bill} (entry : findBill s bill = some b)
    (passed : firstRefusal (amendChecks s bill due) = none) :
    takeBillAmend bill due s =
      (changeBill bill (fun b => b.amend due) s, .amended due b.paid (b.amend due).stateNow) := by
  rw [amendChecks_of_bill entry] at passed
  split at passed
  · cases passed
  · rw [takeBillAmend, if_neg ‹_›, entry]
    simp only [passed]

/-- R27: a plan that keeps its PAID shares only. -/
theorem planOf_eq (kept : List Share) : planOf kept = if kept = [] then none else some kept := by
  cases kept <;> rfl

/-- R27: tenders that follow their shares keep their numbers. -/
theorem followShares_txn (plan : List Share) (ts : List Tender) :
    (followShares plan ts).map Tender.txn = ts.map Tender.txn := by
  rw [followShares, List.map_map]
  refine List.map_congr_left (fun t _ => ?_)
  rw [Function.comp_apply]
  split <;> rfl

/-- R27: what an amend of a bill changes. -/
theorem changeBill_changedOnly (n : Nat) (f : Bill → Bill) (s : State) :
    ChangedOnly [.bills, .events] s (changeBill n f s) := by
  intro p other
  simp only [List.mem_cons, List.not_mem_nil, or_false, not_or] at other
  obtain ⟨bills, events⟩ := other
  simp [*, same_self]

/-! ### BILL DROP -/

/-- R28: the checks of BILL DROP. -/
theorem dropChecks_of_noBill {s : State} {bill : Nat} (h : findBill s bill = none) :
    firstRefusal (dropChecks s bill) = if bill = 0 then some .badField else some .noBill := by
  simp [dropChecks, h]

theorem dropChecks_of_bill {s : State} {bill : Nat} {b : Bill} (h : findBill s bill = some b) :
    firstRefusal (dropChecks s bill) =
      if bill = 0 then some .badField else if 0 < b.reserved ∨ b.voidPending ≠ 0 then some .inUse else none := by
  simp [dropChecks, h]

theorem takeBillDrop_refused {s : State} {bill : Nat} {a : Answer}
    (refused : firstRefusal (dropChecks s bill) = some a) : takeBillDrop bill s = (s, .plain a) := by
  unfold takeBillDrop
  cases h : findBill s bill with
  | none =>
    rw [dropChecks_of_noBill h] at refused
    split at refused
    · rw [if_pos ‹_›, Option.some.inj refused]
    · rw [if_neg ‹_›, ← Option.some.inj refused]
  | some b =>
    rw [dropChecks_of_bill h] at refused
    split at refused
    · rw [if_pos ‹_›, Option.some.inj refused]
    · rw [if_neg ‹_›]
      split at refused
      · rw [← Option.some.inj refused]
        exact if_pos ‹_›
      · cases refused

theorem takeBillDrop_passed {s : State} {bill : Nat} (passed : firstRefusal (dropChecks s bill) = none) :
    takeBillDrop bill s = (removeBill bill s, .plain .ok) := by
  unfold takeBillDrop
  cases h : findBill s bill with
  | none =>
    rw [dropChecks_of_noBill h] at passed
    split at passed <;> cases passed
  | some b =>
    rw [dropChecks_of_bill h] at passed
    split at passed
    · cases passed
    · rw [if_neg ‹_›]
      split at passed
      · cases passed
      · exact if_neg ‹_›

/-- Settles O32. -/
theorem billAmendAndDropChangeTheEntry : Obligations.BillAmendAndDropChangeTheEntry := by
  refine ⟨fun addr tag bill due s ready => ?_, fun addr tag bill s ready => ?_⟩
  · have runs := exec_billCommand (c := .billAmend addr tag bill due) (act := takeBillAmend bill.toNat due.toNat) ready
      rfl rfl rfl
    refine ⟨fun a refused => ?_, fun b passed entry => ?_⟩
    · rw [takeBillAmend_refused (s := radioFrameEnded s) refused] at runs
      exact runs
    · rw [takeBillAmend_passed (s := radioFrameEnded s) entry passed] at runs
      have events := changeBill_events (radioFrameEnded s) bill.toNat (fun b => b.amend due.toNat)
      have kept := changeBill_changedOnly bill.toNat (fun b => b.amend due.toNat) (radioFrameEnded s)
      have found (k : Nat) := findBill_changeBill (radioFrameEnded s) bill.toNat k (fun b => b.amend due.toNat)
        (fun _ => rfl)
      have entry' : findBill (radioFrameEnded s) bill.toNat = some b := entry
      generalize changeBill bill.toNat (fun b => b.amend due.toNat) (radioFrameEnded s) = u at *
      have here := found bill.toNat
      rw [if_pos rfl, entry', Option.map_some] at here
      have arbiter : u.arbiter = s.arbiter := kept .arbiter (by decide)
      have link : u.link = s.link := kept .link (by decide)
      have last (a : Arbiter) : ChangedOnly [.arbiter] u (u.setArbiter a) := by
        intro p other
        cases p <;> first | exact absurd (by decide) other | rfl
      refine ⟨_, _, runs, changedOnly_trans (changedOnly_trans (radioFrameEnded_changedOnly s) kept (List.Subset.refl _))
        (last _) (by decide), ?_, here, rfl, rfl, planOf_eq _, rfl, rfl, followShares_txn _ _, fun k other => ?_, events⟩
      · rw [arbiter, link]
        rfl
      · exact (found k).trans (if_neg other)
  · have runs := exec_billCommand (c := .billDrop addr tag bill) (act := takeBillDrop bill.toNat) ready rfl rfl rfl
    refine ⟨fun a refused => ?_, fun passed => ?_⟩
    · rw [takeBillDrop_refused (s := radioFrameEnded s) refused] at runs
      exact runs
    · rw [takeBillDrop_passed (s := radioFrameEnded s) passed] at runs
      exact runs

end Sys2Proof.Proofs.Entries
end

