-- ==== Sys2Proof/Proofs/Layouts.lean ====
section
/-! PROOFS. Frames and journal records come back from their bytes: the byte order, the receive assembler over a stuffed
frame, and the record's fields, check value and marks (O59, O60). -/

namespace Sys2Proof.Proofs.Layouts

open Sys2Proof.Machine Sys2Proof.Safety

/-! ### Byte order -/

@[simp] theorem length_be (n v : Nat) : (be n v).length = n := by
  induction n with
  | zero => rfl
  | succ n ih => simp [be, ih]

@[simp] theorem length_checkBytes (c : BitVec 16) : (checkBytes c).length = 2 := length_be 2 c.toNat

/-- Bytes read on behind a value already read: the value moves up by their number, and theirs is added. -/
theorem unbe_from_be (a n v : Nat) :
    (be n v).foldl (fun a b => a * 256 + b.toNat) a = a * 256 ^ n + v % 256 ^ n := by
  induction n generalizing a with
  | zero => simp [be, Nat.mod_one]
  | succ n ih =>
    simp only [be, List.foldl_cons, ih, BitVec.toNat_ofNat]
    have value : v % 256 ^ (n + 1) = v % 256 ^ n + 256 ^ n * (v / 256 ^ n % 256) := Nat.mod_pow_succ
    rw [value, pow_succ]
    change (a * 256 + v / 256 ^ n % 256) * 256 ^ n + v % 256 ^ n = _
    generalize v / 256 ^ n % 256 = digit
    ring

theorem unbe_be (n v : Nat) : unbe (be n v) = v % 256 ^ n := by
  rw [unbe, unbe_from_be, Nat.zero_mul, Nat.zero_add]

/-- The field at the front. -/
theorem field_front (n v : Nat) (rest : List Byte) : field (be n v ++ rest) 0 n = v % 256 ^ n := by
  rw [field, List.drop_zero, List.take_append_of_le_length (length_be n v).ge,
    List.take_of_length_le (length_be n v).le, unbe_be]

/-- A field behind the first bytes. -/
theorem field_behind (m v : Nat) (rest : List Byte) {offset n : Nat} (h : m ≤ offset) :
    field (be m v ++ rest) offset n = field rest (offset - m) n := by
  rw [field, field, List.drop_append, List.drop_eq_nil_of_le (by simpa using h), length_be, List.nil_append]

/-! ### The receive assembler over stuffed bytes (R181) -/

/-- Bytes that bring nothing about leave what the bytes behind them do. -/
theorem asmRun_cons_quiet {a a' : Assembler} {b : Byte} (rest : List Byte) (h : asmByte a b = (a', .nothing)) :
    asmRun a (b :: rest) = asmRun a' rest := by
  simp [asmRun, h]

/-- R181: there is room for one more byte. -/
theorem collect_room {bytes : List Byte} (b : Byte) (room : bytes.length < frameMax) :
    collect bytes b = (.collecting (bytes ++ [b]) false, .nothing) := if_pos room

/-- An escaped byte comes back, and is no flag. -/
theorem unescape (b : Byte) : b ^^^ 0x20 ^^^ 0x20 = b := by
  rw [BitVec.xor_assoc, BitVec.xor_self, BitVec.xor_zero]

/-- R181: the stuffed bytes of a frame are collected, unstuffed, behind what was collected. -/
theorem asmRun_stuff (collected bytes rest : List Byte) (room : collected.length + bytes.length ≤ frameMax) :
    asmRun (.collecting collected false) (stuff bytes ++ rest)
      = asmRun (.collecting (collected ++ bytes) false) rest := by
  induction bytes generalizing collected with
  | nil => simp [stuff]
  | cons b bytes ih =>
    have room' : collected.length < frameMax := by simp at room; omega
    have collects : asmRun (.collecting (collected ++ [b]) false) (stuff bytes ++ rest)
        = asmRun (.collecting (collected ++ b :: bytes) false) rest := by
      rw [ih _ (by simp at room ⊢; omega), List.append_assoc, List.singleton_append]
    by_cases special : b = flag ∨ b = escapeMark
    · have escaped : asmByte (.collecting collected true) (b ^^^ 0x20)
          = (.collecting (collected ++ [b]) false, .nothing) := by
        have notFlag : b ^^^ 0x20 ≠ flag := by rcases special with rfl | rfl <;> decide
        simp only [asmByte, if_neg notFlag, unescape, if_pos special, collect_room b room']
      rw [stuff, if_pos special, List.cons_append, List.cons_append,
        asmRun_cons_quiet _ (a' := .collecting collected true) (by simp [asmByte, escapeMark, flag]),
        asmRun_cons_quiet _ escaped, collects]
    · have plain : asmByte (.collecting collected false) b
          = (.collecting (collected ++ [b]) false, .nothing) := by
        obtain ⟨notFlag, notEscape⟩ := not_or.mp special
        simp [asmByte, notFlag, notEscape, collect_room b room']
      rw [stuff, if_neg special, List.cons_append, asmRun_cons_quiet _ plain, collects]

/-! ### Frames -/

/-- R181: a frame's bytes before its check value. -/
def frameHead (kind addr : Nat) (tag : BitVec 16) (payload : List Byte) : List Byte :=
  be 1 kind ++ (be 1 addr ++ (be 2 tag.toNat ++ (be 1 payload.length ++ payload)))

theorem frameBytes_eq (kind addr : Nat) (tag : BitVec 16) (payload : List Byte) :
    frameBytes kind addr tag payload
      = frameHead kind addr tag payload ++ checkBytes (checkValue (frameHead kind addr tag payload)) := by
  simp only [frameBytes, frameHead, List.append_assoc]

theorem length_frameHead (kind addr : Nat) (tag : BitVec 16) (payload : List Byte) :
    (frameHead kind addr tag payload).length = payload.length + 5 := by
  simp [frameHead]
  omega

theorem length_frameBytes (kind addr : Nat) (tag : BitVec 16) (payload : List Byte) :
    (frameBytes kind addr tag payload).length = payload.length + 7 := by
  simp [frameBytes_eq, length_frameHead]

/-- R184: the fields of a frame's bytes. -/
theorem frame_fields (kind addr : Nat) (tag : BitVec 16) (payload : List Byte) :
    let bytes := frameBytes kind addr tag payload
    field bytes 0 1 = kind % 256 ∧ field bytes 1 1 = addr % 256 ∧ field bytes 2 2 = tag.toNat
      ∧ field bytes 4 1 = payload.length % 256 := by
  have tag16 : tag.toNat % 65536 = tag.toNat := Nat.mod_eq_of_lt tag.isLt
  simp only [frameBytes_eq, frameHead, field_front, field_behind, List.append_assoc, Nat.reduceSub,
    Nat.reducePow, Nat.le_refl, Nat.sub_self, Nat.one_le_ofNat, tag16, and_self]

/-- R183: a frame with its own check value and length is sound. -/
theorem frameSound_frameBytes (kind addr : Nat) (tag : BitVec 16) {payload : List Byte} (short : payload.length ≤ 200) :
    frameSound (frameBytes kind addr tag payload) = true := by
  obtain ⟨-, -, -, length⟩ := frame_fields kind addr tag payload
  have whole := length_frameBytes kind addr tag payload
  have split : (frameBytes kind addr tag payload).take ((frameBytes kind addr tag payload).length - 2)
        = frameHead kind addr tag payload
      ∧ (frameBytes kind addr tag payload).drop ((frameBytes kind addr tag payload).length - 2)
        = checkBytes (checkValue (frameHead kind addr tag payload)) := by
    have head : (frameBytes kind addr tag payload).length - 2 = (frameHead kind addr tag payload).length := by
      rw [whole, length_frameHead]
      omega
    rw [head, frameBytes_eq]
    exact ⟨List.take_left, List.drop_left⟩
  rw [Nat.mod_eq_of_lt (by omega)] at length
  obtain ⟨head, check⟩ := split
  rw [frameSound, head, check, length, whole]
  simp only [short, beq_self_eq_true, decide_true, Bool.and_self]

/-- R181: the payload of a frame's bytes. -/
theorem frame_payload (kind addr : Nat) (tag : BitVec 16) (payload : List Byte) :
    ((frameBytes kind addr tag payload).drop 5).take ((frameBytes kind addr tag payload).length - 7) = payload := by
  have before : (be 1 kind ++ (be 1 addr ++ (be 2 tag.toNat ++ be 1 payload.length))).length = 5 := by simp
  have bytes : frameBytes kind addr tag payload
      = (be 1 kind ++ (be 1 addr ++ (be 2 tag.toNat ++ be 1 payload.length)))
        ++ (payload ++ checkBytes (checkValue (frameHead kind addr tag payload))) := by
    rw [frameBytes_eq, frameHead]
    simp only [List.append_assoc]
  rw [length_frameBytes, bytes, List.drop_left' before, Nat.add_sub_cancel, List.take_left]

/-- Settles O59. -/
theorem stuffedFramesComeBack : Obligations.StuffedFramesComeBack := by
  unfold Obligations.StuffedFramesComeBack
  intro kind addr tag payload hkind haddr short
  have whole := length_frameBytes kind addr tag payload
  obtain ⟨hk, ha, ht, -⟩ := frame_fields kind addr tag payload
  refine ⟨?_, frameSound_frameBytes kind addr tag short, ?_⟩
  · have closing : asmByte (.collecting (frameBytes kind addr tag payload) false) flag
        = (.collecting [] false, .ended (frameBytes kind addr tag payload)) := by
      simp [asmByte, whole]
    rw [wire, asmRun_cons_quiet _ (a' := .collecting [] false) rfl,
      asmRun_stuff _ _ _ (by simp [whole, frameMax]; omega), List.nil_append]
    simp [asmRun, closing]
  · rw [frameParts, hk, ha, ht, frame_payload, Nat.mod_eq_of_lt hkind, Nat.mod_eq_of_lt haddr, BitVec.ofNat_toNat,
      BitVec.setWidth_eq]

/-! ### Journal records -/

theorem length_recordBody (r : JRecord) : (recordBody r).length = 28 := by
  simp [recordBody]

/-- R186: byte 4 is one byte, and holds the route, the kind and the two flags. -/
theorem recordFlags_bits (r : JRecord) (route : r.route < 16) :
    recordFlags r < 256 ∧ recordFlags r % 16 = r.route
      ∧ (if recordFlags r / 16 % 2 = 1 then RecordKind.reversal else .approval) = r.kind
      ∧ (recordFlags r / 32 % 2 == 1) = r.standIn ∧ (recordFlags r / 64 % 2 == 1) = r.timeUnknown := by
  obtain ⟨txn, kind, rangeId, n, token, base, tip, bill, place, time, standIn, timeUnknown, original⟩ := r
  dsimp only at route
  have small : n % 16 = n := Nat.mod_eq_of_lt route
  interval_cases n <;> cases kind <;> cases standIn <;> cases timeUnknown <;> simp [recordFlags]

/-- R186: the fields of a record's bytes, whatever stands behind them. -/
theorem decode_encode (r : JRecord) (marks : List Byte) (txn : r.txn < 2 ^ 32) (range : r.rangeId < 2 ^ 16)
    (route : r.route < 16) (base : r.base < 2 ^ 24) (tip : r.tip < 2 ^ 24) (bill : r.bill < 2 ^ 16)
    (place : r.place < 2 ^ 16) (time : r.time < 2 ^ 24) (original : r.original < 2 ^ 32) :
    decodeRecord (encodeRecord r ++ marks) = r := by
  obtain ⟨byte, route', kind, standIn, timeUnknown⟩ := recordFlags_bits r route
  have flags : recordFlags r % 256 = recordFlags r := Nat.mod_eq_of_lt byte
  have token : r.token.toNat < 2 ^ 32 := r.token.isLt
  simp only [Nat.reducePow] at txn range base tip bill place time original token
  simp [decodeRecord, encodeRecord, recordBody, field_front, field_behind, flags, route', kind, standIn,
    timeUnknown, Nat.mod_eq_of_lt txn, Nat.mod_eq_of_lt range, Nat.mod_eq_of_lt base, Nat.mod_eq_of_lt tip,
    Nat.mod_eq_of_lt bill, Nat.mod_eq_of_lt place, Nat.mod_eq_of_lt time, Nat.mod_eq_of_lt original,
    Nat.mod_eq_of_lt token]

/-- R92: the check value of a record's bytes matches, whatever its marks. -/
theorem recordValid_encode (r : JRecord) (marks : List Byte) : recordValid (encodeRecord r ++ marks) = true := by
  rw [recordValid, encodeRecord, List.append_assoc, List.take_left' (length_recordBody r),
    List.drop_left' (length_recordBody r), List.take_left' (length_checkBytes _), beq_self_eq_true]

theorem length_encodeRecord (r : JRecord) : (encodeRecord r).length = 30 := by
  rw [encodeRecord, List.length_append, length_recordBody, length_checkBytes]

/-- R186: bytes 30 and 31 are the marks. -/
theorem markedState_encode (r : JRecord) (uploaded voided : Byte) :
    markedState (encodeRecord r ++ [uploaded, voided])
      = if voided ≠ 0xFF then .voided else if uploaded ≠ 0xFF then .done else .live := by
  have length := length_encodeRecord r
  have at30 : (encodeRecord r ++ [uploaded, voided]).getD 30 erasedByte = uploaded := by
    rw [List.getD_append_right _ _ _ _ length.le, length]
    rfl
  have at31 : (encodeRecord r ++ [uploaded, voided]).getD 31 erasedByte = voided := by
    rw [List.getD_append_right _ _ _ _ (by omega), length]
    rfl
  rw [markedState, at30, at31]
  simp [markProgrammed, erasedByte]

/-- Settles O60. -/
theorem recordsComeBackFromTheirBytes : Obligations.RecordsComeBackFromTheirBytes := by
  unfold Obligations.RecordsComeBackFromTheirBytes
  intro r uploaded voided txn range route base tip bill place time original bytes
  exact ⟨by simp [bytes, length_encodeRecord], decode_encode r _ txn range route base tip bill place time original,
    recordValid_encode r _, markedState_encode r uploaded voided⟩

end Sys2Proof.Proofs.Layouts
end

