-- ==== Sys2Proof/Proofs/BadFrames.lean ====
section
/-! PROOFS. Bad frames (O6): what a receive assembler collects from the bytes of a frame, the count that the frame's
closing flag leaves, and the opening flag, which leaves the assembler collecting with no bytes whatever it ends. -/

namespace Sys2Proof.Proofs.BadFrames

open Sys2Proof.Machine Sys2Proof.Safety Sys2Proof.Laws Sys2Proof.Proofs.Bills Sys2Proof.Proofs.Raw
  Sys2Proof.Proofs.Host Sys2Proof.Proofs.Invariants Sys2Proof.Proofs.Layouts

/-! ### The bytes before the closing flag -/

/-- The stuffed bytes of a frame bring nothing about before the closing flag. -/
theorem asmRun_collects {bytes : List Byte} (short : bytes.length ≤ 207) :
    asmRun (.collecting [] false) (stuff bytes) = (.collecting bytes false, []) := by
  have collected := asmRun_stuff [] bytes [] (by simpa [frameMax] using short)
  rwa [List.append_nil, List.nil_append] at collected

/-- A run of a receive assembler that brings nothing about goes on quietly behind its first byte. -/
theorem asmRun_cons_nil {a a' : Assembler} {b : Byte} {rest : List Byte} (h : asmRun a (b :: rest) = (a', [])) :
    (asmByte a b).2 = .nothing ∧ asmRun (asmByte a b).1 rest = (a', []) := by
  obtain ⟨state, events⟩ := Prod.mk.inj h
  by_cases quiet : (asmByte a b).2 = .nothing
  · rw [if_pos quiet] at events
    exact ⟨quiet, Prod.ext state events⟩
  · rw [if_neg quiet] at events
    cases events

/-- R181: bytes that bring nothing about change the host port's receive assembler alone. -/
theorem hostBytes_quiet {bytes : List Byte} {a : Assembler} {s : State} (h : asmRun s.host.asm bytes = (a, [])) :
    bytes.foldl (fun s b => hostByte b s) s = s.setHost { s.host with asm := a } := by
  induction bytes generalizing s with
  | nil =>
    obtain ⟨state, -⟩ := Prod.mk.inj h
    rw [← state]
    rfl
  | cons b rest ih =>
    obtain ⟨quiet, behind⟩ := asmRun_cons_nil h
    have first : hostByte b s = s.setHost { s.host with asm := (asmByte s.host.asm b).1 } := by
      simp only [hostByte, quiet]
    rw [List.foldl_cons, first, ih (s := s.setHost { s.host with asm := (asmByte s.host.asm b).1 }) behind]
    rfl

/-- R181: the same on the radio port. -/
theorem radioBytes_quiet {bytes : List Byte} {a : Assembler} {s : State} (h : asmRun s.radio.asm bytes = (a, [])) :
    bytes.foldl (fun s b => radioByte b s) s = s.setRadio { s.radio with asm := a } := by
  induction bytes generalizing s with
  | nil =>
    obtain ⟨state, -⟩ := Prod.mk.inj h
    rw [← state]
    rfl
  | cons b rest ih =>
    obtain ⟨quiet, behind⟩ := asmRun_cons_nil h
    have first : radioByte b s = s.setRadio { s.radio with asm := (asmByte s.radio.asm b).1 } := by
      simp only [radioByte, quiet]
    rw [List.foldl_cons, first, ih (s := s.setRadio { s.radio with asm := (asmByte s.radio.asm b).1 }) behind]
    rfl

/-- R96: during the scan bytes change the radio port's receive assembler alone, whatever they bring about. -/
theorem radioBytesInScan_asm (bytes : List Byte) (s : State) :
    bytes.foldl (fun s b => radioByteInScan b s) s = s.setRadio { s.radio with asm := (asmRun s.radio.asm bytes).1 } := by
  induction bytes generalizing s with
  | nil => rfl
  | cons b rest ih =>
    rw [List.foldl_cons, ih]
    rfl

/-! ### The closing flag -/

/-- What the host port's assembler has collected is no good frame for the host port. -/
def BadHost (a : Assembler) : Prop :=
  ∃ bytes escape, a = .collecting bytes escape ∧ (escape = true ∨ 1 ≤ bytes.length
    ∧ (bytes.length < 7 ∨ frameSound bytes = false ∨ (frameParts bytes).2.1 ≠ 0))

/-- What the radio port's assembler has collected is no good frame. -/
def BadRadio (a : Assembler) : Prop :=
  ∃ bytes escape, a = .collecting bytes escape ∧ (escape = true ∨ 1 ≤ bytes.length
    ∧ (bytes.length < 7 ∨ frameSound bytes = false))

/-- A flag with an escape pending is bad, and so is one that ends one to six bytes; one that ends more ends a frame. -/
theorem asmByte_flag {bytes : List Byte} {escape : Bool} (some' : escape = true ∨ 1 ≤ bytes.length) :
    asmByte (.collecting bytes escape) flag
      = (.collecting [] false, if escape = true ∨ bytes.length < 7 then .bad else .ended bytes) := by
  cases escape
  · have notEmpty : bytes.length ≠ 0 := by simp at some'; omega
    simp only [asmByte, if_true, if_neg notEmpty, Bool.false_eq_true, false_or]
  · simp only [asmByte, if_true, true_or]

/-- R169: the flag that ends a bad frame on the host port leaves one count. -/
theorem hostByte_bad {s : State} (bad : BadHost s.host.asm) :
    hostByte flag s =
      s.setHost { s.host with asm := .collecting [] false, framesBad := min (s.host.framesBad + 1) 65535 } := by
  obtain ⟨bytes, escape, collected, why⟩ := bad
  have ends := asmByte_flag (why.imp_right And.left)
  by_cases short : escape = true ∨ bytes.length < 7
  · rw [if_pos short] at ends
    simp only [hostByte, collected, ends]
    rfl
  · rw [if_neg short] at ends
    obtain ⟨noEscape, long⟩ := not_or.mp short
    obtain ⟨-, notSound⟩ := why.resolve_left noEscape
    have judged : ¬ (frameSound bytes = true ∧ (frameParts bytes).2.1 = 0) := by
      rcases notSound with h | h | h
      · exact absurd h long
      · simp [h]
      · exact fun good => h good.2
    simp only [hostByte, collected, ends, judgeHostFrame, if_neg judged]
    rfl

/-- R144: the flag that ends a bad frame on the radio port leaves one count. -/
theorem radioByte_bad {s : State} (bad : BadRadio s.radio.asm) :
    radioByte flag s =
      s.setRadio { asm := .collecting [] false, framesBad := min (s.radio.framesBad + 1) 65535 } := by
  obtain ⟨bytes, escape, collected, why⟩ := bad
  have ends := asmByte_flag (why.imp_right And.left)
  by_cases short : escape = true ∨ bytes.length < 7
  · rw [if_pos short] at ends
    simp only [radioByte, collected, ends]
    rfl
  · rw [if_neg short] at ends
    obtain ⟨noEscape, long⟩ := not_or.mp short
    obtain ⟨-, notSound⟩ := why.resolve_left noEscape
    have unsound : ¬ frameSound bytes = true := by simp [notSound.resolve_left long]
    simp only [radioByte, collected, ends, judgeRadioFrame, if_pos unsound]
    rfl

/-! ### Whole bad frames -/

/-- R181: the host port takes bytes past its start. -/
theorem hostBytes_started {s : State} (started : s.pins.phase = .run ∨ s.pins.phase = .scan) (bytes : List Byte) :
    hostBytes bytes s = bytes.foldl (fun s b => hostByte b s) s := by
  rcases started with h | h <;> simp only [hostBytes, h]

/-- R169: quiet bytes and then the flag that ends what they collected. -/
theorem exec_hostFrameBad {s : State} {bytes : List Byte} {a : Assembler}
    (started : s.pins.phase = .run ∨ s.pins.phase = .scan) (quiet : asmRun s.host.asm bytes = (a, []))
    (bad : BadHost a) :
    exec (.hostFrameBad (bytes ++ [flag])) s = .next
      { s with
        host := { s.host with asm := .collecting [] false, framesBad := min (s.host.framesBad + 1) 65535 } } := by
  have runs : exec (.hostFrameBad (bytes ++ [flag])) s = .next (hostBytes (bytes ++ [flag]) s) := rfl
  rw [runs, hostBytes_started started, List.foldl_append, hostBytes_quiet quiet]
  exact congrArg Host.Outcome.next (hostByte_bad (s := s.setHost { s.host with asm := a }) bad)

/-- R144: the same on the radio port. -/
theorem exec_radioFrameBad {s : State} {bytes : List Byte} {a : Assembler} (run : s.pins.phase = .run)
    (quiet : asmRun s.radio.asm bytes = (a, [])) (bad : BadRadio a) :
    exec (.radioFrameBad (bytes ++ [flag])) s = .next
      { s with radio := { asm := .collecting [] false, framesBad := min (s.radio.framesBad + 1) 65535 } } := by
  have runs : exec (.radioFrameBad (bytes ++ [flag])) s = .next (radioBytes (bytes ++ [flag]) s) := rfl
  simp only [runs, radioBytes, run]
  rw [List.foldl_append, radioBytes_quiet quiet]
  exact congrArg Host.Outcome.next (radioByte_bad (s := s.setRadio { s.radio with asm := a }) bad)

/-- R181: a flag leaves the assembler collecting with no bytes. -/
theorem asmByte_flag_opens (a : Assembler) : (asmByte a flag).1 = .collecting [] false := by
  rcases a with _ | ⟨bytes, _ | _⟩ <;> simp [asmByte]

/-- A run of a receive assembler over bytes and one more stands where the last byte brings it. -/
theorem asmRun_last (a : Assembler) (bytes : List Byte) (b : Byte) :
    (asmRun a (bytes ++ [b])).1 = (asmByte (asmRun a bytes).1 b).1 := by
  induction bytes generalizing a with
  | nil => rfl
  | cons c rest ih => exact ih _

/-- R96: during the scan the radio port counts nothing. -/
theorem exec_radioFrameBad_scan {s : State} (scan : s.pins.phase = .scan) (bytes : List Byte) :
    exec (.radioFrameBad (bytes ++ [flag])) s = .next
      { s with radio := { s.radio with asm := .collecting [] false } } := by
  have runs : exec (.radioFrameBad (bytes ++ [flag])) s = .next (radioBytes (bytes ++ [flag]) s) := rfl
  simp only [runs, radioBytes, scan]
  rw [radioBytesInScan_asm, asmRun_last, asmByte_flag_opens]
  rfl

/-! ### The opening flag of a whole host frame (log 11) -/

/-- The host port's assembler collects with no bytes. -/
def HostOpen (s : State) : Prop := s.host.asm = .collecting [] false

theorem HostOpen.same {s t : State} (h : HostOpen s) (kept : Part.host.same s t) : HostOpen t :=
  (congrArg HostPort.asm kept).trans h

theorem HostOpen.answer {s : State} (h : HostOpen s) (code tag body) : HostOpen (answerRequest code tag body s) := h

theorem HostOpen.recordLost {s : State} (h : HostOpen s) (e : QueuedRecord) : HostOpen (recordLost e s) := by
  unfold Machine.recordLost
  repeat' split
  · exact h.same (by simp [same_self])
  · exact h
  · exact HostOpen.answer (s := (clearVoidPending _ s).setHost _) (by exact h) ..
  · exact h

theorem HostOpen.issueQueue {s : State} (h : HostOpen s) (queue : List QueuedRecord) :
    HostOpen (issueQueue queue s) := by
  induction queue generalizing s with
  | nil => exact h
  | cons e rest ih =>
    unfold Machine.issueQueue
    split
    · exact h.same (by simp [same_self])
    · exact ih (HostOpen.recordLost (h.same (by simp [same_self])) e)

theorem HostOpen.appendRecord {s : State} (h : HostOpen s) (e : QueuedRecord) : HostOpen (appendRecord e s) := by
  unfold Machine.appendRecord issueNext
  split
  · exact h
  · exact HostOpen.issueQueue (by exact h) _

theorem HostOpen.takeDecision {s : State} (h : HostOpen s) (i a row) : HostOpen (takeDecision i a row s) := by
  unfold Machine.takeDecision
  split
  · exact h.same (by simp [same_self])
  · exact HostOpen.appendRecord (h.same (by simp [same_self])) _
  · exact h.same (by simp [same_self])

theorem HostOpen.serveAuthorize {s : State} (h : HostOpen s) (tag bill share pfx token base tip) :
    HostOpen (serveAuthorize tag bill share pfx token base tip s) := by
  unfold Machine.serveAuthorize
  repeat' split
  · exact h.answer ..
  · exact h.answer ..
  · exact HostOpen.answer (HostOpen.takeDecision (h.same (by simp [same_self])) ..) ..

theorem HostOpen.voidByMark {s : State} (h : HostOpen s) (tag bill t loc) :
    HostOpen (voidByMark tag bill t loc s) := by
  have job (u : State) (x : Option VoidJob) : HostOpen (u.setHost { s.host with voidJob := x }) := h
  have voided {u : State} (opened : HostOpen u) : HostOpen (voidTender bill t.txn u) :=
    opened.same (by simp [same_self])
  exact voided (job _ _)

theorem HostOpen.voidByReversal {s : State} (h : HostOpen s) (tag b t) : HostOpen (voidByReversal tag b t s) := by
  have job {u : State} (opened : HostOpen u) (x : Option VoidJob) :
      HostOpen (u.setHost { u.host with voidJob := x }) := opened
  unfold Machine.voidByReversal
  exact HostOpen.appendRecord (job (h.same (by simp [same_self])) _) _

theorem HostOpen.serveVoid {s : State} (h : HostOpen s) (tag bill txn) : HostOpen (serveVoid tag bill txn s) := by
  unfold Machine.serveVoid
  repeat' split
  · exact h.answer ..
  · exact h
  · exact h
  · exact h.voidByMark ..
  · exact h.answer ..
  · exact h.voidByReversal ..

theorem HostOpen.serveRequest {s : State} (h : HostOpen s) (c : Instr) : HostOpen (serveRequest c s) := by
  cases c <;> try exact h
  case authorize => exact h.serveAuthorize ..
  case void => exact h.serveVoid ..
  case portReset =>
    have cleared (u : State) : HostOpen (u.setHost { s.host with asm := .collecting [] false }) := rfl
    exact HostOpen.answer (cleared _) ..
  case split =>
    simp only [Machine.serveRequest, serveSplit]
    repeat' split
    · exact h.answer ..
    · exact h.answer ..
    · exact HostOpen.answer (h.same (by simp [same_self])) ..
  case readResult =>
    simp only [Machine.serveRequest, serveReadResult]
    repeat' split
    all_goals exact HostOpen.answer (h.same (by simp [same_self])) ..
  case queryBill | readRange | readExposure | nextEvent | unknownRequest =>
    simp only [Machine.serveRequest, serveQueryBill, serveReadRange, serveReadExposure, serveNextEvent, serveUnknown]
    repeat' split
    all_goals exact h

theorem HostOpen.hostArrives {s : State} (h : HostOpen s) (c : Instr) : HostOpen (hostArrives c s) := by
  have locked : HostOpen (statusLock c (wakePort s)) := by cases c <;> rfl
  have turn : HostOpen (requestArrives c (statusLock c (wakePort s))) := by
    unfold requestArrives
    split
    · exact locked
    · exact HostOpen.serveRequest (by exact locked) c
  have taken : HostOpen (hostFrameTaken c (statusLock c (wakePort s))) := by
    cases c <;> try exact turn
    case hostData =>
      simp only [hostFrameTaken, hostDataArrives]
      split
      · exact locked
      · exact locked
  unfold Machine.hostArrives
  dsimp only
  split
  · exact h
  · exact h
  · split <;> rfl
  · split
    · exact locked
    · exact taken

/-- R181: a flag on the host port leaves the assembler collecting with no bytes. -/
theorem hostOpen_flag (s : State) : HostOpen (hostByte flag s) := by
  have opened : HostOpen (s.setHost { s.host with asm := (asmByte s.host.asm flag).1 }) :=
    asmByte_flag_opens s.host.asm
  unfold hostByte
  dsimp only
  split
  · exact opened
  · exact opened
  · unfold judgeHostFrame
    dsimp only
    repeat' split
    · exact opened.hostArrives _
    · exact opened
    · exact opened

/-- Log 10: a frame that the host port's own bytes spell finds the LOADLOCK level that stands. -/
theorem statusLock_of_spelled {kind : Nat} {tag : BitVec 16} {s : State} {p : List Byte} {c : Instr}
    (spelled : hostFrameOf kind tag s.pins.loadlock p = some c) : statusLock c (wakePort s) = wakePort s := by
  unfold hostFrameOf at spelled
  split at spelled
  · cases spelled
    exact (spellsRequest_requestOf tag s.pins.loadlock p).lock (wakePort s) rfl
  · cases spelled
    rfl
  · cases spelled

theorem hostArrives_pins {c : Instr} {s : State} (own : statusLock c (wakePort s) = wakePort s) :
    (hostArrives c s).pins = s.pins := by
  have taken : Part.pins.same s (hostFrameTaken c (wakePort s)) := by simp [same_self]
  unfold hostArrives
  simp only [own]
  repeat' split
  any_goals rfl
  exact taken

/-- The bytes of the host port leave the lines and the phase as they are. -/
theorem hostByte_pins (b : Byte) (s : State) : (hostByte b s).pins = s.pins := by
  unfold hostByte
  dsimp only
  split
  · rfl
  · rfl
  · unfold judgeHostFrame
    dsimp only
    split
    · split
      next spelled => exact hostArrives_pins (statusLock_of_spelled spelled)
      next => rfl
    · rfl

/-- The opening flag of a whole host frame, over once it has ended what was collected. -/
theorem openHostFrame_open (s : State) :
    (openHostFrame s).pins = s.pins
      ∧ (s.pins.phase = .run ∨ s.pins.phase = .scan → HostOpen (openHostFrame s))
      ∧ openHostFrame (openHostFrame s) = openHostFrame s := by
  by_cases started : s.pins.phase = .run ∨ s.pins.phase = .scan
  · have first : openHostFrame s = hostByte flag s := hostBytes_started started [flag]
    have opened := hostOpen_flag s
    have pins := hostByte_pins flag s
    rw [first]
    generalize hostByte flag s = u at opened pins
    have again : openHostFrame u = hostByte flag u := hostBytes_started (by rwa [pins]) [flag]
    have quiet : hostByte flag u = u := by
      rw [HostOpen] at opened
      simp only [hostByte, opened, asmByte, if_true, List.length_nil]
      rw [← opened]
      rfl
    exact ⟨pins, fun _ => opened, again.trans quiet⟩
  · have still : openHostFrame s = s := by
      cases phase : s.pins.phase <;> simp_all [openHostFrame, hostBytes]
    rw [still]
    exact ⟨rfl, fun h => absurd h started, still⟩

/-- Log 11: a command that stands for a whole host frame does what it does once its opening flag has ended what was
collected. -/
theorem exec_hostFrame_opened {c : Instr} (frame : isHostFrame c = true) (s : State) :
    exec c s = exec c (openHostFrame s) := by
  obtain ⟨pins, -, twice⟩ := openHostFrame_open s
  have arrives (d : Instr) : hostFrameArrives d s = hostFrameArrives d (openHostFrame s) := by
    rw [hostFrameArrives, hostFrameArrives, twice]
  cases c
  case unknownRequest tag p =>
    have here : exec (.unknownRequest tag p) s = .next (hostFrameArrives (requestOf tag s.pins.loadlock p) s) := rfl
    have opened : exec (.unknownRequest tag p) (openHostFrame s)
        = .next (hostFrameArrives (requestOf tag (openHostFrame s).pins.loadlock p) (openHostFrame s)) := rfl
    rw [here, opened, pins, arrives]
  all_goals first | exact congrArg Host.Outcome.next (arrives _) | cases frame

/-! ### The opening flag of a whole radio frame (log 11) -/

/-- The radio port's assembler collects with no bytes. -/
def RadioOpen (s : State) : Prop := s.radio.asm = .collecting [] false

theorem RadioOpen.same {s t : State} (h : RadioOpen s) (kept : Part.radio.same s t) : RadioOpen t :=
  (congrArg RadioPort.asm kept).trans h

/-- No management command changes the radio port, and none but the lines' own the lines. -/
theorem same_performCommand_port {p : Part} {s t : State} (c : Instr) (port : p = .radio ∨ p = .pins) :
    p.same s (performCommand c t) ↔ p.same s t := by
  have away : p ≠ .bills ∧ p ≠ .events ∧ p ≠ .arbiter := by rcases port with rfl | rfl <;> decide
  obtain ⟨bills, events, arbiter⟩ := away
  cases c <;> try rfl
  case billPush => exact same_takeBillCommand _ arbiter (same_takeBillPush _ _ _ _ _ _ bills events)
  case billAmend => exact same_takeBillCommand _ arbiter (same_takeBillAmend _ _ bills events)
  case billDrop => exact same_takeBillCommand _ arbiter (same_takeBillDrop _ bills events)
  all_goals rcases port with rfl | rfl <;> simp [performCommand]

theorem same_commandAtGate_port {p : Part} {s : State} (c : Instr) (port : p = .radio ∨ p = .pins) :
    p.same s (commandAtGate c s) := by
  have replied : p.same s (queueMgmtReply (commandCode c) (mgmtTag c) (.plain .busy) s) := by
    rcases port with rfl | rfl <;> rfl
  unfold commandAtGate
  split
  · split
    · rcases port with rfl | rfl <;> rfl
    · exact (same_performCommand_port c port).2 (same_self p s)
  all_goals
    split
    · exact replied
    · exact same_self p s

/-- What a good radio frame other than a command does keeps the receive assembler and the lines. -/
theorem radioArrives_port {s : State} (h : RadioOpen s) (addr : BitVec 8) (b : Bool) {act : State → State}
    (work : ∀ t, RadioOpen t → RadioOpen (act t) ∧ (act t).pins = t.pins) :
    RadioOpen (radioArrives addr b act s) ∧ (radioArrives addr b act s).pins = s.pins := by
  unfold radioArrives
  split
  · split
    · exact work (radioFrameEnded s) rfl
    · exact ⟨rfl, rfl⟩
  · exact ⟨rfl, rfl⟩
  · exact ⟨h, rfl⟩
  · exact ⟨h, rfl⟩

/-- What keeps the radio port and the lines keeps its assembler. -/
theorem RadioOpen.kept {s t : State} (h : RadioOpen s) (radio : Part.radio.same s t) (pins : Part.pins.same s t) :
    RadioOpen t ∧ t.pins = s.pins := ⟨h.same radio, pins⟩

/-- A good radio frame that finds the LOADLOCK level that stands leaves the assembler collecting with no bytes, and the
lines as they are. -/
theorem downstreamArrives_port {s : State} (h : RadioOpen s) {c : Instr}
    (own : lockOf c (radioFrameEnded s) = radioFrameEnded s) :
    RadioOpen (downstreamArrives c s) ∧ (downstreamArrives c s).pins = s.pins := by
  unfold downstreamArrives
  split
  case h_1 addr cell seconds =>
    refine radioArrives_port h _ _ fun t opened => ?_
    unfold beaconPassed
    repeat' split
    · exact ⟨opened, rfl⟩
    · exact opened.kept (by simp [same_self]) (by simp [same_self])
    · exact ⟨opened, rfl⟩
  case h_2 addr txn disposition reason =>
    refine radioArrives_port h _ _ fun t opened => ?_
    unfold authReplyPassed
    repeat' split
    · exact ⟨opened, rfl⟩
    · exact opened.kept (by simp [same_self]) (by simp [same_self])
    · exact opened.kept (by simp [same_self]) (by simp [same_self])
    · exact ⟨opened, rfl⟩
  case h_3 addr txn disposition =>
    refine radioArrives_port h _ _ fun t opened => ?_
    unfold uploadConfirmPassed
    repeat' split
    · exact ⟨opened, rfl⟩
    · exact opened.kept (by simp [same_self]) (by simp [same_self])
    · exact opened.kept (by simp [same_self]) (by simp [same_self])
    · exact ⟨opened, rfl⟩
  case h_4 addr tag payload =>
    exact radioArrives_port h _ _ fun t opened => opened.kept (by simp [same_self]) (by simp [same_self])
  case h_5 =>
    unfold commandArrives
    rw [own]
    split
    · split
      · exact RadioOpen.kept (s := radioFrameEnded s) rfl (same_commandAtGate_port c (.inl rfl))
          (same_commandAtGate_port c (.inr rfl))
      · exact ⟨rfl, rfl⟩
    · exact ⟨rfl, rfl⟩
    · exact ⟨h, rfl⟩
    · exact ⟨h, rfl⟩

/-- Log 10: a frame that the radio port's own bytes spell finds the LOADLOCK level that stands. -/
theorem lockOf_of_spelled {kind : Nat} {addr : BitVec 8} {tag : BitVec 16} {s : State} {p : List Byte} {c : Instr}
    (spelled : radioFrameOf kind addr tag s.pins.loadlock p = some c) :
    lockOf c (radioFrameEnded s) = radioFrameEnded s := by
  unfold radioFrameOf at spelled
  repeat' split at spelled
  case h_4 =>
    cases spelled
    exact (spellsCommand_commandOf addr tag s.pins.loadlock p).lock (radioFrameEnded s) rfl
  all_goals
    cases spelled
    try rfl

/-- R181: a flag on the radio port past the scan leaves the assembler collecting with no bytes, and the lines as they
are. -/
theorem radioByte_flag_port (s : State) : RadioOpen (radioByte flag s) ∧ (radioByte flag s).pins = s.pins := by
  have opened : RadioOpen (s.setRadio { s.radio with asm := (asmByte s.radio.asm flag).1 }) :=
    asmByte_flag_opens s.radio.asm
  unfold radioByte
  dsimp only
  split
  · exact ⟨opened, rfl⟩
  · exact ⟨opened, rfl⟩
  · unfold judgeRadioFrame
    dsimp only
    split
    · exact ⟨opened, rfl⟩
    · split
      · exact ⟨opened, rfl⟩
      · split
        next spelled => exact downstreamArrives_port opened (lockOf_of_spelled spelled)
        next => exact ⟨opened, rfl⟩

/-- The opening flag of a whole radio frame, over once it has ended what was collected. -/
theorem openRadioFrame_open (s : State) :
    (openRadioFrame s).pins = s.pins
      ∧ (s.pins.phase = .run ∨ s.pins.phase = .scan → RadioOpen (openRadioFrame s))
      ∧ openRadioFrame (openRadioFrame s) = openRadioFrame s := by
  cases phase : s.pins.phase
  case run =>
    have first : openRadioFrame s = radioByte flag s := by simp only [openRadioFrame, radioBytes, phase]; rfl
    obtain ⟨opened, pins⟩ := radioByte_flag_port s
    rw [first]
    generalize radioByte flag s = u at opened pins
    have again : openRadioFrame u = radioByte flag u := by
      simp only [openRadioFrame, radioBytes, pins, phase]
      rfl
    have quiet : radioByte flag u = u := by
      rw [RadioOpen] at opened
      simp only [radioByte, opened, asmByte, if_true, List.length_nil]
      rw [← opened]
      rfl
    exact ⟨pins, fun _ => opened, again.trans quiet⟩
  case scan =>
    have first : openRadioFrame s = radioFrameEnded s := by
      rw [openRadioFrame_scan phase, asmByte_flag_opens]
      rfl
    have again : openRadioFrame (radioFrameEnded s) = radioFrameEnded s := openRadioFrame_scan (by exact phase)
    rw [first]
    exact ⟨rfl, fun _ => rfl, again⟩
  all_goals
    have still : openRadioFrame s = s := by simp only [openRadioFrame, radioBytes, phase]
    rw [still]
    exact ⟨rfl, nofun, still⟩

/-- Log 11: a command that stands for a whole radio frame does what it does once its opening flag has ended what was
collected. -/
theorem exec_radioFrame_opened {c : Instr} (frame : isRadioFrame c = true) (s : State) :
    exec c s = exec c (openRadioFrame s) := by
  obtain ⟨pins, -, twice⟩ := openRadioFrame_open s
  have arrives (d : Instr) : radioFrameArrives d s = radioFrameArrives d (openRadioFrame s) := by
    rw [radioFrameArrives, radioFrameArrives, twice]
  cases c
  case unknownCommand addr tag p =>
    have here : exec (.unknownCommand addr tag p) s
        = .next (radioFrameArrives (commandOf addr tag s.pins.loadlock p) s) := rfl
    have opened : exec (.unknownCommand addr tag p) (openRadioFrame s)
        = .next (radioFrameArrives (commandOf addr tag (openRadioFrame s).pins.loadlock p) (openRadioFrame s)) := rfl
    rw [here, opened, pins, arrives]
  all_goals first | exact congrArg Host.Outcome.next (arrives _) | cases frame

/-- Settles O6. -/
theorem badFramesAreCountedOnly : Obligations.BadFramesAreCountedOnly := by
  unfold Obligations.BadFramesAreCountedOnly
  refine ⟨fun bytes s notEmpty short => ⟨fun asm started bad => ?_, fun asm run bad => ?_, fun _ scan => ?_⟩,
    fun bytes escape s broken => ⟨fun asm started => ?_, fun asm run => ?_, fun _ scan => ?_⟩,
    fun c s frame => ⟨openHostFrame s, rfl, exec_hostFrame_opened frame s, (openHostFrame_open s).2.1⟩,
    fun c s frame => ⟨openRadioFrame s, rfl, exec_radioFrame_opened frame s, (openRadioFrame_open s).2.1⟩⟩
  · exact exec_hostFrameBad started (by rw [asm]; exact asmRun_collects short)
      ⟨bytes, false, rfl, .inr ⟨notEmpty, bad⟩⟩
  · exact exec_radioFrameBad run (by rw [asm]; exact asmRun_collects short)
      ⟨bytes, false, rfl, .inr ⟨notEmpty, bad⟩⟩
  · exact exec_radioFrameBad_scan scan _
  · refine exec_hostFrameBad (bytes := []) started rfl ⟨bytes, escape, asm, ?_⟩
    exact broken.symm.imp_right fun ⟨some', few⟩ => ⟨some', .inl few⟩
  · refine exec_radioFrameBad (bytes := []) run rfl ⟨bytes, escape, asm, ?_⟩
    exact broken.symm.imp_right fun ⟨some', few⟩ => ⟨some', .inl few⟩
  · exact exec_radioFrameBad_scan (bytes := []) scan

end Sys2Proof.Proofs.BadFrames
end

