-- ==== Sys2Proof/Proofs/Targets.lean ====
section
/-! PROOFS. What a store operation changes in the array, whole or cut short: nothing outside its target, and there what
R117, R13, R91, R97 and R124 allow (O53). -/

namespace Sys2Proof.Proofs.Targets

open Sys2Proof.Machine Sys2Proof.Safety Sys2Proof.Laws Sys2Proof.Proofs.Layouts

/-! ### Ranges of bytes -/

@[simp] theorem length_readBytes (m : Mem) (a n : Nat) : (m.readBytes a n).length = n := by
  simp [Mem.readBytes]

/-- Ranges that read alike byte by byte are alike. -/
theorem readBytes_congr {m m' : Mem} {a n : Nat} (h : ∀ b, a ≤ b → b < a + n → m.read b = m'.read b) :
    m.readBytes a n = m'.readBytes a n := by
  refine List.map_congr_left fun i hi => h _ (Nat.le_add_right a i) ?_
  have := List.mem_range.1 hi
  omega

/-- A range whose every byte reads erased. -/
theorem readBytes_erased {m : Mem} {a n : Nat} (h : ∀ b, a ≤ b → b < a + n → m.read b = 0xFF) :
    m.readBytes a n = List.replicate n 0xFF := by
  refine List.eq_replicate_iff.2 ⟨length_readBytes m a n, fun v hv => ?_⟩
  obtain ⟨i, hi, rfl⟩ := List.mem_map.1 hv
  have := List.mem_range.1 hi
  exact h _ (by omega) (by omega)

theorem readBytes_eraseRange (m : Mem) (a n : Nat) : (m.eraseRange a n).readBytes a n = List.replicate n 0xFF :=
  readBytes_erased fun b low high => by rw [read_eraseRange, if_pos ⟨low, high⟩]; rfl

/-- Bytes written read as written. -/
theorem readBytes_writeBytes {m : Mem} (canonical : m.wf = true) (a : Nat) (bytes : List Byte) :
    (m.writeBytes a bytes).readBytes a bytes.length = bytes := by
  refine List.ext_getElem (length_readBytes _ _ _) fun i hi inside => ?_
  have written : (m.writeBytes a bytes).read (a + i) = bytes.getD i erasedByte := by
    rw [read_writeBytes canonical, if_pos ⟨Nat.le_add_right a i, by omega⟩, Nat.add_sub_cancel_left]
  rw [List.getD_eq_getElem _ _ inside] at written
  simp [Mem.readBytes, written]

/-- A range that is wholly erased reads erased. -/
theorem read_of_erasedRange {m : Mem} {a n b : Nat} (h : m.erasedRange a n = true) (low : a ≤ b) (high : b < a + n) :
    m.read b = 0xFF := by
  induction m with
  | nil => rfl
  | cons c rest ih =>
    obtain ⟨k, v⟩ := c
    simp only [Mem.erasedRange, List.all_cons, Bool.and_eq_true, Bool.or_eq_true, decide_eq_true_eq,
      beq_iff_eq] at h
    obtain ⟨here, others⟩ := h
    unfold Mem.read
    split
    next same =>
      rcases here with (below | above) | erased
      · omega
      · omega
      · exact erased
    next => exact ih others

/-! ### Operations that end -/

/-- An operation leaves every byte outside its target. -/
theorem read_apply_outside {m : Mem} (canonical : m.wf = true) (op : StoreOp) (e : ArrayEnd) {a : Nat}
    (outside : a < (extent op).1 ∨ (extent op).1 + (extent op).2 ≤ a) : (op.apply m e).1.read a = m.read a := by
  cases op with
  | recordProgram loc bytes => exact read_program_outside canonical bytes e outside
  | mark r => exact read_program_outside canonical [markValue] e outside
  | epochProgram w epoch =>
    exact read_program_outside canonical (encodeEpochWord epoch) e (by simpa [extent, encodeEpochWord] using outside)
  | pageProgram r => exact read_program_outside canonical r.bytes e outside
  | blockErase r => exact read_erase_outside canonical e outside

/-- R117: a program whose read-back matches leaves the bytes asked for. -/
theorem readBytes_program {m : Mem} (canonical : m.wf = true) {a : Nat} {bytes : List Byte} {e : ArrayEnd}
    (matched : (m.program a bytes e).2 = true) : (m.program a bytes e).1.readBytes a bytes.length = bytes := by
  have left : landed m a e 0 bytes = bytes := beq_iff_eq.1 matched
  simp only [Mem.program, left]
  exact readBytes_writeBytes canonical a bytes

/-- R117: an erase whose read-back matches leaves its range erased. -/
theorem read_erase {m : Mem} {a n b : Nat} {e : ArrayEnd} (matched : (m.erase a n e).2 = true) (low : a ≤ b)
    (high : b < a + n) : (m.erase a n e).1.read b = 0xFF := read_of_erasedRange matched low high

/-! ### A byte of a program (R117) -/

/-- A byte moved toward another takes each bit from one of the two. -/
theorem getLsbD_moveToward (old asked env : Byte) (k : Nat) :
    (moveToward old asked env).getLsbD k = old.getLsbD k ∨ (moveToward old asked env).getLsbD k = asked.getLsbD k := by
  simp only [moveToward, BitVec.getLsbD_xor, BitVec.getLsbD_and]
  cases old.getLsbD k <;> cases asked.getLsbD k <;> cases env.getLsbD k <;> simp

/-- What a program leaves of each of its bytes. -/
theorem getElem?_landed (m : Mem) (a : Nat) (e : ArrayEnd) (j i : Nat) (bytes : List Byte) :
    (landed m a e j bytes)[i]? = bytes[i]?.map fun asked =>
      landByte (m.read (a + (j + i))) asked (programmedByte e (j + i) (m.read (a + (j + i))) asked) := by
  induction bytes generalizing j i with
  | nil => rfl
  | cons b rest ih =>
    cases i with
    | zero => rfl
    | succ i =>
      rw [landed, List.getElem?_cons_succ, List.getElem?_cons_succ, ih, Nat.add_right_comm j 1 i, Nat.add_assoc j i 1]

theorem read_program {m : Mem} (canonical : m.wf = true) {a i : Nat} {bytes : List Byte} {asked : Byte}
    (e : ArrayEnd) (at' : bytes[i]? = some asked) :
    (m.program a bytes e).1.read (a + i)
      = landByte (m.read (a + i)) asked (programmedByte e i (m.read (a + i)) asked) := by
  have inside : i < bytes.length := (List.getElem?_eq_some_iff.1 at').1
  have left := getElem?_landed m a e 0 i bytes
  rw [at', Option.map_some, Nat.zero_add] at left
  simp only [Mem.program]
  rw [read_writeBytes canonical, if_pos ⟨Nat.le_add_right a i, by rw [landed_length]; omega⟩,
    Nat.add_sub_cancel_left, List.getD_eq_getElem?_getD, left, Option.getD_some]

/-- R117: a byte that is neither erased nor already right moves toward the byte asked for, and never gets there. -/
theorem landByte_moves {old asked : Byte} (env : Byte) (notRight : old ≠ asked) (notErased : old ≠ 0xFF) :
    landByte old asked env ≠ asked ∧ landByte old asked env ≠ 0xFF
      ∧ ∀ k, (landByte old asked env).getLsbD k = old.getLsbD k ∨ (landByte old asked env).getLsbD k = asked.getLsbD k := by
  rcases landByte_cases old asked env with ⟨right, -⟩ | ⟨-, erased, -⟩ | ⟨-, -, stays⟩ | ⟨-, -, moves, notAsked, notFF⟩
  · exact absurd right notRight
  · exact absurd erased notErased
  · rw [stays]
    exact ⟨notRight, notErased, fun k => .inl rfl⟩
  · rw [moves]
    exact ⟨notAsked, notFF, getLsbD_moveToward old asked env⟩

/-! ### Changes of a block part by part -/

/-- Changes of the parts of a block, each of which touches its own part alone: the others find a part as it was. -/
theorem foldl_apart {f : Mem → Nat → Mem} {part : Mem → Nat → List Byte}
    (apart : ∀ m i j, i ≠ j → part (f m i) j = part m j) {l : List Nat} {i : Nat} (away : i ∉ l) (m : Mem) :
    part (l.foldl f m) i = part m i := by
  induction l generalizing m with
  | nil => rfl
  | cons j rest ih =>
    obtain ⟨notHere, notLater⟩ := not_or.1 (mt List.mem_cons.2 away)
    exact (ih notLater _).trans (apart m j i (Ne.symm notHere))

/-- Each part becomes what its own change makes of it. -/
theorem foldl_own {f : Mem → Nat → Mem} {part : Mem → Nat → List Byte} {g : List Byte → List Byte} {i : Nat}
    (apart : ∀ m i j, i ≠ j → part (f m i) j = part m j) (own : ∀ m, part (f m i) i = g (part m i)) {l : List Nat}
    (once : l.Nodup) (here : i ∈ l) (m : Mem) : part (l.foldl f m) i = g (part m i) := by
  induction l generalizing m with
  | nil => cases here
  | cons j rest ih =>
    obtain ⟨notAgain, once'⟩ := List.nodup_cons.1 once
    rcases List.mem_cons.1 here with rfl | later
    · exact (foldl_apart apart notAgain _).trans (own m)
    · have other : j ≠ i := fun same => notAgain (same ▸ later)
      rw [List.foldl_cons, ih once' later, apart m j i other]

/-- Changes that each leave a byte leave it. -/
theorem read_foldl {f : Mem → Nat → Mem} {a : Nat} {l : List Nat} (kept : ∀ m, ∀ i ∈ l, (f m i).read a = m.read a)
    (m : Mem) : (l.foldl f m).read a = m.read a := by
  induction l generalizing m with
  | nil => rfl
  | cons i rest ih =>
    exact (ih (fun m j hj => kept m j (List.mem_cons_of_mem i hj)) _).trans (kept m i List.mem_cons_self)

/-! ### Epoch words and headers that a write cut short leaves -/

/-- R124: a lost word holds no valid epoch. -/
theorem epochWord_loseWord (w : Nat) (m : Mem) : decodeEpochWord (epochWord (loseWord w m) w) = none := by
  unfold loseWord
  split
  · have erased : epochWord (m.eraseRange (epochWordAddr w) 4) w = List.replicate 4 0xFF :=
      readBytes_eraseRange m _ 4
    rw [erased]
    decide
  · simp_all

/-- The words of the epoch block lie apart. -/
theorem epochWord_loseWord_other (m : Mem) (w v : Nat) (other : w ≠ v) :
    epochWord (loseWord w m) v = epochWord m v :=
  readBytes_congr fun b low high => read_loseWord_outside m w (by simp only [epochWordAddr] at *; omega)

/-- R124: an erase of the epoch block cut short leaves no valid word. -/
theorem epochWord_cut {before m : Mem} {w : Nat} (inside : w < 64) :
    decodeEpochWord (epochWord (EraseTarget.epoch.cut before m) w) = none := by
  have once : (List.range Limits.epochWords).Nodup := List.nodup_range
  have here : w ∈ List.range Limits.epochWords := List.mem_range.2 inside
  obtain ⟨earlier, later, whole⟩ := List.append_of_mem here
  rw [whole] at once
  have away : w ∉ later := (List.nodup_cons.1 (List.nodup_append.1 once).2.1).1
  have left : EraseTarget.epoch.cut before m
      = later.foldl (fun m w => loseWord w m) (loseWord w (earlier.foldl (fun m w => loseWord w m) m)) := by
    rw [EraseTarget.cut, whole, List.foldl_append, List.foldl_cons]
  rw [left, foldl_apart (f := fun m w => loseWord w m) (part := epochWord) epochWord_loseWord_other away]
  exact epochWord_loseWord w _

/-- R13: a header whose first bytes read so is not intact. -/
theorem headerIntact_of_bytes {m : Mem} {t : TableName} {first : Byte} (h : first = 0xFF ∨ first = 0x00)
    (bytes : m.readBytes t.base t.headerLength = first :: List.replicate (t.headerLength - 1) 0xFF) :
    headerIntact m t = false := by
  cases t
  case irt =>
    rw [headerIntact, headerBytes, show m.readBytes TableName.irt.base 9 = _ from bytes]
    rcases h with rfl | rfl <;> decide +kernel
  case profile =>
    have eight : (headerBytes m .profile).take 8 = m.readBytes TableName.profile.base 8 := by
      simp [headerBytes, Mem.readBytes, ← List.map_take]
    rw [headerIntact, eight, show m.readBytes TableName.profile.base 8 = _ from bytes]
    rcases h with rfl | rfl <;> decide +kernel

/-- R13: a lost header is not intact. -/
theorem headerIntact_loseHeader (t : TableName) (m : Mem) : headerIntact (loseHeader t m) t = false := by
  unfold loseHeader
  split
  · refine headerIntact_of_bytes (.inl rfl) ((readBytes_eraseRange m _ _).trans ?_)
    cases t <;> rfl
  · simp_all

/-- R13: a torn header is not intact, and its block not wholly erased. -/
theorem tearHeader_torn {m : Mem} (canonical : m.wf = true) (t : TableName) :
    headerIntact (tearHeader t m) t = false ∧ (tearHeader t m).erasedRange t.base t.bytes = false := by
  unfold tearHeader
  split
  · have read (b : Nat) : (((m.eraseRange t.base t.headerLength).write t.base 0x00).read b)
        = if b = t.base then 0x00 else (m.eraseRange t.base t.headerLength).read b :=
      read_write (eraseRange_wf _ _ canonical) t.base b 0x00
    refine ⟨headerIntact_of_bytes (.inr rfl) ?_, Bool.eq_false_iff.2 fun erased => ?_⟩
    · have first (n : Nat) : ((m.eraseRange t.base t.headerLength).write t.base 0x00).readBytes t.base (n + 1)
          = 0x00 :: ((m.eraseRange t.base t.headerLength).write t.base 0x00).readBytes (t.base + 1) n := by
        simp only [Mem.readBytes, List.range_succ_eq_map, List.map_cons, List.map_map, Nat.add_zero]
        refine List.cons_eq_cons.2 ⟨(read t.base).trans (if_pos rfl), List.map_congr_left fun i _ => ?_⟩
        exact congrArg _ (Nat.add_right_comm t.base i 1)
      have behind : ((m.eraseRange t.base t.headerLength).write t.base 0x00).readBytes (t.base + 1)
          (t.headerLength - 1) = List.replicate (t.headerLength - 1) 0xFF := by
        refine readBytes_erased fun b low high => ?_
        rw [read, if_neg (by omega), read_eraseRange, if_pos (by omega)]
        rfl
      have length : t.headerLength = t.headerLength - 1 + 1 := by cases t <;> rfl
      rw [← behind, ← first, ← length]
    · have zero := (read t.base).symm.trans (read_of_erasedRange erased le_rfl (by cases t <;> decide))
      rw [if_pos rfl] at zero
      exact absurd zero (by decide)
  next kept =>
    obtain ⟨notIntact, notErased⟩ := not_or.1 kept
    exact ⟨Bool.eq_false_iff.2 notIntact, Bool.eq_false_iff.2 notErased⟩

/-! ### Record slots in an erase cut short -/

/-- R91, R93: what becomes of a record slot's bytes. -/
theorem slotBytes_keepFinished (before m : Mem) (loc : Loc) :
    slotBytes (keepFinished before loc m) loc =
      if recordValid (slotBytes m loc) ∧ markedState (slotBytes m loc) = .live ∧ slotBytes m loc ≠ slotBytes before loc
      then List.replicate 32 0xFF else slotBytes m loc := by
  unfold keepFinished
  dsimp only
  split
  · exact readBytes_eraseRange m _ 32
  · rfl

/-- The record slots of a block lie apart. -/
theorem slotBytes_keepFinished_other (before m : Mem) (b i j : Nat) (other : i ≠ j) :
    slotBytes (keepFinished before { block := b, slot := i } m) { block := b, slot := j }
      = slotBytes m { block := b, slot := j } := by
  refine readBytes_congr fun a low high => read_keepFinished_outside before m _ ?_
  simp only [Loc.addr, show Limits.recordBytes = 32 from rfl] at *
  omega

theorem slotBytes_cut (before m : Mem) (b : Nat) {i : Nat} (inside : i < 128) :
    slotBytes ((EraseTarget.journal b).cut before m) { block := b, slot := i } =
      if recordValid (slotBytes m { block := b, slot := i }) ∧ markedState (slotBytes m { block := b, slot := i }) = .live
        ∧ slotBytes m { block := b, slot := i } ≠ slotBytes before { block := b, slot := i }
      then List.replicate 32 0xFF else slotBytes m { block := b, slot := i } :=
  foldl_own (f := fun m i => keepFinished before { block := b, slot := i } m)
    (part := fun m i => slotBytes m { block := b, slot := i })
    (g := fun bytes => if recordValid bytes ∧ markedState bytes = .live
      ∧ bytes ≠ slotBytes before { block := b, slot := i } then List.replicate 32 0xFF else bytes)
    (fun m i j other => slotBytes_keepFinished_other before m b i j other)
    (fun m => slotBytes_keepFinished before m _) List.nodup_range (List.mem_range.2 inside) m

/-! ### Operations cut short -/

/-- What an erase cut short does beyond the erase stays in its block. -/
theorem read_eraseCut_outside (before m : Mem) (t : EraseTarget) {a : Nat}
    (outside : a < t.base ∨ t.base + t.bytes ≤ a) : (t.cut before m).read a = m.read a := by
  cases t with
  | journal b =>
    refine read_foldl (fun m i hi => read_keepFinished_outside before m _ ?_) m
    have slot : i < 128 := List.mem_range.1 hi
    have bytes : journalBlockBytes = 4096 := rfl
    simp only [EraseTarget.base, EraseTarget.bytes, Loc.addr, show Limits.recordBytes = 32 from rfl] at *
    omega
  | epoch =>
    refine read_foldl (fun m w hw => read_loseWord_outside m w ?_) m
    have word : w < 64 := List.mem_range.1 hw
    simp only [EraseTarget.base, EraseTarget.bytes, epochWordAddr, show epochBytes = 256 from rfl] at *
    omega
  | table t =>
    refine read_loseHeader_outside m t ?_
    have fits : t.headerLength ≤ t.bytes := by cases t <;> decide
    simp only [EraseTarget.base, EraseTarget.bytes] at outside
    omega

/-- R116: what an operation writes lies in its target. -/
theorem extent_in_target {op : StoreOp} (there : op.targetExists = true) :
    (extent op).1 = (target op).1 ∧ (extent op).2 ≤ (target op).2 := by
  cases op with
  | recordProgram loc bytes =>
    simp only [StoreOp.targetExists, Bool.and_eq_true, decide_eq_true_eq] at there
    exact ⟨rfl, there.2⟩
  | mark r => exact ⟨rfl, le_rfl⟩
  | epochProgram w epoch => exact ⟨rfl, le_rfl⟩
  | pageProgram r =>
    simp only [StoreOp.targetExists, Bool.and_eq_true, decide_eq_true_eq] at there
    exact ⟨rfl, there.1⟩
  | blockErase r => exact ⟨rfl, le_rfl⟩

/-- R13, R124: an operation that a reset cuts short changes nothing outside its target. -/
theorem read_cut_outside {m : Mem} (canonical : m.wf = true) {op : StoreOp} (there : op.targetExists = true)
    (e : ArrayEnd) {a : Nat} (outside : a < (target op).1 ∨ (target op).1 + (target op).2 ≤ a) :
    (op.cut m e).read a = m.read a := by
  obtain ⟨base, length⟩ := extent_in_target there
  have applied : (op.apply m e).1.read a = m.read a := read_apply_outside canonical op e (by omega)
  cases op with
  | recordProgram loc bytes => exact applied
  | mark r => exact applied
  | epochProgram w epoch => exact (read_loseWord_outside _ w outside).trans applied
  | pageProgram r =>
    simp only [StoreOp.cut]
    split
    next first =>
      refine (read_tearHeader_outside (apply_wf _ e canonical) r.table ?_).trans applied
      have fits : r.table.headerLength ≤ 256 := by cases r.table <;> decide
      simp only [target, first, Nat.zero_mul, Nat.add_zero, show pageBytes = 256 from rfl] at outside
      omega
    next => exact applied
  | blockErase r => exact (read_eraseCut_outside m _ r.target outside).trans applied

/-- Settles O53. -/
theorem arrayChangesOnlyAtItsTargets : Obligations.ArrayChangesOnlyAtItsTargets := by
  unfold Obligations.ArrayChangesOnlyAtItsTargets
  refine ⟨fun m op e canonical => ⟨fun a outside => read_apply_outside canonical op e outside, fun matched => ?_⟩,
    fun m a i bytes asked e canonical at' => ?_, fun m op e canonical there => ?_,
    fun c s t runs other => Invariants.exec_array runs other⟩
  · refine ⟨?_, ?_, ?_, ?_, ?_⟩
    · rintro loc bytes rfl
      exact readBytes_program canonical matched
    · rintro r rfl
      have left := readBytes_program canonical matched
      exact (List.cons_eq_cons.1 left).1
    · rintro w k rfl
      have left := readBytes_program canonical matched
      rwa [show (encodeEpochWord k).length = 4 by simp [encodeEpochWord]] at left
    · rintro r rfl
      exact readBytes_program canonical matched
    · rintro r rfl a low high
      exact read_erase matched low high
  · have left := read_program (a := a) canonical e at'
    refine ⟨fun right => left.trans (if_pos right), fun notRight notErased => ?_⟩
    simp only [left]
    exact landByte_moves _ notRight notErased
  · refine ⟨fun a outside => read_cut_outside canonical there e outside, ?_, ?_, ?_, ?_, ?_, ?_, ?_⟩
    · rintro loc bytes rfl
      rfl
    · rintro r rfl
      rfl
    · rintro w k rfl
      exact epochWord_loseWord w _
    · rintro r rfl first
      have cut : (StoreOp.pageProgram r).cut m e = tearHeader r.table ((StoreOp.pageProgram r).apply m e).1 :=
        if_pos first
      rw [cut]
      exact tearHeader_torn (apply_wf _ e canonical) r.table
    · rintro r t rfl table
      have cut : (StoreOp.blockErase r).cut m e = r.target.cut m ((StoreOp.blockErase r).apply m e).1 := rfl
      rw [cut, table]
      exact headerIntact_loseHeader t _
    · rintro r b i rfl journal inside
      have cut : (StoreOp.blockErase r).cut m e = r.target.cut m ((StoreOp.blockErase r).apply m e).1 := rfl
      rw [cut, journal]
      exact slotBytes_cut m _ b inside
    · rintro r w rfl epoch inside
      have cut : (StoreOp.blockErase r).cut m e = r.target.cut m ((StoreOp.blockErase r).apply m e).1 := rfl
      rw [cut, epoch]
      exact epochWord_cut inside

end Sys2Proof.Proofs.Targets
end

