-- ==== Sys2Proof/Proofs/Scan.lean ====
section
/-! PROOFS. The journal as the start-up scan reads and arranges it (R92, R93): what each record slot of the scanned
journal is, and where its blocks stand. -/

namespace Sys2Proof.Proofs.Scan

open Sys2Proof.Machine Sys2Proof.Safety Sys2Proof.Laws Sys2Proof.Proofs.Ends Sys2Proof.Proofs.Targets

/-! ### Erased ranges -/

/-- A range reads erased when no entry in it is written. -/
theorem erasedRange_iff (m : Mem) (a n : Nat) :
    m.erasedRange a n = true ↔ ∀ c ∈ m, a ≤ c.1 → c.1 < a + n → c.2 = erasedByte := by
  simp only [Mem.erasedRange, List.all_eq_true, Bool.or_eq_true, decide_eq_true_eq, beq_iff_eq]
  refine forall₂_congr fun c _ => ⟨fun h low high => ?_, fun h => ?_⟩
  · rcases h with (below | above) | erased
    · omega
    · omega
    · exact erased
  · by_cases inside : a ≤ c.1 ∧ c.1 < a + n
    · exact .inr (h inside.1 inside.2)
    · exact .inl (by omega)

/-- A part of an erased range is erased. -/
theorem erasedRange_part {m : Mem} {a n b k : Nat} (h : m.erasedRange a n = true) (low : a ≤ b) (high : b + k ≤ a + n) :
    m.erasedRange b k = true :=
  (erasedRange_iff m b k).2 fun c hc l u => (erasedRange_iff m a n).1 h c hc (by omega) (by omega)

/-- Record slots one behind the other are erased together when each is. -/
theorem erasedRange_slots {m : Mem} {a n : Nat} (h : ∀ i < n, m.erasedRange (a + i * 32) 32 = true) :
    m.erasedRange a (n * 32) = true := by
  refine (erasedRange_iff m a (n * 32)).2 fun c hc low high => ?_
  have here := h ((c.1 - a) / 32) (by omega)
  exact (erasedRange_iff m _ 32).1 here c hc (by omega) (by omega)

/-- R92: a slot that reads erased holds no valid record. -/
theorem not_valid_of_erased {m : Mem} {loc : Loc} (erased : slotErased m loc = true) :
    recordValid (slotBytes m loc) = false := by
  have bytes : slotBytes m loc = List.replicate 32 0xFF :=
    readBytes_erased fun b low high => read_of_erasedRange erased low high
  rw [bytes]
  decide +kernel

/-! ### A block as read (R92) -/

theorem writtenPart_le (m : Mem) (b n : Nat) : writtenPart m b n ≤ n := by
  induction n with
  | zero => exact le_rfl
  | succ n ih =>
    unfold writtenPart
    split
    · exact Nat.le_succ_of_le ih
    · exact le_rfl

/-- Behind the written part every slot reads erased. -/
theorem slotErased_behind {m : Mem} {b n i : Nat} (behind : writtenPart m b n ≤ i) (inside : i < n) :
    slotErased m { block := b, slot := i } = true := by
  induction n with
  | zero => exact absurd inside (Nat.not_lt_zero i)
  | succ n ih =>
    unfold writtenPart at behind
    split at behind
    next erased =>
      rcases Nat.lt_succ_iff_lt_or_eq.1 inside with lower | rfl
      · exact ih behind lower
      · exact erased
    next => omega

/-- The last slot of the written part does not read erased. -/
theorem slotErased_last {m : Mem} {b n : Nat} (some' : 0 < writtenPart m b n) :
    slotErased m { block := b, slot := writtenPart m b n - 1 } = false := by
  induction n with
  | zero => cases some'
  | succ n ih =>
    unfold writtenPart at some' ⊢
    split
    next erased =>
      rw [if_pos erased] at some'
      exact ih some'
    next written => exact Bool.eq_false_iff.2 written

/-- R92: the written part ends behind the last slot that does not read erased. -/
theorem writtenPart_eq {m : Mem} {b n k : Nat} (inside : k ≤ n) (last : 0 < k → slotErased m { block := b, slot := k - 1 } = false)
    (behind : ∀ i, k ≤ i → i < n → slotErased m { block := b, slot := i } = true) : writtenPart m b n = k := by
  rcases Nat.lt_trichotomy (writtenPart m b n) k with less | same | more
  · have erased := slotErased_behind (m := m) (b := b) (n := n) (i := k - 1) (by omega) (by omega)
    exact absurd erased (by simp [last (by omega)])
  · exact same
  · have written := slotErased_last (m := m) (b := b) (n := n) (by omega)
    have bound := writtenPart_le m b n
    exact absurd (behind (writtenPart m b n - 1) (by omega) (by omega)) (by simp [written])

theorem length_scanBlock (m : Mem) (b : Nat) : (scanBlock m b).length = writtenPart m b 128 := by
  simp [scanBlock, show Limits.blockSlots = 128 from rfl]

theorem getElem?_scanBlock (m : Mem) (b i : Nat) :
    (scanBlock m b)[i]? = if i < writtenPart m b 128 then some (scanSlot m { block := b, slot := i }) else none := by
  rw [scanBlock, List.getElem?_map, show Limits.blockSlots = 128 from rfl]
  split
  next inside => rw [List.getElem?_range inside]; rfl
  next beyond => rw [List.getElem?_eq_none (by simpa using beyond)]; rfl

/-- R92: what a slot of the written part reads. -/
theorem scanSlot_erased {m : Mem} {loc : Loc} (erased : slotErased m loc = true) :
    scanSlot m loc = { state := .unused, txn := none } := if_pos erased

theorem scanSlot_valid {m : Mem} {loc : Loc} (valid : recordValid (slotBytes m loc) = true) :
    scanSlot m loc = { state := markedState (slotBytes m loc), txn := some (field (slotBytes m loc) 0 4) } := by
  have written : slotErased m loc ≠ true := fun erased => by simp [not_valid_of_erased erased] at valid
  rw [scanSlot, if_neg written]
  exact if_pos valid

theorem scanSlot_torn {m : Mem} {loc : Loc} (written : slotErased m loc = false)
    (notValid : recordValid (slotBytes m loc) = false) : scanSlot m loc = { state := .torn, txn := none } := by
  rw [scanSlot, if_neg (by simp [written])]
  exact if_neg (by simp [notValid])

/-- R92: a slot with a number holds a valid record of that number. -/
theorem valid_of_txn {m : Mem} {loc : Loc} {t : Nat} (number : (scanSlot m loc).txn = some t) :
    recordValid (slotBytes m loc) = true ∧ field (slotBytes m loc) 0 4 = t := by
  cases valid : recordValid (slotBytes m loc)
  · cases written : slotErased m loc
    · rw [scanSlot_torn written valid] at number
      cases number
    · rw [scanSlot_erased written] at number
      cases number
  · rw [scanSlot_valid valid] at number
    exact ⟨rfl, Option.some.inj number⟩

/-- R92: the four blocks as read. -/
theorem scanBlocks_eq (m : Mem) : scanBlocks m = [scanBlock m 0, scanBlock m 1, scanBlock m 2, scanBlock m 3] := rfl

theorem getD_scanBlocks (m : Mem) (b : Nat) : (scanBlocks m).getD b [] = if b < 4 then scanBlock m b else [] := by
  rw [scanBlocks_eq]
  match b with
  | 0 | 1 | 2 | 3 => rfl
  | b + 4 => rfl

/-- A block is written when it does not wholly read erased. -/
theorem isWritten_iff (m : Mem) {b : Nat} (h : b < 4) :
    isWritten (scanBlocks m) b = !m.erasedRange (b * 4096) 4096 := by
  have empty : (scanBlock m b).isEmpty = m.erasedRange (b * 4096) 4096 := by
    rw [Bool.eq_iff_iff, List.isEmpty_iff, ← List.length_eq_zero_iff, length_scanBlock]
    refine ⟨fun none' => ?_, fun erased => ?_⟩
    · refine erasedRange_slots (n := 128) fun i inside => ?_
      exact slotErased_behind (m := m) (b := b) (by omega) inside
    · exact writtenPart_eq (Nat.zero_le 128) (fun h => absurd h (Nat.lt_irrefl 0)) fun i _ inside =>
        erasedRange_part erased (by simp only [Loc.addr, journalBlockBytes, pageBytes, Limits.recordBytes]; omega)
          (by simp only [Loc.addr, journalBlockBytes, pageBytes, Limits.recordBytes]; omega)
  rw [isWritten, getD_scanBlocks, if_pos h, empty]

/-! ### The blocks as arranged (R93) -/

theorem arranged_blocks (m : Mem) :
    (arranged (scanBlocks m)).blocks = (List.range 4).map (fun b => arrangeBlock (newestBlock (scanBlocks m)) b (scanBlock m b)) :=
  rfl

theorem getD_arranged (m : Mem) {b : Nat} (h : b < 4) :
    (arranged (scanBlocks m)).blocks.getD b .erased = arrangeBlock (newestBlock (scanBlocks m)) b (scanBlock m b) := by
  rw [arranged_blocks, List.getD_eq_getElem?_getD, List.getElem?_map, List.getElem?_range h]
  rfl

/-- R93: an arranged block is ERASED when nothing of it is written. -/
theorem arrangeBlock_erased (newest : Option Nat) (b : Nat) (slots : List ScannedSlot) :
    ((arrangeBlock newest b slots).state == .erased) = slots.isEmpty := by
  unfold arrangeBlock
  split
  next none' => subst none'; rfl
  next some' =>
    have notEmpty : slots.isEmpty = false := by simpa using some'
    rw [notEmpty]
    split
    · rfl
    · split
      · rfl
      · rfl

/-- R93: an arranged block has the slots read, and behind them free or unused ones. -/
theorem arrangeBlock_slot (newest : Option Nat) (b i : Nat) (slots : List ScannedSlot) :
    (∀ x, slots[i]? = some x → (arrangeBlock newest b slots).slots.getD i .fresh = foundSlot x)
      ∧ (slots[i]? = none → ((arrangeBlock newest b slots).slots.getD i .fresh).state = .unused
          ∨ ((arrangeBlock newest b slots).slots.getD i .fresh).state = .free) := by
  have found (rest : List RecordSlot) (x : ScannedSlot) (h : slots[i]? = some x) :
      (slots.map foundSlot ++ rest).getD i .fresh = foundSlot x := by
    have inside : i < (slots.map foundSlot).length := by
      simpa using (List.getElem?_eq_some_iff.1 h).1
    rw [List.getD_eq_getElem?_getD, List.getElem?_append_left inside, List.getElem?_map, h]
    rfl
  have rest (st : RecordSlot) (n : Nat) (h : slots[i]? = none) :
      (slots.map foundSlot ++ List.replicate n st).getD i .fresh = st
        ∨ (slots.map foundSlot ++ List.replicate n st).getD i .fresh = .fresh := by
    have beyond : (slots.map foundSlot).length ≤ i := by simpa using List.getElem?_eq_none_iff.1 h
    rw [List.getD_eq_getElem?_getD, List.getElem?_append_right beyond, List.getElem?_replicate]
    split
    · exact .inl rfl
    · exact .inr rfl
  unfold arrangeBlock
  split
  next none' =>
    subst none'
    refine ⟨fun x h => by simp at h, fun _ => .inr ?_⟩
    rw [JBlock.erased, List.getD_eq_getElem?_getD, List.getElem?_replicate]
    split <;> rfl
  split
  · refine ⟨fun x h => ?_, fun h => ?_⟩
    · simpa using found [] x h
    · refine .inr ?_
      rw [List.getD_eq_getElem?_getD, List.getElem?_map, h]
      rfl
  split
  · refine ⟨found _, fun h => .inr ?_⟩
    rcases rest .fresh _ h with h | h <;> rw [h] <;> rfl
  · refine ⟨found _, fun h => ?_⟩
    rcases rest { state := .unused, markPending := false } _ h with h | h
    · exact .inl (congrArg RecordSlot.state h)
    · exact .inr (congrArg RecordSlot.state h)

/-- R93 step 4: what is done with a block FILLING, without one and with a block ERASED, and without either. -/
theorem fillFirst_filling {newest : Option Nat} {j : Journal} {loc : Loc} (filling : j.writeAt = some loc) :
    fillFirst newest j = j := by
  rw [fillFirst, filling]

theorem fillFirst_opens {newest : Option Nat} {j : Journal} {b : Nat} (noneFilling : j.writeAt = none)
    (found : (cyclicFrom newest).find? (fun k => (j.blocks.getD k .erased).state == .erased) = some b) :
    fillFirst newest j = j.openBlock b := by
  rw [fillFirst, noneFilling, found]

theorem fillFirst_full {newest : Option Nat} {j : Journal} (noneFilling : j.writeAt = none)
    (found : (cyclicFrom newest).find? (fun k => (j.blocks.getD k .erased).state == .erased) = none) :
    fillFirst newest j = j := by
  rw [fillFirst, noneFilling, found]

/-- R93 step 4: the block opened keeps the slots. -/
theorem slotOf_fillFirst (newest : Option Nat) (j : Journal) (loc : Loc) : slotOf (fillFirst newest j) loc = slotOf j loc := by
  cases at' : j.writeAt with
  | some w => rw [fillFirst_filling at']
  | none =>
    cases found : (cyclicFrom newest).find? (fun k => (j.blocks.getD k .erased).state == .erased) with
    | some b => rw [fillFirst_opens at' found, slotOf_openBlock]
    | none => rw [fillFirst_full at' found]

/-! ### Twins (R92) -/

/-- The slots made TORN keep the blocks' order and the write position. -/
theorem foldl_torn_order (locs : List Loc) (j : Journal) :
    (locs.foldl (fun j loc => j.onSlot loc (fun r => { r with state := .torn })) j).order = j.order
      ∧ (locs.foldl (fun j loc => j.onSlot loc (fun r => { r with state := .torn })) j).writeAt = j.writeAt := by
  induction locs generalizing j with
  | nil => exact ⟨rfl, rfl⟩
  | cons loc rest ih => exact ih _

/-- A slot is as it was, or it is one of those made TORN. -/
theorem foldl_torn_slot (locs : List Loc) (j : Journal) (x : Loc) :
    slotOf (locs.foldl (fun j loc => j.onSlot loc (fun r => { r with state := .torn })) j) x = slotOf j x
      ∨ x ∈ locs
        ∧ (slotOf (locs.foldl (fun j loc => j.onSlot loc (fun r => { r with state := .torn })) j) x).state = .torn := by
  induction locs generalizing j with
  | nil => exact .inl rfl
  | cons loc rest ih =>
    rw [List.foldl_cons]
    rcases ih (j.onSlot loc (fun r => { r with state := .torn })) with same | ⟨later, torn⟩
    · rw [same, slotOf_onSlot]
      split
      next here =>
        obtain ⟨rfl, -, -⟩ := here
        exact .inr ⟨List.mem_cons_self, rfl⟩
      next => exact .inl rfl
    · exact .inr ⟨List.mem_cons_of_mem loc later, torn⟩

/-- R92: an earlier twin has a later slot of its number. -/
theorem twin_of_earlier {l : List (Loc × Nat)} (apart : l.Pairwise (fun p q => p.1 ≠ q.1)) {loc : Loc}
    (twin : loc ∈ earlierTwins l) : ∃ t other, (loc, t) ∈ l ∧ (other, t) ∈ l ∧ other ≠ loc := by
  induction l with
  | nil => cases twin
  | cons p rest ih =>
    obtain ⟨first, apart'⟩ := List.pairwise_cons.1 apart
    have later (h : loc ∈ earlierTwins rest) : ∃ t other, (loc, t) ∈ p :: rest ∧ (other, t) ∈ p :: rest ∧ other ≠ loc := by
      obtain ⟨t, other, here, there, different⟩ := ih apart' h
      exact ⟨t, other, List.mem_cons_of_mem p here, List.mem_cons_of_mem p there, different⟩
    unfold earlierTwins at twin
    split at twin
    next same =>
      rcases List.mem_cons.1 twin with rfl | h
      · obtain ⟨q, hq, number⟩ := List.any_eq_true.1 same
        obtain ⟨other, t⟩ := q
        have number' : t = p.2 := beq_iff_eq.1 number
        subst number'
        exact ⟨p.2, other, List.mem_cons_self, List.mem_cons_of_mem p hq, (first _ hq).symm⟩
      · exact later h
    next => exact later twin

/-- R92: the valid records of a block, with their numbers. -/
def blockNumbers (m : Mem) (b : Nat) : List (Loc × Nat) :=
  ((List.range (scanBlock m b).length).zip (scanBlock m b)).filterMap (fun p =>
    p.2.txn.map (fun t => ({ block := b, slot := p.1 }, t)))

/-- A number of a block is that of a valid record in it. -/
theorem mem_blockNumbers {m : Mem} {b : Nat} {p : Loc × Nat} (h : p ∈ blockNumbers m b) :
    p.1.block = b ∧ p.1.slot < 128 ∧ recordValid (slotBytes m p.1) = true ∧ field (slotBytes m p.1) 0 4 = p.2 := by
  obtain ⟨⟨i, x⟩, hx, number⟩ := List.mem_filterMap.1 h
  obtain ⟨t, txn, rfl⟩ := Option.map_eq_some_iff.1 number
  obtain ⟨n, at'⟩ := List.mem_iff_getElem?.1 hx
  obtain ⟨index, slot⟩ := List.getElem?_zip_eq_some.1 at'
  obtain ⟨inside, rfl⟩ := List.getElem?_eq_some_iff.1 index
  rw [List.length_range, length_scanBlock] at inside
  rw [getElem?_scanBlock, if_pos inside] at slot
  cases slot
  have bound := writtenPart_le m b 128
  obtain ⟨valid, value⟩ := valid_of_txn txn
  rw [List.getElem_range] at *
  exact ⟨rfl, lt_of_lt_of_le inside bound, valid, value⟩

/-- The numbers of a block are of slots apart. -/
theorem blockNumbers_apart (m : Mem) (b : Nat) : (blockNumbers m b).Pairwise (fun p q => p.1 ≠ q.1) := by
  have indices : (((List.range (scanBlock m b).length).zip (scanBlock m b)).map Prod.fst).Nodup := by
    rw [List.map_fst_zip (by simp)]
    exact List.nodup_range
  refine List.pairwise_filterMap.2 ((List.pairwise_map.1 indices).imp fun {x y} different p hp q hq same => different ?_)
  obtain ⟨t, -, rfl⟩ := Option.map_eq_some_iff.1 hp
  obtain ⟨u, -, rfl⟩ := Option.map_eq_some_iff.1 hq
  exact congrArg Loc.slot same

/-! ### The newest block (R93) -/

/-- A list run through for the best of its elements: a step never loses value, takes what its element gives, and is
worth at least what its element is. -/
theorem foldl_best {α β : Type} {g : Option β → α → Option β} {value : β → Nat} {From : α → β → Prop}
    {Worth : α → Nat → Prop}
    (grows : ∀ best p b, best = some b → ∃ r, g best p = some r ∧ value b ≤ value r)
    (takes : ∀ best p, g best p = best ∨ ∃ r, g best p = some r ∧ From p r)
    (worth : ∀ best p t, Worth p t → ∃ r, g best p = some r ∧ t ≤ value r) (l : List α) (best : Option β) :
    (∀ b, best = some b → ∃ r, l.foldl g best = some r ∧ value b ≤ value r)
      ∧ (∀ r, l.foldl g best = some r → best = some r ∨ ∃ p ∈ l, From p r)
      ∧ (∀ p ∈ l, ∀ t, Worth p t → ∃ r, l.foldl g best = some r ∧ t ≤ value r) := by
  induction l generalizing best with
  | nil => exact ⟨fun b h => ⟨b, h, le_rfl⟩, fun r h => .inl h, nofun⟩
  | cons p rest ih =>
    obtain ⟨growth, source, worth'⟩ := ih (g best p)
    refine ⟨fun b h => ?_, fun r h => ?_, fun q hq t hw => ?_⟩
    · obtain ⟨r, first, more⟩ := grows best p b h
      obtain ⟨r', last, more'⟩ := growth r first
      exact ⟨r', last, more.trans more'⟩
    · rcases source r h with first | ⟨q, hq, from'⟩
      · rcases takes best p with kept | ⟨r', taken, from'⟩
        · exact .inl (kept ▸ first)
        · rw [taken] at first
          cases first
          exact .inr ⟨p, List.mem_cons_self, from'⟩
      · exact .inr ⟨q, List.mem_cons_of_mem p hq, from'⟩
    · rcases List.mem_cons.1 hq with rfl | later
      · obtain ⟨r, first, more⟩ := worth best q t hw
        obtain ⟨r', last, more'⟩ := growth r first
        exact ⟨r', last, more.trans more'⟩
      · exact worth' q later t hw

/-- The highest number of a block is one of its own, and no number of it is above it. -/
theorem highest_spec (slots : List ScannedSlot) :
    (∀ r, highest slots = some r → ∃ x, slots[r.2]? = some x ∧ x.txn = some r.1)
      ∧ (∀ x ∈ slots, ∀ t, x.txn = some t → ∃ r, highest slots = some r ∧ t ≤ r.1) := by
  obtain ⟨-, source, worth⟩ := foldl_best (α := Nat × ScannedSlot) (β := Nat × Nat)
    (g := fun best p => match p.2.txn, best with
      | none, b => b
      | some t, none => some (t, p.1)
      | some t, some b => if b.1 < t then some (t, p.1) else some b)
    (value := Prod.fst) (From := fun p r => p.2.txn = some r.1 ∧ p.1 = r.2) (Worth := fun p t => p.2.txn = some t)
    (fun best p b h => by
      subst h
      cases p.2.txn with
      | none => exact ⟨b, rfl, le_rfl⟩
      | some t =>
        by_cases less : b.1 < t
        · exact ⟨(t, p.1), if_pos less, less.le⟩
        · exact ⟨b, if_neg less, le_rfl⟩)
    (fun best p => by
      cases h : p.2.txn with
      | none => exact .inl rfl
      | some t =>
        cases best with
        | none => exact .inr ⟨(t, p.1), rfl, rfl, rfl⟩
        | some b =>
          by_cases less : b.1 < t
          · exact .inr ⟨(t, p.1), if_pos less, rfl, rfl⟩
          · exact .inl (if_neg less))
    (fun best p t h => by
      rw [h]
      cases best with
      | none => exact ⟨(t, p.1), rfl, le_rfl⟩
      | some b =>
        by_cases less : b.1 < t
        · exact ⟨(t, p.1), if_pos less, le_rfl⟩
        · exact ⟨b, if_neg less, Nat.not_lt.1 less⟩)
    ((List.range slots.length).zip slots) none
  refine ⟨fun r h => ?_, fun x hx t number => ?_⟩
  · obtain ⟨⟨i, x⟩, hp, txn, index⟩ := (source r h).resolve_left nofun
    obtain ⟨n, at'⟩ := List.mem_iff_getElem?.1 hp
    obtain ⟨first, second⟩ := List.getElem?_zip_eq_some.1 at'
    obtain ⟨inside, rfl⟩ := List.getElem?_eq_some_iff.1 first
    rw [List.getElem_range] at index
    exact ⟨x, index ▸ second, txn⟩
  · obtain ⟨n, at'⟩ := List.mem_iff_getElem?.1 hx
    have inside := (List.getElem?_eq_some_iff.1 at').1
    refine worth (n, x) (List.mem_iff_getElem?.2 ⟨n, List.getElem?_zip_eq_some.2 ⟨?_, at'⟩⟩) t number
    rw [List.getElem?_range inside]

/-- The newest block is one whose highest number no block's is above. -/
theorem newestBlock_spec (m : Mem) :
    (∀ n, newestBlock (scanBlocks m) = some n → n < 4)
      ∧ ∀ b < 4, ∀ r, highest (scanBlock m b) = some r →
        ∃ n r', newestBlock (scanBlocks m) = some n ∧ n < 4 ∧ highest (scanBlock m n) = some r' ∧ r.1 ≤ r'.1 := by
  obtain ⟨-, source, worth⟩ := foldl_best (α := Nat × List ScannedSlot) (β := Nat × Nat × Nat)
    (g := fun best p => match highest p.2 with
      | none => best
      | some x => if newerThan x best then some (p.1, x.1, x.2) else best)
    (value := fun r => r.2.1) (From := fun p r => p.1 = r.1 ∧ highest p.2 = some r.2)
    (Worth := fun p t => ∃ i, highest p.2 = some (t, i))
    (fun best p b h => by
      subst h
      cases highest p.2 with
      | none => exact ⟨b, rfl, le_rfl⟩
      | some x =>
        by_cases newer : newerThan x (some b) = true
        · refine ⟨(p.1, x.1, x.2), if_pos newer, ?_⟩
          obtain ⟨c, u, j⟩ := b
          simp only [newerThan, Bool.or_eq_true, Bool.and_eq_true, decide_eq_true_eq, beq_iff_eq] at newer
          show u ≤ x.1
          omega
        · exact ⟨b, if_neg newer, le_rfl⟩)
    (fun best p => by
      cases h : highest p.2 with
      | none => exact .inl rfl
      | some x =>
        by_cases newer : newerThan x best = true
        · exact .inr ⟨(p.1, x.1, x.2), if_pos newer, rfl, rfl⟩
        · exact .inl (if_neg newer))
    (fun best p t h => by
      obtain ⟨i, h⟩ := h
      rw [h]
      by_cases newer : newerThan (t, i) best = true
      · exact ⟨(p.1, t, i), if_pos newer, le_rfl⟩
      · cases best with
        | none => exact absurd rfl newer
        | some b =>
          refine ⟨b, if_neg newer, ?_⟩
          obtain ⟨c, u, j⟩ := b
          simp only [newerThan, Bool.or_eq_true, Bool.and_eq_true, decide_eq_true_eq, beq_iff_eq] at newer
          show t ≤ u
          omega)
    ((List.range (scanBlocks m).length).zip (scanBlocks m)) none
  have members : (List.range (scanBlocks m).length).zip (scanBlocks m)
      = (List.range 4).map (fun b => (b, scanBlock m b)) := rfl
  rw [members] at source worth
  have found (r : Nat × Nat × Nat)
      (h : ((List.range 4).map (fun b => (b, scanBlock m b))).foldl (fun best p => match highest p.2 with
        | none => best
        | some x => if newerThan x best then some (p.1, x.1, x.2) else best) none = some r) :
      r.1 < 4 ∧ highest (scanBlock m r.1) = some r.2 := by
    obtain ⟨p, hp, index, high⟩ := (source r h).resolve_left nofun
    obtain ⟨b, hb, rfl⟩ := List.mem_map.1 hp
    dsimp only at index high
    subst index
    exact ⟨List.mem_range.1 hb, high⟩
  have newest : newestBlock (scanBlocks m)
      = (((List.range 4).map (fun b => (b, scanBlock m b))).foldl (fun best p => match highest p.2 with
        | none => best
        | some x => if newerThan x best then some (p.1, x.1, x.2) else best) none).map Prod.fst := rfl
  refine ⟨fun n h => ?_, fun b hb r high => ?_⟩
  · rw [newest] at h
    obtain ⟨r, chosen, rfl⟩ := Option.map_eq_some_iff.1 h
    exact (found r chosen).1
  · obtain ⟨r', chosen, more⟩ := worth (b, scanBlock m b) (List.mem_map_of_mem (List.mem_range.2 hb)) r.1 ⟨r.2, high⟩
    obtain ⟨inside, high'⟩ := found r' chosen
    exact ⟨r'.1, r'.2, by rw [newest, chosen]; rfl, inside, high', more⟩

/-- A valid record's slot is one of those read. -/
theorem mem_scanBlock_of_valid {m : Mem} {b i : Nat} (inside : i < 128)
    (valid : recordValid (slotBytes m { block := b, slot := i }) = true) :
    ∃ x ∈ scanBlock m b, x.txn = some (field (slotBytes m { block := b, slot := i }) 0 4) := by
  have written : i < writtenPart m b 128 := Nat.not_le.1 fun behind => by
    simp [not_valid_of_erased (slotErased_behind behind inside)] at valid
  have at' := getElem?_scanBlock m b i
  rw [if_pos written, scanSlot_valid valid] at at'
  exact ⟨_, List.mem_iff_getElem?.2 ⟨i, at'⟩, rfl⟩

/-- R93: the block that holds the highest number alone is the newest. -/
theorem newestBlock_of_highest {m : Mem} {n i : Nat} (hn : n < 4) (hi : i < 128)
    (valid : recordValid (slotBytes m { block := n, slot := i }) = true)
    (highest' : ∀ b j, b < 4 → j < 128 → recordValid (slotBytes m { block := b, slot := j }) = true →
      field (slotBytes m { block := b, slot := j }) 0 4 ≤ field (slotBytes m { block := n, slot := i }) 0 4
        ∧ (field (slotBytes m { block := b, slot := j }) 0 4 = field (slotBytes m { block := n, slot := i }) 0 4 → b = n)) :
    newestBlock (scanBlocks m) = some n := by
  obtain ⟨x, hx, number⟩ := mem_scanBlock_of_valid hi valid
  obtain ⟨r, high, more⟩ := (highest_spec (scanBlock m n)).2 x hx _ number
  obtain ⟨b, r', newest, hb, high', more'⟩ := (newestBlock_spec m).2 n hn r high
  obtain ⟨y, at', number'⟩ := (highest_spec (scanBlock m b)).1 r' high'
  rw [getElem?_scanBlock] at at'
  split at at'
  next inside =>
    cases at'
    obtain ⟨valid', value⟩ := valid_of_txn number'
    have bound := writtenPart_le m b 128
    obtain ⟨below, alone⟩ := highest' b r'.2 hb (by omega) valid'
    rw [newest, alone (by omega)]
  next => cases at'

/-! ### The order of the blocks (R93) -/

/-- R93 step 4: the block that is opened when none is FILLING. -/
def openedNext (m : Mem) : List Nat :=
  match newestWrite (scanBlocks m) (newestBlock (scanBlocks m)) with
  | some _ => []
  | none =>
    match (cyclicFrom (newestBlock (scanBlocks m))).find? (fun k => m.erasedRange (k * 4096) 4096) with
    | some b => [b]
    | none => []

theorem cyclicFrom_below (newest : Option Nat) (h : ∀ n, newest = some n → n < 4) : ∀ b ∈ cyclicFrom newest, b < 4 := by
  cases newest with
  | none => decide
  | some n =>
    intro b hb
    simp only [cyclicFrom, List.mem_cons, List.not_mem_nil, or_false] at hb
    omega

theorem cyclicFrom_nodup (newest : Option Nat) : (cyclicFrom newest).Nodup := by
  cases newest with
  | none => decide
  | some n =>
    simp only [cyclicFrom, List.nodup_cons, List.mem_cons, List.not_mem_nil, or_false, not_false_eq_true,
      List.nodup_nil, and_true]
    omega

/-- R93: the order of the blocks and the write position as the scan leaves them. -/
theorem scannedJournal_order (m : Mem) :
    (scannedJournal m).order = (cyclicFrom (newestBlock (scanBlocks m))).filter (fun b => !m.erasedRange (b * 4096) 4096)
        ++ openedNext m
      ∧ (scannedJournal m).writeAt = match newestWrite (scanBlocks m) (newestBlock (scanBlocks m)) with
        | some loc => some loc
        | none => (openedNext m).head?.map (fun b => { block := b, slot := 0 }) := by
  have below := cyclicFrom_below _ (newestBlock_spec m).1
  have written : (arranged (scanBlocks m)).order
      = (cyclicFrom (newestBlock (scanBlocks m))).filter (fun b => !m.erasedRange (b * 4096) 4096) :=
    List.filter_congr fun b hb => isWritten_iff m (below b hb)
  have position : (arranged (scanBlocks m)).writeAt = newestWrite (scanBlocks m) (newestBlock (scanBlocks m)) := rfl
  have erased : ∀ b ∈ cyclicFrom (newestBlock (scanBlocks m)),
      (((arranged (scanBlocks m)).blocks.getD b .erased).state == .erased) = m.erasedRange (b * 4096) 4096 := by
    intro b hb
    have same := isWritten_iff m (below b hb)
    rw [isWritten, getD_scanBlocks, if_pos (below b hb), Bool.not_inj_iff] at same
    rw [getD_arranged m (below b hb), arrangeBlock_erased, same]
  obtain ⟨order, writeAt⟩ := foldl_torn_order
    (earlierTwins (numberedSlots (fillFirst (newestBlock (scanBlocks m)) (arranged (scanBlocks m))) (scanBlocks m)))
    (fillFirst (newestBlock (scanBlocks m)) (arranged (scanBlocks m)))
  rw [scannedJournal, order, writeAt, ← written]
  cases at' : newestWrite (scanBlocks m) (newestBlock (scanBlocks m)) with
  | some loc =>
    have noneOpened : openedNext m = [] := by rw [openedNext, at']
    rw [fillFirst_filling (position.trans at'), noneOpened, List.append_nil]
    exact ⟨rfl, position.trans at'⟩
  | none =>
    cases found : (cyclicFrom (newestBlock (scanBlocks m))).find? (fun k => m.erasedRange (k * 4096) 4096) with
    | some b =>
      have oneOpened : openedNext m = [b] := by rw [openedNext, at', found]
      rw [fillFirst_opens (position.trans at') ((List.find?_congr erased).trans found), oneOpened]
      exact ⟨rfl, rfl⟩
    | none =>
      have noneOpened : openedNext m = [] := by rw [openedNext, at', found]
      rw [fillFirst_full (position.trans at') ((List.find?_congr erased).trans found), noneOpened, List.append_nil]
      exact ⟨rfl, position.trans at'⟩

/-- The blocks in journal order are blocks of the journal, and one opened holds no number. -/
theorem mem_openedNext {m : Mem} {b : Nat} (h : b ∈ openedNext m) : b < 4 ∧ blockNumbers m b = [] := by
  unfold openedNext at h
  split at h
  · cases h
  · split at h
    next found =>
      cases List.mem_singleton.1 h
      have inside := cyclicFrom_below _ (newestBlock_spec m).1 b (List.mem_of_find?_eq_some found)
      have erased := List.find?_some found
      have same := isWritten_iff m inside
      rw [erased, isWritten, getD_scanBlocks, if_pos inside] at same
      have empty : scanBlock m b = [] := by simpa using same
      exact ⟨inside, by rw [blockNumbers, empty]; rfl⟩
    next => cases h

/-- The numbers in journal order are of slots apart. -/
theorem numberedSlots_spec (m : Mem) :
    let numbers := numberedSlots (fillFirst (newestBlock (scanBlocks m)) (arranged (scanBlocks m))) (scanBlocks m)
    numbers.Pairwise (fun p q => p.1 ≠ q.1)
      ∧ ∀ p ∈ numbers, p.1.block < 4 ∧ p.1.slot < 128 ∧ recordValid (slotBytes m p.1) = true
          ∧ field (slotBytes m p.1) 0 4 = p.2 := by
  intro numbers
  obtain ⟨order, -⟩ := foldl_torn_order
    (earlierTwins numbers) (fillFirst (newestBlock (scanBlocks m)) (arranged (scanBlocks m)))
  have order' : (fillFirst (newestBlock (scanBlocks m)) (arranged (scanBlocks m))).order
      = (cyclicFrom (newestBlock (scanBlocks m))).filter (fun b => !m.erasedRange (b * 4096) 4096) ++ openedNext m :=
    order.symm.trans (scannedJournal_order m).1
  have below := cyclicFrom_below _ (newestBlock_spec m).1
  have inside : ∀ b ∈ (fillFirst (newestBlock (scanBlocks m)) (arranged (scanBlocks m))).order, b < 4 := by
    rw [order']
    intro b hb
    rcases List.mem_append.1 hb with h | h
    · exact below b (List.mem_filter.1 h).1
    · exact (mem_openedNext h).1
  have byBlock : numbers = (fillFirst (newestBlock (scanBlocks m)) (arranged (scanBlocks m))).order.flatMap
      (blockNumbers m) := by
    refine List.flatMap_congr fun b hb => ?_
    have block := getD_scanBlocks m b
    rw [if_pos (inside b hb)] at block
    rw [block]
    rfl
  have noneOpened : (openedNext m).flatMap (blockNumbers m) = [] :=
    List.flatMap_eq_nil_iff.2 fun b hb => (mem_openedNext hb).2
  refine ⟨?_, fun p hp => ?_⟩
  · rw [byBlock, order', List.flatMap_append, noneOpened, List.append_nil]
    refine List.pairwise_flatMap.2 ⟨fun b _ => blockNumbers_apart m b,
      ((cyclicFrom_nodup _).filter _).imp fun {a b} different p hp q hq same => different ?_⟩
    rw [← (mem_blockNumbers hp).1, ← (mem_blockNumbers hq).1, same]
  · rw [byBlock] at hp
    obtain ⟨b, hb, h⟩ := List.mem_flatMap.1 hp
    obtain ⟨block, slot, valid, number⟩ := mem_blockNumbers h
    exact ⟨block ▸ inside b hb, slot, valid, number⟩

/-! ### The record slots of the scanned journal -/

/-- R92: a record slot of the scanned journal is as it was read, or is TORN and has a later twin. -/
theorem slotOf_scannedJournal (m : Mem) (loc : Loc) :
    slotOf (scannedJournal m) loc = slotOf (arranged (scanBlocks m)) loc
      ∨ (slotOf (scannedJournal m) loc).state = .torn ∧ recordValid (slotBytes m loc) = true
        ∧ ∃ twin : Loc, twin.block < 4 ∧ twin.slot < 128 ∧ recordValid (slotBytes m twin) = true ∧ twin ≠ loc
          ∧ field (slotBytes m twin) 0 4 = field (slotBytes m loc) 0 4 := by
  obtain ⟨apart, numbers⟩ := numberedSlots_spec m
  rcases foldl_torn_slot
    (earlierTwins (numberedSlots (fillFirst (newestBlock (scanBlocks m)) (arranged (scanBlocks m))) (scanBlocks m)))
    (fillFirst (newestBlock (scanBlocks m)) (arranged (scanBlocks m))) loc with same | ⟨twin, torn⟩
  · exact .inl (same.trans (slotOf_fillFirst _ _ loc))
  · obtain ⟨t, other, here, there, different⟩ := twin_of_earlier apart twin
    obtain ⟨-, -, valid, number⟩ := numbers _ here
    obtain ⟨block, slot, valid', number'⟩ := numbers _ there
    exact .inr ⟨torn, valid, other, block, slot, valid', different, number'.trans number.symm⟩

/-- R92, R93: a record slot as arranged: what was read, and behind the written part free or unused. -/
theorem slotOf_arranged (m : Mem) {b i : Nat} (hb : b < 4) :
    (i < writtenPart m b 128 →
      slotOf (arranged (scanBlocks m)) { block := b, slot := i } = foundSlot (scanSlot m { block := b, slot := i }))
    ∧ (writtenPart m b 128 ≤ i →
      (slotOf (arranged (scanBlocks m)) { block := b, slot := i }).state = .unused
        ∨ (slotOf (arranged (scanBlocks m)) { block := b, slot := i }).state = .free) := by
  obtain ⟨found, rest⟩ := arrangeBlock_slot (newestBlock (scanBlocks m)) b i (scanBlock m b)
  have slot : slotOf (arranged (scanBlocks m)) { block := b, slot := i }
      = (arrangeBlock (newestBlock (scanBlocks m)) b (scanBlock m b)).slots.getD i .fresh := by
    rw [slotOf, getD_arranged m hb]
  have read := getElem?_scanBlock m b i
  rw [slot]
  refine ⟨fun inside => found _ ?_, fun beyond => rest ?_⟩
  · rw [read, if_pos inside]
  · rw [read, if_neg (Nat.not_lt.2 beyond)]

/-- R92: the state of each record slot of the scanned journal, by what its bytes read. -/
theorem scannedJournal_slot (m : Mem) {b i : Nat} (hb : b < 4) (hi : i < 128) :
    let loc : Loc := { block := b, slot := i }
    let read := (slotOf (scannedJournal m) loc).state
    (recordValid (slotBytes m loc) = false → slotErased m loc = false → read = .torn)
      ∧ (recordValid (slotBytes m loc) = true → read = markedState (slotBytes m loc) ∨ read = .torn
          ∧ ∃ twin : Loc, twin.block < 4 ∧ twin.slot < 128 ∧ recordValid (slotBytes m twin) = true ∧ twin ≠ loc
            ∧ field (slotBytes m twin) 0 4 = field (slotBytes m loc) 0 4)
      ∧ (slotErased m loc = true → read = .unused ∨ read = .free)
      ∧ (slotErased m loc = true → (∃ k, i < k ∧ k < 128 ∧ slotErased m { block := b, slot := k } = false) →
          read = .unused) := by
  intro loc read
  obtain ⟨inWritten, behind⟩ := slotOf_arranged (i := i) m hb
  have written (h : slotErased m loc = false) : i < writtenPart m b 128 := Nat.not_le.1 fun le => by
    rw [slotErased_behind le hi] at h
    cases h
  rcases slotOf_scannedJournal m loc with same | ⟨torn, valid, twin⟩
  · have state : read = (slotOf (arranged (scanBlocks m)) loc).state := congrArg RecordSlot.state same
    refine ⟨fun notValid h => ?_, fun valid => .inl ?_, fun erased => ?_, fun erased ⟨k, later, hk, h⟩ => ?_⟩
    · rw [state, inWritten (written h), scanSlot_torn h notValid]
      rfl
    · have h : slotErased m loc = false := Bool.eq_false_iff.2 fun erased => by
        rw [not_valid_of_erased erased] at valid
        cases valid
      rw [state, inWritten (written h), scanSlot_valid valid]
      rfl
    · rw [state]
      rcases Nat.lt_or_ge i (writtenPart m b 128) with inside | beyond
      · rw [inWritten inside, scanSlot_erased erased]
        exact .inl rfl
      · exact behind beyond
    · have inside : i < writtenPart m b 128 := by
        refine lt_trans later (Nat.not_le.1 fun le => ?_)
        rw [slotErased_behind le hk] at h
        cases h
      rw [state, inWritten inside, scanSlot_erased erased]
      rfl
  · refine ⟨fun notValid => ?_, fun _ => .inr ⟨torn, twin⟩, fun erased => ?_, fun erased => ?_⟩
    · rw [valid] at notValid
      cases notValid
    all_goals
      rw [not_valid_of_erased erased] at valid
      cases valid

end Sys2Proof.Proofs.Scan
end

