-- ==== Sys2Proof/Proofs/StartUp.lean ====
section
/-! PROOFS. The start-up (O55): what the scan derives from the array, the epoch it asks for, and what the end of a scan
that finds the epochs exhausted leaves as it was. -/

namespace Sys2Proof.Proofs.StartUp

open Sys2Proof.Machine Sys2Proof.Safety Sys2Proof.Laws Sys2Proof.Proofs.Bills Sys2Proof.Proofs.Ends
  Sys2Proof.Proofs.Authorize Sys2Proof.Proofs.Stops Sys2Proof.Proofs.Completions Sys2Proof.Proofs.Targets
  Sys2Proof.Proofs.Scan

/-! ### The tables (R12, R137) -/

/-- R12: the IRT as derived from its image. -/
theorem deriveIrt_irt (s : State) :
    (s.array.erasedRange irtBase irtBytes = true →
      (deriveIrt s).irt = { state := .empty, generation := 0, readable := false, mirror := [] })
    ∧ (s.array.erasedRange irtBase irtBytes = false → decodeIrtHeader (s.array.readBytes irtBase 9) = none →
      (deriveIrt s).irt = { state := .invalid, generation := 0, readable := false, mirror := [] })
    ∧ ∀ h, s.array.erasedRange irtBase irtBytes = false → decodeIrtHeader (s.array.readBytes irtBase 9) = some h →
      ((verifyIrt s.array h (irtPresent s.array)).1 = .none →
        (deriveIrt s).irt = { state := .valid, generation := h.generation, readable := h.readable,
                              mirror := (irtImage s.array h.rows).map decodeRow })
      ∧ ((verifyIrt s.array h (irtPresent s.array)).1 ≠ .none →
        (deriveIrt s).irt = { state := .invalid, generation := h.generation, readable := false, mirror := [] }) := by
  have header : headerBytes s.array .irt = s.array.readBytes irtBase 9 := rfl
  unfold deriveIrt
  rw [header]
  refine ⟨fun erased => ?_, fun written undecoded => ?_, fun h written decoded => ?_⟩
  · rw [if_pos erased]
    rfl
  · rw [if_neg (by simp [written]), undecoded]
    rfl
  · rw [if_neg (by simp [written]), decoded]
    dsimp only
    rcases verifyIrt s.array h (irtPresent s.array) with ⟨condition, index⟩
    refine ⟨fun good => ?_, fun bad => ?_⟩
    · dsimp only at good
      subst good
      rfl
    · cases condition <;> first | exact absurd rfl bad | rfl

/-- R137: the Profile as derived from its block. -/
theorem deriveProfile_profile (s : State) :
    (s.array.erasedRange profileBase profileBlockBytes = true →
      (deriveProfile s).profile = { state := .empty, generation := 0, values := .defaults })
    ∧ (s.array.erasedRange profileBase profileBlockBytes = false →
      decodeProfileHeader (s.array.readBytes profileBase 8) = none →
      (deriveProfile s).profile = { state := .invalid, generation := 0, values := .defaults })
    ∧ ∀ h, s.array.erasedRange profileBase profileBlockBytes = false →
      decodeProfileHeader (s.array.readBytes profileBase 8) = some h →
      (deriveProfile s).profile =
        if checkValue (s.array.readBytes profileRecordAddr 21) = h.check then
          { state := .valid, generation := h.generation,
            values := decodeProfile (s.array.readBytes profileRecordAddr 21) }
        else { state := .invalid, generation := h.generation, values := .defaults } := by
  have header : (headerBytes s.array .profile).take 8 = s.array.readBytes profileBase 8 := by
    simp [headerBytes, Mem.readBytes, ← List.map_take, TableName.base]
  have record : profileRecordBytes s.array = s.array.readBytes profileRecordAddr 21 := rfl
  unfold deriveProfile
  rw [header]
  refine ⟨fun erased => ?_, fun written undecoded => ?_, fun h written decoded => ?_⟩
  · rw [if_pos erased]
    rfl
  · rw [if_neg (by simp [written]), undecoded]
    rfl
  · rw [if_neg (by simp [written]), decoded]
    dsimp only
    rw [profileReadsBack, record]
    by_cases same : checkValue (s.array.readBytes profileRecordAddr 21) = h.check
    · rw [if_pos same, if_pos (beq_iff_eq.2 same)]
      rfl
    · rw [if_neg same, if_neg (by simpa using same)]
      rfl

/-- R137: deriving the Profile leaves the IRT. -/
theorem deriveProfile_irt (s : State) : (deriveProfile s).irt = s.irt := by
  unfold deriveProfile
  repeat' split
  all_goals rfl

/-! ### The tallies (R68) -/

/-- R68: the LIVE approvals of a state, in journal order. -/
def liveApprovals (s : State) : List JRecord :=
  (orderedSlots s).filterMap (fun p =>
    if p.2.state = .live then (recordAt s p.1).filter (fun r => r.kind == .approval) else none)

/-- R63, R68: the tallies once approvals have been added one by one. -/
theorem foldl_add_counts (records : List JRecord) (t : Tally) :
    (∀ id, (records.foldl (fun t r => t.add r.rangeId r.token r.total) t).sumOf id
      = t.sumOf id + ((records.filter (fun r => r.rangeId == id)).map (fun r => r.base + r.tip)).sum)
    ∧ ∀ token, (records.foldl (fun t r => t.add r.rangeId r.token r.total) t).countOf token
      = t.countOf token + (records.filter (fun r => r.token == token)).length := by
  induction records generalizing t with
  | nil => exact ⟨fun _ => rfl, fun _ => rfl⟩
  | cons r rest ih =>
    obtain ⟨sums, counts⟩ := ih (t.add r.rangeId r.token r.total)
    obtain ⟨sum, count⟩ := add_counts t r.rangeId r.token r.total
    refine ⟨fun id => ?_, fun token => ?_⟩
    · rw [List.foldl_cons, sums, List.filter_cons]
      by_cases same : r.rangeId = id
      · subst same
        rw [sum, if_pos (beq_self_eq_true _), List.map_cons, List.sum_cons, JRecord.total]
        omega
      · rw [if_neg (by simpa using same), Tally.sumOf, entryOf_add, if_neg (Ne.symm same), ← Tally.sumOf]
    · rw [List.foldl_cons, counts, List.filter_cons]
      by_cases same : r.token = token
      · subst same
        rw [count, if_pos (beq_self_eq_true _), List.length_cons]
        omega
      · rw [if_neg (by simpa using same), Tally.countOf, repeatOf_add, if_neg (Ne.symm same), ← Tally.countOf]

/-- R68: the rebuild adds the LIVE approvals one by one. -/
theorem rebuildTally_eq (s : State) :
    rebuildTally s = (liveApprovals s).foldl (fun t r => t.add r.rangeId r.token r.total) { table := [], repeats := [] } := by
  rw [rebuildTally, liveApprovals]
  generalize ({ table := [], repeats := [] } : Tally) = t
  induction orderedSlots s generalizing t with
  | nil => rfl
  | cons p rest ih =>
    rw [List.foldl_cons, ih, List.filterMap_cons]
    by_cases live : p.2.state = .live
    · rw [if_pos live, if_pos live]
      cases recordAt s p.1 with
      | none => rfl
      | some r =>
        cases kind : r.kind <;> simp [Option.filter, countRecord, kind]
    · rw [if_neg live, if_neg live]

/-! ### The journal after the end of the scan (R94) -/

/-- The LIVE approvals follow from the array, the order of the blocks and their record slots. -/
theorem liveApprovals_congr {s t : State} (array : t.array = s.array) (order : t.journal.order = s.journal.order)
    (slots : ∀ b, (blockAt t b).slots = (blockAt s b).slots) : liveApprovals t = liveApprovals s := by
  have blocks : blockSlots t = blockSlots s := funext fun b => by rw [blockSlots, blockSlots, slots b]
  have records : recordAt t = recordAt s := funext fun loc => by rw [recordAt, recordAt, array]
  rw [liveApprovals, liveApprovals, orderedSlots, orderedSlots, order, blocks, records]

/-- R90: a block whose reclaim is asked for keeps its record slots, and so do the others. -/
theorem slots_onBlock (j : Journal) (b c : Nat) (st : BlockState) :
    ((j.onBlock b (fun blk => { blk with state := st })).blocks.getD c .erased).slots
      = (j.blocks.getD c .erased).slots := by
  simp only [Journal.onBlock, List.getD_eq_getElem?_getD, List.getElem?_modify]
  split
  · cases j.blocks[c]? <;> rfl
  · simp

/-- R90: a block that can be reclaimed holds no LIVE record. -/
theorem reclaimable_notLive {s : State} {b : Nat} (h : reclaimable s b = true) :
    (blockSlots s b).filterMap (fun p =>
      if p.2.state = .live then (recordAt s p.1).filter (fun r => r.kind == .approval) else none) = [] := by
  obtain ⟨-, finished⟩ := (Bool.and_eq_true _ _).mp h
  refine List.filterMap_eq_nil_iff.2 fun p hp => if_neg fun live => ?_
  obtain ⟨q, hq, rfl⟩ := List.mem_map.1 hp
  have slot := List.all_eq_true.1 finished q.2 (List.of_mem_zip hq).2
  rw [live] at slot
  cases slot

/-- R90: reclaim takes no LIVE approval away. -/
theorem liveApprovals_reclaim (s : State) : liveApprovals (reclaim s) = liveApprovals s := by
  have walk (order : List Nat) : ∀ s : State, s.journal.order = order →
      liveApprovals (reclaimFrom order s) = liveApprovals s := by
    induction order with
    | nil => exact fun s _ => rfl
    | cons b rest ih =>
      intro s order
      rw [reclaimFrom]
      split
      next can =>
        have dropped : liveApprovals s = liveApprovals (s.setJournal { s.journal with order := rest }) := by
          have first := reclaimable_notLive can
          have front : orderedSlots s = blockSlots s b ++ orderedSlots (s.setJournal { s.journal with order := rest }) := by
            rw [orderedSlots, order]
            rfl
          rw [liveApprovals, front, List.filterMap_append, first]
          rfl
        refine (ih _ rfl).trans (Eq.trans ?_ dropped.symm)
        exact liveApprovals_congr rfl rfl fun c => slots_onBlock s.journal b c .erasing
      next => rfl
  exact walk s.journal.order s rfl

/-- R94: what the end of the scan leaves as it was of what the scan derived. -/
structure ScanKept (s t : State) : Prop where
  array : t.array = s.array
  irt : t.irt = s.irt
  profile : t.profile = s.profile
  tally : t.tally = s.tally
  slots : ∀ loc, recordSlotAt t loc = recordSlotAt s loc
  live : liveApprovals t = liveApprovals s

theorem ScanKept.trans {s t u : State} (h : ScanKept s t) (h' : ScanKept t u) : ScanKept s u :=
  ⟨h'.array.trans h.array, h'.irt.trans h.irt, h'.profile.trans h.profile, h'.tally.trans h.tally,
    fun loc => (h'.slots loc).trans (h.slots loc), h'.live.trans h.live⟩

/-- What changes neither the journal nor anything derived. -/
theorem scanKept_of {s t : State} {parts : List Part} (changed : ChangedOnly parts s t)
    (others : ∀ p ∈ parts, p ≠ .array ∧ p ≠ .irt ∧ p ≠ .profile ∧ p ≠ .tally) (order : t.journal.order = s.journal.order)
    (blocks : t.journal.blocks = s.journal.blocks) : ScanKept s t := by
  have kept (p : Part) (derived : p = .array ∨ p = .irt ∨ p = .profile ∨ p = .tally) : p.same s t :=
    changed p fun listed => by
      obtain ⟨array, irt, profile, tally⟩ := others p listed
      rcases derived with h | h | h | h <;> contradiction
  have array : t.array = s.array := kept .array (by decide)
  have slots (b : Nat) : blockAt t b = blockAt s b := by rw [blockAt, blockAt, blocks]
  exact ⟨array, kept .irt (by decide), kept .profile (by decide), kept .tally (by decide),
    fun loc => by rw [recordSlotAt, recordSlotAt, slots],
    liveApprovals_congr array order fun b => congrArg JBlock.slots (slots b)⟩

theorem scanKept_raiseTorn (s : State) : ScanKept s (raiseTorn s) := by
  unfold raiseTorn
  split
  · exact ⟨rfl, rfl, rfl, rfl, fun _ => rfl, rfl⟩
  · exact scanKept_of (raiseStoreFault_changedOnly .torn _ s) (by decide) rfl rfl

theorem scanKept_evaluateLow (s : State) : ScanKept s (evaluateLow s) := by
  obtain ⟨flag, low, state⟩ := evaluateLow_fields s
  refine scanKept_of (evaluateLow_changedOnly s) (by decide) ?_ ?_
  · rw [state]
  · rw [state]

theorem scanKept_reclaim (s : State) : ScanKept s (reclaim s) := by
  have changed := reclaim_changedOnly s
  exact ⟨changed .array (by decide), changed .irt (by decide), changed .profile (by decide), changed .tally (by decide),
    (reclaim_reclaimed s).slots, liveApprovals_reclaim s⟩

theorem scanKept_endScan (s : State) : ScanKept s (endScan s) := by
  have before := ((scanKept_raiseTorn s).trans (scanKept_evaluateLow _)).trans (scanKept_reclaim _)
  unfold endScan
  dsimp only
  generalize reclaim (evaluateLow (raiseTorn s)) = w at *
  exact before.trans ⟨rfl, rfl, rfl, rfl, fun _ => rfl, rfl⟩

/-! ### The epoch (R95) -/

/-- A number of a list is at most the largest. -/
theorem le_foldl_max (l : List Nat) (n : Nat) : n ≤ l.foldl max n ∧ ∀ x ∈ l, x ≤ l.foldl max n := by
  induction l generalizing n with
  | nil => exact ⟨le_rfl, nofun⟩
  | cons y rest ih =>
    obtain ⟨start, others⟩ := ih (max n y)
    refine ⟨(le_max_left n y).trans start, fun x hx => ?_⟩
    rcases List.mem_cons.1 hx with rfl | later
    · exact (le_max_right n x).trans start
    · exact others x later

/-- R95: no stored epoch is above the largest. -/
theorem stored_le_largestEpoch (m : Mem) :
    (∀ x ∈ wordEpochs m, x ≤ largestEpoch m) ∧ ∀ x ∈ recordEpochs m, x ≤ largestEpoch m := by
  have largest := (le_foldl_max (wordEpochs m ++ recordEpochs m) 0).2
  exact ⟨fun x hx => largest x (List.mem_append_left _ hx), fun x hx => largest x (List.mem_append_right _ hx)⟩

/-- R95, R122: the update asked for at start-up changes the Store Engine alone. -/
theorem startUpdate_eq (epoch : Nat) (startUp : Bool) (s : State) :
    ∃ store, startUpdate epoch startUp s = s.setStore store
      ∧ store.update = some { epoch := epoch, retry := false, startUp := startUp } := by
  unfold startUpdate stepUpdate
  split
  · exact ⟨_, rfl, rfl⟩
  · exact ⟨_, rfl, rfl⟩

/-- R95, R96: the part either waits for the program of an epoch above every stored one, its scan going on, or ends its
scan exhausted. -/
theorem recoverEpoch_cases (s : State) :
    (∃ store, recoverEpoch s = s.setStore store
      ∧ store.update = some { epoch := largestEpoch s.array + 1, retry := false, startUp := true }
      ∧ largestEpoch s.array + 1 ≤ 65535)
    ∨ ∃ y, recoverEpoch s = endScan y ∧ ScanKept s y
        ∧ y.decision.exhausted = true ∧ y.decision.epoch = 65535 ∧ y.pins = s.pins := by
  have exhausted : ScanKept s (startExhausted s) := ⟨rfl, rfl, rfl, rfl, fun _ => rfl, rfl⟩
  unfold recoverEpoch
  split
  · refine .inr ⟨_, rfl, exhausted.trans ?_, rfl, rfl, rfl⟩
    exact scanKept_of (raiseStoreFault_changedOnly .epoch none _) (by decide) rfl rfl
  · split
    · exact .inr ⟨_, rfl, exhausted, rfl, rfl, rfl⟩
    next room =>
      obtain ⟨store, asked, update⟩ := startUpdate_eq (largestEpoch s.array + 1) true s
      refine .inl ⟨store, asked, update, ?_⟩
      have bound : ¬ 65535 ≤ largestEpoch s.array := room
      omega

/-! ### The scan -/

/-- R171: a part at the beginning of its scan, with nothing held. -/
def scanStart (s : State) : State := warnAtScan ((clearVolatile s).setPins { s.pins with phase := .scan })

/-- R92, R93, R95: a part with a journal, tallies and an epoch write position as scanned. -/
def withScan (j : Journal) (y : Tally) (n : Nat) (s : State) : State :=
  ((s.setJournal j).setTally y).setStore { s.store with epochAt := n }

theorem withScan_kept (j : Journal) (y : Tally) (n : Nat) (s : State) :
    (withScan j y n s).array = s.array ∧ (withScan j y n s).pins = s.pins ∧ (withScan j y n s).decision = s.decision
      ∧ (withScan j y n s).irt = s.irt ∧ (withScan j y n s).profile = s.profile
      ∧ (withScan j y n s).journal = j ∧ (withScan j y n s).tally = y
      ∧ liveApprovals (withScan j y n s) = liveApprovals (s.setJournal j) :=
  ⟨rfl, rfl, rfl, rfl, rfl, rfl, rfl, rfl⟩

/-- R12, R92, R93, R68: what the scan derives from the array. -/
def scanned (s : State) : State :=
  withScan (scannedJournal (deriveProfile (deriveIrt s)).array)
    (rebuildTally ((deriveProfile (deriveIrt s)).setJournal (scannedJournal (deriveProfile (deriveIrt s)).array)))
    (epochPosition (deriveProfile (deriveIrt s)).array Limits.epochWords) (deriveProfile (deriveIrt s))

theorem beginScan_eq (s : State) : beginScan s = recoverEpoch (scanned (scanStart s)) := by
  unfold beginScan scanned scanStart withScan
  dsimp only
  generalize deriveProfile (deriveIrt (warnAtScan ((clearVolatile s).setPins { s.pins with phase := .scan }))) = d
  simp only [State.setTally_array, State.setJournal_array, State.setTally_store, State.setJournal_store]

theorem scanStart_fields (s : State) :
    (scanStart s).array = s.array ∧ (scanStart s).pins = { s.pins with phase := .scan }
      ∧ (scanStart s).decision = Decision.reset := by
  unfold scanStart warnAtScan
  split
  · exact ⟨rfl, rfl, rfl⟩
  · exact ⟨rfl, rfl, rfl⟩

/-- What deriving the tables leaves. -/
theorem derived_kept (s : State) : ChangedOnly [.irt, .profile] s (deriveProfile (deriveIrt s)) := by
  intro p other
  simp only [List.mem_cons, List.not_mem_nil, or_false, not_or] at other
  obtain ⟨irt, profile⟩ := other
  simp [*, same_self]

theorem scanned_fields (s : State) :
    (scanned s).array = s.array ∧ (scanned s).pins = s.pins ∧ (scanned s).decision = s.decision
      ∧ (scanned s).irt = (deriveIrt s).irt
      ∧ (∃ x, x.array = s.array ∧ (scanned s).profile = (deriveProfile x).profile)
      ∧ (scanned s).journal = scannedJournal s.array ∧ (scanned s).tally
        = (liveApprovals (scanned s)).foldl (fun t r => t.add r.rangeId r.token r.total) { table := [], repeats := [] } := by
  have changed := derived_kept s
  have array : (deriveProfile (deriveIrt s)).array = s.array := changed .array (by decide)
  have array' : (deriveIrt s).array = s.array :=
    (same_deriveIrt (p := .array) (s := s) (t := s) (by decide) (by decide)).2 rfl
  have irt := deriveProfile_irt (deriveIrt s)
  have pins : (deriveProfile (deriveIrt s)).pins = s.pins := changed .pins (by decide)
  have decision : (deriveProfile (deriveIrt s)).decision = s.decision := changed .decision (by decide)
  have profile : ∃ x, x.array = s.array ∧ (deriveProfile (deriveIrt s)).profile = (deriveProfile x).profile :=
    ⟨deriveIrt s, array', rfl⟩
  unfold scanned
  rw [array]
  generalize deriveProfile (deriveIrt s) = d at *
  generalize scannedJournal s.array = j
  have tally := rebuildTally_eq (d.setJournal j)
  generalize rebuildTally (d.setJournal j) = y at *
  generalize epochPosition s.array Limits.epochWords = n
  obtain ⟨kArray, kPins, kDecision, kIrt, kProfile, kJournal, kTally, kLive⟩ := withScan_kept j y n d
  exact ⟨kArray.trans array, kPins.trans pins, kDecision.trans decision, kIrt.trans irt,
    profile.imp fun x h => ⟨h.1, kProfile.trans h.2⟩, kJournal, by rw [kTally, kLive, tally]⟩

/-- R94, R96: a part that begins its scan: what the scan derived stays, and the scan goes on or has ended. -/
theorem beginScan_cases (s : State) :
    ScanKept (scanned (scanStart s)) (beginScan s)
      ∧ ((beginScan s).pins.phase = .scan ∧ (beginScan s).decision.exhausted = true
          ∧ (beginScan s).journal = scannedJournal s.array
          ∧ (∃ k, (beginScan s).store.update = some { epoch := k + 1, retry := false, startUp := true }
            ∧ k + 1 ≤ 65535 ∧ (∀ x ∈ wordEpochs s.array, x ≤ k) ∧ (∀ x ∈ recordEpochs s.array, x ≤ k))
        ∨ (beginScan s).pins.phase = .run ∧ (beginScan s).decision.exhausted = true
          ∧ (beginScan s).events.latches.ready = some 65535) := by
  obtain ⟨array, pins, decision⟩ := scanStart_fields s
  obtain ⟨array', pins', decision', -, -, journal', -⟩ := scanned_fields (scanStart s)
  rw [beginScan_eq]
  rw [array] at array' journal'
  rw [pins] at pins'
  rw [decision] at decision'
  generalize scanned (scanStart s) = x at *
  rcases recoverEpoch_cases x with ⟨store, asked, update, room⟩ | ⟨y, ends, kept, exhausted, epoch, samePins⟩
  · rw [array'] at update room
    obtain ⟨words, records⟩ := stored_le_largestEpoch s.array
    rw [asked]
    refine ⟨⟨rfl, rfl, rfl, rfl, fun _ => rfl, rfl⟩, .inl ⟨?_, ?_, journal', _, update, room, words, records⟩⟩
    · exact congrArg Pins.phase pins'
    · exact congrArg Decision.exhausted decision'
  · obtain ⟨changed, pinsEnd, ready, -⟩ := endScan_effects y
    have decisionEnd : (endScan y).decision = y.decision := changed .decision (by decide)
    rw [ends]
    refine ⟨kept.trans (scanKept_endScan y), .inr ⟨congrArg Pins.phase pinsEnd, ?_, ?_⟩⟩
    · rw [decisionEnd, exhausted]
    · rw [ready, readyEpoch, if_pos exhausted]
      rfl

/-! ### Commands that begin a scan -/

/-- What a scan begins from: the lines, the array, the unit identity and the commands not yet taken. -/
theorem scanStart_stopped (e : ArrayEnd) {s : State} (idle : s.store.running = none) :
    scanStart (stopPart .off e s) = scanStart s := by
  have stopped : stopPart .off e s = (clearVolatile s).setPins { s.pins with phase := .off } := by
    rw [stopPart, interruptOperation, idle]
  rw [stopped]
  rfl

/-- R96: a supply that comes with RESETN deasserted begins the scan. -/
theorem exec_powerOn {s : State} (e : ArrayEnd) (idle : s.store.running = none) (released : s.pins.resetn = .deasserted) :
    exec (.powerOn e) s = .next (beginScan s) := by
  have inArray : runningInArray s = true := runningInArray_true fun op running => by
    rw [idle] at running
    cases running
  have runs : exec (.powerOn e) s = .next (startPart (stopPart .off e s)) := if_pos inArray
  have resetn : (stopPart .off e s).pins.resetn = .deasserted :=
    (congrArg Pins.resetn (stopPart_cleared .off e s).2.1).trans released
  have starts : startPart (stopPart .off e s) = beginScan (stopPart .off e s) := by
    rw [startPart, resetn]
  rw [runs, starts, beginScan_eq, scanStart_stopped e idle, ← beginScan_eq]

/-- R96: so does the release of RESETN on a part that is held. -/
theorem exec_resetnRelease {s : State} (held : s.pins.phase = .held) :
    exec .resetnRelease s = .next (beginScan (s.setPins { s.pins with resetn := .deasserted })) := by
  have phase : (s.setPins { s.pins with resetn := .deasserted }).pins.phase = .held := held
  have runs : exec .resetnRelease s = .next (releasePart (s.setPins { s.pins with resetn := .deasserted })) := rfl
  rw [runs, releasePart, phase]

/-! ### A factory-new part (R95) -/

theorem scannedJournal_nil : scannedJournal [] = Journal.reset := by decide +kernel

/-- R68: a journal without records has nothing to count. -/
theorem liveApprovals_reset {s : State} (journal : s.journal = Journal.reset) : liveApprovals s = [] := by
  have slots : orderedSlots s = orderedSlots State.reset := by
    have blocks : blockSlots s = blockSlots State.reset := funext fun b => by
      rw [blockSlots, blockSlots, blockAt, blockAt, journal]
      rfl
    rw [orderedSlots, orderedSlots, blocks, journal]
    rfl
  have free : ∀ p ∈ orderedSlots State.reset, p.2.state ≠ .live := by decide +kernel
  rw [liveApprovals, slots]
  exact List.filterMap_eq_nil_iff.2 fun p hp => if_neg (free p hp)

/-- R95, R96: a part whose whole array is erased asks for epoch 1. -/
theorem beginScan_erased {s : State} (erased : s.array = []) : beginScan s = erasedPartScan s s.pins := by
  have noneLost : epochLost [] = false := rfl
  have noEpoch : largestEpoch [] = 0 := by decide +kernel
  have tally (t : State) (journal : t.journal = Journal.reset) : rebuildTally t = { table := [], repeats := [] } := by
    rw [rebuildTally_eq, liveApprovals_reset journal]
    rfl
  obtain ⟨array, -, -⟩ := scanStart_fields s
  have derived : deriveProfile (deriveIrt (scanStart s)) = ((scanStart s).setIrt .reset).setProfile .reset := by
    have none' (a n : Nat) : (scanStart s).array.erasedRange a n = true := by rw [array, erased]; rfl
    have irt : deriveIrt (scanStart s) = (scanStart s).setIrt .reset := if_pos (none' _ _)
    rw [irt]
    exact if_pos (none' _ _)
  have result : scanned (scanStart s)
      = withScan Journal.reset { table := [], repeats := [] } 0 (((scanStart s).setIrt .reset).setProfile .reset) := by
    have same : (((scanStart s).setIrt .reset).setProfile .reset).array = [] := array.trans erased
    rw [scanned, derived, same, scannedJournal_nil, tally _ rfl]
    rfl
  have notLast : ¬ Limits.word16Max ≤ 0 := by decide
  have start : scanStart s = { erasedPartScan s s.pins with
      array := s.array, journal := (scanStart s).journal
      store := { Store.reset with epochPlace := none, epochAt := 0, update := none } } := by
    unfold scanStart warnAtScan erasedPartScan clearVolatile
    generalize s.pins = pins
    obtain ⟨pwrwarn, loadlock, resetn, phase⟩ := pins
    cases pwrwarn with
    | asserted => rfl
    | deasserted => rfl
  have recovered (x : State) (none' : x.array = []) (word : x.store.epochAt = 0) : recoverEpoch x = x.setStore
      { x.store with
        update := some { epoch := 1, retry := false, startUp := true }, epochPlace := some (0, 1), epochAt := 1 } := by
    have place : x.store.epochAt < Limits.epochWords := by rw [word]; decide
    rw [recoverEpoch, none', noneLost, noEpoch, if_neg Bool.false_ne_true, if_neg notLast, startUpdate, stepUpdate,
      if_pos (by exact place)]
    simp only [State.setStore_store, word]
    rfl
  have none' : (withScan Journal.reset { table := [], repeats := [] } 0
      (((scanStart s).setIrt .reset).setProfile .reset)).array = [] := array.trans erased
  rw [beginScan_eq, result, recovered _ none' rfl, start, erased]
  rfl

/-! ### The newest block (R93) -/

/-- R93: where the journal of a scan stands when one block holds the highest number and its written part has `k`
slots. -/
theorem scannedJournal_newest {m : Mem} {n i k : Nat} (hn : n < 4) (hi : i < 128) (hk : 1 ≤ k) (hk' : k ≤ 128)
    (valid : recordValid (slotBytes m { block := n, slot := i }) = true)
    (highest : ∀ b j, b < 4 → j < 128 → recordValid (slotBytes m { block := b, slot := j }) = true →
      field (slotBytes m { block := b, slot := j }) 0 4 ≤ field (slotBytes m { block := n, slot := i }) 0 4
        ∧ (field (slotBytes m { block := b, slot := j }) 0 4 = field (slotBytes m { block := n, slot := i }) 0 4 → b = n))
    (behind : m.erasedRange (n * 4096 + k * 32) (4096 - k * 32) = true)
    (last : m.erasedRange (n * 4096 + (k - 1) * 32) 32 = false) :
    let written : List Nat :=
      [(n + 1) % 4, (n + 2) % 4, (n + 3) % 4, n].filter (fun b => !m.erasedRange (b * 4096) 4096)
    (k < 128 → (scannedJournal m).order = written ∧ (scannedJournal m).writeAt = some { block := n, slot := k })
    ∧ (k = 128 →
      match [(n + 1) % 4, (n + 2) % 4, (n + 3) % 4].find? (fun b => m.erasedRange (b * 4096) 4096) with
      | some b => (scannedJournal m).order = written ++ [b]
          ∧ (scannedJournal m).writeAt = some { block := b, slot := 0 }
      | none => (scannedJournal m).order = written ∧ (scannedJournal m).writeAt = none) := by
  intro written
  have newest := newestBlock_of_highest hn hi valid highest
  have part : writtenPart m n 128 = k := writtenPart_eq hk' (fun _ => last) fun j low high =>
    erasedRange_part behind (by simp only [Loc.addr, journalBlockBytes, pageBytes, Limits.recordBytes]; omega)
      (by simp only [Loc.addr, journalBlockBytes, pageBytes, Limits.recordBytes]; omega)
  have cycle : cyclicFrom (some n) = [(n + 1) % 4, (n + 2) % 4, (n + 3) % 4, n] := by
    rw [cyclicFrom, Nat.mod_eq_of_lt hn]
  have position : newestWrite (scanBlocks m) (some n) = if k < 128 then some { block := n, slot := k } else none := by
    rw [newestWrite, getD_scanBlocks, if_pos hn, length_scanBlock, part]
    rfl
  obtain ⟨order, writeAt⟩ := scannedJournal_order m
  rw [newest, cycle] at order
  rw [newest, position] at writeAt
  rw [order, writeAt, openedNext, newest, position, cycle]
  refine ⟨fun less => ?_, fun full => ?_⟩
  · rw [if_pos less]
    exact ⟨List.append_nil _, rfl⟩
  · subst full
    have notErased : m.erasedRange (n * 4096) 4096 = false := Bool.eq_false_iff.2 fun erased => by
      rw [erasedRange_part erased (by omega) (by omega)] at last
      cases last
    have same : [(n + 1) % 4, (n + 2) % 4, (n + 3) % 4, n].find? (fun b => m.erasedRange (b * 4096) 4096)
        = [(n + 1) % 4, (n + 2) % 4, (n + 3) % 4].find? (fun b => m.erasedRange (b * 4096) 4096) := by
      have tail := List.find?_append (p := fun b => m.erasedRange (b * 4096) 4096)
        (xs := [(n + 1) % 4, (n + 2) % 4, (n + 3) % 4]) (ys := [n])
      rw [List.find?_singleton, notErased, if_neg Bool.false_ne_true, Option.or_none] at tail
      exact tail
    rw [if_neg (Nat.lt_irrefl 128), same]
    cases [(n + 1) % 4, (n + 2) % 4, (n + 3) % 4].find? (fun b => m.erasedRange (b * 4096) 4096) with
    | some b => exact ⟨rfl, rfl⟩
    | none => exact ⟨List.append_nil _, rfl⟩

/-- R96: a command that begins a scan begins it on the array as it stands. -/
theorem exec_beginsScan {c : Instr} {s : State}
    (starts : (∃ e, c = .powerOn e ∧ s.store.running = none ∧ s.pins.resetn = .deasserted)
      ∨ c = .resetnRelease ∧ s.pins.phase = .held) :
    ∃ u, exec c s = .next (beginScan u) ∧ u.array = s.array := by
  rcases starts with ⟨e, rfl, idle, released⟩ | ⟨rfl, held⟩
  · exact ⟨s, exec_powerOn e idle released, rfl⟩
  · exact ⟨_, exec_resetnRelease held, rfl⟩

/-- R12, R137: the tables of a part that begins its scan. -/
theorem beginScan_tables (u : State) :
    (beginScan u).irt = (deriveIrt (scanStart u)).irt ∧ (scanStart u).array = u.array
      ∧ ∃ x, x.array = u.array ∧ (beginScan u).profile = (deriveProfile x).profile := by
  obtain ⟨kept, -⟩ := beginScan_cases u
  obtain ⟨array, -⟩ := scanStart_fields u
  obtain ⟨-, -, -, irt, ⟨x, same, profile⟩, -⟩ := scanned_fields (scanStart u)
  exact ⟨kept.irt.trans irt, array, x, same.trans array, kept.profile.trans profile⟩

/-- R92: the record slots of a part that begins its scan. -/
theorem beginScan_slots (u : State) (loc : Loc) :
    recordSlotAt (beginScan u) loc = slotOf (scannedJournal u.array) loc := by
  obtain ⟨kept, -⟩ := beginScan_cases u
  obtain ⟨array, -⟩ := scanStart_fields u
  obtain ⟨-, -, -, -, -, journal, -⟩ := scanned_fields (scanStart u)
  rw [kept.slots loc, recordSlotAt_eq, journal, array]

/-- Settles O55. -/
theorem startUpNeverReusesAnEpoch : Obligations.StartUpNeverReusesAnEpoch := by
  unfold Obligations.StartUpNeverReusesAnEpoch
  refine ⟨fun s erased => ⟨fun idle released => ?_, fun held => ?_⟩, fun c s starts => ?_⟩
  · rw [exec_powerOn .whole idle released, beginScan_erased erased]
  · rw [exec_resetnRelease held, beginScan_erased (by exact erased)]
    rfl
  · intro m number valid
    obtain ⟨u, runs, array⟩ := exec_beginsScan starts
    obtain ⟨kept, phase⟩ := beginScan_cases u
    obtain ⟨irt, startArray, x, sameArray, profile⟩ := beginScan_tables u
    obtain ⟨-, -, -, -, -, -, tally⟩ := scanned_fields (scanStart u)
    have slots := beginScan_slots u
    have arrayKept : (beginScan u).array = m :=
      kept.array.trans ((scanned_fields (scanStart u)).1.trans (startArray.trans array))
    have irtCases := deriveIrt_irt (scanStart u)
    have profileCases := deriveProfile_profile x
    rw [← kept.tally, ← kept.live] at tally
    obtain ⟨sums, counts⟩ := foldl_add_counts (liveApprovals (beginScan u)) { table := [], repeats := [] }
    rw [← tally] at sums counts
    rw [startArray] at irtCases
    rw [sameArray] at profileCases
    rw [array] at slots phase irtCases profileCases
    rw [← irt] at irtCases
    rw [← profile] at profileCases
    generalize beginScan u = t at *
    obtain ⟨irtEmpty, irtUndecoded, irtDecoded⟩ := irtCases
    obtain ⟨profileEmpty, profileUndecoded, profileDecoded⟩ := profileCases
    refine ⟨t, runs, arrayKept, ?_, irtEmpty, irtUndecoded, irtDecoded, profileEmpty, profileUndecoded,
      profileDecoded, fun b i hb hi => ?_, fun n i k scan ⟨hn, hi, valid'⟩ hk hk' highest behind last => ?_,
      fun id => (sums id).trans (Nat.zero_add _), fun token => (counts token).trans (Nat.zero_add _)⟩
    · exact phase.imp (fun ⟨scan, exhausted, _, epoch⟩ => ⟨scan, exhausted, epoch⟩) id
    · intro read erased
      have state : read = (slotOf (scannedJournal s.array) { block := b, slot := i }).state :=
        congrArg RecordSlot.state (slots { block := b, slot := i })
      obtain ⟨torn, held, free, unused⟩ := scannedJournal_slot s.array hb hi
      rw [state]
      refine ⟨fun notValid written => ?_, fun ⟨_, _, valid'⟩ => (held valid').imp_right ?_, free, unused⟩
      · exact torn (Bool.eq_false_iff.2 fun h => notValid ⟨hb, hi, h⟩) written
      · rintro ⟨isTorn, ⟨b', i'⟩, hb', hi', valid'', different, same⟩
        exact ⟨isTorn, b', i', ⟨hb', hi', valid''⟩, fun ⟨h, h'⟩ => different (by rw [h, h']), same⟩
    · have journal : t.journal = scannedJournal s.array := by
        rcases phase with ⟨-, -, journal, -⟩ | ⟨run, -⟩
        · exact journal
        · rw [scan] at run
          cases run
      rw [journal]
      exact scannedJournal_newest hn hi hk hk' valid' (fun b j hb hj h => highest b j ⟨hb, hj, h⟩) behind last

end Sys2Proof.Proofs.StartUp
end

