-- ==== Sys2Proof/Proofs/Verification.lean ====
section
/-! PROOFS. The verification of the issuer range table (R6): the rows present at start-up, and the first of the eight
conditions that fails (for O50). -/

namespace Sys2Proof.Proofs.Verification

open Sys2Proof.Machine Sys2Proof.Safety

/-! ### The rows present -/

/-- The numbers below a bound up to the first that a test refuses. -/
theorem takeWhile_range (p : Nat → Bool) (n : Nat) :
    let k := ((List.range n).takeWhile p).length
    k ≤ n ∧ (k < n → p k = false) ∧ ∀ i < k, p i = true := by
  intro k
  have start : (List.range n).takeWhile p <+: List.range n := List.takeWhile_prefix p
  have bound : k ≤ n := by simpa using start.length_le
  have initial : (List.range n).takeWhile p = List.range k := by
    rw [List.prefix_iff_eq_take.1 start, List.take_range, Nat.min_eq_left bound]
  refine ⟨bound, fun less => ?_, fun i inside => ?_⟩
  · have rest : (List.range n).dropWhile p = (List.range n).drop k := by
      have whole := List.takeWhile_append_dropWhile (p := p) (l := List.range n)
      rw [initial] at whole
      rw [← whole, List.drop_left' List.length_range, whole]
    have notEmpty : (List.range n).dropWhile p ≠ [] := by
      rw [rest]
      simpa using less
    have refused := List.head_dropWhile_not p notEmpty
    have first : ((List.range n).dropWhile p).head notEmpty = k := by
      simp [rest]
    rwa [first] at refused
  · have member : i ∈ (List.range n).takeWhile p := by
      rw [initial]
      exact List.mem_range.2 inside
    exact List.mem_takeWhile_imp member

/-- R6: the rows present are the row places written before the first erased one. -/
theorem irtPresent_spec (m : Mem) :
    irtPresent m ≤ 200 ∧ (irtPresent m < 200 → m.erasedRange (irtRowAddr (irtPresent m)) 24 = true)
      ∧ ∀ i < irtPresent m, m.erasedRange (irtRowAddr i) 24 = false := by
  obtain ⟨bound, stops, written⟩ := takeWhile_range (fun i => !m.erasedRange (irtRowAddr i) Limits.rowBytes) 200
  exact ⟨bound, fun less => Bool.not_inj (y := true) (stops less),
    fun i inside => Bool.not_inj (y := false) (written i inside)⟩

/-! ### The first failing index of a condition -/

/-- An index found is the first at which a property holds, and none is found when it holds nowhere. -/
def Finds (found : Option Nat) (P : Nat → Prop) : Prop :=
  match found with
  | none => ∀ i, ¬ P i
  | some i => P i ∧ ∀ j < i, ¬ P j

theorem Finds.congr {found : Option Nat} {P Q : Nat → Prop} (h : Finds found P) (same : ∀ i, P i ↔ Q i) :
    Finds found Q := by
  obtain rfl : P = Q := funext fun i => propext (same i)
  exact h

/-- A property of the header alone is found at index 0. -/
theorem finds_zero (A : Prop) [Decidable A] : Finds (if A then some 0 else none) (fun i => i = 0 ∧ A) := by
  split
  next holds => exact ⟨⟨rfl, holds⟩, fun j below => absurd below (Nat.not_lt_zero j)⟩
  next fails => exact fun i h => fails h.2

/-- The first row that a test takes. -/
theorem finds_findIdx? (rows : List IrtRow) (p : IrtRow → Bool) :
    Finds (rows.findIdx? p) (fun i => ∃ r, rows[i]? = some r ∧ p r = true) := by
  cases found : rows.findIdx? p with
  | none =>
    rintro i ⟨r, at', holds⟩
    have refused := List.findIdx?_eq_none_iff.1 found r (List.mem_of_getElem? at')
    rw [refused] at holds
    cases holds
  | some i =>
    obtain ⟨inside, holds, before⟩ := List.findIdx?_eq_some_iff_getElem.1 found
    refine ⟨⟨rows[i], List.getElem?_eq_getElem inside, holds⟩, ?_⟩
    rintro j below ⟨r, at', holds'⟩
    obtain ⟨inside', rfl⟩ := List.getElem?_eq_some_iff.1 at'
    exact before j below holds'

/-- The later row of the first adjacent pair that a test refuses. -/
theorem finds_firstPair (bad : IrtRow → IrtRow → Bool) (rows : List IrtRow) (start : Nat) :
    Finds (firstPair bad start rows) (fun i => ∃ j a b, i = start + j + 1 ∧ rows[j]? = some a ∧ rows[j + 1]? = some b
      ∧ bad a b = true) := by
  induction rows generalizing start with
  | nil => exact fun i ⟨j, a, b, _, at', _⟩ => by simp at at'
  | cons a rest ih =>
    cases rest with
    | nil => exact fun i ⟨j, a, b, _, _, at', _⟩ => by simp at at'
    | cons b rest =>
      rw [firstPair]
      split
      next refuses =>
        refine ⟨⟨0, a, b, rfl, rfl, rfl, refuses⟩, fun i below ⟨j, x, y, index, _⟩ => ?_⟩
        omega
      next passes =>
        refine (ih (start + 1)).congr fun i => ⟨fun ⟨j, x, y, index, first, second, refuses⟩ => ?_,
          fun ⟨j, x, y, index, first, second, refuses⟩ => ?_⟩
        · exact ⟨j + 1, x, y, by omega, first, second, refuses⟩
        · cases j with
          | zero =>
            cases first
            cases second
            exact absurd refuses passes
          | succ j => exact ⟨j, x, y, by omega, first, second, refuses⟩

/-- The first row whose range id was seen before it. -/
theorem finds_firstDuplicate (rows : List IrtRow) (seen : List Nat) (start : Nat) :
    Finds (firstDuplicate seen start rows) (fun i => ∃ j r, i = start + j ∧ rows[j]? = some r
      ∧ (r.rangeId ∈ seen ∨ ∃ k < j, ∃ q, rows[k]? = some q ∧ q.rangeId = r.rangeId)) := by
  induction rows generalizing seen start with
  | nil => exact fun i ⟨j, r, _, at', _⟩ => by simp at at'
  | cons a rest ih =>
    rw [firstDuplicate]
    split
    next known =>
      refine ⟨⟨0, a, rfl, rfl, .inl (List.contains_iff_mem.1 known)⟩, fun i below ⟨j, r, index, _⟩ => ?_⟩
      omega
    next fresh =>
      refine (ih (a.rangeId :: seen) (start + 1)).congr fun i => ⟨fun ⟨j, r, index, at', twice⟩ => ?_,
        fun ⟨j, r, index, at', twice⟩ => ?_⟩
      · refine ⟨j + 1, r, by omega, at', ?_⟩
        rcases twice with seen' | ⟨k, below, q, earlier, same⟩
        · rcases List.mem_cons.1 seen' with same | seen'
          · exact .inr ⟨0, Nat.succ_pos j, a, rfl, same.symm⟩
          · exact .inl seen'
        · exact .inr ⟨k + 1, Nat.succ_lt_succ below, q, earlier, same⟩
      · cases j with
        | zero =>
          cases at'
          rcases twice with seen' | ⟨k, below, _⟩
          · exact absurd (List.contains_iff_mem.2 seen') fresh
          · exact absurd below (Nat.not_lt_zero k)
        | succ j =>
          refine ⟨j, r, by omega, at', ?_⟩
          rcases twice with seen' | ⟨k, below, q, earlier, same⟩
          · exact .inl (List.mem_cons_of_mem _ seen')
          · cases k with
            | zero =>
              cases earlier
              exact .inl (same ▸ List.mem_cons_self)
            | succ k => exact .inr ⟨k, Nat.lt_of_succ_lt_succ below, q, earlier, same⟩

/-! ### The first failing condition -/

/-- The verdict of conditions in order, each with the first index at which it fails. -/
def verdict : List (Condition × Option Nat) → Condition × Nat
  | [] => (.none, 0)
  | (k, some i) :: _ => (k, i)
  | (_, none) :: rest => verdict rest

/-- The verdict names none when no condition fails, and else the first that does, at its first index. -/
theorem verdict_spec {fails : Condition → Nat → Prop} {checks : List (Condition × Option Nat)}
    (finds : ∀ p ∈ checks, Finds p.2 (fails p.1)) (ordered : checks.Pairwise (fun p q => p.1.code < q.1.code)) :
    (verdict checks = (.none, 0) ∧ ∀ p ∈ checks, ∀ j, ¬ fails p.1 j)
      ∨ ((verdict checks).1 ∈ checks.map Prod.fst ∧ fails (verdict checks).1 (verdict checks).2
        ∧ (∀ j < (verdict checks).2, ¬ fails (verdict checks).1 j)
        ∧ ∀ p ∈ checks, p.1.code < (verdict checks).1.code → ∀ j, ¬ fails p.1 j) := by
  induction checks with
  | nil => exact .inl ⟨rfl, nofun⟩
  | cons check rest ih =>
    obtain ⟨k, found⟩ := check
    obtain ⟨first, ordered'⟩ := List.pairwise_cons.1 ordered
    have here := finds (k, found) List.mem_cons_self
    cases found with
    | some i =>
      obtain ⟨holds, before⟩ := here
      refine .inr ⟨List.mem_cons_self, holds, before, fun p hp lower => ?_⟩
      rcases List.mem_cons.1 hp with rfl | later
      · exact absurd lower (Nat.lt_irrefl _)
      · exact absurd lower (Nat.lt_asymm (first p later))
    | none =>
      rcases ih (fun p hp => finds p (List.mem_cons_of_mem _ hp)) ordered' with ⟨passed, nowhere⟩ | ⟨mem, holds, before, lower⟩
      · refine .inl ⟨passed, fun p hp => ?_⟩
        rcases List.mem_cons.1 hp with rfl | later
        · exact here
        · exact nowhere p later
      · refine .inr ⟨List.mem_cons_of_mem _ mem, holds, before, fun p hp less => ?_⟩
        rcases List.mem_cons.1 hp with rfl | later
        · exact here
        · exact lower p later less

/-! ### The conditions of R6 -/

/-- R6: the rows of an image, decoded. -/
theorem getElem?_rows (m : Mem) (n i : Nat) (r : IrtRow) :
    ((irtImage m n).map decodeRow)[i]? = some r ↔ i < n ∧ decodeRow (m.readBytes (irtRowAddr i) 24) = r := by
  rw [List.getElem?_map, irtImage, List.getElem?_map]
  by_cases inside : i < n
  · rw [List.getElem?_range inside]
    exact ⟨fun h => ⟨inside, Option.some.inj h⟩, fun h => congrArg some h.2⟩
  · rw [List.getElem?_eq_none (by simpa using inside)]
    exact ⟨nofun, fun h => absurd h.1 inside⟩

/-- R1: the fields of a row in their ranges. -/
theorem fieldsOk_iff (r : IrtRow) :
    r.fieldsOk = true ↔ r.rangeId ≠ 0 ∧ r.prefixLow ≤ 99999999 ∧ r.prefixHigh ≤ 99999999 ∧ 1 ≤ r.mode ∧ r.mode ≤ 3
      ∧ r.floorLimit ≤ 9999999 ∧ r.cap ≤ 99999999 ∧ r.perCard ≤ 15 ∧ r.route ≤ 15 := by
  have mode : (modeOf r.mode).isSome = true ↔ 1 ≤ r.mode ∧ r.mode ≤ 3 := by
    match r.mode with
    | 0 => decide
    | 1 => decide
    | 2 => decide
    | 3 => decide
    | n + 4 => exact ⟨nofun, fun h => absurd h.2 (by omega)⟩
  simp only [IrtRow.fieldsOk, Bool.and_eq_true, bne_iff_ne, decide_eq_true_eq, mode, and_assoc]
  exact Iff.rfl

/-- R6: the eight conditions in order, each with the first index at which it fails. -/
def irtChecks (m : Mem) (h : IrtHeader) (present : Nat) : List (Condition × Option Nat) :=
  let rows := (irtImage m h.rows).map decodeRow
  [ (.count, if h.rows = 0 ∨ Limits.irtRows < h.rows ∨ h.rows ≠ present then some 0 else none),
    (.check, if checkValue (irtImage m h.rows).flatten ≠ h.check then some 0 else none),
    (.field, rows.findIdx? (fun r => !r.fieldsOk)),
    (.interval, rows.findIdx? (fun r => r.prefixHigh < r.prefixLow)),
    (.floorOverCap, rows.findIdx? (fun r => r.cap < r.floorLimit)),
    (.order, firstPair (fun a b => b.prefixLow ≤ a.prefixLow) 0 rows),
    (.overlap, firstPair (fun a b => b.prefixLow ≤ a.prefixHigh) 0 rows),
    (.duplicateId, firstDuplicate [] 0 rows) ]

/-- R6: conditions 3 to 8 over the rows. -/
theorem rowCondition_eq (rows : List IrtRow) :
    rowCondition rows = verdict
      [ (.field, rows.findIdx? (fun r => !r.fieldsOk)),
        (.interval, rows.findIdx? (fun r => r.prefixHigh < r.prefixLow)),
        (.floorOverCap, rows.findIdx? (fun r => r.cap < r.floorLimit)),
        (.order, firstPair (fun a b => b.prefixLow ≤ a.prefixLow) 0 rows),
        (.overlap, firstPair (fun a b => b.prefixLow ≤ a.prefixHigh) 0 rows),
        (.duplicateId, firstDuplicate [] 0 rows) ] := by
  unfold rowCondition
  cases rows.findIdx? (fun r => !r.fieldsOk) with
  | some i => rfl
  | none =>
    cases rows.findIdx? (fun r => r.prefixHigh < r.prefixLow) with
    | some i => rfl
    | none =>
      cases rows.findIdx? (fun r => r.cap < r.floorLimit) with
      | some i => rfl
      | none =>
        cases firstPair (fun a b => b.prefixLow ≤ a.prefixLow) 0 rows with
        | some i => rfl
        | none =>
          cases firstPair (fun a b => b.prefixLow ≤ a.prefixHigh) 0 rows with
          | some i => rfl
          | none => cases firstDuplicate [] 0 rows <;> rfl

theorem verifyIrt_eq (m : Mem) (h : IrtHeader) (present : Nat) :
    verifyIrt m h present = verdict (irtChecks m h present) := by
  rw [verifyIrt, irtChecks]
  by_cases count : h.rows = 0 ∨ Limits.irtRows < h.rows ∨ h.rows ≠ present
  · simp only [if_pos count, verdict]
  · by_cases check : checkValue (irtImage m h.rows).flatten ≠ h.check
    · simp only [if_neg count, if_pos check, verdict]
    · simp only [if_neg count, if_neg check, verdict, rowCondition_eq]

/-- R6: each check finds the first index at which its condition fails. -/
theorem irtChecks_find (m : Mem) (h : IrtHeader) (present : Nat) :
    ∀ p ∈ irtChecks m h present, Finds p.2 (irtFails m h present p.1) := by
  have tested (p : IrtRow → Bool) (i : Nat) :
      (∃ r, ((irtImage m h.rows).map decodeRow)[i]? = some r ∧ p r = true)
        ↔ i < h.rows ∧ p (decodeRow (m.readBytes (irtRowAddr i) 24)) = true := by
    simp only [getElem?_rows]
    exact ⟨fun ⟨r, ⟨inside, row⟩, holds⟩ => ⟨inside, row ▸ holds⟩, fun ⟨inside, holds⟩ => ⟨_, ⟨inside, rfl⟩, holds⟩⟩
  have paired (bad : IrtRow → IrtRow → Bool) (i : Nat) :
      (∃ j a b, i = 0 + j + 1 ∧ ((irtImage m h.rows).map decodeRow)[j]? = some a
          ∧ ((irtImage m h.rows).map decodeRow)[j + 1]? = some b ∧ bad a b = true)
        ↔ 1 ≤ i ∧ i < h.rows ∧ bad (decodeRow (m.readBytes (irtRowAddr (i - 1)) 24))
            (decodeRow (m.readBytes (irtRowAddr i) 24)) = true := by
    simp only [getElem?_rows]
    refine ⟨fun ⟨j, a, b, index, ⟨_, first⟩, ⟨inside, second⟩, holds⟩ => ?_, fun ⟨positive, inside, holds⟩ => ?_⟩
    · obtain rfl : i = j + 1 := by omega
      exact ⟨by omega, inside, by rw [Nat.add_sub_cancel, first, second]; exact holds⟩
    · obtain ⟨j, rfl⟩ : ∃ j, i = j + 1 := ⟨i - 1, by omega⟩
      exact ⟨j, _, _, by omega, ⟨by omega, rfl⟩, ⟨inside, rfl⟩, holds⟩
  intro p hp
  simp only [irtChecks, List.mem_cons, List.not_mem_nil, or_false] at hp
  rcases hp with rfl | rfl | rfl | rfl | rfl | rfl | rfl | rfl
  · refine (finds_zero _).congr fun i => and_congr_right fun _ => ?_
    simp only [Limits.irtRows]
    omega
  · exact (finds_zero _).congr fun i => Iff.rfl
  · refine (finds_findIdx? _ _).congr fun i => (tested _ i).trans (and_congr_right fun _ => ?_)
    rw [← fieldsOk_iff, Bool.not_eq_true', Bool.not_eq_true]
  · exact (finds_findIdx? _ _).congr fun i => (tested _ i).trans (and_congr_right fun _ => decide_eq_true_iff)
  · exact (finds_findIdx? _ _).congr fun i => (tested _ i).trans (and_congr_right fun _ => decide_eq_true_iff)
  · exact (finds_firstPair _ _ 0).congr fun i =>
      (paired _ i).trans (and_congr_right fun _ => and_congr_right fun _ => decide_eq_true_iff)
  · exact (finds_firstPair _ _ 0).congr fun i =>
      (paired _ i).trans (and_congr_right fun _ => and_congr_right fun _ => decide_eq_true_iff)
  · refine (finds_firstDuplicate _ [] 0).congr fun i => ?_
    simp only [getElem?_rows, Nat.zero_add, List.not_mem_nil, false_or]
    refine ⟨fun ⟨j, r, index, ⟨inside, row⟩, k, below, q, ⟨_, row'⟩, same⟩ => ?_,
      fun ⟨inside, k, below, same⟩ => ?_⟩
    · subst index row row'
      exact ⟨inside, k, below, same⟩
    · exact ⟨i, _, rfl, ⟨inside, rfl⟩, k, below, _, ⟨lt_trans below inside, rfl⟩, same⟩

/-- R6: what a condition that fails is: one of the eight. -/
theorem mem_irtChecks_of_fails {m : Mem} {h : IrtHeader} {present : Nat} {k : Condition} {i : Nat}
    (fails : irtFails m h present k i) : ∃ p ∈ irtChecks m h present, p.1 = k := by
  cases k <;> first | exact absurd fails id | simp [irtChecks]

/-- R6: what a verdict says: no condition fails, or this one is the first that fails, at its first index. -/
def Judged (fails : Condition → Nat → Prop) (k : Condition) (i : Nat) : Prop :=
  (k = .none ∧ i = 0 ∧ ∀ c j, ¬ fails c j)
  ∨ (fails k i ∧ (∀ j < i, ¬ fails k j) ∧ ∀ c j, c.code < k.code → ¬ fails c j)

/-- Conditions of one code are the same. -/
theorem code_injective {c k : Condition} (same : c.code = k.code) : c = k := by
  cases c <;> cases k <;> first | rfl | cases same

/-- At most one verdict can be given. -/
theorem Judged.unique {fails : Condition → Nat → Prop} {k k' : Condition} {i i' : Nat} (h : Judged fails k i)
    (h' : Judged fails k' i') : k = k' ∧ i = i' := by
  rcases h with ⟨rfl, rfl, nowhere⟩ | ⟨fails', before, lower⟩
  · rcases h' with ⟨rfl, rfl, -⟩ | ⟨fails'', -⟩
    · exact ⟨rfl, rfl⟩
    · exact absurd fails'' (nowhere _ _)
  · rcases h' with ⟨-, -, nowhere⟩ | ⟨fails'', before', lower'⟩
    · exact absurd fails' (nowhere _ _)
    · rcases Nat.lt_trichotomy k.code k'.code with less | same | more
      · exact absurd fails' (lower' k i less)
      · obtain rfl := code_injective same
        refine ⟨rfl, ?_⟩
        rcases Nat.lt_trichotomy i i' with less | same | more
        · exact absurd fails' (before' i less)
        · exact same
        · exact absurd fails'' (before i' more)
      · exact absurd fails'' (lower k' i' more)

theorem judged_verifyIrt (m : Mem) (h : IrtHeader) (present : Nat) :
    Judged (irtFails m h present) (verifyIrt m h present).1 (verifyIrt m h present).2 := by
  have ordered : (irtChecks m h present).Pairwise (fun p q => p.1.code < q.1.code) := by
    simp [irtChecks, Condition.code]
  rw [verifyIrt_eq]
  rcases verdict_spec (irtChecks_find m h present) ordered with ⟨passed, nowhere⟩ | ⟨-, holds, before, lower⟩
  · refine .inl ⟨congrArg Prod.fst passed, congrArg Prod.snd passed, fun c j fails => ?_⟩
    obtain ⟨p, listed, rfl⟩ := mem_irtChecks_of_fails fails
    exact nowhere p listed j fails
  · refine .inr ⟨holds, before, fun c j less fails => ?_⟩
    obtain ⟨p, listed, rfl⟩ := mem_irtChecks_of_fails fails
    exact lower p listed less j fails

/-- R6: the verification gives this verdict and no other. -/
theorem verifyIrt_iff (m : Mem) (h : IrtHeader) (present : Nat) (k : Condition) (i : Nat) :
    verifyIrt m h present = (k, i) ↔ Judged (irtFails m h present) k i := by
  refine ⟨fun same => ?_, fun judged => ?_⟩
  · have judged := judged_verifyIrt m h present
    rwa [same] at judged
  · obtain ⟨condition, index⟩ := (judged_verifyIrt m h present).unique judged
    exact Prod.ext condition index

end Sys2Proof.Proofs.Verification
end

