-- ==== Sys2Proof/Proofs/PageProgram.lean ====
section
/-! PROOFS. The end of a page program (R133 to R137): what it makes of a session in ROWS, of a draining loader and of a
close (O50). -/

namespace Sys2Proof.Proofs.PageProgram

open Sys2Proof.Machine Sys2Proof.Safety Sys2Proof.Laws Sys2Proof.Proofs.Bills Sys2Proof.Proofs.Frames
  Sys2Proof.Proofs.Ends Sys2Proof.Proofs.Records Sys2Proof.Proofs.LoadRows Sys2Proof.Proofs.Verification

/-! ### The end of a page program -/

/-- R116: the end of a page program goes to the Table Loader. -/
theorem exec_pageProgramComplete {s : State} {e : ArrayEnd} {r : PageRequest}
    (running : s.store.running = some (.pageProgram r)) (length : r.bytes.length ≤ 256)
    (page : (r.page + 1) * 256 ≤ r.table.bytes) :
    ((s.array.program (r.table.base + r.page * 256) r.bytes e).2 = true →
      exec (.pageProgramComplete e) s =
        .next (takePageResult true (ended s (s.array.program (r.table.base + r.page * 256) r.bytes e).1)))
    ∧ ((s.array.program (r.table.base + r.page * 256) r.bytes e).2 = false →
      exec (.pageProgramComplete e) s =
        .next (takePageResult false (failed s (s.array.program (r.table.base + r.page * 256) r.bytes e).1))) := by
  have target : (StoreOp.pageProgram r).targetExists = true := by
    rw [StoreOp.targetExists, decide_eq_true (show r.bytes.length ≤ pageBytes from length),
      decide_eq_true (show (r.page + 1) * pageBytes ≤ r.table.bytes from page)]
    rfl
  have runs := endRunning_running running (kind := some .pageProgram) (.inr rfl) target false e
  refine ⟨fun ok => runs.trans (congrArg Host.Outcome.next ?_), fun bad => runs.trans (congrArg Host.Outcome.next ?_)⟩
  · obtain ⟨success, left⟩ := endOperation_success (op := .pageProgram r) (e := e) (s := s) ok
    rw [completeOperation, success, left]
    rfl
  · obtain ⟨fail, left⟩ := endOperation_fail (op := .pageProgram r) (e := e) (s := s) bad nofun
    rw [completeOperation, fail, left]
    rfl

/-- R133: the part after a page program that failed, with STORE_FAULT raised. -/
def pageFailed (s : State) (array : Mem) : State := raiseStoreFault .pageProgram none (failed s array)

theorem pageFailed_changedOnly (s : State) (array : Mem) :
    ChangedOnly [.array, .store, .events] s (pageFailed s array) :=
  changedOnly_trans (failed_changedOnly s array) (raiseStoreFault_changedOnly .pageProgram none _) (by decide)

theorem setSession_changedOnly (se : Session) (s : State) : ChangedOnly [.loader] s (setSession se s) := by
  intro p other
  cases p <;> first | exact absurd (by decide) other | rfl

/-- R133, R135, R141: a page program's end by the loader's phase. -/
theorem takePageResult_rows {s : State} {se : Session} (ok : Bool) (phase : (pageFault ok s).loader.phase = .rows)
    (session : (pageFault ok s).loader.session = some se) :
    takePageResult ok s = setSession (se.programmed ok) (pageFault ok s) := by
  simp only [takePageResult, phase, session]

theorem takePageResult_draining {s : State} {x : TableName} (phase : s.loader.phase = .draining x) :
    takePageResult true s = s.setLoader { s.loader with phase := .idle } := by
  have noFault : pageFault true s = s := rfl
  simp only [takePageResult, noFault, phase]

theorem takePageResult_closing {s : State} {se : Session} {c : CloseJob} (ok : Bool)
    (phase : (pageFault ok s).loader.phase = .closing) (session : (pageFault ok s).loader.session = some se)
    (close : (pageFault ok s).loader.close = some c) :
    takePageResult ok s = takeClosingPage se c ok (pageFault ok s) := by
  simp only [takePageResult, phase, session, close]

/-! ### The end of a close -/

/-- R134, R135: the part once a close has ended with the table INVALID. -/
def closedInvalid (se : Session) (cmd : Instr) (k : Condition) (i : Nat) (s : State) : State :=
  { s with
    loader := { s.loader with phase := .idle, session := none, close := none }
    irt :=
      if se.table = .irt then { state := .invalid, generation := se.generation, readable := false, mirror := [] }
      else s.irt
    profile :=
      if se.table = .profile then { state := .invalid, generation := se.generation, values := .defaults }
      else s.profile
    arbiter :=
      { mgmtAnswered s.arbiter s.link.addr (commandCode cmd) (mgmtTag cmd) (.closed false k i se.generation) with
        gate := .empty } }

theorem closeInvalid_eq {s : State} {cmd : Instr} (gate : s.arbiter.gate = .inProgress cmd)
    (alone : radioAddr cmd ≠ broadcastAddr) (se : Session) (k : Condition) (i : Nat) :
    closeInvalid se k i s = closedInvalid se cmd k i s := by
  have still : (invalidTable se.table se.generation (endSession s)).arbiter.gate = .inProgress cmd := by
    cases se.table <;> exact gate
  rw [closeInvalid, openGate_alone still alone, closedInvalid]
  cases se.table <;> rfl

theorem closedInvalid_changedOnly (se : Session) (cmd : Instr) (k : Condition) (i : Nat) (s : State) :
    ChangedOnly [.loader, .irt, .profile, .arbiter] s (closedInvalid se cmd k i s) := by
  intro p other
  cases p <;> first | exact absurd (by decide) other | rfl

theorem closedInvalid_table (se : Session) (cmd : Instr) (k : Condition) (i : Nat) (s : State) :
    tableState (closedInvalid se cmd k i s) se.table = .invalid
      ∧ tableGeneration (closedInvalid se cmd k i s) se.table = se.generation := by
  obtain ⟨t, _⟩ := se
  cases t <;> exact ⟨rfl, rfl⟩

/-- R171: TABLE_CHANGE raised. -/
def tableChanged (t : TableName) (generation : Nat) (ev : Events) : Events :=
  { ev with latches := { ev.latches with
    tableChange := some
      { irt := if t = .irt then some generation else ev.latches.tableChange.bind TableChangeDetail.irt
        profile := if t = .profile then some generation else ev.latches.tableChange.bind TableChangeDetail.profile } } }

theorem raiseTableChange_eq (t : TableName) (generation : Nat) (s : State) :
    raiseTableChange t generation s = s.setEvents (tableChanged t generation s.events) := by
  unfold raiseTableChange tableChanged
  cases t <;> cases s.events.latches.tableChange <;> rfl

/-- R135, R137: the part once a close has ended with the table VALID. -/
def closedValid (se : Session) (cmd : Instr) (generation : Nat) (s : State) : State :=
  { s with
    loader := { s.loader with phase := .idle, session := none, close := none }
    events := tableChanged se.table generation s.events
    arbiter :=
      { mgmtAnswered s.arbiter s.link.addr (commandCode cmd) (mgmtTag cmd) (.closed true .none 0 generation) with
        gate := .empty } }

theorem closeValid_eq {s : State} {cmd : Instr} (gate : s.arbiter.gate = .inProgress cmd)
    (alone : radioAddr cmd ≠ broadcastAddr) (se : Session) (generation : Nat) :
    closeValid se generation s = closedValid se cmd generation s := by
  rw [closeValid, raiseTableChange_eq,
    openGate_alone (s := (endSession s).setEvents (tableChanged se.table generation (endSession s).events)) gate alone]
  rfl

/-! ### The header -/

/-- R135: the part once the header's program has been asked for. -/
def headed (se : Session) (c : CloseJob) (bytes : List Byte) (s : State) : State :=
  { s with
    loader := { s.loader with
      session := some { se with buffer := [], bufferBusy := false }, close := some { c with step := .header } }
    store := { s.store with pagePlace := some { table := se.table, page := 0, bytes := bytes } } }

/-- R135: the close goes on to the header. -/
theorem closeHeader_sound {s : State} {se : Session} {c : CloseJob} (phase : s.loader.phase = .closing)
    (sound : preHeader se c = .none) :
    closeHeader (se.programmed true) c (setSession (se.programmed true) s) = headed se c (headerOf s.array se c) s := by
  have same : preHeader (se.programmed true) c = .none := sound
  have bytes : headerOf s.array (se.programmed true) c = headerOf s.array se c := rfl
  have loader : { s.loader with
        phase := .closing, session := some (se.programmed true), close := some { c with step := CloseStep.header } }
      = { s.loader with session := some (se.programmed true), close := some { c with step := CloseStep.header } } := by
    rw [← phase]
  have unfolded : closeHeader (se.programmed true) c (setSession (se.programmed true) s)
      = { s with
          loader := { s.loader with
            phase := .closing, session := some (se.programmed true), close := some { c with step := .header } }
          store := { s.store with
            pagePlace := some { table := se.table, page := 0, bytes := headerOf s.array (se.programmed true) c } } } := by
    simp only [closeHeader, same]
    rfl
  rw [unfolded, loader, bytes]
  rfl

/-- R137: what is judged before the header. -/
theorem preHeader_irt {se : Session} (irt : se.table = .irt) (c : CloseJob) : preHeader se c = .none := by
  rw [preHeader, irt]

theorem preHeader_profile {se : Session} (profile : se.table = .profile) (c : CloseJob) :
    (c.rows = 1 ∧ se.received = 1 ∧ c.check = se.check → preHeader se c = .none)
      ∧ (¬ (c.rows = 1 ∧ se.received = 1 ∧ c.check = se.check) →
        preHeader se c = if c.rows = 1 ∧ se.received = 1 then .check else .count) := by
  rw [preHeader, profile]
  dsimp only
  refine ⟨fun ⟨rows, received, check⟩ => ?_, fun unsound => ?_⟩
  · rw [if_neg (by simp [rows, received]), if_neg (by simp [check])]
  · by_cases one : c.rows = 1 ∧ se.received = 1
    · obtain ⟨rows, received⟩ := one
      have wrong : c.check ≠ se.check := fun check => unsound ⟨rows, received, check⟩
      rw [if_neg (by simp [rows, received]), if_pos wrong, if_pos ⟨rows, received⟩]
    · rw [if_pos (by omega), if_neg one]

/-- R137: a close whose table fails before the header ends there. -/
theorem closeHeader_unsound {s : State} {se : Session} {c : CloseJob} (unsound : preHeader se c ≠ .none) :
    closeHeader (se.programmed true) c (setSession (se.programmed true) s)
      = closeInvalid (se.programmed true) (preHeader se c) 0 (setSession (se.programmed true) s) := by
  have same : preHeader (se.programmed true) c = preHeader se c := rfl
  unfold closeHeader
  rw [same]
  cases judged : preHeader se c <;> first | exact absurd judged unsound | rfl

/-- R134: once the buffer's page or the last one is programmed, the close goes on to the header. -/
theorem takeClosingPage_bodyDone {s : State} {se : Session} {c : CloseJob}
    (body : c.step = .awaitingBuffer ∧ se.broken = .no ∨ c.step = .lastPage) :
    takeClosingPage se c true s = closeHeader (se.programmed true) c (setSession (se.programmed true) s) := by
  rcases body with ⟨step, whole⟩ | step
  · have whole' : ¬ (se.programmed true).broken ≠ .no := not_not.2 whole
    have empty : ¬ (se.programmed true).buffer ≠ [] := not_not.2 rfl
    simp only [takeClosingPage, step]
    rw [closeContinue, if_neg whole', if_neg empty]
  · simp only [takeClosingPage, step, if_true]

/-- R134: a close of a broken session ends with its cause. -/
theorem takeClosingPage_broken {s : State} {se : Session} {c : CloseJob} (step : c.step = .awaitingBuffer)
    (ok : Bool) (broken : (se.programmed ok).broken ≠ .no) :
    takeClosingPage se c ok s = closeInvalid (se.programmed ok) (se.programmed ok).broken.condition
      (se.programmed ok).breakIndex (setSession (se.programmed ok) s) := by
  simp only [takeClosingPage, step]
  rw [closeContinue, if_pos broken]

/-- R135: a page program of a close that failed ends it. -/
theorem takeClosingPage_failed {s : State} {se : Session} {c : CloseJob} {cmd : Instr}
    (gate : s.arbiter.gate = .inProgress cmd) (alone : radioAddr cmd ≠ broadcastAddr) :
    takeClosingPage se c false s
      = closedInvalid se cmd .storeFault (if c.step = .awaitingBuffer then se.received else 0) s := by
  cases step : c.step with
  | awaitingBuffer =>
    rw [takeClosingPage_broken step false nofun, closeInvalid_eq (s := setSession _ s) gate alone]
    rfl
  | lastPage =>
    simp only [takeClosingPage, step, Bool.false_eq_true, if_false, reduceCtorEq]
    exact closeInvalid_eq gate alone se .storeFault 0
  | header =>
    simp only [takeClosingPage, step, Bool.false_eq_true, if_false, reduceCtorEq]
    exact closeInvalid_eq gate alone se .storeFault 0

/-! ### The verification at the close -/

/-- R135: the IRT is judged at the close. -/
theorem closeVerifyIrt_decoded {s : State} {se : Session} {cmd : Instr} {h : IrtHeader}
    (gate : s.arbiter.gate = .inProgress cmd) (alone : radioAddr cmd ≠ broadcastAddr)
    (decoded : decodeIrtHeader (s.array.readBytes irtBase 9) = some h) :
    ((verifyIrt s.array h se.received).1 = .none →
      closeVerifyIrt se s = closedValid se cmd h.generation (validIrt h s))
    ∧ ((verifyIrt s.array h se.received).1 ≠ .none →
      closeVerifyIrt se s = closedInvalid se cmd (verifyIrt s.array h se.received).1
        (verifyIrt s.array h se.received).2 s) := by
  have header : decodeIrtHeader (headerBytes s.array .irt) = some h := decoded
  rw [closeVerifyIrt, header]
  dsimp only
  rcases verifyIrt s.array h se.received with ⟨k, i⟩
  refine ⟨fun good => ?_, fun bad => ?_⟩
  · dsimp only at good
    subst good
    exact closeValid_eq (s := validIrt h s) gate alone se h.generation
  · cases k <;> first | exact absurd rfl bad | exact closeInvalid_eq gate alone se _ i

/-- R86: the evaluation of the low flag, by the threshold in force. -/
theorem evaluateLow_threshold {s : State} {low : Bool} (threshold : decide (s.journal.freeSpace < (params s).journalLow) = low) :
    evaluateLow s = { s with
      journal := { s.journal with lowFlag := low }
      events := { s.events with latches := { s.events.latches with
        journalLow := if low = true ∧ s.journal.lowFlag = false then some s.journal.freeSpace
          else s.events.latches.journalLow } } } := by
  unfold evaluateLow
  cases low with
  | false =>
    rw [if_neg (of_decide_eq_false threshold), if_neg (by simp)]
    rfl
  | true =>
    rw [if_pos (of_decide_eq_true threshold)]
    cases flag : s.journal.lowFlag with
    | false => rfl
    | true =>
      have same : { s.journal with lowFlag := true } = s.journal := by rw [← flag]
      rw [same]
      rfl

/-- R137: the Profile is judged at the close. -/
theorem closeVerifyProfile_decoded {s : State} {se : Session} {cmd : Instr} {h : ProfileHeader}
    (gate : s.arbiter.gate = .inProgress cmd) (alone : radioAddr cmd ≠ broadcastAddr)
    (decoded : decodeProfileHeader (s.array.readBytes profileBase 8) = some h) :
    (checkValue (s.array.readBytes profileRecordAddr 21) = h.check →
      closeVerifyProfile se s = closeValid se h.generation (evaluateLow (validProfile h s)))
    ∧ (checkValue (s.array.readBytes profileRecordAddr 21) ≠ h.check →
      closeVerifyProfile se s = closedInvalid se cmd .readback 0 s) := by
  have header : (headerBytes s.array .profile).take 8 = s.array.readBytes profileBase 8 := by
    simp [headerBytes, Mem.readBytes, ← List.map_take, TableName.base]
  have record : profileRecordBytes s.array = s.array.readBytes profileRecordAddr 21 := rfl
  rw [closeVerifyProfile, header, decoded]
  dsimp only
  rw [profileReadsBack, record]
  refine ⟨fun same => ?_, fun differs => ?_⟩
  · rw [if_pos (beq_iff_eq.2 same)]
  · rw [if_neg (by simpa using differs)]
    exact closeInvalid_eq gate alone se .readback 0

/-- R137: the part once a close has ended with the Profile VALID. -/
theorem closeValid_profile {s : State} {se : Session} {cmd : Instr} {h : ProfileHeader} {low : Bool}
    (gate : s.arbiter.gate = .inProgress cmd) (alone : radioAddr cmd ≠ broadcastAddr)
    (threshold : decide (s.journal.freeSpace
      < (decodeProfile (s.array.readBytes profileRecordAddr 21)).journalLow) = low) :
    closeValid se h.generation (evaluateLow (validProfile h s)) = closedValid se cmd h.generation
      { validProfile h s with
        journal := { s.journal with lowFlag := low }
        events := { s.events with latches := { s.events.latches with
          journalLow := if low = true ∧ s.journal.lowFlag = false then some s.journal.freeSpace
            else s.events.latches.journalLow } } } := by
  rw [evaluateLow_threshold (s := validProfile h s) threshold, closeValid_eq (by exact gate) alone]
  rfl

/-- Settles O50. -/
theorem pageProgramMovesTheLoadOn : Obligations.PageProgramMovesTheLoadOn := by
  unfold Obligations.PageProgramMovesTheLoadOn
  refine ⟨irtPresent_spec, verifyIrt_iff, fun e s r running length page => ?_⟩
  intro ok array ended' faulted changed
  obtain ⟨programmed, unprogrammed⟩ := exec_pageProgramComplete (e := e) running length page
  have faults (t : State) (same : t.array = array) (store : t.store = (pageFailed s array).store)
      (events : t.events = (pageFailed s array).events) : faulted t := by
    refine ⟨same, congrArg Store.running store, congrArg Store.programFailures store, congrArg Store.storeFaults store,
      ?_⟩
    rw [events]
    exact raiseStoreFault_kind ..
  refine ⟨fun se good rows session => ?_, fun se bad rows session => ?_, fun x good draining => ?_,
    fun se c closing session close => ?_⟩
  · rw [programmed good, takePageResult_rows (s := ended s array) true rows session]
    rfl
  · have runs := unprogrammed bad
    rw [takePageResult_rows (s := failed s array) false rows session] at runs
    exact ⟨_, runs, changedOnly_trans (pageFailed_changedOnly s array) (setSession_changedOnly (se.programmed false) _)
      (by decide), faults _ rfl rfl rfl, rfl⟩
  · rw [programmed good, takePageResult_draining (s := ended s array) draining]
    rfl
  · intro headed' bodyDone sound
    have taken (good : ok = true) :
        exec (.pageProgramComplete e) s = .next (takeClosingPage se c true (ended s array)) :=
      (programmed good).trans (congrArg Host.Outcome.next
        (takePageResult_closing (s := ended s array) true closing session close))
    have body (done : bodyDone) : exec (.pageProgramComplete e) s =
        .next (closeHeader (se.programmed true) c (setSession (se.programmed true) (ended s array))) :=
      (taken done.1).trans (congrArg Host.Outcome.next (takeClosingPage_bodyDone done.2))
    have goesOn (done : bodyDone) (passed : preHeader se c = .none) :
        exec (.pageProgramComplete e) s = .next (headed se c (headerOf array se c) (ended s array)) :=
      (body done).trans (congrArg Host.Outcome.next (closeHeader_sound (s := ended s array) closing passed))
    refine ⟨fun done irt => ?_, fun done profile passed => ?_, fun cmd gate alone => ?_⟩
    · rw [goesOn done (preHeader_irt irt c), headerOf, irt]
      rfl
    · rw [goesOn done ((preHeader_profile profile c).1 passed), headerOf, profile]
      rfl
    · intro idle opened invalid
      have ends (k : Condition) (i : Nat) : closedInvalid se cmd k i (ended s array) = invalid k i := rfl
      refine ⟨fun done profile unsound => ?_, fun good step broken => ?_, fun bad => ?_,
        fun h good step irt decoded => ?_, fun h good step profile decoded => ?_⟩
      · have judged := (preHeader_profile profile c).2 unsound
        have refused : preHeader se c ≠ .none := by
          rw [judged]
          split <;> nofun
        rw [body done, closeHeader_unsound refused, closeInvalid_eq (s := setSession (se.programmed true) (ended s array)) gate alone, judged]
        rfl
      · have cause : (se.programmed true).broken.condition
            = if se.broken = .sequence then .sequence else .storeFault := condition_of_broken broken
        rw [taken good, takeClosingPage_broken step true broken, closeInvalid_eq (s := setSession (se.programmed true) (ended s array)) gate alone, cause]
        rfl
      · have runs := unprogrammed bad
        have fault : pageFault false (failed s array) = pageFailed s array := rfl
        rw [takePageResult_closing (s := failed s array) false closing session close, fault,
          takeClosingPage_failed (s := pageFailed s array) gate alone] at runs
        obtain ⟨state, generation⟩ := closedInvalid_table se cmd .storeFault
          (if c.step = .awaitingBuffer then se.received else 0) (pageFailed s array)
        exact ⟨_, runs, changedOnly_trans (pageFailed_changedOnly s array) (closedInvalid_changedOnly _ _ _ _ _) (by decide),
          faults _ rfl rfl rfl, rfl, state, generation, rfl⟩
      · intro judged
        have verifies : takeClosingPage se c true (ended s array) = closeVerifyIrt se (ended s array) := by
          simp only [takeClosingPage, step, if_true, closeVerify, irt]
        obtain ⟨valid, notValid⟩ := closeVerifyIrt_decoded (s := ended s array) (se := se) gate alone decoded
        refine ⟨fun passed => ?_, fun failed' => ?_⟩
        · rw [taken good, verifies, valid passed, closedValid, irt]
          rfl
        · rw [taken good, verifies, notValid failed']
          exact congrArg Host.Outcome.next (ends _ _)
      · intro record low
        have verifies : takeClosingPage se c true (ended s array) = closeVerifyProfile se (ended s array) := by
          simp only [takeClosingPage, step, if_true, closeVerify, profile]
        obtain ⟨valid, notValid⟩ := closeVerifyProfile_decoded (s := ended s array) (se := se) gate alone decoded
        refine ⟨fun same => ?_, fun differs => ?_⟩
        · have runs := taken good
          rw [verifies, valid same, closeValid_profile (s := ended s array) (low := low) gate alone rfl, closedValid,
            profile] at runs
          refine ⟨_, runs, ?_, rfl, rfl, rfl, rfl, rfl, rfl, rfl⟩
          intro p other
          cases p <;> first | exact absurd (by decide) other | rfl
        · rw [taken good, verifies, notValid differs]
          exact congrArg Host.Outcome.next (ends _ _)

end Sys2Proof.Proofs.PageProgram
end
